-- ==== Sys2Proof/Word.lean ====
section
/-! DEFINITION. The word types of the Nestra ND4 and the type of a table: data sizes (R6), registers (Table 1-9), sparse tables by number. -/

namespace Sys2Proof

/-- A byte (R6). -/
abbrev Byte := BitVec 8

/-- A quad, the width of an s-register and of a CSR (R6, Table 1-9). -/
abbrev Quad := BitVec 64

/-- The 128-bit encoded instruction (R6, R87). -/
abbrev InsnWord := BitVec 128

/-- A vector register of 512 bytes (R40). -/
abbrev VWord := BitVec 4096

/-- A predicate register of 1024 bits (R41). -/
abbrev PWord := BitVec 1024

/-- A sparse table by number, the numbers rising. What an unlisted number reads as is said where the table is read. -/
abbrev Tbl (α : Type) := List (Nat × α)

end Sys2Proof
end

