-- ==== Sys2Proof/Config.lean ====
section
/-! DEFINITION. The figures of the package (Table 0-1, files 01, 07, 09, 11, 13, 14), the 96 cause codes (Table 14-7) and what an implementation fixes: the free values. -/

namespace Sys2Proof

/-- The 96 cause codes, in the order of Table 14-7: the class is the high digit, the low digit counts within it. -/
inductive Cause where
  | opUndef | subUndef | privInsn | noMatrix | rsvdField | etyUndef | operandClass | operandIndex | vregAlign | immRange | backBranch | csrUndef | csrRo | callDepth | qUnderrun | pcAlign
  | addrNoncanon | addrAlign | scrAddrBad | scrOutOfPart | wsSpace | atomSpace | xlatInvalid | xlatPerm | xlatRsvd | xlatPaRange | xlatWalkSeal | regionUndef | memPoison | cxlDown | pinOverflow | homeUnreachable
  | sealTagFail | sealQuarantined | sealExhausted | sealRollback | sealTenant | sealKeyAbsent | sealRecordBad | sealWbFail | sealRecordUe | sealAnchorUe | sealEngineUe | keySlotUe | sealGenRoll | sealScrubUe | keyRevokedDirty | viewSpillLost
  | boxPoolEmpty | boxAxis | boxUnsplit | walkConflict | joinTerm | portUndef | portKind | portRange | viewSpace | capAbsent | capTarget | noFeatureCore | recordBad | ringPoison | ringEnd | ringClosed
  | engCardAlign | engCardBad | engTicketNone | engFootprint | engIndexRange | engPredFail | engCancelled | fwinUndef | fwinScaleShort | fwinScaleRsvd | fwinTagRsvd | ringBad | collAbort | collMismatch | engWsPoison | engWsEnd
  | arithTrap | userTrap | sliceBudget | launchBadPkt | launchBadCtx | launchBadBox | ruleDescBad | cohortSpace | ueDomain | uePartition | ueOccupancy | replayRefused | mxDescBad | dieLinkLost | ctxKilled | faultDelivery
  deriving DecidableEq, Repr

namespace Config

/-- Compute dies of a package (Table 0-1). -/
def dies : Nat := 4
/-- Compute cores per die (Table 1-1). -/
def coresPerDie : Nat := 128
/-- String cores per die (Table 1-1). -/
def stringsPerDie : Nat := 32
/-- Octets per package (R142). -/
def octets : Nat := 64
/-- Entries of a reply queue (R42). -/
def queueDepth : Nat := 16
/-- Depth to which `call` nests (R24, R132). -/
def callDepth : Nat := 8
/-- Engine tickets per core, and live replies per entry (R213, R214). -/
def tickets : Nat := 512
/-- Entries of a core's matrix queue (R277). -/
def mxQueue : Nat := 8
/-- Entries of a core's combining buffer (R205). -/
def combining : Nat := 16
/-- Rings of one core (R226). -/
def rings : Nat := 16
/-- Launches in progress per packet processor (R364). -/
def launchSlots : Nat := 16
/-- Entries of a die's notice queue (R380). -/
def noticeDepth : Nat := 2048
/-- Lines of a core's L1 data cache: 640 KiB (R315). -/
def l1Lines : Nat := 5120
/-- Lines of a die's remote-data cache: 32 MiB (R321). -/
def rdcLines : Nat := 262144
/-- Sets of an L2 slice (R317). -/
def l2Sets : Nat := 2048

/-- Ways of a set of an L2 slice (R317). -/
def l2Ways : Nat := 16
/-- Entries of a core's, an octet's and a die's translation cache (R324). -/
def tlbCore : Nat := 64
def tlbOctet : Nat := 1024
def tlbDie : Nat := 8192
/-- Records of a die's anchor store (R339). -/
def anchorRecords : Nat := 262144
/-- The fit budget of a rule that declares none (R154). -/
def fitBudget : Nat := 163840
/-- Bytes of scratchpad of one leaf slot (R312, R314). -/
def scratchQuarter : Nat := 0x40000
/-- Bytes of an image slot (R368). -/
def imageSlot : Nat := 0x90000

/-- The entry address that the header of the verified firmware image gives, per die: the spec gives no value, so it is a free value (Table 4-8, SV_VEC; log 7). -/
opaque firmwareEntry : Nat → Quad

/-- The root key of slot 0, derived from the device's secret in fuses: the spec gives no value, so it is a free value (R407; log 8). -/
opaque slot0Key : BitVec 256

/-- The fixed input of iteration i of the key derivation for (slot, generation, tenant): the spec names the KDF, the label "NXSL" and the context, and not their layout in octets, so it is a free value (R407; log 11). -/
opaque kdfInput : Nat → Nat → Nat → Nat → List Byte

/-- The quad at an offset of a die's telemetry block that holds these counts: the spec says what the block holds and not where, so it is a free value (R415; log 26). -/
opaque teleQuad : Nat → List Nat → Quad

/-- COUNT of a collective that ends without a fault: the spec gives no unit of it, so it is a free value of the card (R228; log 19). -/
opaque collCount : Nat → Nat

/-- Whether a granule of another package at an address that has been written since it was last resealed still holds dirty bytes when a job of this card reseals it, which this package does not see: a free value (R225; log 31). -/
opaque remoteDirty : Nat → Nat → Bool

/-- What `mxst` stores for the element of a row and a column beyond a tile that holds these rows, bit 32 its taint: the spec states none, so it is a free value of the operands (R280; log 18). -/
opaque tileOutside : List Nat → Nat → Nat → Quad

/-- A result the spec does not state, free at each use: the counter `State.free` is what it is applied to (log 3). -/
opaque freeValue : Nat → Quad

end Config

end Sys2Proof
end

