-- ==== Sys2Proof/Syntax.lean ====
section
/-! DEFINITION. The syntax of the ND4: element types (Table 3-5), operands (Table 3-2), the fields every instruction word has (Table 3-1), and `Instr` with one constructor per row of the opcode table. Rows without an encoding are the machine's events; their operands name the unit they happen to. -/

namespace Sys2Proof

/-- Element types, in the order of their ETY values (Table 3-5). -/
inductive Ety where
  | n4 | s4 | n8 | s8 | n16 | s16 | n32 | s32 | n64 | s64 | e4m3 | e5m2 | f16 | bf16 | f32 | e8m0
  deriving DecidableEq, Repr

/-- How a class-3 operand reads the immediate: sign-extended, zero-extended, shifted left 16 (R96). -/
inductive ImmKind where
  | sx | zx | hi
  deriving DecidableEq, Repr

/-- An operand field byte that Table 3-2 names. An unused field holds 0x00, which reads as `s 0` (R94). -/
inductive Opnd where
  | s (n : Fin 64) | v (n : Fin 32) | p (n : Fin 8) | q (n : Fin 16) | a (n : Fin 4) | b (n : Fin 8) | imm (k : ImmKind)
  deriving DecidableEq, Repr

/-- The guard fields (R90): two predicates, their negate bits, and the combine bit (false AND, true OR). -/
structure Guard where
  p1 : Fin 8
  neg1 : Bool
  p2 : Fin 8
  neg2 : Bool
  orr : Bool
  deriving DecidableEq, Repr

/-- Scheduling control (R103): it changes time only. -/
structure Ctl where
  indep : BitVec 5
  stall : BitVec 4
  yield : Bool
  deriving DecidableEq, Repr

/-- The fields of an instruction word besides OP and SUB (Table 3-1). `imm` is IMM48 whole, a modifier byte included (R97). -/
structure Args where
  guard : Guard
  ety : Ety
  d : Opnd
  a : Opnd
  b : Opnd
  c : Opnd
  e : Opnd
  imm : BitVec 48
  hint : BitVec 4
  ctl : Ctl
  deriving DecidableEq, Repr

/-- Compare conditions, in SUB order (Table 3-7); `cmp` has no `unord`. -/
inductive Cond where
  | eq | ne | lt | le | gt | ge | unord
  deriving DecidableEq, Repr

/-- Widening and narrowing factor: `.w2` or `.w4` (R249). -/
inductive Wid where
  | w2 | w4
  deriving DecidableEq, Repr

/-- Where an uncorrectable error is found (Table 14-9), with what the error leaves trusted (R391). -/
inductive UeSite where
  | l1 (core line : Nat) (owner dirtyOk : Bool)
  | l2 (line : Nat) (owner addr dirtyOk : Bool)
  | rdc (die line : Nat)
  | tlb (unit ctx page : Nat)
  | image (core ctx slot : Nat) (owner : Bool)
  | tileRow (core slot tile row : Nat) (owner : Bool)
  | scratch (core word : Nat)
  | combining (core pa : Nat) (owner : Bool)
  | mxEntry (core n : Nat) (owner : Bool)
  | job (core jid : Nat) (owner : Bool)
  | nest (die ctx : Nat) (owner : Bool)
  /-- A view chunk; numbers from 2^22 name the chunks of the prefix views, those from 2^23 the snapshot's. -/
  | view (ctx rec port chunk : Nat) (owner : Bool)
  | dcc (die : Nat)
  | sealRecord (pa : Nat)
  | anchor (pa : Nat)
  | keySlot (slot : Nat)
  | data (pa : Nat)
  | sealEngine (pa : Nat)
  deriving DecidableEq, Repr

/-- A request from another package over KiteLink (R401, R408). -/
inductive IngressReq where
  | read (pa tenant : Nat)
  | write (pa tenant : Nat) (value : BitVec 64)
  | atomAdd (pa tenant : Nat) (value : BitVec 64)
  | collJoin (tenant tag pkgIdx count op kind root group : Nat) (src : List (BitVec 32 × Bool))
  | collLeave (tenant tag : Nat)
  | residence (tenant : Nat) (resident : Bool)
  deriving DecidableEq, Repr

/-- The instructions and events of the opcode table, one constructor per row, in the table's order. -/
inductive Instr where
  /-- R119. Scalar integer add, wrapped to the element width. -/
  | add (x : Args)
  /-- R119. Scalar integer add with signed or natural saturation, setting SAT when clamped. -/
  | addSat (x : Args)
  /-- R119. Scalar integer subtract, wrapped. -/
  | sub (x : Args)
  /-- R119. Scalar integer subtract with saturation. -/
  | subSat (x : Args)
  /-- R119. Scalar multiply keeping the low k bits. -/
  | mul (x : Args)
  /-- R119. Scalar multiply returning the high half of the exact 2k-bit product. -/
  | mulHi (x : Args)
  /-- R120. Scalar division truncating toward zero, with DZ and OF corner cases. -/
  | div (x : Args)
  /-- R120. Scalar remainder with the sign of the dividend, DZ on division by zero. -/
  | rem (x : Args)
  /-- R119. Bitwise AND of the k-bit patterns. -/
  | and (x : Args)
  /-- R119. Bitwise OR of the k-bit patterns. -/
  | or (x : Args)
  /-- R119. Bitwise XOR of the k-bit patterns. -/
  | xor (x : Args)
  /-- R119. a AND NOT b. -/
  | andn (x : Args)
  /-- R119. a OR NOT b. -/
  | orn (x : Args)
  /-- R119. NOT (a XOR b). -/
  | xnor (x : Args)
  /-- R121. Shift left; a register count at or beyond k gives 0. -/
  | shl (x : Args)
  /-- R121. Logical shift right filling with zeros. -/
  | shr (x : Args)
  /-- R121. Arithmetic shift right filling with bit k-1. -/
  | sra (x : Args)
  /-- R121. Rotate left by the count modulo k. -/
  | rol (x : Args)
  /-- R121. Rotate right by the count modulo k. -/
  | ror (x : Args)
  /-- R119. Smaller of two operands by the signedness of the type. -/
  | min (x : Args)
  /-- R119. Larger of two operands by the signedness of the type. -/
  | max (x : Args)
  /-- R119. Count of leading zero bits of the k-bit pattern. -/
  | clz (x : Args)
  /-- R119. Count of trailing zero bits of the k-bit pattern. -/
  | ctz (x : Args)
  /-- R119. Count of one bits of the k-bit pattern. -/
  | popc (x : Args)
  /-- R119. Reverses the bytes of the k-bit pattern. -/
  | bswap (x : Args)
  /-- R122. Extracts a bit field given by POS and WID, optionally sign-extended. -/
  | bfx (x : Args)
  /-- R122. Inserts a bit field of A into the destination at POS and WID. -/
  | bfi (x : Args)
  /-- R123. Selects B or C by bit 0 of a predicate, carrying only the chosen operand's taint. -/
  | sel (x : Args)
  /-- R123. Moves a typed value into an s-register; from a reply queue it pops the oldest reservation, waiting until it is filled. -/
  | mov (x : Args)
  /-- R123. Computes A + (Ext(B) << n) + C modulo 2^64. -/
  | lea (x : Args)
  /-- R124. Integer compare by condition, writing bit 0 of a predicate and clearing the rest. -/
  | cmp (c : Cond) (x : Args)
  /-- R126. Scalar f32 add rounded once by RNE. -/
  | fadd (x : Args)
  /-- R126. Scalar f32 subtract rounded once. -/
  | fsub (x : Args)
  /-- R126. Scalar f32 multiply rounded once. -/
  | fmul (x : Args)
  /-- R126. Scalar fused multiply-add A*B+C with one rounding. -/
  | ffma (x : Args)
  /-- R126. Scalar fused C - A*B with one rounding. -/
  | ffnma (x : Args)
  /-- R127. Converts an f32 to the element type by the rounding mode. -/
  | fcvtTo (x : Args)
  /-- R127. Converts a value of the element type to f32. -/
  | fcvtFrom (x : Args)
  /-- R128. f32 compare by condition writing bit 0 of a predicate, with unordered handling. -/
  | fcmp (c : Cond) (x : Args)
  /-- R129. Bitwise AND of two 1024-bit predicates. -/
  | pand (x : Args)
  /-- R129. Bitwise OR of two predicates. -/
  | por (x : Args)
  /-- R129. Bitwise XOR of two predicates. -/
  | pxor (x : Args)
  /-- R129. pA AND NOT pB over all 1024 bits. -/
  | pandn (x : Args)
  /-- R129. Bitwise NOT of a predicate. -/
  | pnot (x : Args)
  /-- R130. Reads a 64-bit group of a predicate into an s-register. -/
  | prd (x : Args)
  /-- R130. Writes an s-register into a 64-bit group of a predicate. -/
  | pwr (x : Args)
  /-- R131. Forward branch by a word offset when the guard is active. -/
  | br (x : Args)
  /-- R132. Pushes PC+16 onto the call stack and branches forward, trapping at depth 8. -/
  | call (x : Args)
  /-- R132. Pops the call stack and continues there, trapping at depth 0. -/
  | ret (x : Args)
  /-- R133. Prefers another leaf context and is a stop point that suspends the leaf when a stop is pending. -/
  | yield (x : Args)
  /-- R134. Reads a CSR into sD, waiting for earlier flags when it names ARITH_FLAGS. -/
  | csrrd (x : Args)
  /-- R134. Writes sA to a CSR and returns the previous value. -/
  | csrwr (x : Args)
  /-- R134. ORs sA into a CSR and returns the previous value. -/
  | csrset (x : Args)
  /-- R134. Clears the bits of sA in a CSR and returns the previous value. -/
  | csrclr (x : Args)
  /-- R137. Waits for earlier flags including matrix jobs, then traps ARITH_TRAP if an enabled flag is set. -/
  | tfence (x : Args)
  /-- R138. Raises USER_TRAP with an 8-bit code, saving PC+16. -/
  | trap (x : Args)
  /-- R140. Returns from a supervisor trap to SV_EPC, restoring SV from PREV_SV. -/
  | eret (x : Args)
  /-- R145. Requests a stop of a context and waits until every leaf has suspended, returning a status. -/
  | ctxstop (x : Args)
  /-- R145. Reads the context descriptor and makes a bound or stopped context RUNNING. -/
  | ctxstart (x : Args)
  /-- R145. Kills a context, which enters DRAINING. -/
  | ctxkill (x : Args)
  /-- R145. Writes a stopped context's image and accumulator lines out and waits until they are out. -/
  | ctxevict (x : Args)
  /-- R145. Splits an idle current partition node into its two children. -/
  | partsplit (x : Args)
  /-- R145. Merges two idle current child partitions into their parent node. -/
  | partmerge (x : Args)
  /-- R145. Binds a context to a current partition, evicting its images when it was STOPPED. -/
  | partbind (x : Args)
  /-- R145. Sets a context's deadline and slice budget. -/
  | sliceset (x : Args)
  /-- R150. Halves the box by the canonical split, making the record a WAITING parent, pushing the right child and re-entering clean as the left child. -/
  | split (x : Args)
  /-- R153. Splits as split when the hardware decides, always on the reduce axis, and otherwise falls through. -/
  | fit (x : Args)
  /-- R156. Narrows the box to its first grain on an axis and marks it walk-active. -/
  | walk (x : Args)
  /-- R159. Ends the box with its views blank. -/
  | prune (x : Args)
  /-- R159. Adds sA to DROP_MAG and then ends the box as prune. -/
  | pruneMag (x : Args)
  /-- R157. Advances a walk to its next grain or ends the box. -/
  | done (x : Args)
  /-- R160. Ends the box failed and records the abort code at the root. -/
  | abort (x : Args)
  /-- R167. Writes a field of a port declaration or binding to sD. -/
  | port (x : Args)
  /-- R169. Converts an address in a view port's region to its address in the view aperture. -/
  | vwaddr (x : Args)
  /-- R173. Offers the writer capability of a port's region to another context and releases the region's stores. -/
  | capgive (x : Args)
  /-- R174. Waits for a pending offer of a region's capability, takes it and acquires the region. -/
  | captake (x : Args)
  /-- R186. Scalar load of 1 to 8 bytes, with optional acquire. -/
  | ld (x : Args)
  /-- R186. Scalar store of 1 to 8 bytes, with optional release and a capability check. -/
  | st (x : Args)
  /-- R189. Contiguous vector load, all or nothing with respect to faults. -/
  | vld (x : Args)
  /-- R189. Strided vector load. -/
  | vldStr (x : Args)
  /-- R189. Contiguous vector store of the active elements in increasing order. -/
  | vst (x : Args)
  /-- R189. Strided vector store. -/
  | vstStr (x : Args)
  /-- R189. Gathers elements from base plus shifted s32 indices. -/
  | vgath (x : Args)
  /-- R189. Scatters elements to base plus shifted s32 indices, the higher element winning. -/
  | vscat (x : Args)
  /-- R192. Requests the line holding EA into L1 and L2 or RDC, never faulting. -/
  | pref (x : Args)
  /-- R193. Writes the dirty bytes of the core's L1 lines in a range to their home. -/
  | clean (x : Args)
  /-- R193. Cleans and drops the L1 lines and drops the die's RDC lines of a range. -/
  | inval (x : Args)
  /-- R196. Waits while a scratchpad word is EMPTY, then reads it without consuming it. -/
  | ldw (x : Args)
  /-- R196. Waits while a scratchpad word is EMPTY, then reads it and sets it EMPTY when FULL. -/
  | ldc (x : Args)
  /-- R196. Waits while a scratchpad word is FULL, then writes it and sets it FULL. -/
  | stf (x : Args)
  /-- R196. Waits while a scratchpad word is FULL, then writes it and sets it END. -/
  | ste (x : Args)
  /-- R198. Sets a scratchpad word's state without waiting. -/
  | feSet (x : Args)
  /-- R198. Reads a scratchpad word's state and taint, tainting the result. -/
  | feRd (x : Args)
  /-- R201. Far atomic add at the home string core, returning the old value. -/
  | atomAdd (x : Args)
  /-- R201. Far atomic minimum at the home, returning the old value. -/
  | atomMin (x : Args)
  /-- R201. Far atomic maximum at the home, returning the old value. -/
  | atomMax (x : Args)
  /-- R201. Far atomic AND at the home. -/
  | atomAnd (x : Args)
  /-- R201. Far atomic OR at the home. -/
  | atomOr (x : Args)
  /-- R201. Far atomic XOR at the home. -/
  | atomXor (x : Args)
  /-- R201. Far atomic swap, tainting the home word. -/
  | atomSwap (x : Args)
  /-- R201. Far atomic compare-and-swap by bit pattern, tainting the home word. -/
  | atomCas (x : Args)
  /-- R204. Non-returning add reduction, possibly combined in the core's combining buffer. -/
  | redAdd (x : Args)
  /-- R204. Non-returning minimum reduction. -/
  | redMin (x : Args)
  /-- R204. Non-returning maximum reduction. -/
  | redMax (x : Args)
  /-- R204. Non-returning AND reduction. -/
  | redAnd (x : Args)
  /-- R204. Non-returning OR reduction. -/
  | redOr (x : Args)
  /-- R204. Non-returning XOR reduction. -/
  | redXor (x : Args)
  /-- R206. Performs an acquire, a release or both at a scope and flushes the combining buffer. -/
  | fence (x : Args)
  /-- R241. Element-wise vector add. -/
  | vadd (x : Args)
  /-- R241. Element-wise saturating integer add. -/
  | vaddSat (x : Args)
  /-- R241. Element-wise vector subtract. -/
  | vsub (x : Args)
  /-- R241. Element-wise saturating integer subtract. -/
  | vsubSat (x : Args)
  /-- R241. Element-wise multiply. -/
  | vmul (x : Args)
  /-- R241. Element-wise high half of the integer product. -/
  | vmulHi (x : Args)
  /-- R241. Element-wise fused a*b+c. -/
  | vfma (x : Args)
  /-- R241. Element-wise fused c-a*b. -/
  | vfnma (x : Args)
  /-- R241. Element-wise minimum. -/
  | vmin (x : Args)
  /-- R241. Element-wise maximum. -/
  | vmax (x : Args)
  /-- R241. Element-wise absolute value. -/
  | vabs (x : Args)
  /-- R241. Element-wise negation. -/
  | vneg (x : Args)
  /-- R243. Element-wise bitwise AND. -/
  | vand (x : Args)
  /-- R243. Element-wise bitwise OR. -/
  | vor (x : Args)
  /-- R243. Element-wise bitwise XOR. -/
  | vxor (x : Args)
  /-- R243. Element-wise a AND NOT b. -/
  | vandn (x : Args)
  /-- R244. Element-wise shift left. -/
  | vshl (x : Args)
  /-- R244. Element-wise logical shift right. -/
  | vshr (x : Args)
  /-- R244. Element-wise arithmetic shift right. -/
  | vsra (x : Args)
  /-- R245. Element-wise compare writing a predicate, inactive elements writing 0. -/
  | vcmp (c : Cond) (x : Args)
  /-- R246. Element-wise select between B and C by a predicate. -/
  | vsel (x : Args)
  /-- R248. Converts elements between types of equal width. -/
  | vcvt (x : Args)
  /-- R249. Widens elements by 2 or 4 into a register group. -/
  | vwid (k : Wid) (x : Args)
  /-- R250. Narrows a register group of 2 or 4 into one register. -/
  | vnar (k : Wid) (x : Args)
  /-- R251. Tree reduction add of the lanes into an s-register. -/
  | vredAdd (x : Args)
  /-- R251. Tree reduction minimum of the lanes. -/
  | vredMin (x : Args)
  /-- R251. Tree reduction maximum of the lanes. -/
  | vredMax (x : Args)
  /-- R251. Tree reduction AND of the lanes. -/
  | vredAnd (x : Args)
  /-- R251. Tree reduction OR of the lanes. -/
  | vredOr (x : Args)
  /-- R251. Tree reduction XOR of the lanes. -/
  | vredXor (x : Args)
  /-- R253. Permutes elements by an index vector. -/
  | vperm (x : Args)
  /-- R254. Zips, unzips, slides, reverses or repeats elements by a control word. -/
  | vshuf (x : Args)
  /-- R255. Packs active elements to the low positions and zeros the rest. -/
  | vcompress (x : Args)
  /-- R255. Spreads consecutive elements to the active positions. -/
  | vexpand (x : Args)
  /-- R256. Broadcasts a scalar to every active element. -/
  | vbcast (x : Args)
  /-- R257. Multiplies 8x8 bit matrices over GF(2) per 64-bit element. -/
  | vbmm8 (x : Args)
  /-- R258. Deposits bits under a mask per 64-bit element. -/
  | vpdep (x : Args)
  /-- R258. Extracts bits under a mask per 64-bit element. -/
  | vpext (x : Args)
  /-- R259. Applies one bit permutation to every 64-bit element. -/
  | vbperm (x : Args)
  /-- R260. Zeros elements at or below a threshold and sums their dropped magnitude. -/
  | vthz (x : Args)
  /-- R261. Quantises blocks of 32 floats to integers with scale words. -/
  | vqblk (x : Args)
  /-- R262. Dequantises integer blocks with their scale words to floats. -/
  | vdqblk (x : Args)
  /-- R263. Stores a register in plane layout. -/
  | vstp (x : Args)
  /-- R263. Loads plane layout and rebuilds the integer elements. -/
  | vldp (x : Args)
  /-- R264. Element-wise 2^x rounded to nearest. -/
  | vexp2 (x : Args)
  /-- R264. Element-wise log2 x. -/
  | vlog2 (x : Args)
  /-- R264. Element-wise reciprocal. -/
  | vrcp (x : Args)
  /-- R264. Element-wise reciprocal square root. -/
  | vrsq (x : Args)
  /-- R264. Element-wise hyperbolic tangent. -/
  | vtanh (x : Args)
  /-- R256. Reads one vector element into an s-register. -/
  | vget (x : Args)
  /-- R256. Writes a scalar into one vector element. -/
  | vset (x : Args)
  /-- R272. Checks the operand descriptors and enqueues a matrix job on a tile. -/
  | mxmul (x : Args)
  /-- R279. Reads one tile row into a vector register after waiting for jobs on the tile. -/
  | mxrd (x : Args)
  /-- R279. Writes a vector register into one tile row after waiting for jobs on the tile. -/
  | mxwr (x : Args)
  /-- R280. Stores part of a tile to memory with conversion. -/
  | mxst (x : Args)
  /-- R278. Waits until every matrix job of the leaf is complete, taking a pending deferred fault. -/
  | mxwait (x : Args)
  /-- R221. Issues a job that copies rows of bytes. -/
  | engCopy (x : Args)
  /-- R222. Issues a job that gathers table elements through an index list. -/
  | engGath (x : Args)
  /-- R222. Issues a job that scatters elements into a table through an index list. -/
  | engScat (x : Args)
  /-- R223. Issues a window-map job filling runs from a source window or a fill byte. -/
  | engWin (x : Args)
  /-- R224. Issues a job decoding rows through a format window into plane layout. -/
  | engDec (x : Args)
  /-- R225. Issues a job that writes back and reseals the granules of a range. -/
  | engSeal (x : Args)
  /-- R226. Issues a job that declares or attaches to a scratchpad ring. -/
  | engRing (x : Args)
  /-- R228. Issues a KiteLink collective among the packages of a group. -/
  | engColl (x : Args)
  /-- R229. Waits for a job or all jobs of the entry, acquires their writes and returns a reply. -/
  | engWait (x : Args)
  /-- R230. Returns the current reply of a live job without waiting, tainted. -/
  | engStat (x : Args)
  /-- R215. An accepted engine job whose predecessor count reaches zero starts. Operands: engine job `jid` of core `core`. -/
  | engJobStart (core jid : Nat)
  /-- R217. A job with WS set writes a scratchpad destination word once it becomes EMPTY. Operands: the next scratchpad word of job `jid`. -/
  | engWsWordWrite (core jid : Nat)
  /-- R215. An engine job completes, writes its reply, frees its ticket and releases or fails its successors. Operands: engine job `jid` of core `core`. -/
  | engJobComplete (core jid : Nat)
  /-- R228. A collective starts once every member has issued it and every member package reports the tenant resident. Operands: the collective of that tenant and rendezvous tag. -/
  | collStart (tenant tag : Nat)
  /-- R284. The arbiter runs one tile step of a ready head job, promoting its groups into the tile. Operands: the matrix unit of package octet `octet`. -/
  | mxTileStep (octet : Nat)
  /-- R282. With a stop pending the matrix unit finishes the tile step and parks the context's queued jobs. Operands: the matrix queue of core `core`. -/
  | mxJobPark (core : Nat)
  /-- R201. The atomic handler thread performs an atom at its home and replies. Operands: the atomic handler of string core `home` (die * 32 + number). -/
  | atomHomeStep (home : Nat)
  /-- R431. A reduction entry reaches its home and is performed, or is dropped with a kill on a home fault. Operands: the combining-buffer entry of core `core` for the word at `pa`. -/
  | redHomeStep (core pa : Nat)
  /-- R197. A word-state message reaches another core's scratchpad word and is performed or waits there. Operands: the word-state message number `msg`. -/
  | remoteWsOp (msg : Nat)
  /-- R197. A cancellation reaches a target word and cancels an operation still waiting there. Operands: the cancellation of message `msg`. -/
  | remoteWsCancel (msg : Nat)
  /-- R357. A stale notice arrives at a die and marks its RDC copy STALE. Operands: the notice for the copy of line `line` (PA / 128) at die `die`. -/
  | staleNotice (die line : Nat)
  /-- R161. The Jigsaw units merge a completed pair's views into the parent as left and right by side. Operands: the merge into parent record `rec`. -/
  | jigsawMerge (ctx rec : Nat)
  /-- R366. Once every ticket of the context has drained, the completion status is written with a sys release. Operands: the launch in progress of context `ctx`. -/
  | launchStatusWrite (ctx : Nat)
  /-- R374. The Nest fills a free leaf slot with a suspended, joining or ready record and starts or resumes it. Operands: leaf slot `slot` of core `core`. -/
  | recordPickup (core slot : Nat)
  /-- R370. A scheduling decision picks the ready context with the earliest deadline for a partition, making a stop pending for a pre-empted holder. Operands: the partition `node`. -/
  | schedDecision (node : Nat)
  /-- R371. The holder's remaining budget reaches zero and a stop becomes pending. Operands: the holder `ctx`. -/
  | budgetExhausted (ctx : Nat)
  /-- R371. Leaves still running 1,500 cycles after a stop became pending are suspended at their next instruction boundary. Operands: the context whose stop is pending. -/
  | stopForceSuspend (ctx : Nat)
  /-- R376. Every leaf has suspended; ready records go to the ready list and the stop completes, trapping SLICE_BUDGET when the budget ran out. Operands: the context whose stop is pending. -/
  | stopComplete (ctx : Nat)
  /-- R362. The queue owner writes WRIDX, notifying the packet processor. Operands: user queue `queue` of die `die`. -/
  | queueWridxWrite (die queue : Nat) (value : BitVec 64)
  /-- R361. Writing 1 to QCTL.ERR skips the halted packet and resumes service. Operands: user queue `queue` of die `die`. -/
  | qctlErrSkip (die queue : Nat)
  /-- R365. The packet processor takes an eligible head packet, checks it and starts a launch or writes a marker status. Operands: the head packet of that queue. -/
  | packetServe (die queue : Nat)
  /-- R380. A notice is posted to a die's notice queue, waiting for room when it is full. Operands: the oldest posting that waits for room at die `die`. -/
  | noticePost (die : Nat)
  /-- R381. The die control core pops the oldest notice and traps to SV_VEC. Operands: the die control core of die `die`. -/
  | noticeTrap (die : Nat)
  /-- R382. A FRESOLVE write with ACT 0 returns a faulted record to run or restarts its merge. Operands: the FRESOLVE write of die control core `die`. -/
  | fresolveRetry (die ctx rec : Nat)
  /-- R382. A FRESOLVE write with ACT 1 ends the launch failed and discards the faulted records. Operands: the FRESOLVE write of die control core `die`. -/
  | fresolveFail (die ctx rec : Nat)
  /-- R391. An uncorrectable error in an entry is contained by dropping it and killing its owners or the bitmap's contexts. Operands: the entry with the error. -/
  | ueDetected (site : UeSite)
  /-- R394. When the context's in-flight counts reach zero its dirty lines are written back, the status written and the id freed. Operands: the draining context. -/
  | drainComplete (ctx : Nat)
  /-- R396. A core logic error replays a replayable leaf from its snapshot or kills the context with REPLAY_REFUSED. Operands: the leaf slot whose result check failed. -/
  | coreLogicError (core slot : Nat)
  /-- R395. A soft error found in a string core's uncommitted unit re-executes that unit. Operands: the string core. -/
  | stringSoftError (core : Nat)
  /-- R395. A flit received with a CRC error is replayed by its link layer. Operands: the link (telemetry number). -/
  | linkCrcReplay (link : Nat)
  /-- R398. A die link fails retraining and contexts continue on reachable dies, are replayed there or are killed. Operands: the link between dies `a` and `b`. -/
  | dieLinkLost (a b : Nat)
  /-- R331. A home string core reads and verifies a granule's record and ciphertext and installs its lines or fails the fill. Operands: the granule at `pa`, filled for key slot `slot`. -/
  | granuleFill (pa slot : Nat) (g512 anchor : Bool)
  /-- R332. A dirty granule is resealed and written back on replacement, eng.seal or eviction. Operands: the granule of the dirty line at `pa`. -/
  | granuleWriteback (pa : Nat)
  /-- R414. Patrol scrub checks a granule under ECC, repairing or quarantining it. Operands: the granule at `pa`. -/
  | patrolScrub (pa : Nat) (uncorrectable : Bool)
  /-- R413. An LPDDR-6 channel pauses for retraining of at most 2 us. Operands: LPDDR-6 channel. -/
  | channelRetrain (channel : Nat)
  /-- R406. A CXL port or expander goes down and its range faults CXL_DOWN. Operands: the CXL port of die `die`. -/
  | cxlLinkDown (die : Nat)
  /-- R404. A host CXL.mem read is served at its home under the function's key slot. Operands: one quad at `pa` for host function `fn`. -/
  | hostCxlmemRead (fn pa : Nat)
  /-- R404. A host CXL.mem write is performed at its home under the function's key slot. Operands: one quad at `pa` from host function `fn`. -/
  | hostCxlmemWrite (fn pa : Nat) (value : BitVec 64)
  /-- R403. A host link module fails retraining and is removed. Operands: the host link module. -/
  | hostModuleDegrade (module : Nat)
  /-- R325. A write of the translation invalidate register drops one context's translations of a 64 KiB range. Operands: context `ctx`, VA[47:16] = `va`. -/
  | tlbInvalRange (die ctx va : Nat)
  /-- R325. A write with bit 10 set drops every translation of a context. Operands: context `ctx`. -/
  | tlbInvalContext (die ctx : Nat)
  /-- R325. A write with bit 11 set drops the translations of every context. Operands: every context. -/
  | tlbInvalAll (die : Nat)
  /-- R342. A write to a format-window register drops every line of its aperture before taking effect. Operands: register `reg` (offset / 8) of window `win` of string core `sc`. -/
  | fwinRegWrite (die sc win reg : Nat) (value : BitVec 64)
  /-- R402. A write of ATCTL sets LOCK or clears VVALID and VCOUNT. Operands: the access table `target`. -/
  | atctlWrite (target : Nat) (value : BitVec 64)
  /-- R407. Key store command 1 loads a slot's root key from KS_KEY. Operands: the selected slot, once KS_CMD has been written. -/
  | ksLoad
  /-- R407. Key store command 2 clears a slot's key. Operands: the selected slot, once KS_CMD has been written. -/
  | ksClear
  /-- R407. Key store command 3 verifies and reseals a range under a new slot at GEN 0 and CTR 0. Operands: the selected range, once KS_CMD has been written. -/
  | ksReseal
  /-- R407. A write of KS_RDATA sets a granule's seal record at its home, and its anchor record when anchored. Operands: the record of KS_RADDR. -/
  | ksRdataWrite (value : BitVec 128)
  /-- R429. In test mode a write inverts bits of a granule's stored ciphertext or TAG and drops its lines. Operands: the KS_TAMPER quad. -/
  | ksTamper (value : BitVec 64)
  /-- R408. A write of KL_CTL retrain retrains a KiteLink port, exchanging package indices. Operands: KiteLink port `port`; the peer index and whether training succeeded come from outside. -/
  | klRetrain (port peer : Nat) (trained : Bool)
  /-- R408. A KiteLink port failing retraining drops out of routing. Operands: KiteLink port `port`. -/
  | klPortDown (port : Nat)
  /-- R411. After reset a die completes a boot stage and records it in DIE_STAT. Operands: the stage die `die` is in; whether its work succeeded comes from outside. -/
  | bootStage (die : Nat) (good : Bool)
  /-- R411. Package reset starts every die at boot stage 0. Operands: the package. -/
  | packageReset
  /-- R416. The package lowers or raises the arithmetic clock to stay within the power caps. Operands: the clock step in sixteenths. -/
  | powerThrottle (step : Nat)
  /-- R418. A die above 105 C lowers the clock and sets THR_STAT bit 9. Operands: the die above 105 degrees and the clock step. -/
  | thermalThrottle (die step : Nat)
  /-- R418. Above 125 C or on loss of coolant flow the package removes its own power within 1 ms. Operands: the die above 125 degrees. -/
  | thermalCritical (die : Nat)
  /-- R399. A write to a control-space register that has no row of its own. Operands: the quad of control space at `addr`. -/
  | ctrlRegWrite (addr : Nat) (value : BitVec 64)
  /-- R401. A request from another package of the pod arrives over KiteLink at this package's home and is checked against the target's access table, then served or refused. Operands: the originating package and its request. -/
  | kitelinkIngressRequest (pkg : Nat) (req : IngressReq)
  deriving DecidableEq, Repr

end Sys2Proof
end

