-- ==== Sys2Proof/Machine/Bits.lean ====
section
/-! DEFINITION. Bit fields, two's complement, byte order and packed elements (R5, R40, R53), and the tables by number that the state is made of. -/

namespace Sys2Proof

/-- Bits [lo + n - 1 : lo] of a natural number. -/
def field (x lo n : Nat) : Nat := (x >>> lo) % 2 ^ n

/-- The signed value of a k-bit pattern (R53). -/
def toS (k x : Nat) : Int := if x < 2 ^ (k - 1) then (x : Int) else (x : Int) - 2 ^ k

/-- The low k bits of an exact integer (R54). -/
def narrow (k : Nat) (z : Int) : Nat := (z % 2 ^ k).toNat

/-- A k-bit pattern sign-extended to a quad (R115). -/
def sextQ (k x : Nat) : Quad := BitVec.ofNat 64 (narrow 64 (toS k x))

/-- Ceiling division (R17). -/
def ceilDiv (a b : Nat) : Nat := (a + b - 1) / b

/-- The number of one bits of the low n bits of x. -/
def popcount (n x : Nat) : Nat := ((List.range n).filter (fun i => x.testBit i)).length

/-- floor(log2 x), 0 for 0. -/
def ilog2 (x : Nat) : Nat := x.log2

/-- The largest power of two strictly below n, for n at least 2 (R18). -/
def largestPow2Below (n : Nat) : Nat := 2 ^ ilog2 (n - 1)

/-- Element i of width w of a packed pattern (R40). -/
def elem (w i x : Nat) : Nat := (x >>> (w * i)) % 2 ^ w

/-- Elements of width w packed, element 0 lowest (R40). -/
def packElems (w : Nat) : List Nat → Nat
  | [] => 0
  | x :: xs => x % 2 ^ w + 2 ^ w * packElems w xs

/-- A little-endian list of bytes as a natural number (R5). -/
def ofBytes : List Byte → Nat
  | [] => 0
  | b :: bs => b.toNat + 256 * ofBytes bs

/-- The n low bytes of a natural number, little-endian (R5). -/
def toBytes : Nat → Nat → List Byte
  | 0, _ => []
  | n + 1, x => BitVec.ofNat 8 x :: toBytes n (x / 256)

/-- A mask of n ones from bit lo. -/
def ones (lo n : Nat) : Nat := (2 ^ n - 1) <<< lo

/-- The bits i < n for which f holds, as a number. -/
def bitsOf (n : Nat) (f : Nat → Bool) : Nat := packElems 1 ((List.range n).map fun i => if f i then 1 else 0)

/-- Entry k of a table. -/
def tfind {α : Type} : Tbl α → Nat → Option α
  | [], _ => none
  | (j, a) :: t, k => if j = k then some a else tfind t k

/-- Entry k of a table whose unlisted entries read as d. -/
def tget {α : Type} (d : α) (t : Tbl α) (k : Nat) : α := (tfind t k).getD d

/-- The table with entry k set, the numbers rising. -/
def tset {α : Type} : Tbl α → Nat → α → Tbl α
  | [], k, v => [(k, v)]
  | (j, a) :: t, k, v =>
    if j = k then (k, v) :: t
    else if k < j then (k, v) :: (j, a) :: t
    else (j, a) :: tset t k v

/-- The table without entry k. -/
def terase {α : Type} (t : Tbl α) (k : Nat) : Tbl α := t.filter fun e => e.1 != k

/-- The table with a function applied to every entry. -/
def tmap {α : Type} (f : Nat → α → α) (t : Tbl α) : Tbl α := t.map fun e => (e.1, f e.1 e.2)

/-- The cells of consecutive bytes from address a, those that read as an unlisted address (0) left out. -/
def cellsFrom : Nat → List Byte → List Host.Cell
  | _, [] => []
  | a, b :: bs => if b = 0 then cellsFrom (a + 1) bs else (a, b) :: cellsFrom (a + 1) bs

/-- One byte of a memory; an unlisted address reads as 0. -/
def readByte (m : List Host.Cell) (a : Nat) : Byte := tget 0 m a

/-- n bytes of a memory from address a. -/
def readBytes (m : List Host.Cell) (a n : Nat) : List Byte :=
  let near := m.filter fun c => a ≤ c.1 && c.1 < a + n
  (List.range n).map fun i => readByte near (a + i)

/-- The memory with the bytes written from address a; the canonical form is kept. -/
def writeBytes (m : List Host.Cell) (a : Nat) (bs : List Byte) : List Host.Cell :=
  m.filter (fun c => c.1 < a) ++ cellsFrom a bs ++ m.filter (fun c => a + bs.length ≤ c.1)

/-- The first of a list of candidates that satisfies p. -/
def firstNat (n : Nat) (p : Nat → Bool) : Option Nat := (List.range n).find? p

/-- Left to right with early exit: the first number below n for which f answers. -/
def firstSome {α : Type} : List Nat → (Nat → Option α) → Option α
  | [], _ => none
  | i :: is, f => match f i with
    | some a => some a
    | none => firstSome is f

end Sys2Proof
end

