-- ==== Sys2Proof/Machine/Forms.lean ====
section
/-! DEFINITION. The forms of the instructions: which operand classes, element types, hints and immediate fields each (OP, SUB) takes (Tables 3-7, 4-1, 4-4, 4-9, 5-1, 6-5, 6-7, 6-10, 6-14, 7-1, 8-2, 9-2), and the checks of R107 that depend on them. -/

namespace Sys2Proof

/-- What an operand position accepts: an s-register, s1-s63, a vector register, p0-p7, p1-p7, a reply queue, a tile, a bound register, a class-3 immediate, an output predicate or 0x00 (R94, R195, R208). -/
inductive Cls where
  | s | s1 | v | p | pd | q | a | b | i | outp
  deriving DecidableEq, Repr

/-- The form of one (OP, SUB). An empty list marks an unused operand field; `ety = []` a reserved ETY field (R100). `mod` says that IMM48[47:40] is a modifier byte (R97). -/
structure Form where
  ety : List Nat
  d : List Cls
  a : List Cls
  b : List Cls
  c : List Cls
  e : List Cls
  mod : Bool
  hint : Bool
  deriving DecidableEq, Repr

/-- ETY values of the scalar integer instructions (R101). -/
def etyInt : List Nat := [2, 3, 4, 5, 6, 7, 8, 9]
/-- ETY values 0 to 15. -/
def etyAll : List Nat := [0, 1, 2, 3, 4, 5, 6, 7, 8, 9, 10, 11, 12, 13, 14, 15]
/-- Element types of vector arithmetic: 0-7 and 12-14 (Table 8-2). -/
def etyArith : List Nat := [0, 1, 2, 3, 4, 5, 6, 7, 12, 13, 14]
/-- ETY 2 to 15. -/
def etyByte : List Nat := [2, 3, 4, 5, 6, 7, 8, 9, 10, 11, 12, 13, 14, 15]
/-- A vector position that broadcasts (R235). -/
def clsX : List Cls := [.v, .s, .b, .i]

/-- OP assigned in Table 3-7 (R104). -/
def opAssigned (op : Nat) : Bool :=
  op ≤ 0x0C || (0x10 ≤ op && op ≤ 0x1B) || (0x20 ≤ op && op ≤ 0x29) || (0x30 ≤ op && op ≤ 0x3D)
  || (0x40 ≤ op && op ≤ 0x42) || (0x50 ≤ op && op ≤ 0x6D) || (0x70 ≤ op && op ≤ 0x74) || op == 0x78
  || (0x7C ≤ op && op ≤ 0x7F)

/-- The scalar forms: OP 0x00 to 0x1B (Tables 4-1, 4-4; R129-R134). -/
def formScalar (op sub : Nat) : Option Form :=
  let i3 : Form := ⟨etyInt, [.s], [.s, .b], [.s, .b, .i], [], [], false, false⟩
  let f3 : Form := ⟨[14], [.s], [.s], [.s, .i], [], [], true, false⟩
  let none5 : Form := ⟨[], [], [], [], [], [], false, false⟩
  match op with
  | 0x00 | 0x01 | 0x02 | 0x03 | 0x06 => if sub ≤ 1 then some i3 else none
  | 0x04 => if sub ≤ 5 then some i3 else none
  | 0x05 => if sub ≤ 4 then some i3 else none
  | 0x07 => if sub ≤ 3 then some { i3 with b := [] } else none
  | 0x08 => if sub ≤ 1 then some i3 else none
  | 0x09 => if sub = 0 then some { i3 with a := [.p], c := [.s, .b, .i] } else none
  | 0x0A => if sub = 0 then some { i3 with a := [.s, .b, .q, .i], b := [] } else none
  | 0x0B => if sub = 0 then some { i3 with b := [.s, .b], c := [.s, .i], mod := true } else none
  | 0x0C => if sub ≤ 5 then some { i3 with d := [.pd] } else none
  | 0x10 => if sub ≤ 1 then some f3 else none
  | 0x11 => if sub = 0 then some f3 else none
  | 0x12 => if sub ≤ 1 then some { f3 with c := [.s, .i] } else none
  | 0x13 =>
    if sub = 0 then some { f3 with ety := [2, 3, 4, 5, 6, 7, 8, 9, 10, 11, 12, 13], b := [] }
    else if sub = 1 then some { f3 with ety := [2, 3, 4, 5, 6, 7, 8, 9, 10, 11, 12, 13, 15], b := [] }
    else none
  | 0x14 => if sub ≤ 6 then some { f3 with d := [.pd] } else none
  | 0x15 =>
    if sub ≤ 3 then some { none5 with d := [.pd], a := [.p], b := [.p] }
    else if sub = 4 then some { none5 with d := [.pd], a := [.p] } else none
  | 0x16 =>
    if sub = 0 then some { none5 with d := [.s], a := [.p], b := [.s, .i] }
    else if sub = 1 then some { none5 with d := [.pd], a := [.s], b := [.s, .i] } else none
  | 0x17 | 0x18 | 0x19 | 0x1A => if sub = 0 then some none5 else none
  | 0x1B =>
    if sub = 0 then some { none5 with d := [.s] }
    else if sub ≤ 3 then some { none5 with d := [.s], a := [.s] } else none
  | _ => none

/-- The box, view, capability, memory and engine forms (Tables 5-1, 6-5, 6-7, 6-10, 6-14, 7-1). -/
def formMemory (op sub : Nat) : Option Form :=
  let z : Form := ⟨[], [], [], [], [], [], true, false⟩
  let at0 : Form := ⟨[6, 7, 8, 9, 14], [.s], [.s], [.s, .i], [.s, .i], [], true, true⟩
  let eng : Form := ⟨[], [.s1, .q], [.s], [.s, .i], [], [], true, true⟩
  match op with
  | 0x20 | 0x21 | 0x22 | 0x24 | 0x25 => if sub = 0 then some { z with mod := false } else none
  | 0x23 =>
    if sub = 0 then some { z with mod := false } else if sub = 1 then some { z with a := [.s], mod := false } else none
  | 0x26 => if sub = 0 then some { z with d := [.s] } else none
  | 0x27 => if sub = 0 then some { z with d := [.s], a := [.s, .i] } else none
  | 0x28 => if sub = 0 then some { z with a := [.s, .i] } else none
  | 0x29 => if sub = 0 then some z else none
  | 0x30 => if sub = 0 then some ⟨etyByte, [.s], [.s], [.s, .i], [], [], true, true⟩ else none
  | 0x31 => if sub = 0 then some ⟨etyByte, [], [.s], [.s, .i], [.s], [], true, true⟩ else none
  | 0x32 =>
    if sub = 0 then some ⟨etyAll, [.v], [.s], [.s, .i], [], [], true, true⟩
    else if sub = 1 then some ⟨etyByte, [.v], [.s], [.s, .i], [], [], true, true⟩ else none
  | 0x33 =>
    if sub = 0 then some ⟨etyAll, [], [.s], [.s, .i], [.v], [], true, true⟩
    else if sub = 1 then some ⟨etyByte, [], [.s], [.s, .i], [.v], [], true, true⟩ else none
  | 0x34 => if sub = 0 then some ⟨etyByte, [.v], [.s], [.v], [], [], true, true⟩ else none
  | 0x35 => if sub = 0 then some ⟨etyByte, [], [.s], [.v], [.v], [], true, true⟩ else none
  | 0x36 | 0x37 | 0x38 => if sub = 0 then some { z with a := [.s], b := [.s, .i], hint := true } else none
  | 0x39 | 0x3A => if sub = 0 then some ⟨[6, 7, 14], [.s], [.s], [.s, .i], [.outp], [.outp], true, false⟩ else none
  | 0x3B | 0x3C => if sub = 0 then some ⟨[6, 7, 14], [.outp], [.s], [.s, .i], [.s], [.outp], true, false⟩ else none
  | 0x3D =>
    if sub = 0 then some { z with a := [.s], b := [.s, .i] }
    else if sub = 1 then some { z with d := [.s], a := [.s], b := [.s, .i] } else none
  | 0x40 =>
    if sub ≤ 2 || sub = 6 then some at0
    else if sub ≤ 5 then some { at0 with ety := [6, 7, 8, 9] }
    else if sub = 7 then some { at0 with e := [.s, .i] } else none
  | 0x41 =>
    if sub ≤ 2 then some { at0 with d := [] }
    else if sub ≤ 5 then some { at0 with d := [], ety := [6, 7, 8, 9] } else none
  | 0x42 => if sub = 0 then some z else none
  | 0x78 =>
    if sub ≤ 7 then some eng
    else if sub ≤ 9 then some { eng with d := [.s1], a := [.s, .i], b := [] } else none
  | _ => none

/-- The vector, matrix and system forms (Tables 8-2, 9-2, 4-9; R137-R140). -/
def formVector (op sub : Nat) : Option Form :=
  let v3 : Form := ⟨etyArith, [.v], [.v], clsX, [], [], true, false⟩
  let z : Form := ⟨[], [], [], [], [], [], false, false⟩
  match op with
  | 0x50 | 0x51 | 0x52 =>
    if sub = 0 then some v3 else if sub = 1 then some { v3 with ety := [0, 1, 2, 3, 4, 5, 6, 7] } else none
  | 0x53 => if sub ≤ 1 then some { v3 with c := clsX } else none
  | 0x54 => if sub ≤ 1 then some v3 else none
  | 0x55 => if sub ≤ 1 then some { v3 with b := [] } else none
  | 0x56 => if sub ≤ 3 then some { v3 with ety := etyAll } else none
  | 0x57 => if sub ≤ 2 then some { v3 with ety := [0, 1, 2, 3, 4, 5, 6, 7, 8, 9] } else none
  | 0x58 =>
    if sub ≤ 5 then some { v3 with d := [.pd] }
    else if sub = 6 then some { v3 with d := [.pd], ety := [12, 13, 14] } else none
  | 0x59 => if sub = 0 then some { v3 with ety := etyAll, a := [.p], c := clsX } else none
  | 0x5A => if sub = 0 then some { v3 with ety := [0, 1, 2, 3, 4, 5, 6, 7, 8, 9, 10, 11, 12, 13, 14], b := [] } else none
  | 0x5B => if sub ≤ 1 then some { v3 with ety := [2, 3, 4, 5, 6, 7, 12, 13, 14], b := [] } else none
  | 0x5C => if sub ≤ 1 then some { v3 with ety := [0, 1, 2, 3, 4, 5, 6, 7, 10, 11, 12, 13], b := [] } else none
  | 0x5D =>
    if sub ≤ 2 then some { v3 with d := [.s], b := [] }
    else if sub ≤ 5 then some { v3 with d := [.s], b := [], ety := [0, 1, 2, 3, 4, 5, 6, 7, 8, 9] } else none
  | 0x5E => if sub = 0 then some { v3 with ety := [4, 5, 6, 7, 8, 9, 12, 13], b := [.v] } else none
  | 0x5F => if sub = 0 then some { v3 with ety := etyAll, b := [.v], c := [.i] } else none
  | 0x60 | 0x61 => if sub = 0 then some { v3 with ety := etyAll, b := [] } else none
  | 0x62 => if sub = 0 then some { v3 with ety := etyAll, a := [.s, .b, .i], b := [] } else none
  | 0x63 | 0x66 => if sub = 0 then some { v3 with ety := [8], b := [.v] } else none
  | 0x64 | 0x65 => if sub = 0 then some { v3 with ety := [8] } else none
  | 0x67 => if sub = 0 then some { v3 with b := [], c := [.s] } else none
  | 0x68 => if sub = 0 then some { v3 with ety := [1, 3, 5], b := [], c := [.v] } else none
  | 0x69 => if sub = 0 then some { v3 with ety := [12, 13, 14], b := [.v] } else none
  | 0x6A => if sub = 0 then some ⟨[1, 3, 5], [], [.s], [.s, .i], [.v], [], true, true⟩ else none
  | 0x6B => if sub = 0 then some ⟨[1, 3, 5], [.v], [.s], [.s, .i], [], [], true, true⟩ else none
  | 0x6C => if sub ≤ 4 then some { v3 with ety := [12, 13, 14], b := [] } else none
  | 0x6D =>
    if sub = 0 then some { v3 with ety := etyAll, d := [.s], b := [.s, .b, .i] }
    else if sub = 1 then some { v3 with ety := etyAll, a := [.s, .b, .i], b := [.s, .b, .i] } else none
  | 0x70 => if sub = 0 then some { z with d := [.a], a := [.s], b := [.s], c := [.s], hint := true } else none
  | 0x71 => if sub = 0 then some { z with ety := [14], d := [.v], a := [.a], b := [.s, .b, .i] } else none
  | 0x72 => if sub = 0 then some { z with ety := [14], d := [.a], a := [.v], b := [.s, .b, .i] } else none
  | 0x73 =>
    if sub = 0 then
      some ⟨[2, 3, 4, 5, 6, 7, 10, 11, 12, 13, 14], [], [.s], [.s, .i], [.a], [.s, .i], true, true⟩
    else none
  | 0x74 | 0x7C | 0x7D | 0x7E => if sub = 0 then some z else none
  | 0x7F =>
    if sub ≤ 5 then some { z with d := [.s], a := [.s] }
    else if sub = 6 then some { z with d := [.s], a := [.s], b := [.s] }
    else if sub = 7 then some { z with d := [.s], a := [.s], b := [.s], c := [.s] } else none
  | _ => none

/-- The form of (OP, SUB), none where SUB is unassigned (R104). -/
def formOf (op sub : Nat) : Option Form :=
  if op < 0x20 then formScalar op sub
  else if op < 0x50 || op == 0x78 then formMemory op sub
  else formVector op sub

/-- ETY values whose elements are floats or scales (Table 3-5). -/
def etyCodeFloat (t : Nat) : Bool := 10 ≤ t && t ≤ 15

/-- Element width in bits by ETY value (Table 3-5). -/
def etyCodeBits (t : Nat) : Nat :=
  match t with
  | 0 | 1 => 4
  | 2 | 3 | 10 | 11 | 15 => 8
  | 4 | 5 | 12 | 13 => 16
  | 6 | 7 | 14 => 32
  | _ => 64

/-- The ORD values an ordering modifier byte admits (Tables 6-5, 6-7, 6-10, 6-14; R206), none where the form has no such byte. -/
def ordOf (op sub : Nat) : Option (List Nat) :=
  match op with
  | 0x30 | 0x39 | 0x3A => some [0, 1]
  | 0x31 | 0x3B | 0x3C | 0x41 => some [0, 2]
  | 0x32 | 0x33 | 0x36 | 0x37 | 0x38 | 0x6A | 0x6B => some [0]
  | 0x40 => some [0, 1, 2, 3]
  | 0x42 => some [1, 2, 3]
  | _ => if sub = 0 then none else none

/-- The bits of IMM48 that an instruction defines other than as a class-3 immediate (R97, R176, Table 8-2). A widening of e8m0 counts as one of a float source, so its FTZ bit is accepted and flushes (R59); so does e8m0 as STY of vcvt and vnar, whose RM and FTZ are then no reserved fields where ETY is an integer type, and IMM_RANGE is reported of the pair (DESIGN CHOICE, log 70). -/
def immDefined (op sub ety imm : Nat) : Nat :=
  let ftz := 1 <<< 42
  let rm := 3 <<< 40
  let sel := 0xF <<< 44
  let wrap := 1 <<< 43
  let sty := field imm 44 4
  match ordOf op sub with
  | some _ => if field imm 44 2 = 0 then 3 <<< 44 else 0x3F <<< 40
  | none =>
    match op with
    | 0x0B => 7 <<< 40
    | 0x10 | 0x11 | 0x12 | 0x14 => ftz
    | 0x13 => ftz + rm
    | 0x17 | 0x18 => 2 ^ 48 - 1
    | 0x1B => 0xFFFF
    | 0x20 | 0x21 | 0x22 => 0xFF
    | 0x25 => 0xFFFF
    | 0x26 => 0xFF <<< 40
    | 0x27 | 0x28 | 0x29 => 0xF <<< 40
    | 0x34 | 0x35 => 3 <<< 40
    | 0x3D => if sub = 0 then 3 <<< 40 else 0
    | 0x50 | 0x51 | 0x52 => if sub = 0 && etyCodeFloat ety then ftz + rm else 0
    | 0x53 => if etyCodeFloat ety then ftz + rm else 0
    | 0x54 => if etyCodeFloat ety then ftz else 0
    | 0x58 => if sub = 6 || etyCodeFloat ety then ftz else 0
    | 0x5A | 0x5C => sel + wrap + (if etyCodeFloat ety || etyCodeFloat sty then ftz + rm else 0)
    | 0x5B => sel + (if etyCodeFloat sty then ftz else 0)
    | 0x5D => if etyCodeFloat ety && sub ≤ 2 then ftz + rm else 0
    | 0x67 | 0x68 => sel
    | 0x69 => sel + ftz + rm
    | 0x6C => ftz
    | 0x70 => ftz + rm + 0xFF
    | 0x73 => if ety = 14 then 0 else ftz + rm
    | 0x78 => 7 <<< 40
    | 0x7D => 0xFF
    | _ => 0

/-- The immediate of a class-3 operand (R96): index 0 sign-extended, 1 zero-extended, 2 shifted left 16. -/
def immValue (mod : Bool) (imm : Nat) (k : ImmKind) : Nat :=
  let w := if mod then 40 else 48
  let x := imm % 2 ^ w
  match k with
  | .sx => narrow 64 (toS w x)
  | .zx => x
  | .hi => (x <<< 16) % 2 ^ 64

/-- The element types that widening admits (Table 8-5). -/
def widAdmits (k4 : Bool) (sty ety : Nat) : Bool :=
  if sty ≤ 1 then (if k4 then [4, 5, 12, 13] else [2, 3]).contains ety
  else if sty ≤ 3 then (if k4 then [6, 7, 14] else [4, 5, 12, 13]).contains ety
  else if sty ≤ 5 then !k4 && [6, 7, 14].contains ety
  else if sty = 10 || sty = 11 then (if k4 then [14] else [12, 13]).contains ety
  else if sty = 12 || sty = 13 then !k4 && ety = 14
  else if sty = 15 then (if k4 then [14] else [13]).contains ety
  else false

/-- The value of an operand byte that is a class-3 immediate. -/
def immByte (mod : Bool) (imm byte : Nat) : Option Nat :=
  if byte = 0xC0 then some (immValue mod imm .sx)
  else if byte = 0xC1 then some (immValue mod imm .zx)
  else if byte = 0xC2 then some (immValue mod imm .hi) else none

/-- A limited field out of its limit: the IMM_RANGE check (R98) of each instruction. Of the immediate control of `vshuf` every bit from 16 up counts, those above 39 too, which byte 0xC2 can set and R254 does not name (DEDUCED, log 68). -/
def immOutOfRange (op sub ety imm a b c e : Nat) (mod : Bool) : Bool :=
  let k := etyCodeBits ety
  let sty := field imm 44 4
  let ib := immByte mod imm b
  let bad (o : Option Nat) (p : Nat → Bool) : Bool := match o with | some x => p x | none => false
  match ordOf op sub with
  | some os => let ord := field imm 44 2; !os.contains ord || (ord ≠ 0 && 6 ≤ field imm 40 3)
  | none =>
    match op with
    | 0x05 => bad ib (fun x => k ≤ x)
    | 0x08 => bad ib fun x =>
        let pos := field x 0 7; let wid := field x 8 7
        pos + 256 * wid ≠ x || k ≤ pos || wid = 0 || k < pos + wid
    | 0x16 => bad ib (fun x => 15 < x)
    | 0x1B => 0xFFF < field imm 0 16
    | 0x20 | 0x21 | 0x22 => 3 < field imm 0 8
    | 0x25 => field imm 0 16 = 0
    | 0x26 => 8 < field imm 44 4
    | 0x28 => bad (immByte mod imm a) (fun x => 1023 < x)
    | 0x57 => bad ib (fun x => k ≤ x % 2 ^ k)
    | 0x5A => sty = 15 || etyCodeBits sty ≠ k || (field imm 43 1 = 1 && (etyCodeFloat ety || etyCodeFloat sty))
    | 0x5B => !widAdmits (sub = 1) sty ety
    | 0x5C =>
      sty = 15 || etyCodeBits sty ≠ (if sub = 0 then 2 else 4) * k
        || (field imm 43 1 = 1 && (etyCodeFloat ety || etyCodeFloat sty))
    | 0x5F => bad (immByte mod imm c) fun x =>
        let el := 4096 / k; let lg := ilog2 el; let kind := field x 0 4; let n := field x 4 12
        x ≥ 2 ^ 16 || 6 < kind ||
          (match kind with
           | 4 => el < n
           | 5 => n = 0 || lg < n
           | 6 => lg < n
           | _ => n ≠ 0)
    | 0x68 => !([12, 13, 14].contains sty)
    | 0x69 => !([1, 3, 5].contains sty)
    | 0x6D => bad ib (fun x => 4096 / k ≤ x)
    | 0x71 | 0x72 => bad ib (fun x => 127 < x)
    | 0x73 => bad (immByte mod imm e) (fun x => 2 ^ 16 ≤ x)
    | 0x78 => 8 ≤ sub && bad (immByte mod imm a) (fun x => 0xFFFF < x)
    | _ => false

/-- A register group not aligned to its factor (R45, R249, R250). -/
def vregMisaligned (op sub d a : Nat) : Bool :=
  let k := if sub = 0 then 2 else 4
  if op = 0x5B then d % k ≠ 0 else if op = 0x5C then a % k ≠ 0 else false

/-- The outcome of the two operand checks on one field byte (R94, R107): accepted, OPERAND_CLASS, OPERAND_INDEX. A reserved byte passes the class check where the position accepts its class at all (Table 3-9; log 9). -/
def byteCheck (cls : List Cls) (byte : Nat) : Option Cause :=
  let has (c : Cls) : Bool := cls.contains c
  if byte < 0x40 then
    if has .s || (has .s1 && byte ≠ 0) || (has .outp && byte = 0) then none else some .operandClass
  else if byte < 0x80 then
    if has .v then (if byte < 0x60 then none else some .operandIndex) else some .operandClass
  else if byte < 0xC0 then
    if 0x80 ≤ byte && byte < 0x88 then
      if has .p || ((has .pd || has .outp) && byte ≠ 0x80) then none else some .operandClass
    else if 0x90 ≤ byte && byte < 0xA0 then if has .q then none else some .operandClass
    else if 0xA0 ≤ byte && byte < 0xA4 then if has .a then none else some .operandClass
    else if 0xA8 ≤ byte && byte < 0xB0 then if has .b then none else some .operandClass
    else if has .p || has .pd || has .q || has .a || has .b || has .outp then some .operandIndex
    else some .operandClass
  else if has .i then (if byte ≤ 0xC2 then none else some .operandIndex) else some .operandClass

/-- The CSR numbers user code may name (Table 1-10) and whether each is read-only. -/
def csrUser (n : Nat) : Option Bool :=
  if n = 0x001 || n = 0x002 || n = 0x004 || n = 0x008 || (0x040 ≤ n && n ≤ 0x04F) then some false
  else if n = 0x003 || (0x010 ≤ n && n ≤ 0x014) || n = 0x018 || n = 0x01C then some true
  else none

/-- The privileged CSR numbers (Tables 4-8, 14-4) and whether each is read-only. -/
def csrPriv (n : Nat) : Option Bool :=
  if n = 0x804 || n = 0x840 || n = 0x809 then some true
  else if (0x800 ≤ n && n ≤ 0x808) || n = 0x80A || n = 0x80B then some false
  else none

/-- Read-only, or undefined, by CSR number. -/
def csrKind (n : Nat) : Option Bool := if n < 0x800 then csrUser n else csrPriv n


/-- The element type of an ETY value (Table 3-5). -/
def etyOfCode : Nat → Option Ety
  | 0 => some .n4 | 1 => some .s4 | 2 => some .n8 | 3 => some .s8 | 4 => some .n16 | 5 => some .s16
  | 6 => some .n32 | 7 => some .s32 | 8 => some .n64 | 9 => some .s64 | 10 => some .e4m3 | 11 => some .e5m2
  | 12 => some .f16 | 13 => some .bf16 | 14 => some .f32 | 15 => some .e8m0 | _ => none

/-- The ETY value of an element type (Table 3-5). -/
def etyCode : Ety → Nat
  | .n4 => 0 | .s4 => 1 | .n8 => 2 | .s8 => 3 | .n16 => 4 | .s16 => 5 | .n32 => 6 | .s32 => 7
  | .n64 => 8 | .s64 => 9 | .e4m3 => 10 | .e5m2 => 11 | .f16 => 12 | .bf16 => 13 | .f32 => 14 | .e8m0 => 15

/-- The byte of an operand (Table 3-2). -/
def opndByte : Opnd → Nat
  | .s n => n.val
  | .v n => 0x40 + n.val
  | .p n => 0x80 + n.val
  | .q n => 0x90 + n.val
  | .a n => 0xA0 + n.val
  | .b n => 0xA8 + n.val
  | .imm .sx => 0xC0
  | .imm .zx => 0xC1
  | .imm .hi => 0xC2

/-- The operand of a byte; none for a reserved byte of Table 3-2. -/
def opndOfByte (x : Nat) : Option Opnd :=
  if h : x < 0x40 then some (.s ⟨x, h⟩)
  else if h : 0x40 ≤ x ∧ x < 0x60 then some (.v ⟨x - 0x40, by omega⟩)
  else if h : 0x80 ≤ x ∧ x < 0x88 then some (.p ⟨x - 0x80, by omega⟩)
  else if h : 0x90 ≤ x ∧ x < 0xA0 then some (.q ⟨x - 0x90, by omega⟩)
  else if h : 0xA0 ≤ x ∧ x < 0xA4 then some (.a ⟨x - 0xA0, by omega⟩)
  else if h : 0xA8 ≤ x ∧ x < 0xB0 then some (.b ⟨x - 0xA8, by omega⟩)
  else if x = 0xC0 then some (.imm .sx)
  else if x = 0xC1 then some (.imm .zx)
  else if x = 0xC2 then some (.imm .hi)
  else none

/-- SUB of a compare condition (Table 3-7). -/
def condSub : Cond → Nat
  | .eq => 0 | .ne => 1 | .lt => 2 | .le => 3 | .gt => 4 | .ge => 5 | .unord => 6

/-- The condition of a SUB value. -/
def condOfSub : Nat → Option Cond
  | 0 => some .eq | 1 => some .ne | 2 => some .lt | 3 => some .le | 4 => some .gt | 5 => some .ge
  | 6 => some .unord | _ => none

/-- SUB of a factor (Table 3-7). -/
def widSub : Wid → Nat
  | .w2 => 0 | .w4 => 1

/-- An operand field that R107 tests: its accepted classes and its byte. -/
def fieldCheck (cls : List Cls) (byte : Nat) (want : Cause) : Bool :=
  !cls.isEmpty && byteCheck cls byte == some want

/-- The checks of R107 after the opcode, on the fields of the word as numbers: the first cause found, or none. `ctlZero` is CTL[79:78]. -/
def checkFields (priv isString : Bool) (op sub ety d a b c e hint ctlZero imm : Nat) : Option Cause :=
  if !opAssigned op then some .opUndef
  else match formOf op sub with
  | none => some .subUndef
  | some f =>
    let f3 (cls : List Cls) (byte : Nat) : Bool := !cls.isEmpty && 0xC0 ≤ byte
    let any3 := f3 f.d d || f3 f.a a || f3 f.b b || f3 f.c c || f3 f.e e
    let allowed := immDefined op sub ety imm ||| (if any3 then 2 ^ (if f.mod then 40 else 48) - 1 else 0)
    let unused (cls : List Cls) (byte : Nat) : Bool := cls.isEmpty && byte ≠ 0
    let csr := field imm 0 16
    if op = 0x78 && field imm 40 3 ≠ 0 then some .subUndef
    else if (op = 0x7E || op = 0x7F || (op = 0x1B && 0x800 ≤ csr && csr ≤ 0xFFF)) && !priv then some .privInsn
    else if isString && 0x70 ≤ op && op ≤ 0x77 then some .noMatrix
    else if ctlZero ≠ 0 || (!f.hint && hint ≠ 0) || (f.ety.isEmpty && ety ≠ 0)
        || unused f.d d || unused f.a a || unused f.b b || unused f.c c || unused f.e e
        || imm ||| allowed ≠ allowed then some .rsvdField
    else if !f.ety.isEmpty && !f.ety.contains ety then some .etyUndef
    else if fieldCheck f.d d .operandClass || fieldCheck f.a a .operandClass || fieldCheck f.b b .operandClass
        || fieldCheck f.c c .operandClass || fieldCheck f.e e .operandClass then some .operandClass
    else if fieldCheck f.d d .operandIndex || fieldCheck f.a a .operandIndex || fieldCheck f.b b .operandIndex
        || fieldCheck f.c c .operandIndex || fieldCheck f.e e .operandIndex then some .operandIndex
    else if vregMisaligned op sub d a then some .vregAlign
    else if immOutOfRange op sub ety imm a b c e f.mod then some .immRange
    else if (op = 0x17 || op = 0x18) && imm = 0 then some .backBranch
    else if op = 0x1B then
      match csrKind csr with
      | none => some .csrUndef
      | some ro => if ro && sub ≠ 0 then some .csrRo else none
    else none

/-- OP, SUB and the fields of an instruction that has an encoding (Table 3-7); none for an event row. -/
def instrCode : Instr → Option (Nat × Nat × Args)
  | .add x => some (0x00, 0, x)
  | .addSat x => some (0x00, 1, x)
  | .sub x => some (0x01, 0, x)
  | .subSat x => some (0x01, 1, x)
  | .mul x => some (0x02, 0, x)
  | .mulHi x => some (0x02, 1, x)
  | .div x => some (0x03, 0, x)
  | .rem x => some (0x03, 1, x)
  | .and x => some (0x04, 0, x)
  | .or x => some (0x04, 1, x)
  | .xor x => some (0x04, 2, x)
  | .andn x => some (0x04, 3, x)
  | .orn x => some (0x04, 4, x)
  | .xnor x => some (0x04, 5, x)
  | .shl x => some (0x05, 0, x)
  | .shr x => some (0x05, 1, x)
  | .sra x => some (0x05, 2, x)
  | .rol x => some (0x05, 3, x)
  | .ror x => some (0x05, 4, x)
  | .min x => some (0x06, 0, x)
  | .max x => some (0x06, 1, x)
  | .clz x => some (0x07, 0, x)
  | .ctz x => some (0x07, 1, x)
  | .popc x => some (0x07, 2, x)
  | .bswap x => some (0x07, 3, x)
  | .bfx x => some (0x08, 0, x)
  | .bfi x => some (0x08, 1, x)
  | .sel x => some (0x09, 0, x)
  | .mov x => some (0x0A, 0, x)
  | .lea x => some (0x0B, 0, x)
  | .cmp c x => some (0x0C, condSub c, x)
  | .fadd x => some (0x10, 0, x)
  | .fsub x => some (0x10, 1, x)
  | .fmul x => some (0x11, 0, x)
  | .ffma x => some (0x12, 0, x)
  | .ffnma x => some (0x12, 1, x)
  | .fcvtTo x => some (0x13, 0, x)
  | .fcvtFrom x => some (0x13, 1, x)
  | .fcmp c x => some (0x14, condSub c, x)
  | .pand x => some (0x15, 0, x)
  | .por x => some (0x15, 1, x)
  | .pxor x => some (0x15, 2, x)
  | .pandn x => some (0x15, 3, x)
  | .pnot x => some (0x15, 4, x)
  | .prd x => some (0x16, 0, x)
  | .pwr x => some (0x16, 1, x)
  | .br x => some (0x17, 0, x)
  | .call x => some (0x18, 0, x)
  | .ret x => some (0x19, 0, x)
  | .yield x => some (0x1A, 0, x)
  | .csrrd x => some (0x1B, 0, x)
  | .csrwr x => some (0x1B, 1, x)
  | .csrset x => some (0x1B, 2, x)
  | .csrclr x => some (0x1B, 3, x)
  | .tfence x => some (0x7C, 0, x)
  | .trap x => some (0x7D, 0, x)
  | .eret x => some (0x7E, 0, x)
  | .ctxstop x => some (0x7F, 0, x)
  | .ctxstart x => some (0x7F, 1, x)
  | .ctxkill x => some (0x7F, 2, x)
  | .ctxevict x => some (0x7F, 3, x)
  | .partsplit x => some (0x7F, 4, x)
  | .partmerge x => some (0x7F, 5, x)
  | .partbind x => some (0x7F, 6, x)
  | .sliceset x => some (0x7F, 7, x)
  | .split x => some (0x20, 0, x)
  | .fit x => some (0x21, 0, x)
  | .walk x => some (0x22, 0, x)
  | .prune x => some (0x23, 0, x)
  | .pruneMag x => some (0x23, 1, x)
  | .done x => some (0x24, 0, x)
  | .abort x => some (0x25, 0, x)
  | .port x => some (0x26, 0, x)
  | .vwaddr x => some (0x27, 0, x)
  | .capgive x => some (0x28, 0, x)
  | .captake x => some (0x29, 0, x)
  | .ld x => some (0x30, 0, x)
  | .st x => some (0x31, 0, x)
  | .vld x => some (0x32, 0, x)
  | .vldStr x => some (0x32, 1, x)
  | .vst x => some (0x33, 0, x)
  | .vstStr x => some (0x33, 1, x)
  | .vgath x => some (0x34, 0, x)
  | .vscat x => some (0x35, 0, x)
  | .pref x => some (0x36, 0, x)
  | .clean x => some (0x37, 0, x)
  | .inval x => some (0x38, 0, x)
  | .ldw x => some (0x39, 0, x)
  | .ldc x => some (0x3A, 0, x)
  | .stf x => some (0x3B, 0, x)
  | .ste x => some (0x3C, 0, x)
  | .feSet x => some (0x3D, 0, x)
  | .feRd x => some (0x3D, 1, x)
  | .atomAdd x => some (0x40, 0, x)
  | .atomMin x => some (0x40, 1, x)
  | .atomMax x => some (0x40, 2, x)
  | .atomAnd x => some (0x40, 3, x)
  | .atomOr x => some (0x40, 4, x)
  | .atomXor x => some (0x40, 5, x)
  | .atomSwap x => some (0x40, 6, x)
  | .atomCas x => some (0x40, 7, x)
  | .redAdd x => some (0x41, 0, x)
  | .redMin x => some (0x41, 1, x)
  | .redMax x => some (0x41, 2, x)
  | .redAnd x => some (0x41, 3, x)
  | .redOr x => some (0x41, 4, x)
  | .redXor x => some (0x41, 5, x)
  | .fence x => some (0x42, 0, x)
  | .vadd x => some (0x50, 0, x)
  | .vaddSat x => some (0x50, 1, x)
  | .vsub x => some (0x51, 0, x)
  | .vsubSat x => some (0x51, 1, x)
  | .vmul x => some (0x52, 0, x)
  | .vmulHi x => some (0x52, 1, x)
  | .vfma x => some (0x53, 0, x)
  | .vfnma x => some (0x53, 1, x)
  | .vmin x => some (0x54, 0, x)
  | .vmax x => some (0x54, 1, x)
  | .vabs x => some (0x55, 0, x)
  | .vneg x => some (0x55, 1, x)
  | .vand x => some (0x56, 0, x)
  | .vor x => some (0x56, 1, x)
  | .vxor x => some (0x56, 2, x)
  | .vandn x => some (0x56, 3, x)
  | .vshl x => some (0x57, 0, x)
  | .vshr x => some (0x57, 1, x)
  | .vsra x => some (0x57, 2, x)
  | .vcmp c x => some (0x58, condSub c, x)
  | .vsel x => some (0x59, 0, x)
  | .vcvt x => some (0x5A, 0, x)
  | .vwid k x => some (0x5B, widSub k, x)
  | .vnar k x => some (0x5C, widSub k, x)
  | .vredAdd x => some (0x5D, 0, x)
  | .vredMin x => some (0x5D, 1, x)
  | .vredMax x => some (0x5D, 2, x)
  | .vredAnd x => some (0x5D, 3, x)
  | .vredOr x => some (0x5D, 4, x)
  | .vredXor x => some (0x5D, 5, x)
  | .vperm x => some (0x5E, 0, x)
  | .vshuf x => some (0x5F, 0, x)
  | .vcompress x => some (0x60, 0, x)
  | .vexpand x => some (0x61, 0, x)
  | .vbcast x => some (0x62, 0, x)
  | .vbmm8 x => some (0x63, 0, x)
  | .vpdep x => some (0x64, 0, x)
  | .vpext x => some (0x65, 0, x)
  | .vbperm x => some (0x66, 0, x)
  | .vthz x => some (0x67, 0, x)
  | .vqblk x => some (0x68, 0, x)
  | .vdqblk x => some (0x69, 0, x)
  | .vstp x => some (0x6A, 0, x)
  | .vldp x => some (0x6B, 0, x)
  | .vexp2 x => some (0x6C, 0, x)
  | .vlog2 x => some (0x6C, 1, x)
  | .vrcp x => some (0x6C, 2, x)
  | .vrsq x => some (0x6C, 3, x)
  | .vtanh x => some (0x6C, 4, x)
  | .vget x => some (0x6D, 0, x)
  | .vset x => some (0x6D, 1, x)
  | .mxmul x => some (0x70, 0, x)
  | .mxrd x => some (0x71, 0, x)
  | .mxwr x => some (0x72, 0, x)
  | .mxst x => some (0x73, 0, x)
  | .mxwait x => some (0x74, 0, x)
  | .engCopy x => some (0x78, 0, x)
  | .engGath x => some (0x78, 1, x)
  | .engScat x => some (0x78, 2, x)
  | .engWin x => some (0x78, 3, x)
  | .engDec x => some (0x78, 4, x)
  | .engSeal x => some (0x78, 5, x)
  | .engRing x => some (0x78, 6, x)
  | .engColl x => some (0x78, 7, x)
  | .engWait x => some (0x78, 8, x)
  | .engStat x => some (0x78, 9, x)
  | .engJobStart _ _ => none
  | .engWsWordWrite _ _ => none
  | .engJobComplete _ _ => none
  | .collStart _ _ => none
  | .mxTileStep _ => none
  | .mxJobPark _ => none
  | .atomHomeStep _ => none
  | .redHomeStep _ _ => none
  | .remoteWsOp _ => none
  | .remoteWsCancel _ => none
  | .staleNotice _ _ => none
  | .jigsawMerge _ _ => none
  | .launchStatusWrite _ => none
  | .recordPickup _ _ => none
  | .schedDecision _ => none
  | .budgetExhausted _ => none
  | .stopForceSuspend _ => none
  | .stopComplete _ => none
  | .queueWridxWrite _ _ _ => none
  | .qctlErrSkip _ _ => none
  | .packetServe _ _ => none
  | .noticePost _ => none
  | .noticeTrap _ => none
  | .fresolveRetry _ _ _ => none
  | .fresolveFail _ _ _ => none
  | .ueDetected _ => none
  | .drainComplete _ => none
  | .coreLogicError _ _ => none
  | .stringSoftError _ => none
  | .linkCrcReplay _ => none
  | .dieLinkLost _ _ => none
  | .granuleFill _ _ _ _ => none
  | .granuleWriteback _ => none
  | .patrolScrub _ _ => none
  | .channelRetrain _ => none
  | .cxlLinkDown _ => none
  | .hostCxlmemRead _ _ => none
  | .hostCxlmemWrite _ _ _ => none
  | .hostModuleDegrade _ => none
  | .tlbInvalRange _ _ _ => none
  | .tlbInvalContext _ _ => none
  | .tlbInvalAll _ => none
  | .fwinRegWrite _ _ _ _ _ => none
  | .atctlWrite _ _ => none
  | .ksLoad => none
  | .ksClear => none
  | .ksReseal => none
  | .ksRdataWrite _ => none
  | .ksTamper _ => none
  | .klRetrain _ _ _ => none
  | .klPortDown _ => none
  | .bootStage _ _ => none
  | .packageReset => none
  | .powerThrottle _ => none
  | .thermalThrottle _ _ => none
  | .thermalCritical _ => none
  | .ctrlRegWrite _ _ => none
  | .kitelinkIngressRequest _ _ => none

end Sys2Proof
end

