-- ==== Sys2Proof/WellFormed.lean ====
section
/-! DEFINITION. Well-formed instructions: an instruction with an encoding passes every check of R107 at supervisor level on a compute core; an event names units that the package has (Tables 0-1, 1-1). -/

namespace Sys2Proof

/-- The numbers an event names lie in the package (Tables 0-1, 1-1, 10-1, 15-1). Cores are numbered as CORE_ID numbers them (Table 1-10). -/
def eventWf : Instr → Bool
  | .engJobStart core _ | .engWsWordWrite core _ | .engJobComplete core _ | .mxJobPark core | .stringSoftError core => core < 1024
  | .mxTileStep o => o < 64
  | .atomHomeStep h => h < 128
  | .redHomeStep core pa => core < 1024 && pa < 2 ^ 52
  | .staleNotice die _ => die < 4
  | .jigsawMerge ctx _ | .launchStatusWrite ctx | .budgetExhausted ctx | .stopForceSuspend ctx | .stopComplete ctx
  | .drainComplete ctx => ctx < 1024
  | .recordPickup core slot | .coreLogicError core slot => core < 1024 && slot < 4
  | .schedDecision node => 1 ≤ node && node < 128
  | .packetServe die q => die < 4 && q < 64
  | .queueWridxWrite die q _ | .qctlErrSkip die q => die < 4 && q < 64
  | .noticePost die | .noticeTrap die | .cxlLinkDown die | .bootStage die _ | .thermalCritical die => die < 4
  | .tlbInvalAll die => die < 4
  | .fresolveRetry die ctx _ | .fresolveFail die ctx _ => die < 4 && ctx < 1024
  | .tlbInvalRange die ctx _ | .tlbInvalContext die ctx => die < 4 && ctx < 1024
  | .atctlWrite target _ => target < 266
  | .dieLinkLost a b => a < 4 && b < 4 && a != b
  | .granuleFill pa slot _ _ => pa < 2 ^ 52 && slot < 256
  | .granuleWriteback pa | .patrolScrub pa _ => pa < 2 ^ 52
  | .channelRetrain ch => ch < 128
  | .hostCxlmemRead fn pa => fn < 16 && pa < 2 ^ 52
  | .hostCxlmemWrite fn pa _ => fn < 16 && pa < 2 ^ 52
  | .hostModuleDegrade m => m < 4
  | .fwinRegWrite die sc win reg _ => die < 4 && sc < 32 && win < 16 && reg < 8
  | .klRetrain port peer _ => port < 18 && peer < 32
  | .klPortDown port => port < 18
  | .powerThrottle step => 8 ≤ step && step ≤ 16
  | .thermalThrottle die step => die < 4 && 8 ≤ step && step ≤ 16
  | .kitelinkIngressRequest pkg _ => pkg < 32
  | _ => true

/-- The checks of R107 on an instruction's own fields. -/
def argsCheck (op sub : Nat) (x : Args) : Option Cause :=
  checkFields true false op sub (etyCode x.ety) (opndByte x.d) (opndByte x.a) (opndByte x.b) (opndByte x.c)
    (opndByte x.e) x.hint.toNat 0 x.imm.toNat

/-- An instruction that hardware may hold: its form's checks pass. -/
def wellFormed (i : Instr) : Bool :=
  match instrCode i with
  | some (op, sub, x) => argsCheck op sub x == none
  | none => eventWf i

/-- `wellFormed` as a proposition. -/
abbrev WellFormed (i : Instr) : Prop := wellFormed i = true

end Sys2Proof
end

