-- ==== Sys2Proof/Decode.lean ====
section
/-! DEFINITION. The decoder, from the 128-bit word or its bytes to an instruction or the cause of R107, and after it the encoder, both from Tables 3-1, 3-2, 3-5 and 3-7. -/

namespace Sys2Proof

/-- The instruction of (OP, SUB) with its fields (Table 3-7). -/
def instrOfCode (op sub : Nat) (x : Args) : Option Instr :=
  match op with
  | 0x00 => match sub with | 0 => some (.add x) | 1 => some (.addSat x) | _ => none
  | 0x01 => match sub with | 0 => some (.sub x) | 1 => some (.subSat x) | _ => none
  | 0x02 => match sub with | 0 => some (.mul x) | 1 => some (.mulHi x) | _ => none
  | 0x03 => match sub with | 0 => some (.div x) | 1 => some (.rem x) | _ => none
  | 0x04 => match sub with | 0 => some (.and x) | 1 => some (.or x) | 2 => some (.xor x) | 3 => some (.andn x) | 4 => some (.orn x) | 5 => some (.xnor x) | _ => none
  | 0x05 => match sub with | 0 => some (.shl x) | 1 => some (.shr x) | 2 => some (.sra x) | 3 => some (.rol x) | 4 => some (.ror x) | _ => none
  | 0x06 => match sub with | 0 => some (.min x) | 1 => some (.max x) | _ => none
  | 0x07 => match sub with | 0 => some (.clz x) | 1 => some (.ctz x) | 2 => some (.popc x) | 3 => some (.bswap x) | _ => none
  | 0x08 => match sub with | 0 => some (.bfx x) | 1 => some (.bfi x) | _ => none
  | 0x09 => match sub with | 0 => some (.sel x) | _ => none
  | 0x0A => match sub with | 0 => some (.mov x) | _ => none
  | 0x0B => match sub with | 0 => some (.lea x) | _ => none
  | 0x0C => (condOfSub sub).map fun c => .cmp c x
  | 0x10 => match sub with | 0 => some (.fadd x) | 1 => some (.fsub x) | _ => none
  | 0x11 => match sub with | 0 => some (.fmul x) | _ => none
  | 0x12 => match sub with | 0 => some (.ffma x) | 1 => some (.ffnma x) | _ => none
  | 0x13 => match sub with | 0 => some (.fcvtTo x) | 1 => some (.fcvtFrom x) | _ => none
  | 0x14 => (condOfSub sub).map fun c => .fcmp c x
  | 0x15 => match sub with | 0 => some (.pand x) | 1 => some (.por x) | 2 => some (.pxor x) | 3 => some (.pandn x) | 4 => some (.pnot x) | _ => none
  | 0x16 => match sub with | 0 => some (.prd x) | 1 => some (.pwr x) | _ => none
  | 0x17 => match sub with | 0 => some (.br x) | _ => none
  | 0x18 => match sub with | 0 => some (.call x) | _ => none
  | 0x19 => match sub with | 0 => some (.ret x) | _ => none
  | 0x1A => match sub with | 0 => some (.yield x) | _ => none
  | 0x1B => match sub with | 0 => some (.csrrd x) | 1 => some (.csrwr x) | 2 => some (.csrset x) | 3 => some (.csrclr x) | _ => none
  | 0x20 => match sub with | 0 => some (.split x) | _ => none
  | 0x21 => match sub with | 0 => some (.fit x) | _ => none
  | 0x22 => match sub with | 0 => some (.walk x) | _ => none
  | 0x23 => match sub with | 0 => some (.prune x) | 1 => some (.pruneMag x) | _ => none
  | 0x24 => match sub with | 0 => some (.done x) | _ => none
  | 0x25 => match sub with | 0 => some (.abort x) | _ => none
  | 0x26 => match sub with | 0 => some (.port x) | _ => none
  | 0x27 => match sub with | 0 => some (.vwaddr x) | _ => none
  | 0x28 => match sub with | 0 => some (.capgive x) | _ => none
  | 0x29 => match sub with | 0 => some (.captake x) | _ => none
  | 0x30 => match sub with | 0 => some (.ld x) | _ => none
  | 0x31 => match sub with | 0 => some (.st x) | _ => none
  | 0x32 => match sub with | 0 => some (.vld x) | 1 => some (.vldStr x) | _ => none
  | 0x33 => match sub with | 0 => some (.vst x) | 1 => some (.vstStr x) | _ => none
  | 0x34 => match sub with | 0 => some (.vgath x) | _ => none
  | 0x35 => match sub with | 0 => some (.vscat x) | _ => none
  | 0x36 => match sub with | 0 => some (.pref x) | _ => none
  | 0x37 => match sub with | 0 => some (.clean x) | _ => none
  | 0x38 => match sub with | 0 => some (.inval x) | _ => none
  | 0x39 => match sub with | 0 => some (.ldw x) | _ => none
  | 0x3A => match sub with | 0 => some (.ldc x) | _ => none
  | 0x3B => match sub with | 0 => some (.stf x) | _ => none
  | 0x3C => match sub with | 0 => some (.ste x) | _ => none
  | 0x3D => match sub with | 0 => some (.feSet x) | 1 => some (.feRd x) | _ => none
  | 0x40 => match sub with | 0 => some (.atomAdd x) | 1 => some (.atomMin x) | 2 => some (.atomMax x) | 3 => some (.atomAnd x) | 4 => some (.atomOr x) | 5 => some (.atomXor x) | 6 => some (.atomSwap x) | 7 => some (.atomCas x) | _ => none
  | 0x41 => match sub with | 0 => some (.redAdd x) | 1 => some (.redMin x) | 2 => some (.redMax x) | 3 => some (.redAnd x) | 4 => some (.redOr x) | 5 => some (.redXor x) | _ => none
  | 0x42 => match sub with | 0 => some (.fence x) | _ => none
  | 0x50 => match sub with | 0 => some (.vadd x) | 1 => some (.vaddSat x) | _ => none
  | 0x51 => match sub with | 0 => some (.vsub x) | 1 => some (.vsubSat x) | _ => none
  | 0x52 => match sub with | 0 => some (.vmul x) | 1 => some (.vmulHi x) | _ => none
  | 0x53 => match sub with | 0 => some (.vfma x) | 1 => some (.vfnma x) | _ => none
  | 0x54 => match sub with | 0 => some (.vmin x) | 1 => some (.vmax x) | _ => none
  | 0x55 => match sub with | 0 => some (.vabs x) | 1 => some (.vneg x) | _ => none
  | 0x56 => match sub with | 0 => some (.vand x) | 1 => some (.vor x) | 2 => some (.vxor x) | 3 => some (.vandn x) | _ => none
  | 0x57 => match sub with | 0 => some (.vshl x) | 1 => some (.vshr x) | 2 => some (.vsra x) | _ => none
  | 0x58 => (condOfSub sub).map fun c => .vcmp c x
  | 0x59 => match sub with | 0 => some (.vsel x) | _ => none
  | 0x5A => match sub with | 0 => some (.vcvt x) | _ => none
  | 0x5B => match sub with | 0 => some (.vwid .w2 x) | 1 => some (.vwid .w4 x) | _ => none
  | 0x5C => match sub with | 0 => some (.vnar .w2 x) | 1 => some (.vnar .w4 x) | _ => none
  | 0x5D => match sub with | 0 => some (.vredAdd x) | 1 => some (.vredMin x) | 2 => some (.vredMax x) | 3 => some (.vredAnd x) | 4 => some (.vredOr x) | 5 => some (.vredXor x) | _ => none
  | 0x5E => match sub with | 0 => some (.vperm x) | _ => none
  | 0x5F => match sub with | 0 => some (.vshuf x) | _ => none
  | 0x60 => match sub with | 0 => some (.vcompress x) | _ => none
  | 0x61 => match sub with | 0 => some (.vexpand x) | _ => none
  | 0x62 => match sub with | 0 => some (.vbcast x) | _ => none
  | 0x63 => match sub with | 0 => some (.vbmm8 x) | _ => none
  | 0x64 => match sub with | 0 => some (.vpdep x) | _ => none
  | 0x65 => match sub with | 0 => some (.vpext x) | _ => none
  | 0x66 => match sub with | 0 => some (.vbperm x) | _ => none
  | 0x67 => match sub with | 0 => some (.vthz x) | _ => none
  | 0x68 => match sub with | 0 => some (.vqblk x) | _ => none
  | 0x69 => match sub with | 0 => some (.vdqblk x) | _ => none
  | 0x6A => match sub with | 0 => some (.vstp x) | _ => none
  | 0x6B => match sub with | 0 => some (.vldp x) | _ => none
  | 0x6C => match sub with | 0 => some (.vexp2 x) | 1 => some (.vlog2 x) | 2 => some (.vrcp x) | 3 => some (.vrsq x) | 4 => some (.vtanh x) | _ => none
  | 0x6D => match sub with | 0 => some (.vget x) | 1 => some (.vset x) | _ => none
  | 0x70 => match sub with | 0 => some (.mxmul x) | _ => none
  | 0x71 => match sub with | 0 => some (.mxrd x) | _ => none
  | 0x72 => match sub with | 0 => some (.mxwr x) | _ => none
  | 0x73 => match sub with | 0 => some (.mxst x) | _ => none
  | 0x74 => match sub with | 0 => some (.mxwait x) | _ => none
  | 0x78 => match sub with | 0 => some (.engCopy x) | 1 => some (.engGath x) | 2 => some (.engScat x) | 3 => some (.engWin x) | 4 => some (.engDec x) | 5 => some (.engSeal x) | 6 => some (.engRing x) | 7 => some (.engColl x) | 8 => some (.engWait x) | 9 => some (.engStat x) | _ => none
  | 0x7C => match sub with | 0 => some (.tfence x) | _ => none
  | 0x7D => match sub with | 0 => some (.trap x) | _ => none
  | 0x7E => match sub with | 0 => some (.eret x) | _ => none
  | 0x7F => match sub with | 0 => some (.ctxstop x) | 1 => some (.ctxstart x) | 2 => some (.ctxkill x) | 3 => some (.ctxevict x) | 4 => some (.partsplit x) | 5 => some (.partmerge x) | 6 => some (.partbind x) | 7 => some (.sliceset x) | _ => none
  | _ => none

/-- The guard of the word's bits [23:15] (Table 3-1, R90). -/
def guardOfBits (w : Nat) : Guard :=
  ⟨⟨field w 15 3, Nat.mod_lt _ (by decide)⟩, field w 18 1 == 1, ⟨field w 19 3, Nat.mod_lt _ (by decide)⟩,
    field w 22 1 == 1, field w 23 1 == 1⟩

/-- Decoding of one instruction word at the privilege and kind of core given: the instruction, or the first cause of R107. -/
def decode (priv isString : Bool) (word : InsnWord) : Except Cause Instr :=
  let w := word.toNat
  let op := field w 0 7
  let sub := field w 7 4
  let ety := field w 11 4
  let d := field w 24 8
  let a := field w 32 8
  let b := field w 40 8
  let c := field w 48 8
  let e := field w 56 8
  let imm := field w 80 48
  match checkFields priv isString op sub ety d a b c e (field w 64 4) (field w 78 2) imm with
  | some cause => .error cause
  | none =>
    match etyOfCode ety, opndOfByte d, opndOfByte a, opndOfByte b, opndOfByte c, opndOfByte e with
    | some t, some d, some a, some b, some c, some e =>
      let x : Args := ⟨guardOfBits w, t, d, a, b, c, e, BitVec.ofNat 48 imm, BitVec.ofNat 4 (field w 64 4),
        ⟨BitVec.ofNat 5 (field w 73 5), BitVec.ofNat 4 (field w 69 4), field w 68 1 == 1⟩⟩
      match instrOfCode op sub x with
      | some i => .ok i
      | none => .error .subUndef
    | _, _, _, _, _, _ => .error .operandIndex

/-- Decoding of the 16 bytes of an instruction as memory holds them: two little-endian quads, the low quad first (R87). Fewer bytes are no instruction. -/
def decodeBytes (priv isString : Bool) (bs : List Byte) : Option (Except Cause Instr) :=
  if bs.length = 16 then some (decode priv isString (BitVec.ofNat 128 (ofBytes bs))) else none

/-- The guard fields as a number, bit 0 being word bit 15. -/
def guardBits (g : Guard) : Nat :=
  g.p1.val + 8 * g.neg1.toNat + 16 * g.p2.val + 128 * g.neg2.toNat + 256 * g.orr.toNat

/-- The word of (OP, SUB) and its fields, by Table 3-1. -/
def wordOf (op sub : Nat) (x : Args) : InsnWord :=
  BitVec.ofNat 128 <|
    op + 2 ^ 7 * sub + 2 ^ 11 * etyCode x.ety + 2 ^ 15 * guardBits x.guard
      + 2 ^ 24 * opndByte x.d + 2 ^ 32 * opndByte x.a + 2 ^ 40 * opndByte x.b + 2 ^ 48 * opndByte x.c
      + 2 ^ 56 * opndByte x.e + 2 ^ 64 * x.hint.toNat + 2 ^ 68 * x.ctl.yield.toNat + 2 ^ 69 * x.ctl.stall.toNat
      + 2 ^ 73 * x.ctl.indep.toNat + 2 ^ 80 * x.imm.toNat

/-- The encoder: the word of an instruction, none for an event row, which has no encoding. -/
def encode (i : Instr) : Option InsnWord := (instrCode i).map fun (op, sub, x) => wordOf op sub x

/-- The 16 bytes of a word in memory order (R87). -/
def wordBytes (w : InsnWord) : List Byte := toBytes 16 w.toNat

/-- What the decoder reads from an instruction whose bits are w, as the opcode table numbers bits: bit 0 of the word is bit 0, and an instruction is always 16 bytes (R87). Privileged words are read at supervisor level. -/
def decodeTableWord (nbits w : Nat) : Option Instr :=
  match decodeBytes true false (toBytes 16 (w % 2 ^ nbits)) with
  | some (.ok i) => some i
  | _ => none

end Sys2Proof
end

