-- ==== Sys2Proof/Machine/Float.lean ====
section
/-! DEFINITION. Floating-point formats and their exact arithmetic with one rounding (R55-R63), the merge operators on f32 (R82, R83) and the special functions (R264). A float is decoded to a sign, a magnitude and an exponent; a result is exact before the one rounding. -/

namespace Sys2Proof

/-- ARITH_FLAGS and sticky flags, bits as Table 1-7. -/
abbrev Flags := BitVec 6

def flagIV : Flags := 1#6
def flagDZ : Flags := 2#6
def flagOF : Flags := 4#6
def flagUF : Flags := 8#6
def flagNX : Flags := 16#6
def flagSAT : Flags := 32#6

/-- A floating-point format of Table 2-1: width, fraction width, bias, largest finite pattern, and whether it has infinity (e4m3 has none). -/
structure Fmt where
  bits : Nat
  frac : Nat
  bias : Nat
  hasInf : Bool
  maxFin : Nat
  nan : Nat
  deriving DecidableEq, Repr

def fmtF32 : Fmt := ⟨32, 23, 127, true, 0x7F7FFFFF, 0x7FC00000⟩
def fmtF16 : Fmt := ⟨16, 10, 15, true, 0x7BFF, 0x7E00⟩
def fmtBf16 : Fmt := ⟨16, 7, 127, true, 0x7F7F, 0x7FC0⟩
def fmtE4m3 : Fmt := ⟨8, 3, 7, false, 0x7E, 0x7F⟩
def fmtE5m2 : Fmt := ⟨8, 2, 15, true, 0x7B, 0x7E⟩

/-- Rounding modes, in the order of Table 2-2. -/
inductive Rm where
  | rne | rtz | rup | rdn
  deriving DecidableEq, Repr

/-- The mode of IMM48[41:40] (Table 2-2). -/
def rmOf (n : Nat) : Rm := match n % 4 with | 0 => .rne | 1 => .rtz | 2 => .rup | _ => .rdn

/-- The value of a float: NaN (signalling or not), infinity, or (-1)^neg * m * 2^e. -/
inductive Fv where
  | nan (sig : Bool)
  | inf (neg : Bool)
  | fin (neg : Bool) (m : Nat) (e : Int)
  deriving DecidableEq, Repr

/-- Decoding of a pattern (R55, R56). -/
def fdecode (f : Fmt) (x : Nat) : Fv :=
  let neg := field x (f.bits - 1) 1 == 1
  let eb := f.bits - 1 - f.frac
  let e := field x f.frac eb
  let fr := field x 0 f.frac
  if f.hasInf && e = 2 ^ eb - 1 then
    if fr = 0 then .inf neg else .nan (!fr.testBit (f.frac - 1))
  else if !f.hasInf && e = 2 ^ eb - 1 && fr = 2 ^ f.frac - 1 then .nan false
  else if e = 0 then .fin neg fr (1 - (f.bias : Int) - f.frac)
  else .fin neg (2 ^ f.frac + fr) ((e : Int) - f.bias - f.frac)

/-- A subnormal pattern of the format: a nonzero magnitude below 2^frac at exponent field 0. -/
def isSubnormal (f : Fmt) (x : Nat) : Bool :=
  field x f.frac (f.bits - 1 - f.frac) = 0 && field x 0 f.frac ≠ 0

/-- Decoding with `.ftz` on the input (R59). -/
def fdecodeFtz (f : Fmt) (ftz : Bool) (x : Nat) : Fv :=
  if ftz && isSubnormal f x then .fin (field x (f.bits - 1) 1 == 1) 0 0 else fdecode f x

/-- Sign bit of a pattern. -/
def signBit (f : Fmt) (neg : Bool) : Nat := if neg then 2 ^ (f.bits - 1) else 0

/-- Zero of a sign. -/
def fzero (f : Fmt) (neg : Bool) : Nat := signBit f neg

/-- Infinity of a sign, for formats that have it. -/
def finf (f : Fmt) (neg : Bool) : Nat := signBit f neg + ((2 ^ (f.bits - 1 - f.frac) - 1) <<< f.frac)

/-- m * 2^e rounded to a multiple of 2^q by the mode: the multiple and whether it is inexact. -/
def roundAt (rm : Rm) (neg : Bool) (m : Nat) (e q : Int) : Nat × Bool :=
  if q ≤ e then (m <<< (e - q).toNat, false)
  else
    let d := (q - e).toNat
    if m = 0 then (0, false)
    else if ilog2 m + 2 < d then
      (match rm with | .rup => if neg then 0 else 1 | .rdn => if neg then 1 else 0 | _ => 0, true)
    else
      let hi := m >>> d
      let rem := m % 2 ^ d
      let half := 2 ^ (d - 1)
      let up := match rm with
        | .rne => half < rem || (rem = half && hi % 2 = 1)
        | .rtz => false
        | .rup => !neg && rem ≠ 0
        | .rdn => neg && rem ≠ 0
      (if up then hi + 1 else hi, rem ≠ 0)

/-- The pattern of magnitude r * 2^q with q the format's quantum for it (r at most 2^(frac+1)). -/
def fpack (f : Fmt) (neg : Bool) (r : Nat) (q : Int) : Nat :=
  let qmin : Int := 1 - (f.bias : Int) - f.frac
  if r < 2 ^ f.frac then signBit f neg + r
  else signBit f neg + ((q - qmin).toNat <<< f.frac) + r

/-- One rounding into a format (R58-R61): the exact value is (-1)^neg * m * 2^e, plus a positive amount below one unit 2^e of magnitude when `sticky`. A zero keeps its sign. -/
def fround (f : Fmt) (rm : Rm) (ftz : Bool) (neg : Bool) (m : Nat) (e : Int) (sticky : Bool) : Nat × Flags :=
  if m = 0 && !sticky then (fzero f neg, 0)
  else
    let p := f.frac + 1
    let mm := (m <<< (p + 4)) + (if sticky then 1 else 0)
    let ee := e - (p + 4 : Nat)
    let qmin : Int := 1 - (f.bias : Int) - f.frac
    let qU := ee + (ilog2 mm + 1 : Nat) - (p : Nat)
    let (rU, inexU) := roundAt rm neg mm ee qU
    let tiny := decide (qU < qmin) && (decide (qU < qmin - 1) || rU ≠ 2 ^ p)
    if tiny && ftz then (fzero f neg, flagUF ||| flagNX)
    else
      let q := max qU qmin
      let (r, inex) := roundAt rm neg mm ee q
      let pat := fpack f false r q
      if f.maxFin < pat then
        if f.hasInf then
          let toInf := match rm with | .rne => true | .rtz => false | .rup => !neg | .rdn => neg
          (if toInf then finf f neg else signBit f neg + f.maxFin, flagOF ||| flagNX)
        else (signBit f neg + f.maxFin, flagSAT ||| flagNX)
      else
        let _ := inexU
        (signBit f neg + pat, (if inex then flagNX else 0) ||| (if tiny && inex then flagUF else 0))

/-- IV for a signalling NaN operand (R57). -/
def sigFlag : Fv → Flags
  | .nan true => flagIV
  | _ => 0

/-- The exact sum of two finite values: sign, magnitude, exponent; the sign of a zero by R63. -/
def exactAdd (rm : Rm) (n1 : Bool) (m1 : Nat) (e1 : Int) (n2 : Bool) (m2 : Nat) (e2 : Int) : Bool × Nat × Int :=
  let e := min e1 e2
  let a : Int := (m1 <<< (e1 - e).toNat : Nat)
  let b : Int := (m2 <<< (e2 - e).toNat : Nat)
  let s := (if n1 then -a else a) + (if n2 then -b else b)
  if s = 0 then (if n1 = n2 then n1 else rm == .rdn, 0, e)
  else (s < 0, s.natAbs, e)

/-- Floating-point add (R57-R63). -/
def fadd (f : Fmt) (rm : Rm) (ftz : Bool) (x y : Fv) : Nat × Flags :=
  match x, y with
  | .nan _, _ => (f.nan, sigFlag x ||| sigFlag y)
  | _, .nan _ => (f.nan, sigFlag x ||| sigFlag y)
  | .inf a, .inf b => if a = b then (finf f a, 0) else (f.nan, flagIV)
  | .inf a, _ => (finf f a, 0)
  | _, .inf b => (finf f b, 0)
  | .fin n1 m1 e1, .fin n2 m2 e2 =>
    let (n, m, e) := exactAdd rm n1 m1 e1 n2 m2 e2
    fround f rm ftz n m e false

/-- The value with its sign inverted. -/
def fneg : Fv → Fv
  | .nan s => .nan s
  | .inf n => .inf !n
  | .fin n m e => .fin (!n) m e

/-- Floating-point multiply (R57-R63). -/
def fmul (f : Fmt) (rm : Rm) (ftz : Bool) (x y : Fv) : Nat × Flags :=
  match x, y with
  | .nan _, _ => (f.nan, sigFlag x ||| sigFlag y)
  | _, .nan _ => (f.nan, sigFlag x ||| sigFlag y)
  | .inf a, .inf b => (finf f (a != b), 0)
  | .inf a, .fin b m _ => if m = 0 then (f.nan, flagIV) else (finf f (a != b), 0)
  | .fin a m _, .inf b => if m = 0 then (f.nan, flagIV) else (finf f (a != b), 0)
  | .fin n1 m1 e1, .fin n2 m2 e2 => fround f rm ftz (n1 != n2) (m1 * m2) (e1 + e2) false

/-- 0 times infinity. -/
def zeroTimesInf : Fv → Fv → Bool
  | .inf _, .fin _ 0 _ => true
  | .fin _ 0 _, .inf _ => true
  | _, _ => false

/-- Fused multiply-add x * y + z with one rounding; 0 times infinity is invalid even when z is a quiet NaN (R126, R241). With `negProd` the product's sign is inverted before the sum. -/
def ffma (f : Fmt) (rm : Rm) (ftz negProd : Bool) (x y z : Fv) : Nat × Flags :=
  let sig := sigFlag x ||| sigFlag y ||| sigFlag z ||| (if zeroTimesInf x y then flagIV else 0)
  let x := if negProd then fneg x else x
  match x, y, z with
  | .nan _, _, _ => (f.nan, sig)
  | _, .nan _, _ => (f.nan, sig)
  | _, _, .nan _ => (f.nan, sig)
  | .fin n1 m1 e1, .fin n2 m2 e2, .fin n3 m3 e3 =>
    let (n, m, e) := exactAdd rm (n1 != n2) (m1 * m2) (e1 + e2) n3 m3 e3
    fround f rm ftz n m e false
  | .fin _ _ _, .fin _ _ _, .inf c => (finf f c, 0)
  | .inf a, .inf b, .inf c => if (a != b) = c then (finf f c, 0) else (f.nan, flagIV)
  | .inf a, .inf b, .fin _ _ _ => (finf f (a != b), 0)
  | .inf a, .fin b m _, .inf c =>
    if m = 0 then (f.nan, flagIV) else if (a != b) = c then (finf f c, 0) else (f.nan, flagIV)
  | .inf a, .fin b m _, .fin _ _ _ => if m = 0 then (f.nan, flagIV) else (finf f (a != b), 0)
  | .fin a m _, .inf b, .inf c =>
    if m = 0 then (f.nan, flagIV) else if (a != b) = c then (finf f c, 0) else (f.nan, flagIV)
  | .fin a m _, .inf b, .fin _ _ _ => if m = 0 then (f.nan, flagIV) else (finf f (a != b), 0)

/-- Order of two values that are no NaN: -1, 0 or 1; -0 and +0 are equal. -/
def fcmpVal : Fv → Fv → Int
  | .inf a, .inf b => if a = b then 0 else if a then -1 else 1
  | .inf a, _ => if a then -1 else 1
  | _, .inf b => if b then 1 else -1
  | .fin n1 m1 e1, .fin n2 m2 e2 =>
    let e := min e1 e2
    let a : Int := (m1 <<< (e1 - e).toNat : Nat)
    let b : Int := (m2 <<< (e2 - e).toNat : Nat)
    let x := if n1 then -a else a
    let y := if n2 then -b else b
    if x < y then -1 else if y < x then 1 else 0
  | _, _ => 0

/-- A NaN. -/
def Fv.isNaN : Fv → Bool
  | .nan _ => true
  | _ => false

/-- The sign of a value that is no NaN. -/
def Fv.neg : Fv → Bool
  | .nan _ => false
  | .inf n => n
  | .fin n _ _ => n

/-- A comparison by Table 4-5, with IV by R128. -/
def fcompare (c : Cond) (x y : Fv) : Bool × Flags :=
  let nan := x.isNaN || y.isNaN
  let iv := sigFlag x ||| sigFlag y |||
    (match c with
     | .lt | .le | .gt | .ge => if nan then flagIV else 0
     | _ => 0)
  let o := fcmpVal x y
  let r := match c with
    | .eq => !nan && o == 0
    | .ne => nan || o != 0
    | .lt => !nan && o == -1
    | .le => !nan && o != 1
    | .gt => !nan && o == 1
    | .ge => !nan && o != -1
    | .unord => nan
  (r, iv)

/-- max.f32 and min.f32 of Table 2-9 on two patterns of a format with decoded values: a NaN operand gives the canonical NaN, -0 is below +0, IV only for a signalling NaN (R83). -/
def fminmax (f : Fmt) (isMax : Bool) (a b : Nat) (x y : Fv) : Nat × Flags :=
  if x.isNaN || y.isNaN then (f.nan, sigFlag x ||| sigFlag y)
  else
    let o := fcmpVal x y
    let aLess := o == -1 || (o == 0 && x.neg && !y.neg)
    (if isMax then (if aLess then b else a) else (if aLess || o == 0 && x.neg == y.neg then a else b), 0)

/-- Conversion of a decoded value to a format (R58-R61): an infinity to e4m3 saturates (R61). -/
def fconvert (f : Fmt) (rm : Rm) (ftz : Bool) (x : Fv) : Nat × Flags :=
  match x with
  | .nan _ => (f.nan, sigFlag x)
  | .inf n => if f.hasInf then (finf f n, 0) else (signBit f n + f.maxFin, flagSAT ||| flagNX)
  | .fin n m e => fround f rm ftz n m e false

/-- Conversion of a decoded value to an integer of k bits (R62). -/
def fToInt (k : Nat) (signed : Bool) (rm : Rm) (x : Fv) : Nat × Flags :=
  let hi : Int := if signed then 2 ^ (k - 1) - 1 else 2 ^ k - 1
  let lo : Int := if signed then -(2 ^ (k - 1)) else 0
  match x with
  | .nan s => (0, flagIV ||| (if s then flagIV else 0))
  | .inf n => (narrow k (if n then lo else hi), flagSAT)
  | .fin n m e =>
    if 0 < e && m ≠ 0 && 70 < e then (narrow k (if n then lo else hi), flagSAT)
    else
      let (r, inex) := roundAt rm n m e 0
      let z : Int := if n then -(r : Int) else r
      if hi < z then (narrow k hi, flagSAT)
      else if z < lo then (narrow k lo, flagSAT)
      else (narrow k z, if inex then flagNX else 0)

/-- Conversion of an exact integer to a format (R62). -/
def intToF (f : Fmt) (rm : Rm) (ftz : Bool) (z : Int) : Nat × Flags :=
  fround f rm ftz (z < 0) z.natAbs 0 false

/-- The value of a scale exponent (R56): 2^(E-127), NaN for 0xFF. A NaN scale sets IV where it is converted (R127, R247). -/
def e8m0Value (x : Nat) : Fv := if x = 0xFF then .nan true else .fin false 1 ((x : Int) - 127)

/-! ## Special functions (R264): the exact value rounded to nearest even. Transcendental results are formed in fixed point of more than 250 bits and rounded once with a sticky bit (log 10). -/

/-- ln 2 in units of 2^-704. -/
def ln2Fix : Nat := 0xb17217f7d1cf79abc9e3b39803f2f6af40f343267298b62d8a0d175b8baafa2be7b876206debac98559552fb4afa1b10ed2eae35c138214427573b291169b8253e96ca16224ae8c51acbda11317c387eb9ea9bc3b136603b

/-- 1 + t + t^2/2! + ... in units of 2^-P, for t below 1, with n terms. -/
def expSeries (P t : Nat) : Nat → Nat → Nat → Nat
  | 0, _, _ => 0
  | n + 1, k, term => term + expSeries P t n (k + 1) (((term * t) >>> P) / (k + 1))

/-- 2^f in units of 2^-P, for f in units of 2^-P below 1. -/
def exp2Fix (P f : Nat) : Nat := expSeries P ((f * (ln2Fix >>> (704 - P))) >>> P) 150 0 (1 <<< P)

/-- 2 * atanh(r) = r + r^3/3 + ... doubled, in units of 2^-P, for r at most 1/3. -/
def atanhSeries (P r2 : Nat) : Nat → Nat → Nat → Nat
  | 0, _, _ => 0
  | n + 1, k, pw => pw / (2 * k + 1) + atanhSeries P r2 n (k + 1) ((pw * r2) >>> P)

/-- log2 of z = m / 2^s with 1 ≤ z < 2, in units of 2^-P. -/
def log2Fix (P m s : Nat) : Nat :=
  let r := ((m - 2 ^ s) <<< P) / (m + 2 ^ s)
  ((2 * atanhSeries P ((r * r) >>> P) 200 0 r) <<< P) / (ln2Fix >>> (704 - P))

/-- `vexp2` (Table 8-11). -/
def fexp2 (f : Fmt) (ftz : Bool) (x : Fv) : Nat × Flags :=
  match x with
  | .nan _ => (f.nan, sigFlag x)
  | .inf n => if n then (fzero f false, 0) else (finf f false, 0)
  | .fin n m e =>
    if m = 0 then fround f .rne ftz false 1 0 false
    else
      let z : Int := if n then -(m : Int) else m
      if 0 ≤ e then fround f .rne ftz false 1 (if 20 < e then (if n then -1048576 else 1048576) else z * 2 ^ e.toNat) false
      else
        let d := (-e).toNat
        let ip := z / 2 ^ d
        let fp := (z % 2 ^ d).toNat
        if fp = 0 then fround f .rne ftz false 1 ip false
        else fround f .rne ftz false (exp2Fix 320 ((fp <<< 320) >>> d) >>> 32) (ip - 288) true

/-- `vlog2` (Table 8-11). -/
def flog2 (f : Fmt) (ftz : Bool) (x : Fv) : Nat × Flags :=
  match x with
  | .nan _ => (f.nan, sigFlag x)
  | .inf n => if n then (f.nan, flagIV) else (finf f false, 0)
  | .fin n m e =>
    if m = 0 then (finf f true, flagDZ)
    else if n then (f.nan, flagIV)
    else
      let s := ilog2 m
      let k : Int := e + s
      if m = 2 ^ s then intToF f .rne ftz k
      else
        let v : Int := k * 2 ^ 320 + (log2Fix 320 m s : Int)
        fround f .rne ftz (v < 0) (v.natAbs >>> 32) (-288) true

/-- `vrcp` (Table 8-11). -/
def frcp (f : Fmt) (ftz : Bool) (x : Fv) : Nat × Flags :=
  match x with
  | .nan _ => (f.nan, sigFlag x)
  | .inf n => (fzero f n, 0)
  | .fin n m e =>
    if m = 0 then (finf f n, flagDZ)
    else
      let k := ilog2 m + f.frac + 10
      fround f .rne ftz n (2 ^ k / m) (-e - k) (2 ^ k % m ≠ 0)

/-- `vrsq` (Table 8-11). -/
def frsq (f : Fmt) (ftz : Bool) (x : Fv) : Nat × Flags :=
  match x with
  | .nan _ => (f.nan, sigFlag x)
  | .inf n => if n then (f.nan, flagIV) else (fzero f false, 0)
  | .fin n m e =>
    if m = 0 then (finf f n, flagDZ)
    else if n then (f.nan, flagIV)
    else
      let m := if e % 2 = 0 then m else 2 * m
      let h := (if e % 2 = 0 then e else e - 1) / 2
      let k := ilog2 m + f.frac + 10
      let q := Nat.sqrt (2 ^ (2 * k) / m)
      fround f .rne ftz false q (-h - k) (q * q * m ≠ 2 ^ (2 * k))

/-- `vtanh` (Table 8-11). Below 2^-60 the exact value lies just under x, above 2^7 just under 1. -/
def ftanh (f : Fmt) (ftz : Bool) (x : Fv) : Nat × Flags :=
  match x with
  | .nan _ => (f.nan, sigFlag x)
  | .inf n => fround f .rne false n 1 0 false
  | .fin n m e =>
    if m = 0 then (fzero f n, 0)
    else
      let top : Int := e + (ilog2 m : Nat)
      if top < -60 then fround f .rne ftz n ((m <<< 100) - 1) (e - 100) true
      else if 7 ≤ top then fround f .rne ftz n (2 ^ 300 - 1) (-300) true
      else
        -- y = 2x * log2(e); u = e^(-2x) = 2^-(n + g)
        let P := 640
        let xf := if 0 ≤ e then m <<< (P + e.toNat) else (m <<< P) >>> (-e).toNat
        let y := ((2 * xf) <<< P) / (ln2Fix >>> (704 - P))
        let ni := y >>> P
        let g := y % 2 ^ P
        let u := if g = 0 then (1 <<< P) >>> ni else exp2Fix P (2 ^ P - g) >>> (ni + 1)
        fround f .rne ftz n (((2 ^ P - u) <<< 500) / (2 ^ P + u)) (-500) true

end Sys2Proof
end

