-- ==== Sys2Proof/Machine/Flags.lean ====
section
/-! DEFINITION. Integer arithmetic of the scalar and vector instructions with the flags it sets (R54, R119-R122, R241-R244), comparison (R124, R128, R245) and conversion between element types (R127, R247). Values are k-bit patterns. -/

namespace Sys2Proof

/-- Width of an element type in bits (Table 3-5). -/
def etyBits (t : Ety) : Nat := etyCodeBits (etyCode t)

/-- Signed integer types (Table 3-5). -/
def etySigned : Ety → Bool
  | .s4 | .s8 | .s16 | .s32 | .s64 => true
  | _ => false

/-- The float format of a type (Table 2-1). -/
def etyFmt : Ety → Option Fmt
  | .e4m3 => some fmtE4m3 | .e5m2 => some fmtE5m2 | .f16 => some fmtF16 | .bf16 => some fmtBf16 | .f32 => some fmtF32
  | _ => none

/-- The typed value of the low bits of x (R114). -/
def etyVal (t : Ety) (x : Nat) : Int :=
  let k := etyBits t
  if etySigned t then toS k (x % 2 ^ k) else (x % 2 ^ k : Nat)

/-- A k-bit result as a quad: sign-extended for signed types, zero-extended for the others (R115). -/
def etyExt (t : Ety) (x : Nat) : Quad :=
  let k := etyBits t
  if etySigned t then sextQ k (x % 2 ^ k) else BitVec.ofNat 64 (x % 2 ^ k)

/-- Least and greatest value of an integer type. -/
def intLo (k : Nat) (sg : Bool) : Int := if sg then -(2 ^ (k - 1)) else 0
def intHi (k : Nat) (sg : Bool) : Int := if sg then 2 ^ (k - 1) - 1 else 2 ^ k - 1

/-- SatS and SatN (R54): SAT when clamped. -/
def satInt (k : Nat) (sg : Bool) (z : Int) : Nat × Flags :=
  if intHi k sg < z then (narrow k (intHi k sg), flagSAT)
  else if z < intLo k sg then (narrow k (intLo k sg), flagSAT)
  else (narrow k z, 0)

/-- High half of the exact product (R119). -/
def mulHighInt (k : Nat) (a b : Int) : Nat := narrow k ((a * b) / 2 ^ k)

/-- DivRem (R120): quotient and remainder patterns with their flags. -/
def divInt (k : Nat) (sg : Bool) (a b : Int) : Nat × Flags :=
  if b = 0 then (2 ^ k - 1, flagDZ)
  else if sg && a == -(2 ^ (k - 1)) && b == -1 then (narrow k a, flagOF)
  else (narrow k (Int.tdiv a b), 0)
def remInt (k : Nat) (sg : Bool) (a b : Int) : Nat × Flags :=
  if b = 0 then (narrow k a, flagDZ)
  else if sg && a == -(2 ^ (k - 1)) && b == -1 then (0, 0)
  else (narrow k (Int.tmod a b), 0)

/-- NOT of a k-bit pattern. -/
def notBits (k x : Nat) : Nat := 2 ^ k - 1 - x % 2 ^ k

/-- Shifts of a k-bit pattern by a natural count (R121, R244). -/
def shlBits (k x c : Nat) : Nat := if k ≤ c then 0 else (x <<< c) % 2 ^ k
def shrBits (k x c : Nat) : Nat := if k ≤ c then 0 else x >>> c
def sraBits (k x c : Nat) : Nat := narrow k (toS k x / 2 ^ min c k)
/-- Rotations of a k-bit pattern (R121). -/
def rolBits (k x c : Nat) : Nat := (x <<< (c % k) ||| x >>> (k - c % k)) % 2 ^ k
def rorBits (k x c : Nat) : Nat := rolBits k x (k - c % k)

/-- Leading zeros of a k-bit pattern (R119). -/
def clzBits (k x : Nat) : Nat := if x = 0 then k else k - 1 - ilog2 x
/-- Trailing zeros of a k-bit pattern (R119). -/
def ctzBits (k x : Nat) : Nat := ((List.range k).find? fun i => x.testBit i).getD k
/-- The bytes of a k-bit pattern reversed (R119). -/
def bswapBits (k x : Nat) : Nat := packElems 8 ((List.range (k / 8)).map fun i => elem 8 (k / 8 - 1 - i) x)

/-- bfx (R122). With POS + WID past bit 127, which a register control can name, zeros come in from above the value extended to 128 bits, of a signed type too (DEDUCED, log 68). -/
def bfxBits (k : Nat) (sg : Bool) (a : Int) (c : Nat) : Nat :=
  let pos := field c 0 7
  let wid := min (field c 8 7) k
  if wid = 0 then 0
  else
    let f := field (narrow 128 a) pos wid
    if sg then narrow k (toS wid f) else f
/-- bfi (R122) of a k-bit pattern x into d. -/
def bfiBits (k x d c : Nat) : Nat :=
  let pos := field c 0 7
  let wid := min (field c 8 7) k
  let mask := ones pos wid % 2 ^ k
  (d &&& notBits k mask) ||| ((x <<< pos) % 2 ^ k &&& mask)

/-- An integer comparison by signedness (R124, R245). -/
def intCompare (c : Cond) (a b : Int) : Bool :=
  match c with
  | .eq => a = b | .ne => a ≠ b | .lt => a < b | .le => a ≤ b | .gt => b < a | .ge => b ≤ a | .unord => false

/-- |a| and 0 - a of float patterns (R241). -/
def fabsBits (f : Fmt) (neg : Bool) (x : Nat) : Nat × Flags :=
  match fdecode f x with
  | .nan s => (f.nan, if s then flagIV else 0)
  | _ => (if neg then x ^^^ 2 ^ (f.bits - 1) else x % 2 ^ (f.bits - 1), 0)

/-- Conversion of a pattern of type `src` to type `dst` (R127, R247); an e8m0 source is a power of two, exact in f32 (R127), but that .ftz makes the subnormal 2^-127 a zero as it does every subnormal result (R59). -/
def cvtElem (src dst : Ety) (rm : Rm) (ftz wrap : Bool) (x : Nat) : Nat × Flags :=
  let v := match etyFmt src with
    | some f => fdecodeFtz f ftz x
    | none => e8m0Value x
  match etyFmt src, etyFmt dst, src with
  | _, some g, .e8m0 => fconvert g rm ftz v
  | some _, some g, _ => fconvert g rm ftz v
  | some _, none, _ => fToInt (etyBits dst) (etySigned dst) rm v
  | none, some g, _ => intToF g rm ftz (etyVal src x)
  | none, none, _ =>
    if wrap then (narrow (etyBits dst) (etyVal src x), 0) else satInt (etyBits dst) (etySigned dst) (etyVal src x)

end Sys2Proof
end

