-- ==== Sys2Proof/Machine/State.lean ====
section
/-! DEFINITION. The state of one ND4 package: leaf contexts, die control cores, contexts and their split trees, the memory system down to the stored ciphertext, engines, matrix units, packet processors and the package's control blocks; and the machine right after reset (R39-R52, R308-R343, R361-R377, R378-R418). What a value means is said once, here; INVENTORY.md names the reset values the spec does not give. -/

namespace Sys2Proof.Machine

/-- Why a step cannot be taken. -/
inductive Fault where
  /-- Raised by `step` and `exec` while the package has removed its own power (R418), of all but the package reset of its next power-up. Safe: nothing else runs without power. -/
  | powerRemoved
  deriving DecidableEq, Repr

/-- Why an instruction has no meaning in the model. -/
inductive Refusal where
  /-- Raised by a dispatch arm that has no meaning yet. Safe: a claim about the instruction cannot be proved. -/
  | notModelled (mnemonic : String)
  deriving DecidableEq, Repr

/-- Who executes the next instruction: a leaf slot of a core (numbered as CORE_ID, Table 1-10) or the die control core of a die. -/
inductive Agent where
  | leaf (core slot : Nat)
  | dcc (die : Nat)
  deriving DecidableEq, Repr

/-- Who writes a register of the control space from outside the dies: a function of the host through BAR0 (R399, R404), or the board management controller over I3C (R415). A die control core writes by its stores. -/
inductive CtrlMaster where
  | host (fn : Nat)
  | bmc
  deriving DecidableEq, Repr

/-- What the machine does next where the spec leaves the order open (log 2): an event row, an issue of one agent, time passing, a replacement that may happen at any time (R315, R319, R320, R321, R324), what is outside the package (software of another one, a store of the host to its own memory, who it is that writes the control space next, a host read of that space, a CXL port that system software retrains), what a die measures and corrects by itself (R395, R415), a page of a die control core's supervisor translation (log 20). -/
inductive Turn where
  | act (i : Instr)
  | issue (a : Agent)
  | tick (cycles : Nat)
  | evictL1 (core line : Nat)
  | evictL2 (line : Nat)
  | evictRdc (die line : Nat)
  | evictTlb (unit key : Nat)
  | anchorAssign (pa : Nat)
  | podStore (pa : Nat) (value : Byte)
  | podDeny (lo hi : Nat) (on : Bool)
  | hostStore (addr : Nat) (value : Byte)
  | spillChunk (ctx box key : Nat)
  | master (m : CtrlMaster)
  | hostIoRead (fn addr : Nat)
  | cxlTrain (die gib : Nat) (good : Bool)
  | mapSv (va pa len : Nat) (r w x : Bool)
  | temperature (die sensor value : Nat)
  | power (die value : Nat)
  | corrected (die cls : Nat)
  deriving DecidableEq, Repr

/-! ## Leaf contexts -/

/-- An entry of a reply queue: the ticket it was reserved for, and the reply once it is filled (R42). -/
structure QEntry where
  ticket : Nat
  value : Option Quad
  deriving DecidableEq, Repr

/-- A tile row that has been written: 128 f32 elements and their taint (R44, R267). -/
structure TileRow where
  val : VWord
  taint : BitVec 128
  deriving DecidableEq, Repr

/-- A job of the entry by its number in acceptance order (R213): its reply word and the ranges it writes (R229). -/
structure Ticket where
  reply : Quad
  writes : List (Nat × Nat)
  deriving DecidableEq, Repr

/-- A matrix operand descriptor as read (Table 9-5). -/
structure MxDesc where
  pbase : Nat
  sbase : Nat
  rows : Nat
  d : Nat
  cstr : Nat
  deriving DecidableEq, Repr

/-- A matrix job (R273): the leaf entry and slot that issued it, its tile, descriptors and modifiers, its next K-step, and the HINT of its operands' lines (R102). -/
structure MxJob where
  ctx : Nat
  entry : Nat
  tile : Nat
  da : MxDesc
  db : MxDesc
  kb : Nat
  period : Nat
  na : Nat
  nw : Nat
  init : Bool
  weight : Nat
  pc : Quad
  step : Nat
  ctlTaint : Bool
  hint : Nat
  deriving DecidableEq, Repr

/-- A matrix fault that waits for an instruction to report it (R277); a leaf may hold several, oldest first. -/
structure MxFault where
  cause : Cause
  addr : Nat
  step : Nat
  pc : Quad
  tiles : List Nat
  deriving DecidableEq, Repr

/-- Activity of a leaf slot (R38): no leaf, one that issues, one in an R110 wait, one whose pair's merge is in progress (R162). -/
inductive Mode where
  | idle | running | waiting | merging
  deriving DecidableEq, Repr

/-- A leaf context (Tables 1-9, 1-10, 1-11): registers with their taint, queues, tiles, control state, the box it holds and its engine tickets. `card` is the job card that an `eng` in its wait has read (R210), `fitting` what a `fit` in its wait has decided (R155), `mxIssued` the job that an `mxmul` in its wait has read and checked, with the ranges it reads (R272), `entry` numbers its clean entry, which is what engine and matrix jobs answer to. -/
structure Leaf where
  s : Vector Quad 64
  sT : BitVec 64
  v : Vector VWord 32
  vT : Vector (BitVec 128) 32
  p : Vector PWord 8
  pT : Vector PWord 8
  q : Vector (List QEntry) 16
  tiles : Tbl TileRow
  pc : Quad
  calls : List Quad
  flags : Flags
  trapEn : Flags
  dropMag : Quad
  wrr : BitVec 4
  thresh : Vector Quad 16
  ctlTaint : Bool
  ctx : Nat
  recIdx : Nat
  img : Nat
  inJoin : Bool
  mode : Mode
  entry : Nat
  nextTicket : Nat
  tickets : Tbl Ticket
  committed : Option Nat
  card : Option (BitVec 1024)
  fitting : Option Bool
  mxIssued : Option (MxJob × List (Nat × Nat))
  msg : Option Nat
  mxFault : List MxFault
  parked : List MxJob
  noReplay : Bool
  deriving DecidableEq, Repr

/-- The clean leaf state (R148) with the CSRs at 0; also a slot that holds no leaf. -/
def Leaf.idle : Leaf :=
  { s := Vector.replicate 64 0, sT := 0, v := Vector.replicate 32 0, vT := Vector.replicate 32 0
    p := Vector.replicate 8 0, pT := Vector.replicate 8 0, q := Vector.replicate 16 [], tiles := []
    pc := 0, calls := [], flags := 0, trapEn := 0, dropMag := 0, wrr := 1, thresh := Vector.replicate 16 0
    ctlTaint := false, ctx := 0, recIdx := 0, img := 0, inJoin := false, mode := .idle, entry := 0
    nextTicket := 1, tickets := [], committed := none, card := none, fitting := none, mxIssued := none, msg := none, mxFault := [], parked := []
    noReplay := false }

/-! ## The split tree -/

/-- States of a record (Table 1-5). -/
inductive RecSt where
  | ready | running | suspended | waiting | joining | failed
  deriving DecidableEq, Repr

/-- A chunk of a view: 128 words and their taint (R170), the L2 slice (die * 32 + slice) and the partition whose ways back it, or its place in the view spill area, where its words then are (R320; log 16). One that is not the record's `own` stands, where the record's snapshot has it too, in one place with the snapshot's, until the leaf stores to it (R396). -/
structure Chunk where
  val : VWord
  taint : BitVec 128
  slice : Nat
  part : Nat
  spill : Option Nat
  own : Bool
  deriving DecidableEq, Repr

/-- A child of a WAITING parent by its record index; `gone` where it ended blank and its record went back to the pool (R159, R164). -/
structure Kid where
  idx : Nat
  gone : Bool
  deriving DecidableEq, Repr

/-- The snapshot taken at a clean entry (R396): box bounds, views and taint of the record, the RW CSRs and the control-taint bit. A record READY that holds one is a replayed leaf. -/
structure Snapshot where
  lo : Vector (BitVec 32) 4
  hi : Vector (BitVec 32) 4
  chunks : Tbl Chunk
  taint : Bool
  flags : Flags
  trapEn : Flags
  dropMag : Quad
  wrr : BitVec 4
  thresh : Vector Quad 16
  ctlTaint : Bool
  inJoin : Bool
  deriving DecidableEq, Repr

/-- Scratch words of a suspended leaf: word number within the allocation, then value, state and taint (R313). -/
structure ScrWord where
  val : BitVec 32
  st : BitVec 2
  taint : Bool
  deriving DecidableEq, Repr

/-- A ring (R226): its words in this core's scratchpad, the declaring entry and its endpoints (entry, role). -/
structure Ring where
  base : Nat
  slots : Nat
  ctx : Nat
  declarer : Nat
  ends : List (Nat × Nat)
  deriving DecidableEq, Repr

/-- A box record (Table 1-4), its views and prefix views (R150, R170, key port * 2^22 + chunk), and what the Nest keeps with it: the saved leaf and its scratch words, the core and slot it last ran on, whether it is held in place (R376), whether its merge is complete (R162), the children of a parent, the image slot of a merge fault (R386), its snapshot, and the rings that a job has declared among the saved words of its leaf (R226, R231; log 30), their bases counted from the start of the allocation. What Table 1-4, the view table (R298) and the image slot (R368) hold of it is read back from memory when the record is picked up. -/
structure Rec where
  lo : Vector (BitVec 32) 4
  hi : Vector (BitVec 32) 4
  rule : Nat
  parent : Nat
  st : RecSt
  pend : Nat
  waxis : Nat
  walk : Bool
  replay : Bool
  taint : Bool
  rankM1 : Nat
  side : Bool
  sticky : Flags
  feat : Nat
  views : Nat
  resume : Quad
  chunks : Tbl Chunk
  pre : Tbl Chunk
  saved : Option Leaf
  savedScr : Tbl ScrWord
  core : Nat
  slot : Nat
  held : Bool
  mergeDone : Bool
  children : Option (Kid × Kid)
  img : Option Nat
  snap : Option Snapshot
  rings : List Ring
  deriving DecidableEq, Repr

/-- A fault that waits for FRESOLVE (R379, R386). -/
structure Faulted where
  cause : Cause
  merge : Bool
  deriving DecidableEq, Repr

/-! ## Launches and contexts -/

/-- A port of a rule with its binding's values (Tables 10-6, 10-15). -/
structure Port where
  kind : Nat
  op : Nat
  ety : Nat
  esize : Nat
  axmask : Nat
  bind : Nat
  base : Nat
  bytes : Nat
  str : Vector Quad 4
  deriving DecidableEq, Repr

/-- A rule descriptor as read at acceptance (Table 10-4). -/
structure Rule where
  entry : Nat
  join : Option Nat
  grain : Vector Nat 4
  rank : Nat
  red : Option Nat
  replay : Bool
  cohort : Bool
  onString : Bool
  scratch : Nat
  feat : Nat
  budget : Nat
  ports : List Port
  deriving DecidableEq, Repr

/-- A launch in progress (R306, R307, R366). `ended`: the root has ended and the status waits for tickets to drain. -/
structure Launch where
  die : Nat
  queue : Nat
  seq : Nat
  sig : Nat
  rel : Nat
  text : Nat
  rules : List Rule
  rootLo : Vector (BitVec 32) 4
  rootHi : Vector (BitVec 32) 4
  abort : Option Nat
  fail : Option Cause
  ended : Bool
  deriving DecidableEq, Repr

/-- Context states (Table 4-10). -/
inductive CtxSt where
  | free | bound | running | stopped | draining
  deriving DecidableEq, Repr

/-- Why a stop is pending (R371). -/
inductive Stop where
  | request | preempt | budget
  deriving DecidableEq, Repr

/-- The context descriptor as last read (Table 13-7), with the thresholds at THRVA. -/
structure CtxDesc where
  root : Nat
  regtab : Nat
  poolVa : Nat
  poolN : Nat
  slot : Nat
  part : Nat
  iclass : Nat
  imgVa : Nat
  imgCnt : Nat
  spillVa : Nat
  spillLen : Nat
  rdyVa : Nat
  dtrap : Flags
  dwrr : BitVec 4
  thr : Vector Quad 16
  vtVa : Nat
  deriving DecidableEq, Repr

/-- A context (R12, R143, R366-R374). `waiters` are the dies whose control cores wait in a `ctxstop` of it (R146); `alive` the dies it may use since a die link was lost, all of its partition's where `none` (R398). -/
structure Ctx where
  st : CtxSt
  node : Nat
  desc : CtxDesc
  deadline : Nat
  budget : Nat
  stop : Option Stop
  stopAge : Nat
  launch : Option Launch
  drop : Quad
  dropTaint : Bool
  portTaint : Bool
  taintCnt : Quad
  recs : Tbl Rec
  faulted : Tbl Faulted
  suspended : List Nat
  joining : List Nat
  deques : Tbl (List Nat)
  ready : List (Nat × Nat)
  imgUsed : List Nat
  killCause : Option Cause
  killStatus : Bool
  waiters : List Nat
  alive : Option (List Nat)
  deriving DecidableEq, Repr

/-- A free context id: what an unlisted context reads as (R143, R370). -/
def Ctx.free : Ctx :=
  { st := .free, node := 0
    desc := { root := 0, regtab := 0, poolVa := 0, poolN := 0, slot := 0, part := 0, iclass := 0, imgVa := 0
              imgCnt := 0, spillVa := 0, spillLen := 0, rdyVa := 0, dtrap := 0, dwrr := 1
              thr := Vector.replicate 16 0, vtVa := 0 }
    deadline := 2 ^ 64 - 1, budget := 2 ^ 40 - 1, stop := none, stopAge := 0, launch := none, drop := 0
    dropTaint := false, portTaint := false, taintCnt := 0, recs := [], faulted := [], suspended := [], joining := []
    deques := [], ready := [], imgUsed := [], killCause := none, killStatus := false, waiters := [], alive := none }

/-! ## Cores -/

/-- What gave an access its attributes: a page of the requester, the walk of page and region tables, or nothing (host, other packages, system software by physical address). -/
inductive AttrSrc where
  | page | table | none
  deriving DecidableEq, Repr

/-- Attributes of an access, which its lines carry (R317, R319, R326, R328): granule of 512 bytes, anchored, L2 partition, residency class; HINT.L2 and HINT.L1 of the access (Table 3-6), what gave them, and the address of the region's entry, 0 for none. -/
structure Attr where
  g512 : Bool
  anchor : Bool
  part : Nat
  cls : Nat
  hint : Nat
  hintL1 : Nat
  src : AttrSrc
  reg : Nat
  deriving DecidableEq, Repr

/-- An L1 line (R315): data, dirty mask per byte, taint per sector, words of 4 and of 8 bytes on which an atom has been performed at the home since the fill (R203), owner and key slot, and the dirty bytes that lie in a port region (R359). -/
structure L1Line where
  data : BitVec 1024
  dirty : BitVec 128
  taint : BitVec 4
  raced : BitVec 32
  raced8 : BitVec 16
  owner : Nat
  slot : Nat
  attr : Attr
  inPort : BitVec 128
  deriving DecidableEq, Repr

/-- Operations of atoms and reductions (Table 6-14). -/
inductive AtomOp where
  | add | min | max | and | or | xor | swap | cas
  deriving DecidableEq, Repr

/-- A combining-buffer entry (R205), oldest first in the core's list; `count` is how many reductions it combines, `leaf` the entry number of the leaf that made it. -/
structure CEntry where
  pa : Nat
  va : Nat
  op : AtomOp
  ety : Ety
  value : Quad
  taint : Bool
  ctx : Nat
  attr : Attr
  inPort : Bool
  count : Nat
  leaf : Nat
  deriving DecidableEq, Repr

/-- A job card as read at issue (Tables 7-3 to 7-10), as a number of 1024 bits. -/
abbrev Card := BitVec 1024

/-- A write of a job that is still to be performed: bytes with their taint at an address, or a scratchpad word, `last` where it takes END (R217); `count` is what it adds to COUNT. -/
inductive JobWrite where
  | bytes (addr : Nat) (bs : List (Byte × Bool)) (count : Nat)
  | word (addr : Nat) (value : BitVec 32) (taint : Bool) (last : Bool) (count : Nat)
  deriving DecidableEq, Repr

/-- An engine job in its core's table (R211-R219): the context, entry and slot that issued it (context 1024 for a die control core), its number within the entry, where the reply goes, the card and the displacement, the ranges it reads and writes, scratchpad addresses in named form (R215), the jobs it waits for, the next unit, the writes of the unit in progress, and what it has completed; `kept` is what the allocation of its leaf held when the leaf's entry ended, and its size; `hint` the HINT.L2 of its writes (R208); `row` the source row that `eng.dec` has reached, its physical address and the window chosen for it, die * 512 + string core * 16 + window (R224). -/
structure Job where
  ctx : Nat
  entry : Nat
  ticket : Nat
  slot : Nat
  replyQ : Option Nat
  fn : Nat
  card : Card
  delta : Nat
  reads : List (Nat × Nat)
  writes : List (Nat × Nat)
  preds : List Nat
  predFailed : Bool
  started : Bool
  unit : Nat
  pend : List JobWrite
  count : Nat
  fail : Option Cause
  kept : Option (Tbl ScrWord × Nat)
  hint : Nat
  row : Option (Nat × Nat × Nat)
  deriving DecidableEq, Repr

/-- What a core keeps besides its leaf contexts. -/
structure Core where
  l1 : Tbl L1Line
  cbuf : List CEntry
  scr : Tbl ScrWord
  rings : List Ring
  jobs : Tbl Job
  nextJid : Nat
  mxq : List MxJob
  deriving DecidableEq, Repr

/-- What an unlisted core reads as. -/
def Core.empty : Core := { l1 := [], cbuf := [], scr := [], rings := [], jobs := [], nextJid := 0, mxq := [] }

/-! ## Memory system -/

/-- Metadata of an L2 line at its home (R317): bytes present and dirty, taint per sector, key slot, owner, page attributes, frozen (R333), replacement priority (0 pinned, 1 keep, 2 normal, 3 stream: Tables 3-6 and 11-2) and when it was last used, in the order of `State.stamp`. The bytes are `State.mem`. -/
structure L2Line where
  present : BitVec 128
  dirty : BitVec 128
  taint : BitVec 4
  slot : Nat
  owner : Nat
  attr : Attr
  frozen : Bool
  prio : Nat
  used : Nat
  deriving DecidableEq, Repr

/-- A remote-data-cache copy (R321, R357). -/
structure RdcLine where
  data : BitVec 1024
  taint : BitVec 4
  stale : Bool
  slot : Nat
  owner : Nat
  deriving DecidableEq, Repr

/-- A cached translation (R324): the leaf entry and the level it was found at. -/
structure Xlat where
  pte : Quad
  level : Nat
  deriving DecidableEq, Repr

/-- What a memory step causes beside its own effect, settled before the step ends: an event notice at a die (R380) with cause, address and detail, a kill (R393) with the core that reports it, a scratchpad word whose state has changed under the operations that wait at it (R198, R227), or a pinned line of a slice and partition that needs a way which view chunks have (R319, R320). -/
inductive Pending where
  | event (die : Nat) (cause : Cause) (pa : Nat) (info : Nat)
  | kill (ctx : Nat) (cause : Cause) (core : Nat)
  | serve (core word : Nat)
  | spill (slice part : Nat) (line : Option Nat)
  deriving DecidableEq, Repr

/-- A word-state operation that waits at its word of a scratchpad, or is on the way to another core's (R196, R197). `op`: 0 ldw, 1 ldc, 2 stf, 3 ste; `addr` is its effective address. -/
structure WsMsg where
  core : Nat
  slot : Nat
  ctx : Nat
  entry : Nat
  op : Nat
  target : Nat
  word : Nat
  ety : Ety
  value : BitVec 32
  taint : Bool
  addrTaint : Bool
  dst : Nat
  endOut : Nat
  poisonOut : Nat
  acq : Nat
  addr : Nat
  cancel : Bool
  deriving DecidableEq, Repr

/-- An atomic add that another package has sent, waiting for its home's handler thread (R201, R408). -/
structure AtomReq where
  pkg : Nat
  tenant : Nat
  pa : Nat
  value : Quad
  deriving DecidableEq, Repr

/-- A package's part in a collective (R228), its source elements with their taint; `job` is the core and job of a member on this package. -/
structure CollJoin where
  job : Option (Nat × Nat)
  pkg : Nat
  tenant : Nat
  tag : Nat
  count : Nat
  op : Nat
  kind : Nat
  root : Nat
  group : Nat
  src : List (BitVec 32 × Bool)
  deriving DecidableEq, Repr

/-! ## Dies and the package -/

/-- A user queue (Tables 13-1, 13-2). `inflight` counts the packets that have been taken and are not complete, for BARRIER (R365). -/
structure Queue where
  base : Nat
  ctl : Quad
  rdidx : Nat
  wridx : Nat
  inflight : Nat
  deriving DecidableEq, Repr

/-- A notice (Table 14-3) with its queue position and the address of its fault record; for an event whose record is written when it is posted, `event` holds its address and detail (R381). -/
structure Notice where
  word : Quad
  pos : Nat
  frec : Nat
  event : Option (Nat × Nat)
  deriving DecidableEq, Repr

/-- A die control core (Tables 4-8, 14-4): its registers as a leaf's, the level bits and the privileged CSRs; `stopRes` is the status of the `ctxstop` it waits in, once that is known (R146). -/
structure Dcc where
  leaf : Leaf
  sv : Bool
  prevSv : Bool
  epc : Quad
  cause : Quad
  vec : Quad
  frec : Quad
  info : Quad
  scratch : Quad
  farea : Quad
  noteEn : Bool
  fresolve : Nat
  stopRes : Option Nat
  evarea : Quad
  halted : Bool
  started : Bool
  deriving DecidableEq, Repr

/-- What the telemetry block of a die holds (R411, R415, R396): temperatures of eight sensors in units of 0.125 °C and the die's power in units of 0.1 W, as last measured; errors corrected and not, by structure class of Table 14-9 (its rows from 0), replays of its links, the stage of the last boot failure, the core of the last core logic error. The clock in MHz is `State.clockMhz`. -/
structure Telemetry where
  temps : Vector Nat 8
  power : Nat
  corrected : Tbl Nat
  uncorrected : Tbl Nat
  replays : Nat
  bootFail : Option Nat
  errCore : Option Nat
  deriving DecidableEq, Repr

/-- A die: its control core, remote-data cache, notice queue with postings that wait for room, queues and priority pointers, way masks, CXL port status, format windows (string core * 128 + window * 8 + register), boot stage, whether its CXL port has trained since it last went down (R406), and telemetry. -/
structure Die where
  dcc : Dcc
  rdc : Tbl RdcLine
  notices : List Notice
  notePend : List Notice
  notePos : Nat
  noteHeld : List Nat
  queues : Tbl Queue
  prio : Vector Nat 4
  wayMask : Vector (BitVec 16) 16
  cxl : Quad
  fwin : Tbl Quad
  boot : Nat
  bootHalted : Bool
  cxlTrained : Bool
  tele : Telemetry
  deriving DecidableEq, Repr

/-- The key store (Table 15-3): the command it is busy with, 0 where none, the registers, and the root key and tenant id of each loaded slot. -/
structure KeyStore where
  busy : Nat
  sel : Nat
  tenants : Tbl Nat
  keys : Tbl (BitVec 256)
  key : BitVec 256
  err : Bool
  rbase : Nat
  rlen : Nat
  newslot : Nat
  raddr : Nat
  testMode : Bool
  deriving DecidableEq, Repr

/-- A KiteLink port (Table 15-5). -/
structure KlPort where
  up : Bool
  conflict : Bool
  peer : Nat
  replays : Nat
  enabled : Bool
  route : Quad
  deriving DecidableEq, Repr

/-- A page of supervisor translation of the die control cores (R139, R399; log 20): `len` bytes of VA from `va` map to PA from `pa`. -/
structure SvMap where
  va : Nat
  pa : Nat
  len : Nat
  r : Bool
  w : Bool
  x : Bool
  deriving DecidableEq, Repr

/-- What the package reports over I3C (R411, R418): the boot failure of a die, by its stage, and at a power-up the power event before it. -/
inductive I3cReport where
  | bootFailed (die stage : Nat)
  | powerEvent
  deriving DecidableEq, Repr

/-- The package's own registers and links (file 15); `off`: the package has removed its own power, and keeps that event until its next power-up (R418); `reports`: what has gone out over I3C since, oldest first. -/
structure Pkg where
  index : Nat
  indexValid : Bool
  ctxTab : Nat
  ks : KeyStore
  kl : Vector KlPort 18
  hostWin : Vector Quad 16
  hostCap : Nat
  bmcCap : Nat
  thrStep : Nat
  thrPower : Bool
  thrTemp : Bool
  thrCnt : Nat
  hostMods : BitVec 4
  hostHeld : List Nat
  linksLost : List (Nat × Nat)
  off : Bool
  reports : List I3cReport
  deriving DecidableEq, Repr

/-- The whole machine. Memories are lists of cells in canonical form: addresses rising, no cell equal to 0, which is what an unlisted address reads as. `mem` is the plaintext held at the homes (L2) by PA, `dram` the stored bytes behind them (R330), `ueMarks` the granules (base / 512) whose stored data (1), record (2), anchor record (3) or seal operation (4) fails on its next read (R335, Table 14-8), `offers` the giver of each capability that waits to be taken, by the address of its region entry (R174), `podMem` the memory of the other packages with the sector taint of what this package stored there, `podDirty` its 512-byte units written since they were last resealed, `hostMem` that of the host; `podDenied` the ranges of it whose packages refuse this one's requests (R402), `podResident` the packages and tenants that report themselves resident there (R228), `rdcHeld` and `podHeld` the dies and the packages that hold copies of a line (R357), `stamp` how many times an L2 line has been used (R319), `lastSlot` the leaf slot that each core issued from last (R38), `master` who writes the registers of the control space from outside the dies (R399, R402). -/
structure State where
  cur : Agent
  turns : List Turn
  master : CtrlMaster
  cycle : Quad
  free : Nat
  nextEntry : Nat
  leaves : Tbl Leaf
  cores : Tbl Core
  lastSlot : Tbl Nat
  dies : Vector Die 4
  ctxs : Tbl Ctx
  parts : List Nat
  holders : Tbl Nat
  offers : Tbl Nat
  mem : List Host.Cell
  l2 : Tbl L2Line
  dram : List Host.Cell
  podMem : List Host.Cell
  podDirty : List Nat
  podTaint : Tbl (BitVec 4)
  hostMem : List Host.Cell
  podDenied : List (Nat × Nat)
  podResident : List (Nat × Nat)
  rdcHeld : Tbl (BitVec 4)
  podHeld : Tbl (BitVec 32)
  stamp : Nat
  seals : Tbl (BitVec 128)
  anchors : Tbl (BitVec 128)
  ueMarks : Tbl Nat
  pending : List Pending
  tlb : Tbl (Tbl Xlat)
  staleNotices : List (Nat × Nat)
  msgs : Tbl WsMsg
  atomQ : Tbl (List AtomReq)
  colls : List CollJoin
  arbLast : Tbl Nat
  arbCredit : Tbl Nat
  occ : Tbl (BitVec 1024)
  atab : Tbl Quad
  slowVec : List Nat
  svMap : List SvMap
  pkg : Pkg
  deriving DecidableEq, Repr

/-- The canonical form of a memory: addresses rising, no cell that reads as an unlisted one. -/
def memWf : List Host.Cell → Bool
  | [] => true
  | [(_, b)] => b != 0
  | (a, b) :: (a', b') :: m => b != 0 && decide (a < a') && memWf ((a', b') :: m)

/-- `memWf` as a proposition. -/
abbrev Memory.wf (m : List Host.Cell) : Prop := memWf m = true

/-- A die control core at reset (Table 4-8; log 1). -/
def Dcc.reset : Dcc :=
  { leaf := Leaf.idle, sv := true, prevSv := false, epc := 0, cause := 0, vec := 0, frec := 0, info := 0
    scratch := 0, farea := 0, noteEn := false, fresolve := 0, stopRes := none, evarea := 0, halted := false, started := false }

/-- A die at reset (R411 stage 0, Tables 13-1, 14-4). -/
def Die.reset : Die :=
  { dcc := Dcc.reset, rdc := [], notices := [], notePend := [], notePos := 0, noteHeld := [], queues := []
    prio := Vector.replicate 4 0, wayMask := Vector.replicate 16 0, cxl := 0, fwin := [], boot := 0
    bootHalted := false, cxlTrained := false
    tele := { temps := Vector.replicate 8 0, power := 0, corrected := [], uncorrected := [], replays := 0, bootFail := none, errCore := none } }

/-- The package's registers at reset (Tables 15-1 to 15-6; logs 1 and 21). -/
def Pkg.reset : Pkg :=
  { index := 0, indexValid := false, ctxTab := 0
    ks := { busy := 0, sel := 0, tenants := [], keys := [], key := 0, err := false, rbase := 0, rlen := 0, newslot := 0
            raddr := 0, testMode := false }
    kl := Vector.replicate 18 { up := false, conflict := false, peer := 0, replays := 0, enabled := false, route := 0 }
    hostWin := Vector.replicate 16 0, hostCap := 1800, bmcCap := 1800, thrStep := 16, thrPower := false
    thrTemp := false, thrCnt := 0, hostMods := 0b1111#4, hostHeld := [], linksLost := [], off := false, reports := [] }

/-- Entry 0 of the key store's access table at reset: host function 0, any domain, read and write (R407). -/
def keyTableEntry : Quad := BitVec.ofNat 64 (2 ^ 63 + 2 ^ 51 + 2 ^ 40 + 2 ^ 39 + 0x600 * 2 ^ 12 + 0x600)

/-- The machine right after package reset (R411): every die at boot stage 0, no context, nothing cached, no key; only the key store's access table admits anyone (R407). -/
def State.reset : State :=
  { cur := .dcc 0, turns := [], master := .host 0, cycle := 0, free := 0, nextEntry := 1, leaves := [], cores := [], lastSlot := []
    dies := Vector.replicate 4 Die.reset, ctxs := [], parts := [1], holders := [], offers := [], mem := [], l2 := [], dram := []
    podMem := [], podDirty := [], podTaint := [], podDenied := [], podResident := [], hostMem := [], rdcHeld := [], podHeld := [], stamp := 0, seals := [], anchors := [], ueMarks := [], pending := [], tlb := [], staleNotices := [], msgs := [], atomQ := []
    colls := [], arbLast := [], arbCredit := [], occ := [], atab := [(265 * 64, keyTableEntry)], slowVec := [], svMap := [], pkg := Pkg.reset }

end Sys2Proof.Machine
end

