-- ==== Sys2Proof/Machine/Base.lean ====
section
/-! DEFINITION. Access to the parts of the state, the numbering of cores, octets and partitions (R11, R142, Table 1-10, Table 15-2), and the monad of instructions that can trap or wait (R108, R110). -/

namespace Sys2Proof.Machine

/-! ## Parts of the state -/

/-- Key of a leaf slot. -/
def leafKey (core slot : Nat) : Nat := core * 4 + slot

/-- The leaf of a slot; a slot nothing has filled is idle. -/
def State.leafAt (s : State) (core slot : Nat) : Leaf := tget Leaf.idle s.leaves (leafKey core slot)

/-- Sets the leaf of a slot. -/
def State.setLeafAt (s : State) (core slot : Nat) (L : Leaf) : State :=
  { s with leaves := tset s.leaves (leafKey core slot) L }

/-- A die by number. -/
def State.die (s : State) (d : Nat) : Die := s.dies[d % 4]'(Nat.mod_lt _ (by decide))

/-- Sets a die. -/
def State.setDie (s : State) (d : Nat) (x : Die) : State :=
  { s with dies := s.dies.set (d % 4) x (Nat.mod_lt _ (by decide)) }

/-- Sets the control core of a die. -/
def State.setDcc (s : State) (d : Nat) (c : Dcc) : State := s.setDie d { s.die d with dcc := c }

/-- The registers of an agent. -/
def State.leafOf (s : State) : Agent → Leaf
  | .leaf c k => s.leafAt c k
  | .dcc d => (s.die d).dcc.leaf

/-- Sets the registers of an agent. -/
def State.setLeafOf (s : State) (a : Agent) (L : Leaf) : State :=
  match a with
  | .leaf c k => s.setLeafAt c k L
  | .dcc d => s.setDcc d { (s.die d).dcc with leaf := L }

/-- The registers of the agent that executes. -/
def State.leaf (s : State) : Leaf := s.leafOf s.cur

/-- Sets the registers of the agent that executes. -/
def State.setLeaf (s : State) (L : Leaf) : State := s.setLeafOf s.cur L

/-- A core's own state. -/
def State.core (s : State) (c : Nat) : Core := tget Core.empty s.cores c

/-- Sets a core's own state. -/
def State.setCore (s : State) (c : Nat) (x : Core) : State := { s with cores := tset s.cores c x }

/-- A context. -/
def State.ctx (s : State) (c : Nat) : Ctx := tget Ctx.free s.ctxs c

/-- Sets a context. -/
def State.setCtx (s : State) (c : Nat) (x : Ctx) : State := { s with ctxs := tset s.ctxs c x }

/-- The context of the executing leaf. -/
def State.myCtx (s : State) : Ctx := s.ctx s.leaf.ctx

/-- The supervisor level of the executing agent (R106): a leaf runs user code. -/
def State.priv (s : State) : Bool :=
  match s.cur with
  | .leaf _ _ => false
  | .dcc d => (s.die d).dcc.sv

/-! ## Cores, octets, partitions -/

/-- Die of a core number. -/
def coreDie (c : Nat) : Nat := c / 128 % 4
/-- Number of a core within its die. -/
def coreNum (c : Nat) : Nat := c % 128
/-- A string core. -/
def coreIsString (c : Nat) : Bool := c / 512 % 2 = 1
/-- Leaf slots of a core (Table 1-1). -/
def coreSlots (c : Nat) : Nat := if coreIsString c then 2 else 4
/-- Octet of a core, die * 16 + octet; octet o of a die has the string cores 2o and 2o + 1 (R142, R369). -/
def coreOctet (c : Nat) : Nat := coreDie c * 16 + (if coreIsString c then coreNum c / 2 else coreNum c / 8)
/-- Compute core of a die. -/
def computeCore (die n : Nat) : Nat := die * 128 + n
/-- String core of a die. -/
def stringCore (die n : Nat) : Nat := 512 + die * 128 + n

/-- The core of the executing agent; a die control core takes the number 1024 + die, which no core has. -/
def State.curCore (s : State) : Nat :=
  match s.cur with
  | .leaf c _ => c
  | .dcc d => 1024 + d

/-- Die of the executing agent. -/
def State.curDie (s : State) : Nat :=
  match s.cur with
  | .leaf c _ => coreDie c
  | .dcc d => d

/-- FEATURE of a core (Table 1-8). -/
def State.feature (s : State) (c : Nat) : Nat :=
  (if coreIsString c then 4 else 1) + (if s.slowVec.contains c then 0 else 2)

/-- First octet of a partition node (R142). -/
def nodeFirst (n : Nat) : Nat := (n - 2 ^ ilog2 n) * (64 >>> ilog2 n)
/-- Octets of a partition node (R142). -/
def nodeOctets (n : Nat) : Nat := 64 >>> ilog2 n
/-- An octet lies in a node. -/
def octetIn (n o : Nat) : Bool := n ≠ 0 && nodeFirst n ≤ o && o < nodeFirst n + nodeOctets n
/-- A core lies in a node. -/
def coreIn (n c : Nat) : Bool := octetIn n (coreOctet c)

/-- The cores of a partition in increasing number, the compute cores before the string cores. -/
def nodeCores (n : Nat) : List Nat :=
  ((List.range 512).filter (coreIn n)) ++
    ((List.range 128).map fun i => stringCore (i / 32) (i % 32)).filter (coreIn n)

/-- A record qualifies for a core: the rule's kind, and FEATURE covers FEAT (R37, R374). -/
def State.qualifies (s : State) (onString : Bool) (feat c : Nat) : Bool :=
  coreIsString c == onString && (s.feature c &&& feat) == feat

/-- Master id (Table 15-2). -/
def masterId (c : Nat) : Nat :=
  if 1024 ≤ c then 2 * 512 + (c - 1024)
  else if coreIsString c then 512 + coreDie c * 32 + coreNum c
  else coreDie c * 128 + coreNum c

/-! ## Instructions that trap or wait -/

/-- A trap on its way to being taken: cause, faulting address, lowest failing element, whether the saved PC is the next word, cause detail, and the matrix job of a deferred fault (R139, R379). -/
structure Trap where
  cause : Cause
  addr : Nat := 0
  elem : Nat := 0xFFFF
  next : Bool := false
  info : Quad := 0
  mx : Option MxFault := none
  deriving DecidableEq, Repr

/-- How an instruction can end other than by completing. -/
inductive Halt where
  | trap (t : Trap)
  | wait
  deriving DecidableEq, Repr

/-- An instruction's meaning over the state. A trap or a wait keeps the state reached, in which the instruction's own results have not been written. -/
abbrev M := EStateM Halt State

/-- A trap with a cause and an address. -/
def fail {α : Type} (c : Cause) (addr : Nat := 0) : M α := throw (.trap { cause := c, addr := addr })

/-- An R110 wait. -/
def waitHere {α : Type} : M α := throw .wait

/-- Applies a function to the state. -/
def upd (f : State → State) : M Unit := modify f

/-- A meaning run to a cause instead of a trap: how engine jobs and the Nest use the checks of leaf accesses (R220). -/
def attempt {α : Type} (m : M α) : M (Except Trap α) := fun s =>
  match m s with
  | .ok a s' => .ok (.ok a) s'
  | .error (.trap t) s' => .ok (.error t) s'
  | .error .wait s' => .error .wait s'

/-- The state a meaning leaves when it cannot trap; a trap leaves what it had done. -/
def runIgnore {α : Type} (m : M α) (s : State) : State :=
  match m s with
  | .ok _ s' => s'
  | .error _ s' => s'

/-- Faults of a fill report the faulting address (R178). -/
def atAddr {α : Type} (ea : Nat) (m : M α) : M α := do
  match ← attempt m with
  | .ok a => pure a
  | .error t => throw (.trap { t with addr := ea })

/-- Counts n tainting events in a context (R358). -/
def State.countTaint (s : State) (c n : Nat) : State :=
  if n = 0 || 1024 ≤ c then s else
  let x := s.ctx c
  s.setCtx c { x with taintCnt := x.taintCnt + BitVec.ofNat 64 n }

/-- Sets an occupancy bit (R390); 1024 stands for no context. -/
def State.occSet (s : State) (inst c : Nat) : State :=
  if 1024 ≤ c then s else { s with occ := tset s.occ inst (tget 0 s.occ inst ||| BitVec.ofNat 1024 (2 ^ c)) }

/-- Occupancy instances (Table 14-9): of a core its L1, its context cache, its combining buffer and matrix queue, its engine jobs and atomic handler; of a die its RDC and its Nest; octets, L2 slice and partition, translation caches. -/
def occL1 (c : Nat) : Nat := c
def occImg (c : Nat) : Nat := 10000 + c
def occBuf (c : Nat) : Nat := 12000 + c
def occJob (c : Nat) : Nat := 14000 + c
def occNest (d : Nat) : Nat := 2010 + d
def occDie (d : Nat) : Nat := 2000 + d
def occOctet (o : Nat) : Nat := 2100 + o
def occL2 (slice part : Nat) : Nat := 3000 + slice * 16 + part
def occTlb (unit : Nat) : Nat := 6000 + unit

/-- The rule of the record a leaf holds, from the launch of its context. -/
def Ctx.ruleOf (x : Ctx) (r : Nat) : Option Rule := x.launch.bind fun l => l.rules[r]?

/-- The record of a context. -/
def Ctx.record (x : Ctx) (i : Nat) : Option Rec := tfind x.recs i

/-- The rule that the executing leaf runs. -/
def State.myRule (s : State) : Option Rule :=
  (s.myCtx.record s.leaf.recIdx).bind fun r => s.myCtx.ruleOf r.rule

end Sys2Proof.Machine
end

