-- ==== Sys2Proof/Machine/Blocks.lean ====
section
/-! DEFINITION. Blocks with scale words, the codebook, plane layout, quantisation and the matrix unit's window arithmetic (R64-R81). -/

namespace Sys2Proof

/-- Planes of a decoded element for a budget of 8, 16 or 32 bytes per block (R64). -/
def planesOf (B : Nat) : Nat := if B = 8 then 4 else if B = 16 then 8 else 16

/-- The default codebook entry k (R73): eight 2-bit magnitudes. -/
def defaultEntry (k : Nat) : Nat :=
  packElems 2 ((List.range 8).map fun i => if field k i 1 = 0 then 0 else 1 + field k ((i + 4) % 8) 1)

/-- The eight stage values of a codebook index (R72); `tab` gives a table's entries. -/
def codebookStage (tab : Nat → Nat) (index : Nat) : List Int :=
  let m := tab (field index 8 8)
  let o := field index 0 1
  (List.range 8).map fun i =>
    let v : Int := 2 * elem 2 i m + o
    let neg := if i < 7 then field index (1 + i) 1 = 1 else popcount 7 (index >>> 1) % 2 = 1
    if neg then -v else v

/-- The 32 decoded integers of a block of tag 0, 1 or 2 (R66, R69, R72). -/
def blockInts (B tag payload : Nat) (tab : Nat → Nat) : List Int :=
  match tag with
  | 0 => (List.range 32).map fun i => toS (B / 4) (elem (B / 4) i payload)
  | 1 =>
    let S := B / 8
    ((List.range 4).map fun g =>
      ((List.range S).map fun j => codebookStage tab (elem 16 (g * S + j) payload)).foldl
        (fun acc c => List.zipWith (fun a b => 8 * a + b) acc c) (List.replicate 8 0)).flatten
  | _ => List.replicate 32 0

/-- The check of a scale word: reserved field, then tag (R65, R70). -/
def scaleFault (w : Nat) : Option Cause :=
  if field w 10 6 ≠ 0 then some .fwinScaleRsvd else if field w 8 2 = 3 then some .fwinTagRsvd else none

/-- A scale word of tag ZERO with SCALE 0: what pads a chunk (R224). -/
def zeroScale : Nat := 0x0200

/-- D planes of 256 integers, 256 bits each, the most significant plane first (R74). -/
def planes (D : Nat) (xs : List Int) : List Nat :=
  let ps := xs.map (narrow D)
  (List.range D).map fun p => packElems 1 (ps.map fun x => field x (D - 1 - p) 1)

/-- The integer of element k read from the top N planes of D (R75). -/
def planeElem (N : Nat) (ps : List Nat) (k : Nat) : Int :=
  toS N ((ps.take N).foldl (fun acc p => 2 * acc + field p k 1) 0)

/-- A chunk of 256 elements decoded from up to eight blocks (payload, scale word), `left` elements of the row being left (R70, R71, R224): the planes and the scale words. -/
def decodeChunk (B : Nat) (tab : Nat → Nat) (blocks : List (Nat × Nat)) (left : Nat) : Except Cause (List Nat × List Nat) :=
  match blocks.findSome? fun (b : Nat × Nat) => scaleFault b.2 with
  | some c => .error c
  | none =>
    let ints := ((blocks.map fun (b : Nat × Nat) => blockInts B (field b.2 8 2) b.1 tab).flatten ++ List.replicate 256 0).take 256
    let ints := ints.take left ++ List.replicate (256 - left) 0
    .ok (planes (planesOf B) ints, (blocks.map (·.2) ++ List.replicate 8 zeroScale).take 8)

/-- QuantBlock (R76): the scale word, the elements and the flags. -/
def quantBlock (D : Nat) (xs : List Fv) : Nat × List Int × Flags :=
  let L : Nat := 2 ^ (D - 1) - 1
  if xs.any Fv.isNaN then (0xFF, xs.map fun _ => 0, flagIV)
  else
    let fits (q : Int) : Bool := xs.all fun x => match x with
      | .fin _ m e => (roundAt .rne false m e q).1 ≤ L
      | _ => false
    let e : Int := match firstNat 255 (fun i => fits ((i : Int) - 127)) with
      | some i => (i : Int) - 127
      | none => 127
    let one (x : Fv) : Int × Bool := match x with
      | .fin n m ex =>
        let r := (roundAt .rne false m ex e).1
        (if n then -(min r L : Nat) else (min r L : Nat), L < r)
      | .inf n => (if n then -(L : Int) else L, true)
      | .nan _ => (0, false)
    let qs := xs.map one
    ((e + 127).toNat, qs.map (·.1), if qs.any (·.2) then flagSAT else 0)

/-- Align of R79: the block sum in units of 2^(X-16), and whether bits were lost. -/
def alignBlock (P x X : Int) : Int × Bool :=
  let sh := x - X + 16
  if 0 ≤ sh then (P * 2 ^ sh.toNat, false)
  else
    let t := P.natAbs >>> (-sh).toNat
    (if P < 0 then -(t : Int) else t, t <<< (-sh).toNat ≠ P.natAbs)

/-- Promote of R80 on an f32 pattern. A signalling NaN that mxwr put into the accumulator becomes the canonical NaN here and sets no flag (DEDUCED, log 65). -/
def promote (C : Nat) (A X : Int) (sticky groupNaN : Bool) : Nat × Flags :=
  match fdecode fmtF32 C with
  | .nan _ => (fmtF32.nan, 0)
  | .inf n => if groupNaN then (fmtF32.nan, 0) else (finf fmtF32 n, 0)
  | .fin n m e =>
    if groupNaN then (fmtF32.nan, 0)
    else if A = 0 && !sticky then (C, 0)
    else
      let (tn, tm, te) := exactAdd .rne n m e (A < 0) A.natAbs (X - 16)
      if !sticky then fround fmtF32 .rne false tn tm te false
      else if tm = 0 then (0, flagNX)
      else
        let (r, f) := fround fmtF32 .rne false tn tm te true
        (r, f ||| flagNX)

/-- One group of blocks for one accumulator element: each participating block gives (P_j, x_j, NaN). A group with none changes nothing (R78). -/
def promoteGroup (C : Nat) (bs : List (Int × Int × Bool)) : Nat × Flags :=
  match bs with
  | [] => (C, 0)
  | b :: rest =>
    let X := rest.foldl (fun m b => max m b.2.1) b.2.1
    let al := bs.map fun b => alignBlock b.1 b.2.1 X
    promote C ((al.map (·.1)).foldl (· + ·) 0) X (al.any (·.2)) (bs.any (·.2.2))

/-! ## Merge operators (Table 2-9) -/

/-- The identity of a view operator, by its code of Table 5-5. -/
def viewIdent (op : Nat) : BitVec 32 :=
  match op with
  | 0 => 0x80000000 | 1 => 0xFF800000 | 2 => 0x7F800000 | 3 => 0 | 4 => 0x80000000 | 5 => 0x7FFFFFFF
  | 6 => 0 | 7 => 0xFFFFFFFF | _ => 0

/-- left ⊕ right of a view operator on 32-bit elements (R82, R83): the element and its flags. -/
def viewMerge (op : Nat) (a b : BitVec 32) : BitVec 32 × Flags :=
  let d := fdecode fmtF32
  let f (r : Nat × Flags) : BitVec 32 × Flags := (BitVec.ofNat 32 r.1, r.2)
  match op with
  | 0 => f (fadd fmtF32 .rne false (d a.toNat) (d b.toNat))
  | 1 => f (fminmax fmtF32 true a.toNat b.toNat (d a.toNat) (d b.toNat))
  | 2 => f (fminmax fmtF32 false a.toNat b.toNat (d a.toNat) (d b.toNat))
  | 3 =>
    let z := a.toInt + b.toInt
    (a + b, if z < -(2 ^ 31) || 2 ^ 31 ≤ z then flagOF else 0)
  | 4 => (if a.toInt < b.toInt then b else a, 0)
  | 5 => (if b.toInt < a.toInt then b else a, 0)
  | 6 => (a ||| b, 0)
  | 7 => (a &&& b, 0)
  | _ => (a ^^^ b, 0)

end Sys2Proof
end

