-- ==== Sys2Proof/Machine/Cipher.lean ====
section
/-! DEFINITION. The cipher of sealed memory (R330, R407): AES-256 in counter mode, GMAC, and the key derivation of SP 800-108 with AES-CMAC. A 128-bit value's most significant byte is the cipher's first byte (log 11). -/

namespace Sys2Proof

/-- Multiplication by x in GF(2^8) of AES. -/
def aesX (a : Nat) : Nat := let b := 2 * a; if 256 ≤ b then b ^^^ 0x11B else b

/-- The AES S-box, byte x at bits [8x + 7 : 8x]. -/
def aesBox : Nat := 0x16bb54b00f2d99416842e6bf0d89a18cdf2855cee9871e9b948ed9691198f8e19e1dc186b95735610ef6034866b53e708a8bbd4b1f74dde8c6b4a61c2e2578ba08ae7a65eaf4566ca94ed58d6d37c8e779e4959162acd3c25c2406490a3a32e0db0b5ede14b8ee4688902a22dc4f816073195d643d7ea7c41744975fec130ccdd2f3ff1021dab6bcf5389d928f40a351a89f3c507f02f94585334d43fbaaefd0cf584c4a39becb6a5bb1fc20ed00d153842fe329b3d63b52a05a6e1b1a2c830975b227ebe28012079a059618c323c7041531d871f1e5a534ccf73f362693fdb7c072a49cafa2d4adf04759fa7dc982ca76abd7fe2b670130c56f6bf27b777c63

/-- SubBytes of one byte. -/
def aesSub (x : Nat) : Nat := (aesBox >>> (8 * x)) % 256

/-- A four-byte word as a list of bytes, exclusive-or. -/
def xorL : List Nat → List Nat → List Nat
  | a :: as, b :: bs => (a ^^^ b) :: xorL as bs
  | _, _ => []

/-- The next words of the AES-256 key schedule: `ws` holds the words so far, newest first; n words are left, i is the next index. -/
def aesSchedule : Nat → Nat → Nat → List (List Nat) → List (List Nat)
  | 0, _, _, ws => ws.reverse
  | n + 1, i, rcon, ws =>
    let prev := ws.headD []
    let t :=
      if i % 8 = 0 then
        match (prev.drop 1 ++ prev.take 1).map aesSub with
        | a :: r => (a ^^^ rcon) :: r
        | [] => []
      else if i % 8 = 4 then prev.map aesSub
      else prev
    aesSchedule n (i + 1) (if i % 8 = 0 then aesX rcon else rcon) (xorL ((ws.drop 7).headD []) t :: ws)

/-- The bytes of an n-byte value, most significant first. -/
def beBytes (n x : Nat) : List Nat := (List.range n).map fun i => (x >>> (8 * (n - 1 - i))) % 256

/-- The value of a list of bytes, most significant first. -/
def ofBe (bs : List Nat) : Nat := bs.foldl (fun a b => a * 256 + b) 0

/-- A list cut into groups of four. -/
def four : List Nat → List (List Nat)
  | a :: b :: c :: d :: r => [a, b, c, d] :: four r
  | _ => []

/-- The 15 round keys of AES-256, 16 bytes each. -/
def aesKeys (key : BitVec 256) : List (List Nat) :=
  let ws := aesSchedule 52 8 1 (four (beBytes 32 key.toNat)).reverse
  (List.range 15).map fun r => ((ws.drop (4 * r)).take 4).flatten

/-- ShiftRows: byte i of the result is byte (5i mod 16) (columns of four bytes). -/
def aesShift (b : List Nat) : List Nat := (List.range 16).map fun i => b.getD (5 * i % 16) 0

/-- MixColumns of one column. -/
def aesMixCol : List Nat → List Nat
  | [a, b, c, d] =>
    let t := a ^^^ b ^^^ c ^^^ d
    [a ^^^ t ^^^ aesX (a ^^^ b), b ^^^ t ^^^ aesX (b ^^^ c), c ^^^ t ^^^ aesX (c ^^^ d), d ^^^ t ^^^ aesX (d ^^^ a)]
  | c => c

/-- The rounds after the first key addition. -/
def aesRounds : List (List Nat) → List Nat → List Nat
  | [], b => b
  | [k], b => xorL (aesShift (b.map aesSub)) k
  | k :: ks, b => aesRounds ks (xorL ((four (aesShift (b.map aesSub))).map aesMixCol).flatten k)

/-- AES-256 of one block under expanded keys. -/
def aesBlock (ks : List (List Nat)) (x : Nat) : Nat :=
  match ks with
  | k :: rest => ofBe (aesRounds rest (xorL (beBytes 16 x) k))
  | [] => 0

/-- Multiplication in GF(2^128) of GCM, bit 127 being the coefficient of x^0. -/
def gcmMul (x y : Nat) : Nat :=
  let step := fun (zv : Nat × Nat) i =>
    let z := if x.testBit (127 - i) then zv.1 ^^^ zv.2 else zv.1
    (z, if zv.2.testBit 0 then (zv.2 / 2) ^^^ (0xE1 <<< 120) else zv.2 / 2)
  ((List.range 128).foldl step (0, y)).1

/-- GHASH of AAD of one block and ciphertext blocks, with the length block (R330). -/
def ghash (h aad : Nat) (blocks : List Nat) : Nat :=
  let len := (128 <<< 64) + 128 * blocks.length
  (blocks ++ [len]).foldl (fun y b => gcmMul (y ^^^ b) h) (gcmMul aad h)

/-- Doubling of the CMAC subkeys. -/
def cmacDouble (x : Nat) : Nat := (2 * x) % 2 ^ 128 ^^^ (if x.testBit 127 then 0x87 else 0)

/-- Bytes cut into blocks of 16, the last one possibly short. -/
def blocks16 : Nat → List Nat → List (List Nat)
  | 0, _ => []
  | n + 1, bs => bs.take 16 :: blocks16 n (bs.drop 16)

/-- AES-CMAC of a message of bytes. -/
def cmac (key : BitVec 256) (msg : List Nat) : Nat :=
  let ks := aesKeys key
  let k1 := cmacDouble (aesBlock ks 0)
  let n := max 1 (ceilDiv msg.length 16)
  let bl := blocks16 n msg
  let last := bl.getLastD []
  let lastV := if last.length = 16 then ofBe last ^^^ k1
    else ofBe (last ++ [0x80] ++ List.replicate (15 - last.length) 0) ^^^ cmacDouble k1
  aesBlock ks (((bl.dropLast.map ofBe).foldl (fun x b => aesBlock ks (x ^^^ b)) 0) ^^^ lastV)

/-- The key of a slot and generation (R407): two iterations of the KDF in counter mode. How SP 800-108's fixed input lays out the counter, the label, slot, generation, tenant and length is `Config.kdfInput`. -/
def slotGenKey (root : BitVec 256) (slot gen tenant : Nat) : BitVec 256 :=
  let part := fun i => cmac root ((Config.kdfInput i slot gen tenant).map (·.toNat))
  BitVec.ofNat 256 (part 1 * 2 ^ 128 + part 2)

/-- The counter block of block b of a granule (Table 11-6); with `j` the block J. -/
def counterBlock (slot gen ctr pa : Nat) (g512 j : Bool) (b : Nat) : Nat :=
  slot * 2 ^ 120 + gen * 2 ^ 112 + ctr * 2 ^ 88 + (pa >>> 9) * 2 ^ 45 + (if j then 2 ^ 44 else 0)
    + (if g512 then 256 else 0) + b

/-- Encryption or decryption of a granule's bytes in counter mode, block by block. -/
def ctrCrypt (ks : List (List Nat)) (slot gen ctr pa : Nat) (g512 : Bool) (blocks : List Nat) : List Nat :=
  blocks.zipIdx.map fun (x, b) => x ^^^ aesBlock ks (counterBlock slot gen ctr pa g512 false b)

/-- The tag of a granule (R330): the low 64 bits of the GMAC of its ciphertext under the record's fields [106:64]. -/
def sealTag (ks : List (List Nat)) (rec slot gen ctr pa : Nat) (g512 : Bool) (ct : List Nat) : Nat :=
  let h := aesBlock ks 0
  (ghash h (field rec 64 43) ct ^^^ aesBlock ks (counterBlock slot gen ctr pa g512 true 0)) % 2 ^ 64

end Sys2Proof
end

