-- ==== Sys2Proof/Machine/Mem.lean ====
section
/-! DEFINITION. Memory below the L1: homes (R308-R311), access tables (R400-R402), sealed granules (R328-R339), L2 lines and their stale notices (R317-R321, R357), format-window fills (R340-R342), and translation (R322-R326). -/

namespace Sys2Proof.Machine

/-- Who makes an access: its domain, core and die, key slot, master id, and whether it is the Nest or system software (R34, R331, R400). -/
structure Who where
  dom : Option Nat
  core : Nat
  die : Nat
  slot : Nat
  id : Nat
  sup : Bool
  deriving DecidableEq, Repr

/-- The context that an access is for, 1024 for none. -/
def Who.owner (w : Who) : Nat := w.dom.getD 1024

/-- Accesses on behalf of a context by a core. -/
def State.whoFor (s : State) (core ctx : Nat) : Who :=
  ⟨some ctx, core, coreDie core, (s.ctx ctx).desc.slot, masterId core, false⟩

/-- Accesses of a die's control core, which seals under slot 0 (R338; log 13). -/
def whoDcc (d : Nat) : Who := ⟨none, 1024 + d, d, 0, masterId (1024 + d), true⟩

/-- Accesses of the executing agent. -/
def State.who (s : State) : Who :=
  match s.cur with
  | .leaf c _ => s.whoFor c s.leaf.ctx
  | .dcc d => whoDcc d

/-- Accesses of the Nest for a context to its SV = 1 areas, sealed under slot 0 (R338). They have the Nest's rights, those of the packet processor at KOBJ, ARGS and SIG with them (DESIGN CHOICE, log 73). -/
def whoNest (die ctx : Nat) : Who := ⟨some ctx, 1024 + die, die, 0, masterId (1024 + die), true⟩

/-! ## Homes -/

/-- Where a physical address lives (Table 11-1). -/
inductive Home where
  | lpddr (die sc off : Nat)
  | cxl (die sc off : Nat)
  | fwin (die sc win off : Nat)
  | pod (pkg : Nat)
  | none
  deriving DecidableEq, Repr

/-- Bytes populated behind the CXL port of a die: the capacity less its carve-out (R308, R310). -/
def Die.cxlBytes (d : Die) : Nat :=
  let cap := field d.cxl.toNat 32 32 * 2 ^ 30
  cap - cap / 32

/-- The home of a physical address (R308-R310, R341). Table 11-1 gives bit 43 of the CXL address of another package no meaning; the model takes it as part of the address (DESIGN CHOICE, log 42). -/
def State.homeOf (s : State) (pa : Nat) : Home :=
  if pa < 0xF800000000 then
    let ch := field pa 12 7
    .lpddr (ch / 32) (ch % 32) ((pa >>> 19) <<< 12 ||| pa % 4096)
  else if 0x1000000000000 ≤ pa && pa < 0x1080000000000 then
    let d := (pa - 0x1000000000000) >>> 41
    let off := (pa - 0x1000000000000) % 2 ^ 41
    if off < (s.die d).cxlBytes then .cxl d (field pa 12 5) off else .none
  else if 0x4000000000000 ≤ pa && pa < 0x8000000000000 then
    let k := field pa 45 5
    if k = s.pkg.index || (field pa 44 1 = 0 && 0xF800000000 ≤ pa % 2 ^ 44) then .none else .pod k
  else if 0x8000000000000 ≤ pa && pa < 2 ^ 52 then
    if field pa 40 4 < 16 then .fwin (field pa 49 2) (field pa 44 5) (field pa 40 4) (pa % 2 ^ 40) else .none
  else .none

/-- Die and string core of a home in this package. -/
def Home.place : Home → Option (Nat × Nat)
  | .lpddr d s _ => some (d, s)
  | .cxl d s _ => some (d, s)
  | .fwin d s _ _ => some (d, s)
  | _ => Option.none

/-- The home die of an address, die 0 for one that has none. -/
def State.homeDie (s : State) (pa : Nat) : Nat := ((s.homeOf pa).place.map (·.1)).getD 0

/-- A die link is lost, or one of the dies halted at boot stage 0 (R398, R411). -/
def State.linkLost (s : State) (a b : Nat) : Bool :=
  a ≠ b && (s.pkg.linksLost.contains (min a b, max a b) || (s.die a).bootHalted || (s.die b).bootHalted)

/-! ## Access tables -/

/-- Target numbers: L2 slices 0-127, string cores 128-255, CXL ports 256-259, die control blocks 260-263, package control block 264, key store 265. Quad i of target t is `atab` entry t * 64 + i; i = 32 is ATCTL. -/
def tgtL2 (die sl : Nat) : Nat := die * 32 + sl
def tgtString (die sc : Nat) : Nat := 128 + die * 32 + sc
def tgtCxl (die : Nat) : Nat := 256 + die
def tgtDie (die : Nat) : Nat := 260 + die
def tgtPkg : Nat := 264
def tgtKey : Nat := 265

/-- A valid entry matches the request (R401). -/
def State.admits (s : State) (target id : Nat) (dom : Option Nat) (write : Bool) : Bool :=
  (List.range 32).any fun i =>
    let e := (tget 0 s.atab (target * 64 + i)).toNat
    e.testBit 63 && field e 0 12 ≤ id && id ≤ field e 12 12
      && (e.testBit 51 || (match dom with | some d => field e 41 10 = d % 1024 | none => false))
      && e.testBit (if write then 40 else 39)

/-- Records a refusal in ATCTL (R402). -/
def State.refuse (s : State) (target id : Nat) : State :=
  let k := target * 64 + 32
  let c := (tget 0 s.atab k).toNat
  let n := min 0xFFFF (field c 0 16 + 1)
  let vm := if c.testBit 31 then field c 32 12 else id
  { s with atab := tset s.atab k (BitVec.ofNat 64 (field c 63 1 * 2 ^ 63 + vm * 2 ^ 32 + 2 ^ 31 + n)) }

/-- A request arrives at a target (R401): refused, it faults XLAT_PERM. -/
def arrive (target : Nat) (w : Who) (rd wr : Bool) : M Unit := do
  let s ← get
  if (!rd || s.admits target w.id w.dom false) && (!wr || s.admits target w.id w.dom true) then pure ()
  else do
    upd fun s => s.refuse target w.id
    fail .xlatPerm

/-- A KiteLink route to a package (R408). -/
def State.podRoute (s : State) (k : Nat) : Bool :=
  s.pkg.kl.any fun p => p.up && p.enabled && !p.conflict && p.route.toNat.testBit k

/-- The memory behind an address's CXL port does not answer: the link is down, or no expander is enumerated (R310, R406). -/
def State.cxlGone (s : State) (pa : Nat) : Bool :=
  match s.homeOf pa with
  | .cxl d _ _ => !(s.die d).cxl.toNat.testBit 0 || !(s.die d).cxl.toNat.testBit 1
  | _ => false

/-- A request reaches the home of an address (R310, R323, R341, R398, R401, R408). -/
def arriveHome (w : Who) (pa : Nat) (rd wr : Bool) : M Unit := do
  let s ← get
  match s.homeOf pa with
  | .lpddr d sc _ =>
    if s.linkLost w.die d then fail .homeUnreachable else arrive (tgtL2 d sc) w rd wr
  | .cxl d sc _ =>
    if s.linkLost w.die d then fail .homeUnreachable
    else if s.cxlGone pa then fail .cxlDown
    else do
      arrive (tgtCxl d) w rd wr
      arrive (tgtL2 d sc) w rd wr
  | .fwin d sc _ _ =>
    if wr then fail .xlatPerm
    else if s.linkLost w.die d then fail .homeUnreachable
    else arrive (tgtL2 d sc) w rd wr
  | .pod k =>
    if !s.podRoute k then fail .homeUnreachable
    else if s.podDenied.any fun (a, b) => a ≤ pa && pa < b then fail .xlatPerm
    else pure ()
  | .none => fail .xlatPaRange

/-! ## Seal records -/

def recZ (r : BitVec 128) : Bool := r.toNat.testBit 106
def recT (r : BitVec 128) : Bool := r.toNat.testBit 105
def recQ (r : BitVec 128) : Bool := r.toNat.testBit 104
def recSlot (r : BitVec 128) : Nat := field r.toNat 96 8
def recGen (r : BitVec 128) : Nat := field r.toNat 88 8
def recCtr (r : BitVec 128) : Nat := field r.toNat 64 24
def recTag (r : BitVec 128) : Nat := field r.toNat 0 64

/-- The record that memory initialisation writes (R412). -/
def recInit : BitVec 128 := BitVec.ofNat 128 (2 ^ 106)

/-- A record with Z 0 and Q 0 (R332). -/
def recMake (t : Bool) (slot gen ctr tag : Nat) : BitVec 128 :=
  BitVec.ofNat 128 ((if t then 2 ^ 105 else 0) + slot * 2 ^ 96 + gen * 2 ^ 88 + ctr * 2 ^ 64 + tag)

/-- Size of a granule (R328). -/
def granSize (g512 : Bool) : Nat := if g512 then 512 else 4096
/-- Base of the granule of an address. -/
def granBase (pa : Nat) (g512 : Bool) : Nat := pa - pa % granSize g512

/-- The off-chip record of the granule at `base` (R329). -/
def State.sealRec (s : State) (base : Nat) : BitVec 128 := tget recInit s.seals (base / 512)

/-- Expanded key of a slot and generation, when the slot is loaded (R330, R407). -/
def State.keyOf (s : State) (slot gen : Nat) : Option (List (List Nat)) :=
  (tfind s.pkg.ks.keys slot).map fun root => aesKeys (slotGenKey root slot gen (tget 0 s.pkg.ks.tenants slot))

/-- Stored bytes as blocks, the first byte the most significant. -/
def bytesToBlocks (bs : List Byte) : List Nat := (blocks16 (bs.length / 16) (bs.map (·.toNat))).map ofBe

/-- Blocks as bytes. -/
def blocksToBytes (bl : List Nat) : List Byte := (bl.map (beBytes 16)).flatten.map (BitVec.ofNat 8)

/-- FillGranule (R331) without installing: the plaintext and the record checked, or the cause and whether the granule is quarantined for it. What lies behind a port that is down cannot be read (R310). -/
def State.checkGranule (s : State) (base slot : Nat) (g512 anchor : Bool) : Except (Cause × Bool) (List Byte × BitVec 128) :=
  let rec0 := s.sealRec base
  let mark := tget 0 s.ueMarks (base / 512)
  let body (r : BitVec 128) : Except (Cause × Bool) (List Byte × BitVec 128) :=
    if recZ r then .ok (List.replicate (granSize g512) 0, r)
    else if mark = 1 then .error (.memPoison, true)
    else if mark = 4 then .error (.sealEngineUe, false)
    else
      match s.keyOf (recSlot r) (recGen r) with
      | none => .error (.sealKeyAbsent, false)
      | some ks =>
        let ct := bytesToBlocks (readBytes s.dram base (granSize g512))
        if sealTag ks r.toNat (recSlot r) (recGen r) (recCtr r) base g512 ct ≠ recTag r then .error (.sealTagFail, true)
        else .ok (blocksToBytes (ctrCrypt ks (recSlot r) (recGen r) (recCtr r) base g512 ct), r)
  if s.cxlGone base then .error (.cxlDown, false)
  else if mark = 2 then .error (.sealRecordUe, true)
  else if recQ rec0 then .error (.sealQuarantined, false)
  else if field rec0.toNat 107 21 ≠ 0 then .error (.sealRecordBad, true)
  else if recSlot rec0 ≠ slot then .error (.sealTenant, false)
  else if (tfind s.pkg.ks.keys (recSlot rec0)).isNone then .error (.sealKeyAbsent, false)
  else if anchor then
    if mark = 3 then .error (.sealAnchorUe, true)
    else match tfind s.anchors (base / 512) with
    | none => .error (.sealRecordBad, false)
    | some a =>
      if (recSlot rec0, recGen rec0, recCtr rec0, recZ rec0) ≠ (recSlot a, recGen a, recCtr a, recZ a) then
        .error (.sealRollback, true)
      else body a
  else body rec0

/-! ## Lines -/

/-- Replacement priority that an access gives a line it touches (Tables 3-6, 11-2): its hint in place of the region's class, except that no hint pins or unpins. -/
def Attr.prio (a : Attr) : Nat :=
  if a.cls = 0 then 0 else match a.hint with | 1 => 1 | 2 => 3 | _ => a.cls

/-- The access leaves no line in the L2 that was not there (Table 3-6). -/
def Attr.noL2 (a : Attr) : Bool := a.cls ≠ 0 && a.hint = 3

/-- A new L2 line with nothing present. -/
def L2Line.fresh (slot owner : Nat) (attr : Attr) : L2Line :=
  { present := 0, dirty := 0, taint := 0, slot := slot, owner := owner, attr := attr, frozen := false
    prio := attr.prio, used := 0 }

/-- Mask of n bytes of a line from byte `off`. -/
def byteMask (off n : Nat) : BitVec 128 := BitVec.ofNat 128 (ones off n)

/-- The sectors of a line that a byte mask touches. -/
def sectorsOf (mask : BitVec 128) : Nat := bitsOf 4 fun i => elem 32 i mask.toNat ≠ 0
/-- The sectors of a line that a byte mask covers whole. -/
def sectorsWhole (mask : BitVec 128) : Nat := bitsOf 4 fun i => elem 32 i mask.toNat = 2 ^ 32 - 1

/-- Sector taint after a store of taint `t` to the bytes of a mask (R184). -/
def storeTaint (old : BitVec 4) (mask : BitVec 128) (t : BitVec 4) : BitVec 4 :=
  let whole := BitVec.ofNat 4 (sectorsWhole mask)
  let part := BitVec.ofNat 4 (sectorsOf mask)
  (old &&& ~~~whole) ||| (t &&& part)

/-- Slice number (die * 32 + slice) of a line's home in this package. -/
def State.sliceOf (s : State) (pa : Nat) : Nat :=
  match (s.homeOf pa).place with
  | some (d, sc) => d * 32 + sc
  | none => 0

/-- n bytes of an address, within one line, are present in the home L2. -/
def State.isPresent (s : State) (pa n : Nat) : Bool :=
  match tfind s.l2 (pa / 128) with
  | some l => decide ((l.present &&& byteMask (pa % 128) n) = byteMask (pa % 128) n)
  | none => false

/-- Bytes of a home, within one granule, as a check would find them, with no fill and no report: how sets of lines are resolved (R182, R193). -/
def State.peek (s : State) (pa n slot : Nat) : Option Nat :=
  match s.homeOf pa with
  | .pod k =>
    if s.podRoute k && !s.podDenied.any (fun (a, b) => a ≤ pa && pa < b) then some (ofBytes (readBytes s.podMem pa n)) else none
  | _ =>
    if s.cxlGone pa then none
    else if n ≤ 128 - pa % 128 && s.isPresent pa n then some (ofBytes (readBytes s.mem pa n))
    else
      let base := granBase pa false
      match s.checkGranule base slot false false with
      | .ok (bs, _) => some (ofBytes (((List.zip bs (readBytes s.mem base 4096)).zipIdx.map fun (p, i) =>
          if s.isPresent (base + i) 1 then p.2 else p.1).drop (pa % 4096) |>.take n))
      | .error _ => none

/-- Stands for a region entry where the ICLASS of a context gives a line its class: beyond every physical address, plus the context. -/
def imgReg : Nat := 2 ^ 52

/-- A line of class 0 keeps its pin while the entry of its region says class 0: system software that changes the class, or frees the region, takes it (R319, Table 11-2). A line of an image keeps it while its context is bound with ICLASS 0 (R373). -/
def State.pinnedBy (s : State) (reg : Nat) : Bool :=
  if imgReg ≤ reg then (s.ctx (reg - imgReg)).st ≠ CtxSt.free && (s.ctx (reg - imgReg)).desc.iclass = 0
  else reg = 0 || match s.peek reg 8 0 with | some r => r.testBit 15 && r % 4 = 0 | none => true

/-- A line that stays whatever its set holds: of class 0, or frozen (R319, R333). -/
def State.pinned (s : State) (l : L2Line) : Bool := (l.attr.cls = 0 && s.pinnedBy l.attr.reg) || l.frozen

/-- The L2 slice (die * 32 + slice) and the set of an address: its offset in its channel, port or aperture divided by 128, modulo the number of sets (log 14). -/
def State.setOf (s : State) (pa : Nat) : Option (Nat × Nat) :=
  match s.homeOf pa with
  | .lpddr d sc off | .cxl d sc off | .fwin d sc _ off => some (d * 32 + sc, off / 128 % Config.l2Sets)
  | _ => none

/-- Ways of a set that a partition has on a die (R318). -/
def State.waysOf (s : State) (die part : Nat) : Nat :=
  popcount 16 ((s.die die).wayMask[part % 16]'(Nat.mod_lt _ (by decide))).toNat

/-- The other lines of a partition in the set of a line. -/
def State.peers (s : State) (line part : Nat) : Tbl L2Line :=
  s.l2.filter fun e => e.1 ≠ line && e.2.attr.part = part && s.setOf (e.1 * 128) == s.setOf (line * 128)

/-- The chunks that a record keeps, its prefix views and its snapshot's with it: (key, chunk), keys of prefix views from 2 ^ 40, of the snapshot from 2 ^ 41. -/
def Rec.allChunks (r : Rec) : List (Nat × Chunk) :=
  r.chunks ++ (r.pre.map fun e => (2 ^ 40 + e.1, e.2)) ++ (match r.snap with | some sn => sn.chunks.map fun e => (2 ^ 41 + e.1, e.2) | none => [])

/-- A record's chunk stands in one place with its snapshot's (R396). -/
def Rec.shares (r : Rec) (k : Nat) : Bool :=
  match tfind r.chunks k, r.snap with
  | some ch, some sn => !ch.own && (tfind sn.chunks k).isSome
  | _, _ => false

/-- The chunks of a record that have a place each: what the snapshot shares counts once. -/
def Rec.placed (r : Rec) : List (Nat × Chunk) := r.allChunks.filter fun e => e.1 < 2 ^ 41 || !r.shares (e.1 - 2 ^ 41)

/-- Chunks of a record that a slice backs in a partition. -/
def Rec.onChip (r : Rec) (slice part : Nat) : List (Nat × Chunk) :=
  r.placed.filter fun f => f.2.slice = slice && f.2.part = part && f.2.spill.isNone

/-- Chunks of a context that a slice backs in a partition. -/
def Ctx.onChip (x : Ctx) (slice part : Nat) : Nat := (x.recs.map fun r => (r.2.onChip slice part).length).foldl (· + ·) 0

/-- Chunks that a slice backs in a partition. -/
def State.sliceHeld (s : State) (slice part : Nat) : Nat := (s.ctxs.map fun e => e.2.onChip slice part).foldl (· + ·) 0

/-- Chunks of 512 bytes that a way of a slice holds (R318). -/
def wayChunks : Nat := Config.l2Sets / 4

/-- Ways of a partition that the view chunks of a slice take, whole ones (R320; log 16). -/
def State.chunkWays (s : State) (slice part : Nat) : Nat := ceilDiv (s.sliceHeld slice part) wayChunks

/-- Ways of a partition that lines may take in a slice: those that no chunk has. -/
def State.lineWays (s : State) (slice part : Nat) : Nat := s.waysOf (slice / 32) part - s.chunkWays slice part

/-- Ways of a partition that pinned lines take in a slice, in the set that has most of them. -/
def State.pinnedWays (s : State) (slice part : Nat) : Nat :=
  let ps := s.l2.filter fun e => e.2.attr.part = part && (s.setOf (e.1 * 128)).map (·.1) == some slice && s.pinned e.2
  (ps.map fun e => (ps.filter fun d => s.setOf (d.1 * 128) == s.setOf (e.1 * 128)).length).foldl max 0

/-- Chunks that a slice has room for in a partition: in the ways that no pinned line needs. -/
def State.sliceRoom (s : State) (slice part : Nat) : Nat := (s.waysOf (slice / 32) part - s.pinnedWays slice part) * wayChunks

/-- Drops every copy of the lines of [lo, hi) (line numbers) with their dirty bytes (R334). -/
def State.dropLines (s : State) (lo hi : Nat) : State :=
  let keep {α : Type} (t : Tbl α) : Tbl α := t.filter fun e => e.1 < lo || hi ≤ e.1
  { s with
    l2 := keep s.l2
    cores := tmap (fun _ c => { c with l1 := keep c.l1 }) s.cores
    dies := s.dies.map fun d => { d with rdc := keep d.rdc } }

/-- Quarantines a granule (R331, R334): Q in its record, and in its anchor record; its lines are dropped. -/
def State.quarantine (s : State) (base : Nat) (g512 : Bool) : State :=
  let q (r : BitVec 128) : BitVec 128 := r ||| BitVec.ofNat 128 (2 ^ 104)
  let k := base / 512
  let s := { s with
    seals := tset s.seals k (q (s.sealRec base))
    ueMarks := if tget 0 s.ueMarks k = 1 then s.ueMarks else terase s.ueMarks k }
  let s := match tfind s.anchors k with
    | some a => { s with anchors := tset s.anchors k (q a) }
    | none => s
  s.dropLines (base / 128) ((base + granSize g512) / 128)

/-- Notes what a step causes beside its effect. -/
def State.note (s : State) (p : Pending) : State := { s with pending := s.pending ++ [p] }

/-- Installs a granule's plaintext under the requester's slot: bytes already present stay, and with them the owner of their line; a new line is the filler's (R317, R328, R331, R389). The line that was asked for takes the priority of the access. -/
def State.install (s : State) (base line : Nat) (attr : Attr) (bytes : List Byte) (taint : Bool) (slot owner : Nat) : State :=
  let size := granSize attr.g512
  let lineOf (i : Nat) : L2Line :=
    let k := base / 128 + i
    (tfind s.l2 k).getD (L2Line.fresh slot owner (if k = line then attr else { attr with hint := 0 }))
  let old := readBytes s.mem base size
  let merged := (List.zip bytes old).zipIdx.map fun (p, i) =>
    if (lineOf (i / 128)).present.toNat.testBit (i % 128) then p.2 else p.1
  let l2 := (List.range (size / 128)).foldl (fun t i =>
    let l := lineOf i
    tset t (base / 128 + i)
      { l with present := BitVec.allOnes 128, slot := slot, used := s.stamp
               taint := l.taint ||| (if taint then 0b1111#4 else 0) }) s.l2
  { s with mem := writeBytes s.mem base merged, l2 := l2, stamp := s.stamp + 1 }.occSet (occL2 (s.sliceOf base) attr.part) owner

/-- Places of the view spill area that hold a chunk. -/
def Ctx.spillUsed (x : Ctx) : List Nat := (x.recs.map fun e => e.2.allChunks.filterMap fun f => f.2.spill).flatten

/-- Chunks of a slice and partition that may leave it: as many of each context as its spill area has places for (R320; log 16). -/
def State.spillable (s : State) (slice part : Nat) : Nat :=
  (s.ctxs.map fun e => min (e.2.desc.spillLen / 512 - e.2.spillUsed.eraseDups.length) (e.2.onChip slice part)).foldl (· + ·) 0

/-- Ways of a partition that pinned lines may take in a slice: all but those of chunks that cannot leave (R319, R320; log 16). -/
def State.pinWays (s : State) (slice part : Nat) : Nat :=
  s.waysOf (slice / 32) part - ceilDiv (s.sliceHeld slice part - s.spillable slice part) wayChunks

/-- A pinned fill finds no way: the set of some line of the granule that is absent holds pinned lines in all the ways of the partition that they may take (R319). -/
def State.pinFull (s : State) (pa : Nat) (attr : Attr) : Bool :=
  let ways := s.pinWays (s.sliceOf pa) attr.part
  let first := granBase pa attr.g512 / 128
  attr.cls = 0 && s.waysOf (s.homeDie pa) attr.part ≠ 0 && (List.range (granSize attr.g512 / 128)).any fun i =>
    (tfind s.l2 (first + i)).isNone && ways ≤ ((s.peers (first + i) attr.part).filter fun e => s.pinned e.2).length

/-- Fills the granule of an address at its home (R328, R331, R335). Of a pinned fill that finds no way and would fail its seal check too the spec does not say which is reported: the model takes PIN_OVERFLOW, and reads no granule (DESIGN CHOICE, log 16). -/
def fillGranule (w : Who) (pa : Nat) (attr : Attr) : M Unit := do
  let s ← get
  let base := granBase pa attr.g512
  if s.pinFull pa attr then fail .pinOverflow
  else match s.checkGranule base w.slot attr.g512 attr.anchor with
  | .ok (bytes, r) => upd fun s => s.install base (pa / 128) attr bytes (recT r) w.slot w.owner
  | .error (c, q) => do
    if q then upd fun s => s.quarantine base attr.g512
    else if c = .sealEngineUe then upd fun s => { s with ueMarks := terase s.ueMarks (base / 512) }
    else pure ()
    fail c

/-- n bytes of an address (within one line) are present at the home for the requester's slot (R331); bytes cleaned into a quarantined granule are not read (R334). An aperture that another than its window's owner reads gives nothing (R340). -/
def ensureLine (w : Who) (pa n : Nat) (attr : Attr) : M Unit := do
  let s ← get
  match s.homeOf pa with
  | .pod _ => pure ()
  | .fwin _ _ _ _ => fail .fwinUndef
  | _ =>
    match tfind s.l2 (pa / 128) with
    | some l =>
      if recQ (s.sealRec (granBase pa attr.g512)) then fail .sealQuarantined
      else if l.slot ≠ w.slot then fail .sealTenant
      else if (l.present &&& byteMask (pa % 128) n) = byteMask (pa % 128) n then pure ()
      else fillGranule w pa attr
    | none => fillGranule w pa attr

/-- Every line of the granule of an address is whole at the home, so that the granule has been verified: what a store at the home needs (R316). -/
def ensureGranule (w : Who) (pa : Nat) (attr : Attr) : M Unit := do
  let s ← get
  match s.homeOf pa with
  | .pod _ => pure ()
  | _ => do
    let first := granBase pa attr.g512 / 128
    let whole := (List.range (granSize attr.g512 / 128)).all fun i =>
      ((tfind s.l2 (first + i)).map (·.present)).getD 0 = BitVec.allOnes 128
    match tfind s.l2 (pa / 128) with
    | some l =>
      if recQ (s.sealRec (granBase pa attr.g512)) then fail .sealQuarantined
      else if l.slot ≠ w.slot then fail .sealTenant
      else if whole then pure ()
      else fillGranule w pa attr
    | none => fillGranule w pa attr

/-! ## Write-back -/

/-- The lines of a granule that hold dirty bytes. -/
def State.dirtyLines (s : State) (base : Nat) (g512 : Bool) : List (Nat × L2Line) :=
  s.l2.filter fun e => base / 128 ≤ e.1 && e.1 < (base + granSize g512) / 128 && e.2.dirty ≠ 0

/-- WbFail (R336): quarantine, the dirty bytes dropped, the owners of the dirty L2 lines killed, an event posted. The owner of an L1 line that the quarantine drops with dirty bytes is not killed for it, as under any other quarantine (R334; DESIGN CHOICE, log 71). -/
def State.wbFail (s : State) (base : Nat) (g512 : Bool) : State :=
  let owners := ((s.dirtyLines base g512).map (·.2.owner)).eraseDups
  let die := s.homeDie base
  let s := s.quarantine base g512
  (owners.foldl (fun s c => s.note (.kill c .sealWbFail 0)) s).note (.event die .sealWbFail base 0)

/-- Reseals a granule whose plaintext is `data` (R332): the new record, and the ciphertext stored. -/
def State.reseal (s : State) (base : Nat) (g512 : Bool) (data : List Byte) (t : Bool) (slot gen ctr : Nat) : State :=
  match s.keyOf slot gen with
  | none => s
  | some ks =>
    let ct := ctrCrypt ks slot gen ctr base g512 (bytesToBlocks data)
    let r0 := recMake t slot gen ctr 0
    let r := recMake t slot gen ctr (sealTag ks r0.toNat slot gen ctr base g512 ct)
    let s := { s with
      dram := writeBytes s.dram base (blocksToBytes ct), seals := tset s.seals (base / 512) r
      ueMarks := terase s.ueMarks (base / 512) }
    if (tfind s.anchors (base / 512)).isSome then { s with anchors := tset s.anchors (base / 512) r } else s

/-- Clears the dirty masks of a granule's lines; they stay valid, and a frozen granule unfreezes (R332, R333). -/
def State.cleanLines (s : State) (base : Nat) (g512 : Bool) : State :=
  { s with l2 := tmap (fun k l =>
      if base / 128 ≤ k && k < (base + granSize g512) / 128 then { l with dirty := 0, frozen := false } else l) s.l2 }

/-- Outcome of a write-back. -/
inductive WbOut where
  | nothing | done | failed (c : Cause) | frozen
  deriving DecidableEq, Repr

/-- WriteBack (R332-R336, R338). With `all`, a granule without dirty bytes is resealed too (R225). The model's choices: a quarantined granule and one without a key are told before one whose counter is exhausted (log 71), and a granule behind a CXL port that is down fails its write-back as one that does not verify (log 72). -/
def State.writeBack (s : State) (base : Nat) (g512 anchor all : Bool) : State × WbOut :=
  let lines := s.l2.filter fun e => base / 128 ≤ e.1 && e.1 < (base + granSize g512) / 128
  if (s.dirtyLines base g512).isEmpty && !all then (s, .nothing)
  else
    let rec0 := (if anchor then tfind s.anchors (base / 512) else none).getD (s.sealRec base)
    let slot := (lines.head?.map (·.2.slot)).getD (recSlot rec0)
    let die := s.homeDie base
    if recQ rec0 then (s.wbFail base g512, .failed .sealQuarantined)
    else if s.cxlGone base then (s.wbFail base g512, .failed .cxlDown)
    else if (tfind s.pkg.ks.keys (recSlot rec0)).isNone then
      ((s.quarantine base g512).note (.event die .keyRevokedDirty base 0), .failed .sealKeyAbsent)
    else if recGen rec0 = 0xFF && recCtr rec0 = 0xFFFFFF then
      ({ s with l2 := tmap (fun k l =>
          if base / 128 ≤ k && k < (base + granSize g512) / 128 then { l with frozen := true } else l) s.l2 }.note
        (.event die .sealExhausted base 0), .frozen)
    else
      let full := lines.length = granSize g512 / 128 && lines.all fun e => e.2.present = BitVec.allOnes 128
      let old := if full then .ok ([], rec0) else s.checkGranule base slot g512 anchor
      match old with
      | .error (c, _) => (s.wbFail base g512, .failed c)
      | .ok (bytes, r) =>
        let cur := readBytes s.mem base (granSize g512)
        let data := if full then cur
          else (List.zip bytes cur).zipIdx.map fun (p, i) =>
            match tfind s.l2 (base / 128 + i / 128) with
            | some l => if l.dirty.toNat.testBit (i % 128) then p.2 else p.1
            | none => p.1
        let t := (!full && recT r) || lines.any fun e => e.2.taint ≠ 0
        let roll := recCtr rec0 = 0xFFFFFF
        let (gen, ctr) := if roll then (recGen rec0 + 1, 0) else (recGen rec0, recCtr rec0 + 1)
        let s := (s.reseal base g512 data t (recSlot rec0) gen ctr).cleanLines base g512
        (if roll then s.note (.event die .sealGenRoll base 0) else s, .done)

/-- Writes back the granule of an address and drops its lines: replacement, or an access of a partition that allocates nothing (R318, R332). A frozen granule stays (R333). -/
def State.evictGranule (s : State) (pa : Nat) (g512 anchor : Bool) : State :=
  let base := granBase pa g512
  let (s, o) := s.writeBack base g512 anchor false
  if o = .frozen then s
  else { s with l2 := s.l2.filter fun e => e.1 < base / 128 || (base + granSize g512) / 128 ≤ e.1 }

/-- The rank of a line among those that may be replaced: stream before normal before keep (Table 11-2). -/
def L2Line.rank (l : L2Line) : Nat := if l.prio = 3 then 3 else if l.prio = 1 then 1 else 2

/-- The lines of a set that may be replaced next: those of the highest rank, and of normal ones the least recently used (Table 11-2). -/
def State.replaceable (s : State) (t : Tbl L2Line) : Tbl L2Line :=
  let t := t.filter fun e => !s.pinned e.2
  let top : Nat := (t.map fun e => e.2.rank).foldl max 0
  let t := t.filter fun e => e.2.rank = top
  if top = 2 then t.filter fun e => t.all fun d => e.2.used ≤ d.2.used else t

/-- Replacement of an L2 line (R319, R332): the granule of a dirty one is written back first; a frozen one stays. So does the line of an exhausted granule that a clean has allocated in a set whose other lines are all pinned: it freezes and its set holds one line more than its ways, since R333 keeps it and R317 bounds the set (DESIGN CHOICE, log 16). -/
def State.replaceLine (s : State) (line : Nat) : State :=
  match tfind s.l2 line with
  | none => s
  | some l =>
    let s := if l.dirty = 0 then s else (s.writeBack (granBase (line * 128) l.attr.g512) l.attr.g512 l.attr.anchor false).1
    match tfind s.l2 line with
    | some l' => if l'.frozen then s else { s with l2 := terase s.l2 line }
    | none => s

/-- A choice among n that the spec leaves open: a free value (log 3). -/
def State.freePick (s : State) (n : Nat) : Nat := (Config.freeValue s.free).toNat % n

/-- Keeps the set of a line within the ways of its partition that no view chunk has (R317, R318, R320): others are replaced, one after another where a victim freezes and stays (R333). Where all others are pinned, a pinned line takes a way that chunks have, which then leave it, and any other is replaced itself; a pinned line that a clean has allocated where pinned lines and chunks that cannot leave take every way is written back and not kept, but where its granule is exhausted it freezes and stays beyond the ways (DESIGN CHOICE, log 16). -/
def State.trimBy (line : Nat) : Nat → State → State
  | 0, s => s
  | n + 1, s =>
    match tfind s.l2 line with
    | none => s
    | some l =>
      let slice := s.sliceOf (line * 128)
      let peers := s.peers line l.attr.part
      if peers.length < s.lineWays slice l.attr.part then s
      else
        let cand := s.replaceable peers
        match cand[s.freePick cand.length]? with
        | none =>
          if s.pinned l && peers.length < s.pinWays slice l.attr.part then s.note (.spill slice l.attr.part (some line))
          else s.replaceLine line
        | some (k, _) => State.trimBy line n ((if cand.length = 1 then s else { s with free := s.free + 1 }).replaceLine k)

/-- A line that has been allocated keeps its set within its ways. -/
def State.trimSet (s : State) (line : Nat) : State := State.trimBy line (Config.l2Ways + 1) s

/-- Where the chunks of a slice have taken another way, its sets keep within the others. -/
def State.trimSlice (s s0 : State) (slice part : Nat) : State :=
  if s.chunkWays slice part ≤ s0.chunkWays slice part then s
  else (s.l2.filter fun e => e.2.attr.part = part && (s.setOf (e.1 * 128)).map (·.1) == some slice).foldl (fun s e => s.trimSet e.1) s

/-- Two tables list the same keys. -/
def sameKeys {α : Type} : Tbl α → Tbl α → Bool
  | [], [] => true
  | (a, _) :: t, (b, _) :: u => a = b && sameKeys t u
  | _, _ => false

/-- What an access of an address leaves allocated (R318, R319, Table 3-6), `s0` the state before it: nothing of a partition with an empty way mask, no new line where HINT.L2 says so, and no set beyond its ways. -/
def State.settleAlloc (s s0 : State) (pa : Nat) (attr : Attr) : State :=
  match (s.homeOf pa).place with
  | none => s
  | some (d, _) =>
    let base := granBase pa attr.g512
    let inG (k : Nat) : Bool := base / 128 ≤ k && k < (base + granSize attr.g512) / 128
    if s.waysOf d attr.part = 0 then s.evictGranule pa attr.g512 attr.anchor
    else if sameKeys s.l2 s0.l2 then s
    else
      let fresh := ((s.l2.filter fun e => inG e.1).map (·.1)).filter fun k => (tfind s0.l2 k).isNone
      if attr.noL2 then fresh.foldl (fun s k => s.replaceLine k) s
      else fresh.foldl (fun s k => s.trimSet k) s

/-- An access uses a line that is present (R319): its priority, the class of its region, when it was used. -/
def State.touchLine (s : State) (pa : Nat) (attr : Attr) : State :=
  match tfind s.l2 (pa / 128) with
  | some l =>
    let l := if attr.src = AttrSrc.page then { l with attr := { l.attr with cls := attr.cls, reg := attr.reg }, prio := attr.prio }
      else if attr.hint ≠ 0 then { l with prio := attr.prio } else l
    { s with l2 := tset s.l2 (pa / 128) { l with used := s.stamp }, stamp := s.stamp + 1 }
  | none => s

/-! ## Page tables looked at without a fill -/

/-- Reserved bits of an entry that is valid (Table 11-3). -/
def pteReserved (e : Nat) : Bool :=
  field e 10 2 ≠ 0 || field e 6 1 ≠ 0 || field e 2 1 ≠ 0
    || (if e.testBit 1 then e.testBit 4 && !e.testBit 3
        else field e 52 12 ≠ 0 || field e 7 3 ≠ 0 || field e 3 3 ≠ 0)

/-- The index of a level (R322). -/
def pteIndex (va lvl : Nat) : Nat :=
  match lvl with | 0 => field va 39 9 | 1 => field va 30 9 | 2 => field va 21 9 | _ => field va 16 5

/-- Size of a leaf at a level. -/
def leafSize (lvl : Nat) : Nat := match lvl with | 1 => 2 ^ 30 | 2 => 2 ^ 21 | _ => 2 ^ 16

/-- The capability half-word of a region entry: NONE, or a context. -/
def regCtx (h : Nat) : Option Nat := if field h 15 1 = 1 then none else some (field h 0 10)

/-- Entry i of a page table of `cnt` entries, as a check would find it: the whole table is looked at once. -/
def State.peekTable (s : State) (t cnt : Nat) : List (Option Nat) :=
  if (List.range (cnt * 8 / 128)).all fun i => s.isPresent (t + 128 * i) 128 then
    let x := ofBytes (readBytes s.mem t (8 * cnt))
    (List.range cnt).map fun i => some (elem 64 i x)
  else match s.peek t (8 * cnt) 0 with
    | some x => (List.range cnt).map fun i => some (elem 64 i x)
    | none => (List.range cnt).map fun i => if s.isPresent (t + 8 * i) 8 then some (ofBytes (readBytes s.mem (t + 8 * i) 8)) else none

/-- The mapped pages of a table that meet [lo, hi): (VA, PA, size, entry). `vb` is the table's first VA. An entry at which a walk faults maps nothing (R322). -/
def State.pagesOf (s : State) (lo hi : Nat) : Nat → Nat → Nat → Nat → List (Nat × Nat × Nat × Nat)
  | 0, _, _, _ => []
  | fuel + 1, lvl, t, vb =>
    let sz := match lvl with | 0 => 2 ^ 39 | 1 => 2 ^ 30 | 2 => 2 ^ 21 | _ => 2 ^ 16
    let cnt := if lvl = 3 then 32 else 512
    ((s.peekTable t cnt).zipIdx.map fun (e, i) =>
      let va := vb + i * sz
      if hi ≤ va || va + sz ≤ lo then []
      else match e with
        | none => []
        | some e =>
          if !e.testBit 0 || pteReserved e then []
          else if e.testBit 1 then
            (if lvl = 0 || (field e 12 40 * 4096) % sz ≠ 0 then [] else [(va, field e 12 40 * 4096, sz, e)])
          else if lvl = 3 then []
          else s.pagesOf lo hi fuel (lvl + 1) (field e 12 40 * 4096) va).flatten

/-- The mapped pages of a context that meet [lo, hi), outside the scratchpad windows and the view aperture, which are never translated (R51, R168). -/
def State.pagesIn (s : State) (ctx lo hi : Nat) : List (Nat × Nat × Nat × Nat) :=
  let part (a b : Nat) : List (Nat × Nat × Nat × Nat) := if a < b then s.pagesOf a b 4 0 (s.ctx ctx).desc.root 0 else []
  part lo (min hi 0xFFF000000000) ++ part (max lo 0xFFF800000000) (min hi 0xFFFE00000000)

/-- Physical intervals [a, b) that [lo, hi) of a context maps to, with their leaf entries. -/
def State.physOf (s : State) (ctx lo hi : Nat) : List (Nat × Nat × Nat) :=
  (s.pagesIn ctx lo hi).map fun (va, pa, sz, e) =>
    (pa + (max lo va - va), pa + (min hi (va + sz) - va), e)

/-- The region entry of a page's leaf entry, as a check would find it. -/
def State.peekRegion (s : State) (ctx e : Nat) : Option Nat :=
  match s.peek ((s.ctx ctx).desc.regtab + 16 * field e 52 12) 8 0 with
  | some r => if r.testBit 15 then some r else none
  | none => none

/-! ## Attributes of accesses that no page of the requester describes -/

/-- A plain page's attributes: 4 KiB granules, not anchored, partition 0, class normal (log 15). -/
def plainAttr : Attr := ⟨false, false, 0, 2, 0, 0, AttrSrc.none, 0⟩

/-- Page tables and region tables, which no page describes either, lie in plain pages (R322; log 15). -/
def tableAttr : Attr := { plainAttr with src := AttrSrc.table }

/-- The attributes that some context's page gives an address: system software maps one address with one granule size and one anchoring in every mapping (R326). -/
def State.pageAttr (s : State) (pa : Nat) : Option Attr :=
  s.ctxs.findSome? fun (c, x) =>
    if x.st = .free then none
    else ((s.pagesOf 0 0xFFF000000000 4 0 x.desc.root 0).find? fun (_, p, sz, _) => p ≤ pa && pa < p + sz).map fun (_, _, _, e) =>
      let r := (s.peekRegion c e).getD 2
      ⟨e.testBit 7, e.testBit 8, field r 4 4, field r 0 2, 0, 0, AttrSrc.none, (x.desc.regtab + 16 * field e 52 12)⟩

/-- The attributes under which an address that no page of the requester names is accessed (log 25): those of its line or of another line of its granule, else those of a page that maps it, else the size under which its record's tag verifies, 4 KiB before 512 bytes. -/
def State.plainAt (s : State) (pa : Nat) : Attr :=
  let unpaged (a : Attr) : Attr := { a with hint := 0, hintL1 := 0, src := AttrSrc.none }
  let first := granBase pa false / 128
  match tfind s.l2 (pa / 128) with
  | some l => unpaged l.attr
  | none =>
    match s.l2.find? fun e => first ≤ e.1 && e.1 < first + 32 with
    | some (_, l) => unpaged l.attr
    | none =>
      match s.pageAttr pa with
      | some a => a
      | none =>
        let ok (b : Nat) (g : Bool) : Bool := match s.checkGranule b (recSlot (s.sealRec b)) g false with | .ok _ => true | .error _ => false
        let g := !ok (granBase pa false) false && ok (granBase pa true) true
        { plainAttr with g512 := g, anchor := (tfind s.anchors (granBase pa g / 512)).isSome }

/-- The attributes of an access: its page's, or those the address has where no page gives any, with the access's own hint. -/
def State.attrFor (s : State) (attr : Attr) (pa : Nat) : Attr :=
  if attr.src = AttrSrc.none then { s.plainAt pa with hint := attr.hint } else attr

/-! ## Reading and writing at the home -/

/-- n bytes of an address at its home (within one line), with the taint of the sectors they touch (R184). -/
def State.homeBytes (s : State) (pa n : Nat) : List Byte × BitVec 4 :=
  match s.homeOf pa with
  | .pod _ => (readBytes s.podMem pa n, tget 0 s.podTaint (pa / 128))
  | _ => (readBytes s.mem pa n, ((tfind s.l2 (pa / 128)).map (·.taint)).getD 0)

/-- Sectors of a line tainted among those n bytes from `pa` touch. -/
def taintHit (t : BitVec 4) (pa n : Nat) : Bool := t &&& BitVec.ofNat 4 (sectorsOf (byteMask (pa % 128) n)) ≠ 0

/-- A write at the home of a line (R357): a stale notice goes to every die that holds a copy but `keepDie`, which stays in the mask. The notices of other packages leave the package. -/
def State.tellCopies (s : State) (line : Nat) (keepDie : Option Nat) : State :=
  let mask := tget 0 s.rdcHeld line
  let keep := match keepDie with | some d => mask &&& BitVec.ofNat 4 (2 ^ d) | none => 0
  let told := (List.range 4).filter fun d => (mask &&& ~~~keep).toNat.testBit d
  { s with
    staleNotices := s.staleNotices ++ told.map fun d => (d, line)
    rdcHeld := if keep = 0 then terase s.rdcHeld line else tset s.rdcHeld line keep
    podHeld := terase s.podHeld line }

/-- A list with a number in it. -/
def insertNew (l : List Nat) (n : Nat) : List Nat := if l.contains n then l else n :: l

/-- Writes bytes of one line at its home under a mask (R317, R344, R357, R404): the bytes become present and dirty, stale notices go out, host-held copies are invalidated. -/
def State.homeWrite (s : State) (line : Nat) (data : BitVec 1024) (mask : BitVec 128) (taint : BitVec 4) (slot owner : Nat)
    (attr : Attr) (keepDie : Option Nat) : State :=
  let base := line * 128
  let write (m : List Host.Cell) : List Host.Cell :=
    writeBytes m base ((readBytes m base 128).zipIdx.map fun (b, i) =>
      if mask.toNat.testBit i then BitVec.ofNat 8 (elem 8 i data.toNat) else b)
  let s := s.tellCopies line keepDie
  match s.homeOf base with
  | .pod _ =>
    let t := storeTaint (tget 0 s.podTaint line) mask taint
    { s with podDirty := insertNew s.podDirty (base / 512), podMem := write s.podMem, podTaint := if t = 0 then terase s.podTaint line else tset s.podTaint line t }
  | _ =>
    let l := (tfind s.l2 line).getD (L2Line.fresh slot owner attr)
    let l := { l with
      present := l.present ||| mask, dirty := l.dirty ||| mask, taint := storeTaint l.taint mask taint, owner := owner }
    ({ s with
      mem := write s.mem
      l2 := tset s.l2 line l
      pkg := { s.pkg with hostHeld := s.pkg.hostHeld.filter (· ≠ line) } }.touchLine base attr).occSet
        (occL2 (s.sliceOf base) l.attr.part) owner

/-- The RDC copy of a die takes the bytes that a core of the die cleans to a line homed elsewhere (R321, R357): the die whose copy it was. -/
def State.rdcStore (s : State) (die line : Nat) (data : BitVec 1024) (mask : BitVec 128) (taint : BitVec 4) : State × Option Nat :=
  let remote := s.homeDie (line * 128) ≠ die || (s.homeOf (line * 128)).place.isNone
  match (if remote then tfind (s.die die).rdc line else none) with
  | some r =>
    let merged := BitVec.ofNat 1024 (packElems 8 ((List.range 128).map fun i =>
      elem 8 i (if mask.toNat.testBit i then data else r.data).toNat))
    let r' := { r with data := merged, taint := storeTaint r.taint mask taint }
    (s.setDie die { s.die die with rdc := tset (s.die die).rdc line r' }, some die)
  | none => (s, none)

/-- Bytes as line data from byte `off`. -/
def lineData (off : Nat) (bs : List Byte) : BitVec 1024 := BitVec.ofNat 1024 (ofBytes bs <<< (8 * off))

/-! ## Format windows -/

/-- Register r of format window w of string core sc (Table 11-9). -/
def State.fwinReg (s : State) (die sc w r : Nat) : Nat := (tget 0 (s.die die).fwin (sc * 128 + w * 8 + r)).toNat

/-- A format window's registers, when it is enabled (Table 11-10): (PBASE, PLEN, SCBASE, SCLEN, RSTR, budget, K, TABLE, OWNER). -/
structure Fwin where
  pbase : Nat
  plen : Nat
  scbase : Nat
  sclen : Nat
  rstr : Nat
  bud : Nat
  k : Nat
  table : Nat
  owner : Nat
  deriving DecidableEq, Repr

/-- The enabled window of a number. -/
def State.fwinOf (s : State) (die sc w : Nat) : Option Fwin :=
  let r := s.fwinReg die sc w
  let ctl := r 5
  let bud := field ctl 32 2
  let k := field ctl 0 24
  if ctl.testBit 34 && bud < 3 && k ≠ 0 then
    some ⟨r 0, r 1, r 2, r 3, r 4, 8 <<< bud, k, r 6, field (r 7) 0 10⟩
  else none

/-- A requester at a home reads bytes that have arrived, been filled and verified: what is left allocated is settled. -/
def readSettled (w : Who) (attr : Attr) (pa n : Nat) : M (List Byte × BitVec 4) := do
  let s0 ← get
  let attr := s0.attrFor attr pa
  arriveHome w pa true false
  ensureLine w pa n attr
  let s ← get
  upd fun s => (s.touchLine pa attr).settleAlloc s0 pa attr
  pure (s.homeBytes pa n)

/-- Bytes at a home across lines: each line arrives, is filled and is read (R328, R331). -/
def homeReadN (w : Who) (attr : Attr) : Nat → Nat → M (List Byte × Bool)
  | _, 0 => pure ([], false)
  | pa, n + 1 => do
    let (b, t) ← readSettled w attr pa 1
    let (bs, ts) ← homeReadN w attr (pa + 1) n
    pure (b ++ bs, taintHit t pa 1 || ts)

/-- What a store at a home needs: the request admitted, the granule present and verified (R316); what is left allocated is settled. -/
def granuleReady (w : Who) (attr : Attr) (pa : Nat) : M Unit := do
  let s0 ← get
  let attr := s0.attrFor attr pa
  arriveHome w pa false true
  ensureGranule w pa attr
  upd fun s => s.settleAlloc s0 pa attr

/-- Stores bytes within one line at the home after its granule is present and verified (R316); `via` is the die whose core stores past its L1, whose own remote copy is replaced (R346; DEDUCED, log 27). -/
def homeStore (w : Who) (attr : Attr) (pa : Nat) (bs : List Byte) (taint : Bool) (via : Option Nat := none) : M Unit := do
  let s0 ← get
  let attr := s0.attrFor attr pa
  let t : BitVec 4 := if taint then 0b1111#4 else 0
  let m := byteMask (pa % 128) bs.length
  let data := lineData (pa % 128) bs
  arriveHome w pa false true
  ensureGranule w pa attr
  upd fun s =>
    let s := match via with
      | some d => s.setDie d { s.die d with rdc := terase (s.die d).rdc (pa / 128) }
      | none => s
    (s.homeWrite (pa / 128) data m t w.slot w.owner attr none).settleAlloc s0 pa attr

/-- The codebook of a window: the default table, or the entries of its 512 bytes (R73), with their taint. -/
def fwinTable (w : Who) (f : Fwin) (need : Bool) : M ((Nat → Nat) × Bool) :=
  if f.table = 0 || !need then pure (defaultEntry, false)
  else do
    let (bs, t) ← homeReadN w plainAttr f.table 512
    let x := ofBytes bs
    pure (fun k => elem 16 k x, t)

/-- Decodes blocks b0 .. b0 + n - 1 of window row r as one chunk of which `left` elements belong to the row (R71, R224, R341): its planes, its scale words, and the taint of what was read. A block whose scale is 0xFF sets no flag here (DEDUCED, log 65). Of several faults of a chunk the first is reported: reads of its scale words in block order, then a reserved field or tag of one in block order, then payloads in block order, the codebook, and what the decoding finds (DESIGN CHOICE, log 74). -/
def fwinChunk (w : Who) (f : Fwin) (r b0 n left : Nat) : M (List Nat × List Nat × Bool) := do
  let perRow := ceilDiv f.k 32
  let words ← (List.range n).mapM fun j => do
    let off := 2 * (r * perRow + b0 + j)
    if f.sclen < off + 2 then fail .fwinScaleShort
    else do
      let (bs, t) ← homeReadN w plainAttr (f.scbase + off) 2
      pure (ofBytes bs, t)
  match words.findSome? fun x => scaleFault x.1 with
  | some c => fail c
  | none => do
    let pays ← words.zipIdx.mapM fun (x, j) => do
      if field x.1 8 2 = 2 then pure (0, false)
      else do
        let (bs, t) ← homeReadN w plainAttr (f.pbase + r * f.rstr + (b0 + j) * f.bud) f.bud
        pure (ofBytes bs, t)
    let (tab, tt) ← fwinTable w f (words.any fun x => field x.1 8 2 = 1)
    match decodeChunk f.bud tab (List.zip (pays.map (·.1)) (words.map (·.1))) left with
    | .error c => fail c
    | .ok (ps, sw) => pure (ps, sw, words.any (·.2) || pays.any (·.2) || tt)

/-- Chunks of a window: CeilDiv(K, 256) of each of its rows (R341). -/
def Fwin.chunks (f : Fwin) : Nat := if f.rstr = 0 then 0 else f.plen / f.rstr * ceilDiv f.k 256

/-- One decoded chunk of a window by its number (R341). -/
def fwinChunkNo (w : Who) (f : Fwin) (i : Nat) : M (List Nat × List Nat × Bool) := do
  let c := ceilDiv f.k 256
  if f.chunks ≤ i then fail .fwinUndef
  else
    let first := i % c
    fwinChunk w f (i / c) (first * 8) (min 8 (ceilDiv f.k 32 - first * 8)) (min 256 (f.k - first * 256))

/-- Bytes of an aperture become present in its line. -/
def State.fillAperture (s : State) (owner slot : Nat) (attr : Attr) (pa : Nat) (bs : List Byte) (t : Bool) : State :=
  let m := byteMask (pa % 128) bs.length
  let l := (tfind s.l2 (pa / 128)).getD (L2Line.fresh slot owner attr)
  { s with
    mem := writeBytes s.mem pa bs
    l2 := tset s.l2 (pa / 128) { l with present := l.present ||| m, taint := l.taint ||| (if t then 0b1111#4 else 0) } }.occSet
      (occL2 (s.sliceOf pa) attr.part) owner

/-- A fill for n bytes of an aperture (R341): every chunk of the window that the line covers is decoded, in increasing number, and they become present in it together: a fill that faults leaves none of them; bytes of a chunk beyond the last row give FWIN_UNDEF (log 12). -/
def fillWindow (w : Who) (f : Fwin) (pa off n : Nat) (attr : Attr) : M Unit := do
  let base := pa - pa % 128
  if off < 0x8000000000 then do
    let per := planesOf f.bud * 32
    let (ps, _, t) ← fwinChunkNo w f (off / per)
    for (p, k) in ps.zipIdx do
      let at0 := pa - off + off / per * per + 32 * k
      if base ≤ at0 && at0 < base + 128 then upd fun s => s.fillAperture f.owner w.slot attr at0 (toBytes 32 p) t else pure ()
  else do
    let o := off - 0x8000000000
    let first := (o - o % 128) / 16
    let rows ← ((List.range 8).filter fun i => first + i < f.chunks || ((first + i) * 16 < o + n && o < (first + i + 1) * 16)).mapM fun i => do
      let (_, sw, t) ← fwinChunkNo w f (first + i)
      pure (i, sw, t)
    upd fun s => rows.foldl (fun s (i, sw, t) => s.fillAperture f.owner w.slot attr (base + 16 * i) (toBytes 16 (packElems 16 sw)) t) s

/-- What a read of an aperture leaves allocated: its line is settled even where it stood before and a read of the payload has replaced it meanwhile (R318). -/
def State.settleAperture (s s0 : State) (pa : Nat) (attr : Attr) : State :=
  s.settleAlloc (if attr.noL2 then s0 else { s0 with l2 := terase s0.l2 (pa / 128) }) pa attr

/-- n bytes of an aperture within one line (R340, R341): only the owner of an enabled window reads; its lines lie in the partition of the payload's region, as normal ones (log 12). A fill that faults leaves what it has allocated settled too. -/
def apertureRead (w : Who) (attr : Attr) (pa n : Nat) : M (List Byte × BitVec 4) := do
  let s0 ← get
  arriveHome w pa true false
  match s0.homeOf pa with
  | .fwin die sc win off =>
    match s0.fwinOf die sc win with
    | none => fail .fwinUndef
    | some f =>
      if w.dom ≠ some f.owner then fail .fwinUndef
      else if ((tfind s0.l2 (pa / 128)).map (·.slot)).getD w.slot ≠ w.slot then fail .sealTenant
      else do
        let attr : Attr := ⟨false, false, (s0.plainAt f.pbase).part, 2, attr.hint, attr.hintL1, AttrSrc.page, 0⟩
        if s0.isPresent pa n then pure ()
        else match ← attempt (fillWindow w f pa off n attr) with
          | .ok _ => pure ()
          | .error t => do
            upd fun s => s.settleAperture s0 pa attr
            throw (.trap t)
        let s ← get
        upd fun s => (s.touchLine pa attr).settleAperture s0 pa attr
        pure (s.homeBytes pa n)
  | _ => pure ([], 0)

/-- n bytes at a home, within one line: of memory, or of an aperture. -/
def homeRead (w : Who) (attr : Attr) (pa n : Nat) : M (List Byte × BitVec 4) := do
  let s ← get
  match s.homeOf pa with
  | .fwin _ _ _ _ => apertureRead w attr pa n
  | _ => readSettled w attr pa n

/-- A quad at a home. -/
def homeQuad (w : Who) (attr : Attr) (pa : Nat) : M Nat := do
  let (bs, _) ← homeRead w attr (pa - pa % 8) 8
  pure (ofBytes bs)

/-! ## Translation -/

/-- A translated address: its PA, the leaf entry, the page's attributes, and its region's openness, holder and entry address (R322, R326). -/
structure Tr where
  pa : Nat
  pte : Nat
  attr : Attr
  isOpen : Bool
  holder : Option Nat
  pend : Option Nat
  regAddr : Nat
  deriving DecidableEq, Repr

/-- Kinds of access (R178, R323). -/
inductive Acc where
  | load | store | atom | fetch
  deriving DecidableEq, Repr

/-- A virtual address in the scratchpad windows or the view aperture, which no page maps (R51, R168). -/
def inWindow (va : Nat) : Bool :=
  field va 32 16 = 0xFFFE || field va 32 16 = 0xFFFF || (0xFFF000000000 ≤ va && va ≤ 0xFFF7FFFFFFFF)

/-- Walk (R322) from a table at a level: the leaf entry and its level; `fuel` is the levels left. A read of a table that fails for any reason is XLAT_WALK_SEAL (DESIGN CHOICE, log 78). -/
def walk (w : Who) (va : Nat) : Nat → Nat → Nat → M (Nat × Nat)
  | 0, _, _ => fail .xlatRsvd va
  | fuel + 1, lvl, t => do
    let r ← attempt (homeQuad { w with slot := 0 } tableAttr (t + 8 * pteIndex va lvl))
    match r with
    | .error _ => fail .xlatWalkSeal va
    | .ok e =>
      if !e.testBit 0 then fail .xlatInvalid va
      else if pteReserved e then fail .xlatRsvd va
      else if e.testBit 1 then
        if lvl = 0 || (field e 12 40 * 4096) % leafSize lvl ≠ 0 then fail .xlatRsvd va else pure (e, lvl)
      else if lvl = 3 then fail .xlatRsvd va
      else walk w va fuel (lvl + 1) (field e 12 40 * 4096)

/-- Key of a cached translation: context and VA[47:16] (R324). -/
def tlbKey (ctx va : Nat) : Nat := ctx * 2 ^ 32 + field va 16 32

/-- The translation caches a core uses: its own, its octet's, its die's (R324). -/
def tlbUnits (core : Nat) : List Nat :=
  if 1024 ≤ core then [1088 + core % 4] else [core, 1024 + coreOctet core, 1088 + coreDie core]

/-- Entries of a translation cache (R324). -/
def tlbCap (unit : Nat) : Nat :=
  if unit < 1024 then Config.tlbCore else if unit < 1088 then Config.tlbOctet else Config.tlbDie

/-- A translation enters a cache; one that is full loses an entry, which is not the spec's to name (R324; log 43). -/
def State.putXlat (s : State) (unit ctx key : Nat) (x : Xlat) : State :=
  let t := tget [] s.tlb unit
  let s := { s with tlb := tset s.tlb unit (tset t key x) }.occSet (occTlb unit) ctx
  if (tfind t key).isSome || t.length < tlbCap unit then s
  else match t[s.freePick t.length]? with
    | some (k, _) => { s with tlb := tset s.tlb unit (terase (tget [] s.tlb unit) k), free := s.free + 1 }
    | none => s

/-- The leaf entry of an address, from the caches or by a walk that fills them (R322, R324). -/
def lookup (w : Who) (ctx va : Nat) : M Xlat := do
  let s ← get
  let units := tlbUnits w.core
  let fill (x : Xlat) : M Unit := upd fun s => units.foldl (fun s u => s.putXlat u ctx (tlbKey ctx va) x) s
  match units.findSome? fun u => tfind (tget [] s.tlb u) (tlbKey ctx va) with
  | some x => do
    fill x
    pure x
  | none => do
    let (e, lvl) ← walk w va 4 0 (s.ctx ctx).desc.root
    let x : Xlat := ⟨BitVec.ofNat 64 e, lvl⟩
    fill x
    pure x

/-- Translation of a context's address for a kind of access, with its permission and region (R322-R326). The base of a region in a scratchpad window or the view aperture finds no entry there and gives XLAT_INVALID, with no walk (DEDUCED, log 64); a fetch there has faulted XLAT_PERM before it comes here (R88). A KOBJ, ARGS or SIG of a packet that lies there gives XLAT_INVALID too, with no check of R51's (DEDUCED, log 64). The permission is tested first, then the PA range, then the region's entry (DESIGN CHOICE, log 78). -/
def translate (w : Who) (ctx va : Nat) (kind : Acc) : M Tr := do
  if inWindow va then fail .xlatInvalid va else pure ()
  let x ← lookup w ctx va
  let e := x.pte.toNat
  let pa := field e 12 40 * 4096 + va % leafSize x.level
  let s ← get
  let home := s.homeOf pa
  let perm := match kind with
    | .load => e.testBit 3
    | .store => e.testBit 4
    | .atom => e.testBit 3 && e.testBit 4
    | .fetch => e.testBit 5
  let isWin := match home with | .fwin _ _ _ _ => true | _ => false
  if (e.testBit 9 && !w.sup) || !perm then fail .xlatPerm va
  else if home = .none then fail .xlatPaRange va
  else if isWin && kind ≠ .load then fail .xlatPerm va
  else do
    let regAddr := (s.ctx ctx).desc.regtab + 16 * field e 52 12
    let r ← atAddr va (homeQuad { w with slot := 0 } tableAttr regAddr)
    if !r.testBit 15 then fail .regionUndef va
    else
      pure { pa := pa, pte := e, attr := ⟨e.testBit 7, e.testBit 8, field r 4 4, field r 0 2, 0, 0, AttrSrc.page, regAddr⟩
             isOpen := r.testBit 8, holder := regCtx (field r 16 16), pend := regCtx (field r 32 16), regAddr := regAddr }

/-- The region entry of the page that maps an address, with no permission asked (R167, R171, R173): its address and its first quad. A page that does not translate gives the cause of its walk, and an entry that is not valid REGION_UNDEF (DEDUCED, log 37). -/
def regionAt (w : Who) (ctx va : Nat) : M (Nat × Nat) := do
  if inWindow va then fail .xlatInvalid va else pure ()
  let x ← lookup w ctx va
  let s ← get
  let regAddr := (s.ctx ctx).desc.regtab + 16 * field x.pte.toNat 52 12
  let r ← atAddr va (homeQuad { w with slot := 0 } tableAttr regAddr)
  if !r.testBit 15 then fail .regionUndef va else pure (regAddr, r)

end Sys2Proof.Machine
end

