-- ==== Sys2Proof/Machine/View.lean ====
section
/-! DEFINITION. Accesses of the Nest to the memory of a context (R34, R338, R367), and the views: chunks that an L2 slice or the view spill area backs (R168-R170, R320). -/

namespace Sys2Proof.Machine

/-! ## Accesses of the Nest -/

/-- Splits bytes at line boundaries: (address, bytes). -/
def linePieces : Nat → Nat → List Byte → List (Nat × List Byte)
  | 0, _, _ => []
  | fuel + 1, a, bs =>
    if bs.isEmpty then []
    else
      let n := 128 - a % 128
      (a, bs.take n) :: linePieces fuel (a + n) (bs.drop n)

/-- Key slot of the Nest's accesses to a page: slot 0 for an SV = 1 area, the tenant's for any other (R338; log 13). -/
def State.nestWho (s : State) (die ctx : Nat) (tr : Tr) : Who :=
  { whoNest die ctx with slot := if tr.pte.testBit 9 then 0 else (s.ctx ctx).desc.slot }

/-- What an access of the Nest is for: anything by its page, the ready list and the views in the context's L2 partition, the images in that partition and of the class of images (Table 13-7). -/
inductive Area where
  | page | pool | image
  deriving DecidableEq, Repr

/-- The attributes of the lines of an area of a context (R49, R320, R367): the class of an image's lines is its context's ICLASS, whatever their region's (R373). -/
def Area.attr (ar : Area) (c : Nat) (d : CtxDesc) (a : Attr) : Attr :=
  match ar with
  | .page => a
  | .pool => { a with part := d.part }
  | .image => { a with part := d.part, cls := d.iclass, reg := imgReg + c }

/-- Translates an address of a context for the Nest, with its rights (log 73); one in a scratchpad window or the view aperture, a KOBJ, ARGS or SIG of a packet too, is XLAT_INVALID (DEDUCED, log 64). A sum of PORTS, VIEWS or ARGS and an offset that passes 2^64 goes on at the low address (DESIGN CHOICE, log 82). -/
def nestTr (die ctx va : Nat) (kind : Acc) (ar : Area) : M Tr := do
  if field va 48 16 ≠ 0 then fail .addrNoncanon va
  else do
    let tr ← translate (whoNest die ctx) ctx va kind
    let s ← get
    pure { tr with attr := ar.attr ctx (s.ctx ctx).desc tr.attr }

/-- Writes bytes at a VA of a context for the Nest (R34, R338). -/
def nestWrite (die ctx va : Nat) (bs : List Byte) (ar : Area := .page) : M Unit := do
  for (a, b) in linePieces (bs.length / 128 + 2) va bs do
    let tr ← nestTr die ctx a .store ar
    let s ← get
    atAddr a (homeStore (s.nestWho die ctx tr) tr.attr tr.pa b false)

/-- Reads n bytes at a VA of a context for the Nest. -/
def nestRead (die ctx va n : Nat) (ar : Area := .page) : M (List Byte) := do
  let mut out : List Byte := []
  for (a, b) in linePieces (n / 128 + 2) va (List.replicate n 0) do
    let tr ← nestTr die ctx a .load ar
    let s ← get
    let (bs, _) ← atAddr a (homeRead (s.nestWho die ctx tr) tr.attr tr.pa b.length)
    out := out ++ bs
  pure out

/-! ## Views -/

/-- Where the views of a leaf's box are: its context and record. -/
def State.viewRec (s : State) (ctx recIdx : Nat) : Option Rec := (s.ctx ctx).record recIdx

/-- ViewChecks (R168, R170): the port and offset of an aperture address. -/
def State.viewAddr (s : State) (ctx recIdx ea size : Nat) : Except Cause (Nat × Nat × Port) :=
  let x := ea - 0xFFF000000000
  let n := x >>> 31
  let off := x % 2 ^ 31
  let rule := (s.viewRec ctx recIdx).bind fun r => (s.ctx ctx).ruleOf r.rule
  match rule.bind fun r => r.ports[n]? with
  | none => .error .portKind
  | some p =>
    if p.kind ≠ 2 then .error .portKind
    else if p.bytes < off + size then .error .portRange
    else .ok (n, off, p)

/-- Key of a view chunk. -/
def chunkKey (port off : Nat) : Nat := port * 2 ^ 22 + off / 512

/-- A chunk no store has touched: the identity in every element (R170). -/
def blankChunk (op : Nat) : Chunk :=
  ⟨BitVec.ofNat 4096 (packElems 32 (List.replicate 128 (viewIdent op).toNat)), 0, 0, 0, none, true⟩

/-- n bytes of a view (within one chunk) and their taint. -/
def Chunk.bytes (c : Chunk) (off n : Nat) : List Byte × Bool :=
  (toBytes n (c.val.toNat >>> (8 * (off % 512))),
   (List.range n).any fun i => c.taint.toNat.testBit ((off % 512 + i) / 4))

/-- Stores bytes into a view (within one chunk): an element covered in part keeps its taint (R170). -/
def Chunk.store (c : Chunk) (off : Nat) (bs : List Byte) (taint : Bool) : Chunk :=
  let o := off % 512
  let n := bs.length
  let val := BitVec.ofNat 4096 (packElems 8 ((List.range 512).map fun i =>
    if o ≤ i && i < o + n then (bs.getD (i - o) 0).toNat else elem 8 i c.val.toNat))
  let t := BitVec.ofNat 128 (bitsOf 128 fun i =>
    let whole := o ≤ 4 * i && 4 * i + 4 ≤ o + n
    let some4 := 4 * i < o + n && o < 4 * i + 4
    if whole then taint else if some4 then taint || c.taint.toNat.testBit i else c.taint.toNat.testBit i)
  { c with val := val, taint := t }

/-! ## Where the chunks stand -/

/-- A chunk of a record, of its prefix views or of its snapshot. -/
def Rec.chunkAt (r : Rec) (k : Nat) : Option Chunk :=
  if k < 2 ^ 40 then tfind r.chunks k
  else if k < 2 ^ 41 then tfind r.pre (k - 2 ^ 40)
  else r.snap.bind fun sn => tfind sn.chunks (k - 2 ^ 41)

/-- A table without a key, or with a value there. -/
def tput {α : Type} (t : Tbl α) (k : Nat) : Option α → Tbl α
  | some v => tset t k v
  | none => terase t k

/-- Sets or drops a chunk of a record, of its prefix views or of its snapshot. -/
def Rec.putChunk (r : Rec) (k : Nat) (ch : Option Chunk) : Rec :=
  if k < 2 ^ 40 then { r with chunks := tput r.chunks k ch }
  else if k < 2 ^ 41 then { r with pre := tput r.pre (k - 2 ^ 40) ch }
  else { r with snap := r.snap.map fun sn => { sn with chunks := tput sn.chunks (k - 2 ^ 41) ch } }

/-- Sets or drops a chunk of a record of a context. -/
def State.putChunk (s : State) (c box k : Nat) (ch : Option Chunk) : State :=
  let x := s.ctx c
  match x.record box with
  | none => s
  | some r => s.setCtx c { x with recs := tset x.recs box (r.putChunk k ch) }

/-- Sets a chunk of a record of a context. -/
def State.setChunk (s : State) (c box k : Nat) (ch : Chunk) : State := s.putChunk c box k (some ch)

/-- The lowest free place of the view spill area, 512 bytes each (R320; log 16). -/
def Ctx.freeSpill (x : Ctx) : Option Nat :=
  let used := x.spillUsed
  (List.range (used.length + 1)).find? fun j => j < x.desc.spillLen / 512 && !used.contains j

/-- VA of a place of the view spill area. -/
def Ctx.spillAddr (x : Ctx) (j : Nat) : Nat := x.desc.spillVa + 512 * j

/-- The slice that backs a chunk touched from a die (log 16). -/
def chunkSlice (die k : Nat) : Nat := die * 32 + k % 32

/-- A fault in the spill area (R386): data whose granule fails its check is VIEW_SPILL_LOST, with the cause and the chunk's offset. -/
def spillTrap (t : Trap) (va k : Nat) : Trap :=
  let lost := t.cause = .sealTagFail || t.cause = .sealQuarantined || t.cause = .memPoison || t.cause = .sealRecordUe
  if lost then
    { cause := .viewSpillLost, addr := va, info := BitVec.ofNat 64 (t.cause.ctorIdx + k % 2 ^ 22 * 512 * 2 ^ 16) }
  else { cause := t.cause, addr := va }

/-- A chunk with its words, from the spill area where it stands there. -/
def chunkRead (die c k : Nat) (ch : Chunk) : M Chunk := do
  match ch.spill with
  | none => pure ch
  | some j => do
    let s ← get
    let va := (s.ctx c).spillAddr j
    match ← attempt (nestRead die c va 512 .pool) with
    | .ok bs => pure { ch with val := BitVec.ofNat 4096 (ofBytes bs) }
    | .error t => throw (.trap (spillTrap t va k))

/-- Writes a chunk's words to a place of the spill area. -/
def spillWrite (die c j : Nat) (v : VWord) : M Unit := do
  let s ← get
  let va := (s.ctx c).spillAddr j
  match ← attempt (nestWrite die c va (toBytes 512 v.toNat) .pool) with
  | .ok _ => pure ()
  | .error t => throw (.trap { cause := t.cause, addr := va })

/-- A chunk leaves the L2 for the spill area, and what the snapshot shares with it (R320, R396). -/
def spillChunk (die c box k : Nat) : M Unit := do
  let s ← get
  let x := s.ctx c
  match x.record box with
  | none => pure ()
  | some r =>
    match r.chunkAt k with
    | none => pure ()
    | some ch =>
      if ch.spill.isSome then pure ()
      else match x.freeSpill with
      | none => fail .viewSpace x.desc.spillVa
      | some j => do
        spillWrite die c j ch.val
        let out := { ch with val := 0, spill := some j }
        upd fun s => (if k < 2 ^ 40 && r.shares k then s.setChunk c box (2 ^ 41 + k) out else s).setChunk c box k out

/-- The first chunk of a context that a slice backs in a partition, other than one that is being placed: what leaves where the slice is full (log 16). -/
def Ctx.spillVictim (x : Ctx) (slice part box k : Nat) : Option (Nat × Nat) :=
  x.recs.findSome? fun (i, r) => ((r.onChip slice part).find? fun (q, _) => i ≠ box || q ≠ k).map fun e => (i, e.1)

/-- A slice has room for one more chunk of a partition, or one of the context's chunks can leave it for a free place of the spill area. -/
def State.sliceTakes (s : State) (slice part c box k : Nat) : Bool :=
  s.sliceHeld slice part < s.sliceRoom slice part
    || (s.sliceRoom slice part ≠ 0 && ((s.ctx c).spillVictim slice part box k).isSome && (s.ctx c).freeSpill.isSome)

/-- Where a slice has no room for one more chunk, one of the context's leaves it. -/
def spillOver (die c box k slice part : Nat) : M Unit := do
  let s ← get
  if s.sliceHeld slice part < s.sliceRoom slice part then pure ()
  else match (s.ctx c).spillVictim slice part box k with
  | some (b, q) => spillChunk die c b q
  | none => pure ()

/-- Chunks of a partition leave a slice until the pinned lines have the ways they need (R319, R320), at most n; one that cannot be written stays. -/
def State.spillDown (slice part : Nat) : Nat → State → State
  | 0, s => s
  | n + 1, s =>
    if s.sliceHeld slice part ≤ s.sliceRoom slice part then s
    else match s.ctxs.findSome? fun (c, x) =>
        if x.freeSpill.isSome then (x.spillVictim slice part 4096 0).map fun e => (c, e.1, e.2) else none with
      | some (c, b, k) => State.spillDown slice part n (runIgnore (spillChunk (slice / 32) c b k) s)
      | none => s

/-- Seats a record's chunk in its slice, which takes it: where the slice is full another chunk leaves first, so that the record is as it was where that one cannot; then sets that had the way are trimmed. -/
def chunkSeat (die c box k : Nat) (ch : Chunk) : M Unit := do
  spillOver die c box k ch.slice ch.part
  upd fun s => ((s.setChunk c box k ch).trimSlice s ch.slice ch.part).occSet (occL2 ch.slice ch.part) c

/-- A record's chunk takes a place of the spill area; VIEW_SPACE where none is free (R320). -/
def chunkOut (die c box k : Nat) (ch : Chunk) : M Chunk := do
  let s ← get
  match (s.ctx c).freeSpill with
  | none => fail .viewSpace (s.ctx c).desc.spillVa
  | some j => do
    spillWrite die c j ch.val
    let out := { ch with spill := some j }
    upd fun s => (s.setChunk c box k { out with val := 0 }).occSet (occL2 ch.slice ch.part) c
    pure out

/-- A record's chunk is placed anew: in its slice where that takes it, else in the spill area. -/
def chunkPlace (die c box k : Nat) (ch : Chunk) : M Chunk := do
  let s ← get
  if s.sliceTakes ch.slice ch.part c box k then do
    chunkSeat die c box k ch
    pure ch
  else chunkOut die c box k ch

/-- A chunk of a record, made ready for an access from a die, with its words: a store allocates one that nothing has touched and takes one that the snapshot shares to a place of its own, and one that stands in the spill area is filled back where its slice has room (R170, R320, R396). After a store's, nothing that the store still does can fail: what stays in the spill area has been written there (R190). -/
def chunkOpen (die c box k op : Nat) (store : Bool) : M Chunk := do
  let s ← get
  let x := s.ctx c
  let slice := chunkSlice die k
  match (s.viewRec c box).bind fun r => (tfind r.chunks k).map fun ch => (ch, r.shares k) with
  | none =>
    if store then chunkPlace die c box k { blankChunk op with slice := slice, part := x.desc.part }
    else pure (blankChunk op)
  | some (ch, shared) =>
    match ch.spill with
    | none => if store && shared then chunkPlace die c box k { ch with own := true } else pure ch
    | some j => do
      let full ← chunkRead die c k ch
      if s.sliceTakes slice x.desc.part c box k then do
        let back := { full with slice := slice, part := x.desc.part, spill := none, own := true }
        chunkSeat die c box k back
        pure back
      else if !store then pure full
      else if 1 < (x.spillUsed.filter (· = j)).length then chunkOut die c box k { full with own := true }
      else do
        spillWrite die c j full.val
        pure full

/-- Writes a chunk that `chunkOpen` has made ready for a store, into the spill area where it stands there. -/
def chunkPut (die c box k : Nat) (ch : Chunk) : M Unit := do
  match ch.spill with
  | none => upd fun s => s.setChunk c box k ch
  | some j => do
    spillWrite die c j ch.val
    upd fun s => s.setChunk c box k { ch with val := 0 }

/-- Loads n bytes of a view (within one chunk) and their taint. -/
def viewLoad (die c box port off n op : Nat) : M (List Byte × Bool) := do
  let ch ← chunkOpen die c box (chunkKey port off) op false
  pure (ch.bytes off n)

/-- Stores bytes into a view (within one chunk); tainted data marks the box (Table 1-6). -/
def viewStore (die c box port off op : Nat) (bs : List Byte) (taint : Bool) : M Unit := do
  let k := chunkKey port off
  let ch ← chunkOpen die c box k op true
  chunkPut die c box k (ch.store off bs taint)
  upd fun s =>
    let x := s.ctx c
    match x.record box with
    | some r => s.setCtx c { x with recs := tset x.recs box { r with taint := r.taint || taint } }
    | none => s

/-- The chunks of a context that it did not have before are given up (R170, R190); one that has moved between the L2 and the spill area meanwhile stays where it is, with its words. -/
def Ctx.giveUp (x x0 : Ctx) : Ctx :=
  { x with recs := tmap (fun i r => { r with chunks := r.chunks.filter fun e => ((x0.record i).bind fun q => tfind q.chunks e.1).isSome }) x.recs }

/-- A check that fails leaves no chunk allocated that it has allocated (R190). -/
def keepChunks {α : Type} (c : Nat) (m : M α) : M α := do
  let s0 ← get
  match ← attempt m with
  | .ok a => pure a
  | .error t => do
    upd fun s => if (s.ctx c).recs = (s0.ctx c).recs then s else s.setCtx c ((s.ctx c).giveUp (s0.ctx c))
    throw (.trap t)

end Sys2Proof.Machine
end

