-- ==== Sys2Proof/Machine/Access.lean ====
section
/-! DEFINITION. Accesses of leaf contexts and engines: the checks of R178, scratchpads (R51, R312-R314), views (R168-R170), the L1 and the remote-data cache (R315, R316, R321), the combining buffer and atoms (R201-R205, R431), release and acquire (R181, R182). -/

namespace Sys2Proof.Machine

/-! ## Cleaning lines -/

/-- The tables that a clean of a line passes, in order (R401): the CXL port's and the slice's, as any request passes them. -/
def State.cleanTargets (s : State) (pa : Nat) : List Nat :=
  match s.homeOf pa with
  | .lpddr d sc _ => [tgtL2 d sc]
  | .cxl d sc _ => [tgtCxl d, tgtL2 d sc]
  | _ => []

/-- Requests of a core for a domain at a home are admitted and reach it, through a CXL port that is up where there is one (R310). -/
def State.cleanReaches (s : State) (core dom pa : Nat) : Bool :=
  match s.homeOf pa with
  | .lpddr d _ _ | .cxl d _ _ => !s.linkLost (coreDie core) d && !s.cxlGone pa && (s.cleanTargets pa).all fun t => s.admits t (masterId core) (some dom) true
  | .pod k => s.podRoute k && !s.podDenied.any fun (a, b) => a ≤ pa && pa < b
  | _ => false

/-- A clean that a table refuses is counted at the first that does (R402). -/
def State.refuseClean (s : State) (core dom pa : Nat) : State :=
  if s.linkLost (coreDie core) (s.homeDie pa) || s.cxlGone pa then s
  else match (s.cleanTargets pa).find? fun t => !s.admits t (masterId core) (some dom) true with
  | some t => s.refuse t (masterId core)
  | none => s

/-- The home holds a line under another key slot than a core's line of it. -/
def State.slotClash (s : State) (line : Nat) (l : L1Line) : Bool :=
  match tfind s.l2 line with | some h => h.slot ≠ l.slot | none => false

/-- The dirty bytes that a core has of a line, if any, can be written to its home. -/
def State.canClean (s : State) (core line : Nat) : Bool :=
  match tfind (s.core core).l1 line with
  | some l => l.dirty = 0 || (!s.slotClash line l && s.cleanReaches core l.owner (line * 128))
  | none => true

/-- Bytes of the words of a line that an atom has changed since the line was filled, and how many such words the dirty bytes overwrite (R203). -/
def L1Line.racedBytes (l : L1Line) : BitVec 128 × Nat :=
  let hit (w : Nat) (m : Nat) : List Nat := (List.range (128 / w)).filter fun i => m.testBit i && elem w i l.dirty.toNat ≠ 0
  let h4 := hit 4 l.raced.toNat
  let h8 := hit 8 l.raced8.toNat
  (BitVec.ofNat 128 (bitsOf 128 fun i => h4.contains (i / 4) || h8.contains (i / 8)), h4.length + h8.length)

/-- Writes the dirty bytes of an L1 line to its home (R193, R203, R315, R317, R321); `hint` is the HINT.L2 of a `clean`. What atoms have changed since the fill stays marked: only a refill ends the race. The cleaning context, which the event of a race is counted in, is the one that made the bytes dirty (DEDUCED, log 27). -/
def State.cleanLine (s : State) (core line : Nat) (hint : Option Nat := none) : State :=
  match tfind (s.core core).l1 line with
  | none => s
  | some l =>
    if l.dirty = 0 then s
    else
      let c := s.core core
      let s := s.setCore core { c with l1 := tset c.l1 line { l with dirty := 0, inPort := 0 } }
      if s.slotClash line l then s
      else if !s.cleanReaches core l.owner (line * 128) then s.refuseClean core l.owner (line * 128)
      else
        let s0 := s
        let (hit, n) := l.racedBytes
        let t := l.taint ||| BitVec.ofNat 4 (sectorsOf hit)
        let attr := { l.attr with hint := hint.getD l.attr.hint }
        let (s, keep) := s.rdcStore (coreDie core) line l.data l.dirty t
        let s := (s.homeWrite line l.data l.dirty t l.slot l.owner attr keep).countTaint l.owner n
        let s := if hit &&& l.dirty &&& l.inPort ≠ 0 then s.setCtx l.owner { s.ctx l.owner with portTaint := true } else s
        s.settleAlloc s0 (line * 128) attr

/-- Cleans an L1 line and drops it. -/
def State.dropL1 (s : State) (core line : Nat) (hint : Option Nat := none) : State :=
  let s := s.cleanLine core line hint
  let c := s.core core
  s.setCore core { c with l1 := terase c.l1 line }

/-- Before an atom or a reduction is sent (R202, R205): the core's line is cleaned and dropped, and a copy in the RDC of its die is replaced, so that a later load of the core sees the result (log 27). No dirty byte is dropped: a line that cannot be cleaned stays as it is. -/
def State.dropForAtom (s : State) (core line : Nat) : State :=
  let s := if s.canClean core line then s.dropL1 core line else s
  let d := s.die (coreDie core)
  s.setDie (coreDie core) { d with rdc := terase d.rdc line }

/-- Line numbers of a core's L1 that a predicate on the line number selects. -/
def State.l1Lines (s : State) (core : Nat) (p : Nat → Bool) : List Nat := ((s.core core).l1.map (·.1)).filter p

/-- Cleans the selected lines of a core. -/
def State.cleanWhere (s : State) (core : Nat) (p : Nat → Bool) (hint : Option Nat := none) : State :=
  (s.l1Lines core p).foldl (fun s l => s.cleanLine core l hint) s

/-- Cleans and drops the selected lines of a core. -/
def State.dropWhere (s : State) (core : Nat) (p : Nat → Bool) (hint : Option Nat := none) : State :=
  (s.l1Lines core p).foldl (fun s l => s.dropL1 core l hint) s

/-- Drops the selected RDC lines of a die. -/
def State.dropRdc (s : State) (die : Nat) (p : Nat → Bool) : State :=
  s.setDie die { s.die die with rdc := (s.die die).rdc.filter fun e => !p e.1 }

/-- A line meets one of the physical intervals. -/
def lineIn (iv : List (Nat × Nat × Nat)) (line : Nat) : Bool :=
  iv.any fun (a, b, _) => line * 128 < b && a < line * 128 + 128

/-! ## Atoms and reductions -/

/-- Element width of an atom's type in bytes. -/
def atomSize (t : Ety) : Nat := etyCodeBits (etyCode t) / 8

/-- AtomStep (R201): the new value of the word. -/
def atomNew (op : AtomOp) (t : Ety) (old c e : Nat) : Nat :=
  let k := etyCodeBits (etyCode t)
  let c := c % 2 ^ k
  let f := fdecode fmtF32
  let lt (a b : Nat) : Bool := if etySigned t then toS k a < toS k b else a < b
  match op with
  | .add => if t = .f32 then (fadd fmtF32 .rne false (f old) (f c)).1 else (old + c) % 2 ^ k
  | .min => if t = .f32 then (fminmax fmtF32 false old c (f old) (f c)).1 else if lt c old then c else old
  | .max => if t = .f32 then (fminmax fmtF32 true old c (f old) (f c)).1 else if lt old c then c else old
  | .and => old &&& c
  | .or => old ||| c
  | .xor => old ^^^ c
  | .swap => c
  | .cas => if old = c then e % 2 ^ k else old

/-- The home word is tainted whatever it held (R201, R204). -/
def atomTaints (op : AtomOp) (t : Ety) : Bool := op == .swap || op == .cas || t == .f32

/-- Marks, in every L1 copy of a line, the words on which an atom has been performed (R203). -/
def State.markRaced (s : State) (pa n : Nat) : State :=
  let mark (l : L1Line) : L1Line :=
    if n = 8 then { l with raced8 := l.raced8 ||| BitVec.ofNat 16 (2 ^ (pa % 128 / 8)) }
    else { l with raced := l.raced ||| BitVec.ofNat 32 (2 ^ (pa % 128 / 4)) }
  { s with cores := tmap (fun _ c => { c with l1 := tmap (fun k l => if k = pa / 128 then mark l else l) c.l1 }) s.cores }

/-- An atom, or `events` reductions combined into one request, performed at its home by the atomic handler thread (R201, R204): the old value. Each f32 operation, swap and cas counts one tainting event (R358). -/
def atomHome (w : Who) (pa : Nat) (t : Ety) (op : AtomOp) (c e : Nat) (taint inPort : Bool) (attr : Attr) (events : Nat) : M Nat := do
  let n := atomSize t
  let s ← get
  let s0 := s
  let attr := s.attrFor attr pa
  match s.homeOf pa with
  | .lpddr d sc _ | .cxl d sc _ => do
    if s.linkLost w.die d then fail .homeUnreachable else pure ()
    arrive (tgtString d sc) w true true
    upd fun s => s.occSet (occJob (stringCore d sc)) w.owner
    arriveHome { w with id := masterId (stringCore d sc), die := d } pa true true
  | _ => arriveHome w pa true true
  ensureLine w pa n attr
  let s ← get
  let old := ofBytes (s.homeBytes pa n).1
  let force := atomTaints op t
  upd fun s =>
    let s := s.homeWrite (pa / 128) (lineData (pa % 128) (toBytes n (atomNew op t old c e))) (byteMask (pa % 128) n)
      (if taint || force || taintHit (s.homeBytes pa n).2 pa n then 0b1111#4 else 0) w.slot w.owner attr none
    let s := (s.markRaced pa n).countTaint w.owner (if force then events else 0)
    let s := if inPort && (taint || force) then
      (match w.dom with | some x => s.setCtx x { s.ctx x with portTaint := true } | none => s) else s
    s.settleAlloc s0 pa attr
  pure old

/-- The step of a combining-buffer entry at its home (R205, R431): the core's line is cleaned and dropped first; a fault kills the issuing context and posts an event. -/
def State.redHome (s : State) (core : Nat) (e : CEntry) : State :=
  let s := s.dropForAtom core (e.pa / 128)
  match attempt (atomHome (s.whoFor core e.ctx) e.pa e.ety e.op e.value.toNat 0 e.taint e.inPort e.attr e.count) s with
  | .ok (.ok _) s' => s'
  | .ok (.error t) s' =>
    (s'.note (.kill e.ctx .sealWbFail core)).note (.event (s'.homeDie e.pa) t.cause e.pa t.cause.ctorIdx)
  | .error _ s' => s'

/-- Sends the selected combining-buffer entries of a core, oldest first (R205). -/
def State.sendEntries (s : State) (core : Nat) (p : CEntry → Bool) : State :=
  let c := s.core core
  let out := c.cbuf.filter p
  let s := if out.isEmpty then s else s.setCore core { c with cbuf := c.cbuf.filter fun e => !p e }
  out.foldl (fun s e => s.redHome core e) s

/-- An entry's word meets n bytes at a PA. -/
def CEntry.meets (e : CEntry) (pa n : Nat) : Bool := pa < e.pa + atomSize e.ety && e.pa < pa + n

/-! ## L1 fills -/

/-- A copy of a line enters the RDC of a die, which its home notes (R321, R357); a notice still under way is that of an earlier copy and passes this one by (DEDUCED, log 27); a full RDC loses another copy, which is not the spec's to name (log 14). -/
def State.putRdc (s : State) (w : Who) (line : Nat) (data : BitVec 1024) (t : BitVec 4) : State :=
  let d := s.die w.die
  let full := Config.rdcLines ≤ d.rdc.length
  let victim := if full then (d.rdc[s.freePick d.rdc.length]?).map (·.1) else none
  let rdc := match victim with | some k => terase d.rdc k | none => d.rdc
  let s := s.setDie w.die { d with rdc := tset rdc line ⟨data, t, false, w.slot, w.owner⟩ }
  { s with
    free := if full then s.free + 1 else s.free
    staleNotices := s.staleNotices.filter (· ≠ (w.die, line))
    rdcHeld := tset s.rdcHeld line (tget 0 s.rdcHeld line ||| BitVec.ofNat 4 (2 ^ w.die)) }.occSet (occDie w.die) w.owner

/-- The line of an address for a core, from its home or through the die's RDC (R316, R321, R357), tainted where the copy is STALE. HINT.L2 = 0b11 leaves no copy (R192, Table 3-6). -/
def fetchLine (w : Who) (pa : Nat) (attr : Attr) : M (BitVec 1024 × BitVec 4) := do
  let line := pa / 128
  let s ← get
  let remote := match (s.homeOf pa).place with | some (d, _) => d ≠ w.die | none => true
  let home : M (BitVec 1024 × BitVec 4) := do
    let (bs, t) ← homeRead w attr (line * 128) 128
    pure (BitVec.ofNat 1024 (ofBytes bs), t)
  if s.cxlGone pa then fail .cxlDown
  else if !remote then home
  else match tfind (s.die w.die).rdc line with
  | some r =>
    if r.slot ≠ w.slot then fail .sealTenant
    else if r.stale then do
      upd fun s => s.countTaint w.owner 1
      pure (r.data, 0b1111#4)
    else pure (r.data, r.taint)
  | none => do
    let (data, t) ← home
    if attr.hint = 3 then pure () else upd fun s => s.putRdc w line data t
    pure (data, t)

/-- Replacement order of L1 lines by HINT.L1: stream before normal before keep (Table 3-6). -/
def L1Line.rank (l : L1Line) : Nat := match l.attr.hintL1 with | 2 => 3 | 1 => 1 | _ => 2

/-- A line enters a core's L1; a full L1 loses another line of the highest rank, which of them is not the spec's to name (R315; log 14). -/
def State.putL1 (s : State) (core line : Nat) (l : L1Line) : State :=
  let c := s.core core
  let s := if c.l1.length < Config.l1Lines then s
    else
      let top := (c.l1.map fun e => e.2.rank).foldl max 0
      let cand := c.l1.filter fun e => e.2.rank = top
      match cand[s.freePick cand.length]? with
      | some (k, _) => { s with free := s.free + 1 }.dropL1 core k
      | none => s
  let c := s.core core
  (s.setCore core { c with l1 := tset c.l1 line l }).occSet (occL1 core) l.owner

/-- The L1 line of an address, filled if it is absent (R315, R316); the access gives it its priority. -/
def l1Fill (w : Who) (pa : Nat) (attr : Attr) : M L1Line := do
  let s ← get
  match tfind (s.core w.core).l1 (pa / 128) with
  | some l =>
    if l.slot ≠ w.slot then fail .sealTenant
    else do
      let l := if attr.hintL1 = 3 then l else { l with attr := { l.attr with hint := attr.hint, hintL1 := attr.hintL1 } }
      upd fun s =>
        let c := s.core w.core
        s.setCore w.core { c with l1 := tset c.l1 (pa / 128) l }
      pure l
  | none => do
    let (data, t) ← fetchLine w pa attr
    let l : L1Line := ⟨data, 0, t, 0, 0, w.owner, w.slot, attr, 0⟩
    upd fun s => s.putL1 w.core (pa / 128) l
    pure l

/-! ## Scratchpads -/

/-- SCRATCH bytes of the rule of a record. -/
def Ctx.scratchOf (x : Ctx) (i : Nat) : Nat := (((x.record i).bind fun r => x.ruleOf r.rule).map (·.scratch)).getD 0

/-- The allocation of a slot: its context and its size; a record held in place keeps its own (R312, R376). -/
def State.allocOf (s : State) (core k : Nat) : Option (Nat × Nat) :=
  let L := s.leafAt core k
  if L.mode ≠ .idle then some (L.ctx, (s.ctx L.ctx).scratchOf L.recIdx)
  else s.ctxs.findSome? fun (c, x) =>
    x.recs.findSome? fun (i, r) => if r.held && r.core = core && r.slot = k then some (c, x.scratchOf i) else none

/-- Byte x of a core's scratchpad lies in an allocation of a context. -/
def State.inAlloc (s : State) (core ctx x : Nat) : Bool :=
  x / 0x40000 < coreSlots core &&
    match s.allocOf core (x / 0x40000) with
    | some (c, n) => c = ctx && x % 0x40000 < n
    | none => false

/-- ScratchChecks (R51, R312, R314): the core and byte offset a scratchpad address names for a leaf of slot `slot` of core `core`. -/
def State.scratchAddr (s : State) (ctx core slot ea : Nat) : Except Cause (Nat × Nat) :=
  let off := field ea 0 20
  let sel := field ea 20 3
  let num := field ea 23 7
  let node := (s.ctx ctx).node
  if field ea 32 16 = 0xFFFE then
    if field ea 20 12 ≠ 0 || coreIsString core then .error .scrAddrBad
    else
      let alloc := (s.ctx ctx).scratchOf (s.leafAt core slot).recIdx
      if alloc ≤ off then .error .scrAddrBad else .ok (core, slot * 0x40000 + off)
  else if 1 < sel || (sel = 1 && 31 < num) then .error .scrAddrBad
  else
    let target := if sel = 0 then computeCore (field ea 30 2) num else stringCore (field ea 30 2) num
    if sel = 1 && 0x80000 ≤ off then .error .scrAddrBad
    else if !coreIn node target then .error .scrOutOfPart
    else if s.inAlloc target ctx off then .ok (target, off)
    else .error .scrAddrBad

/-- A scratchpad word of a core; one that nothing has written is EMPTY, 0, untainted. -/
def State.scrWord (s : State) (core i : Nat) : ScrWord := tget ⟨0, 0, false⟩ (s.core core).scr i

/-- Sets a scratchpad word. -/
def State.setScrWord (s : State) (core i : Nat) (x : ScrWord) : State :=
  let c := s.core core
  s.setCore core { c with scr := if x = ⟨0, 0, false⟩ then terase c.scr i else tset c.scr i x }

/-- n bytes of a core's scratchpad and the taint of the words they touch (R184). -/
def State.scrBytes (s : State) (core off n : Nat) : List Byte × Bool :=
  ((List.range n).map fun i => BitVec.ofNat 8 ((s.scrWord core ((off + i) / 4)).val.toNat >>> (8 * ((off + i) % 4))),
   (List.range n).any fun i => (s.scrWord core ((off + i) / 4)).taint)

/-- Stores bytes into a core's scratchpad (R184, R199): states stay; a word covered whole takes the stored taint, another keeps its own as well. -/
def State.scrStore (s : State) (core off : Nat) (bs : List Byte) (taint : Bool) : State :=
  let n := bs.length
  (List.range ((off + n - 1) / 4 - off / 4 + 1)).foldl (fun s k =>
    let i := off / 4 + k
    let w := s.scrWord core i
    let byte (j : Nat) : Nat :=
      let a := 4 * i + j
      if off ≤ a && a < off + n then (bs.getD (a - off) 0).toNat else elem 8 j w.val.toNat
    let whole := off ≤ 4 * i && 4 * i + 4 ≤ off + n
    s.setScrWord core i
      { w with val := BitVec.ofNat 32 (packElems 8 ((List.range 4).map byte))
               taint := if whole then taint else taint || w.taint }) s

/-- The named address of byte x of a core's scratchpad (Table 1-12, R314). -/
def scrNamed (core x : Nat) : Nat :=
  0xFFFF00000000 + coreDie core * 2 ^ 30 + coreNum core * 2 ^ 23 + (if coreIsString core then 0x100000 else 0) + x

/-! ## The checks of R178 -/

/-- Kinds of access, with word-state operations. -/
inductive Kind where
  | load | store | ws | atom
  deriving DecidableEq, Repr

/-- What a checked address names. -/
inductive Target where
  | scr (core off : Nat)
  | view (port off : Nat) (op : Nat)
  | mem (tr : Tr)
  | sv (pa hint : Nat)
  | ctl (pa : Nat)
  deriving DecidableEq, Repr

/-- A place in the address space of the actor's context, and no supervisor one. -/
def Target.isCtx : Target → Bool
  | .sv _ _ | .ctl _ => false
  | _ => true

/-- On whose behalf an access is checked: its requests, context, leaf slot and record, and the HINT of the instruction (Table 3-6). -/
structure Actor where
  who : Who
  ctx : Nat
  slot : Nat
  box : Nat
  hint : Nat
  deriving DecidableEq, Repr

/-- The executing leaf as an actor. -/
def State.actor (s : State) : Actor :=
  ⟨s.who, s.leaf.ctx, match s.cur with | .leaf _ k => k | .dcc _ => 0, s.leaf.recIdx, 0⟩

/-- The executing leaf as the actor of an instruction with a HINT field. -/
def State.actorFor (s : State) (x : Args) : Actor := { s.actor with hint := x.hint.toNat }

/-- Supervisor translation of a die control core (R139, R399; log 20). -/
def State.svAddr (s : State) (va : Nat) (kind : Acc) : Except Cause Nat :=
  match s.svMap.find? fun m => m.va ≤ va && va < m.va + m.len with
  | none => .error .xlatInvalid
  | some m =>
    let ok := match kind with | .load => m.r | .store => m.w | .atom => m.r && m.w | .fetch => m.x
    if ok then .ok (m.pa + (va - m.va)) else .error .xlatPerm

/-- A physical address of the control space (Table 15-1). -/
def isControl (pa : Nat) : Bool := 0x3000000000000 ≤ pa && pa < 0x4000000000000

/-- CheckAccess (R178) of one element. -/
def checkAccess (a : Actor) (ea size : Nat) (kind : Kind) : M Target := do
  let s ← get
  if field ea 48 16 ≠ 0 then fail .addrNoncanon ea
  else if ea % size ≠ 0 then fail .addrAlign ea
  else if a.who.sup && a.who.dom.isNone then
    if kind == .ws then fail .wsSpace ea
    else match s.svAddr ea (match kind with | .load => .load | .atom => .atom | _ => .store) with
    | .error c => fail c ea
    | .ok pa =>
      if isControl pa then
        if size ≠ 8 then fail .addrAlign ea else if kind == .atom then fail .atomSpace ea else pure (.ctl pa)
      else if s.homeOf pa = .none then fail .xlatPaRange ea
      else pure (.sv pa (a.hint / 4))
  else if field ea 32 16 = 0xFFFE || field ea 32 16 = 0xFFFF then
    match s.scratchAddr a.ctx a.who.core a.slot ea with
    | .error c => fail c ea
    | .ok (core, off) =>
      if kind == .atom then fail .atomSpace ea
      else if s.linkLost a.who.die (coreDie core) then fail .homeUnreachable ea
      else pure (.scr core off)
  else if 0xFFF000000000 ≤ ea && ea ≤ 0xFFF7FFFFFFFF then
    if kind == .ws || kind == .atom then fail .portKind ea
    else match s.viewAddr a.ctx a.box ea size with
    | .error c => fail c ea
    | .ok (n, off, p) => do
      let _ ← atAddr ea (chunkOpen a.who.die a.ctx a.box (chunkKey n off) p.op (kind == .store))
      pure (.view n off p.op)
  else if kind == .ws then fail .wsSpace ea
  else do
    let tr ← translate a.who a.ctx ea (match kind with | .load => .load | .atom => .atom | _ => .store)
    let s ← get
    if (kind == .store || kind == .atom) && !tr.isOpen && tr.holder ≠ some a.ctx then fail .capAbsent ea
    else if s.cxlGone tr.pa then fail .cxlDown ea
    else pure (.mem { tr with attr := { tr.attr with hint := a.hint / 4, hintL1 := a.hint % 4 } })

/-- n bytes from a virtual address meet a port region of the launch of a context (R359). -/
def State.inPort (s : State) (ctx va n : Nat) : Bool :=
  match (s.ctx ctx).launch with
  | none => false
  | some l => l.rules.any fun r => r.ports.any fun p => p.base < va + n && va < p.base + p.bytes

/-- Which of n bytes from a virtual address lie in a port region, as a mask of the line that holds their physical address (R359). -/
def State.portMask (s : State) (ctx va pa n : Nat) : BitVec 128 :=
  if s.inPort ctx va n then BitVec.ofNat 128 (bitsOf n (fun i => s.inPort ctx (va + i) 1) <<< (pa % 128)) else 0

/-- Notes a tainted write of n bytes into a port region (R359). -/
def State.portWrite (s : State) (ctx va n : Nat) (taint : Bool) : State :=
  if taint && s.inPort ctx va n then s.setCtx ctx { s.ctx ctx with portTaint := true } else s

/-- A format-window address. -/
def State.isWindow (s : State) (pa : Nat) : Bool := match s.homeOf pa with | .fwin _ _ _ _ => true | _ => false

/-- Loads n bytes of a checked element; `noAlloc` is HINT.L1 = 0b11 (R186, R316). -/
def loadAt (a : Actor) (t : Target) (n : Nat) (noAlloc : Bool) : M (List Byte × Bool) := do
  let s ← get
  match t with
  | .scr core off => pure (s.scrBytes core off n)
  | .view port off op => viewLoad a.who.die a.ctx a.box port off n op
  | .sv pa h => do
    let (bs, tn) ← homeRead a.who { plainAttr with hint := h } pa n
    pure (bs, taintHit tn pa n)
  | .ctl _ => pure (List.replicate n 0, false)
  | .mem tr => do
    upd fun s => s.sendEntries a.who.core (·.meets tr.pa n)
    if s.isWindow tr.pa then do
      let (bs, tn) ← apertureRead a.who tr.attr tr.pa n
      pure (bs, taintHit tn tr.pa n)
    else do
      let s ← get
      let hit := (tfind (s.core a.who.core).l1 (tr.pa / 128)).isSome
      let (data, tn) ← (if noAlloc && !hit then fetchLine a.who tr.pa tr.attr
        else do
          let l ← l1Fill a.who tr.pa tr.attr
          pure (l.data, l.taint))
      pure (toBytes n (data.toNat >>> (8 * (tr.pa % 128))), taintHit tn tr.pa n)

/-- Makes the fill that a write of n bytes at the home needs (R219). -/
def fillHome (a : Actor) (t : Target) (n : Nat) : M Unit := do
  match t with
  | .mem tr => do
    upd fun s => s.sendEntries a.who.core (·.meets tr.pa n)
    granuleReady a.who tr.attr tr.pa
  | .sv pa h => granuleReady a.who { plainAttr with hint := h } pa
  | _ => pure ()

/-- A line of the L1 that was filled under another key slot is no hit: SEAL_TENANT, and nothing changes (R331). -/
def l1Tenant (w : Who) (pa : Nat) : M Unit := do
  let s ← get
  match tfind (s.core w.core).l1 (pa / 128) with
  | some l => if l.slot ≠ w.slot then fail .sealTenant else pure ()
  | none => pure ()

/-- Makes every fill that a store of n bytes needs (R190, R316). One that goes past the L1 sets the bytes of a line that it hits there, so that line's key slot is tested as for any hit (R331). -/
def fillFor (a : Actor) (t : Target) (n : Nat) (noAlloc : Bool) : M Unit := do
  match t with
  | .mem tr =>
    if noAlloc then do
      l1Tenant a.who tr.pa
      fillHome a t n
    else do
      upd fun s => s.sendEntries a.who.core (·.meets tr.pa n)
      let _ ← l1Fill a.who tr.pa tr.attr
      pure ()
  | _ => fillHome a t n

/-- The dirty bytes that another context has left in a line of the core are cleaned: what a store of a context does first (R187, R389). -/
def State.cleanOther (s : State) (core line dom : Nat) : State :=
  match tfind (s.core core).l1 line with
  | some l => if l.dirty ≠ 0 && l.owner ≠ dom then s.cleanLine core line else s
  | none => s

/-- Sets bytes of an L1 line (R315, R389): another owner's dirty bytes are cleaned first. -/
def State.l1Store (s : State) (a : Actor) (pa : Nat) (bs : List Byte) (taint dirty : Bool) (port : BitVec 128) : State :=
  let core := a.who.core
  let line := pa / 128
  let dom := a.who.owner
  let s := s.cleanOther core line dom
  match tfind (s.core core).l1 line with
  | none => s
  | some l =>
    let m := byteMask (pa % 128) bs.length
    let keep := l.data &&& ~~~BitVec.ofNat 1024 (ones (8 * (pa % 128)) (8 * bs.length))
    let l := { l with
      data := keep ||| lineData (pa % 128) bs
      dirty := if dirty then l.dirty ||| m else l.dirty &&& ~~~m
      taint := storeTaint l.taint m (if taint then 0b1111#4 else 0)
      owner := dom, inPort := (l.inPort &&& ~~~m) ||| (if dirty then port else 0) }
    let c := s.core core
    (s.setCore core { c with l1 := tset c.l1 line l }).occSet (occL1 core) dom

/-- Stores bytes of a checked element whose fills have been made, and a line that it hits tested, by `fillFor` (R186, R316, R331). -/
def storeAt (a : Actor) (t : Target) (ea : Nat) (bs : List Byte) (taint noAlloc : Bool) : M Unit := do
  upd fun s => if t.isCtx then s.portWrite a.ctx ea bs.length taint else s
  match t with
  | .scr core off => upd fun s => s.scrStore core off bs taint
  | .view port off op => viewStore a.who.die a.ctx a.box port off op bs taint
  | .sv pa h => homeStore a.who { plainAttr with hint := h } pa bs taint
  | .ctl _ => pure ()
  | .mem tr => do
    let s ← get
    if noAlloc then do
      upd fun s => s.cleanOther a.who.core (tr.pa / 128) a.who.owner
      homeStore a.who tr.attr tr.pa bs taint (some a.who.die)
      upd fun s => s.l1Store a tr.pa bs taint false 0
    else if (tfind (s.core a.who.core).l1 (tr.pa / 128)).isNone then do
      let _ ← l1Fill a.who tr.pa tr.attr
      upd fun s => s.l1Store a tr.pa bs taint true (s.portMask a.ctx ea tr.pa bs.length)
    else upd fun s => s.l1Store a tr.pa bs taint true (s.portMask a.ctx ea tr.pa bs.length)

/-- A read at the home: by an engine job, whose engines stand at the string cores (R219; DEDUCED, log 30), a fetch (R88, R89), the Jigsaw units (log 28). -/
def engineLoad (a : Actor) (t : Target) (n : Nat) : M (List Byte × Bool) := do
  match t with
  | .mem tr => do
    let (bs, tn) ← homeRead a.who tr.attr tr.pa n
    pure (bs, taintHit tn tr.pa n)
  | _ => loadAt a t n true

/-- A matrix operand read: from the home, the RDC or the scratchpad, never from L1 (R276). -/
def matrixLoad (a : Actor) (t : Target) (n : Nat) : M (List Byte × Bool) := do
  let s ← get
  match t with
  | .mem tr =>
    if s.isWindow tr.pa then do
      let (bs, tn) ← apertureRead a.who tr.attr tr.pa n
      pure (bs, taintHit tn tr.pa n)
    else do
      let (data, tn) ← fetchLine a.who tr.pa tr.attr
      pure (toBytes n (data.toNat >>> (8 * (tr.pa % 128))), taintHit tn tr.pa n)
  | _ => loadAt a t n true

/-- An engine write: performed at its home (R219). -/
def engineStore (a : Actor) (t : Target) (ea : Nat) (bs : List Byte) (taint : Bool) : M Unit := do
  upd fun s => s.portWrite a.ctx ea bs.length taint
  match t with
  | .mem tr => homeStore a.who tr.attr tr.pa bs taint
  | _ => storeAt a t ea bs taint true

/-! ## Release and acquire -/

/-- Physical intervals of the set of an ordering (R182): the regions of the rule's ports of kind `in`, `out` and `open`. -/
def State.portSet (s : State) (ctx : Nat) (rule : Option Rule) : List (Nat × Nat × Nat) :=
  match rule with
  | none => []
  | some r => ((r.ports.filter fun p => p.kind ≠ 2 && p.bytes ≠ 0).map fun p => s.physOf ctx p.base (p.base + p.bytes)).flatten

/-- The set as a predicate on lines; with `all` every line (R182). -/
def State.setPred (s : State) (all : Bool) (ctx : Nat) (rule : Option Rule) : Nat → Bool :=
  if all then fun _ => true else lineIn (s.portSet ctx rule)

/-- Release (Table 6-4) by a leaf of a core. -/
def State.release (s : State) (core ctx : Nat) (rule : Option Rule) (scope : Nat) (all : Bool) : State :=
  let s := s.sendEntries core fun _ => true
  if scope = 0 then s else s.cleanWhere core (s.setPred all ctx rule)

/-- Acquire (Table 6-4) by a leaf of a core. -/
def State.acquire (s : State) (core ctx : Nat) (rule : Option Rule) (scope : Nat) (all : Bool) : State :=
  if scope = 0 then s
  else
    let p := s.setPred all ctx rule
    let s := s.dropWhere core p
    if 3 ≤ scope then s.dropRdc (coreDie core) p else s

/-- The cores where a context may hold bytes that are not at their homes yet: those of its partition, and those of an earlier one that still have dirty lines or combining-buffer entries of it (R173, R353). -/
def State.ctxHolders (s : State) (c : Nat) : List Nat :=
  let ks := nodeCores (s.ctx c).node
  ks ++ (s.cores.filter fun (k, x) => !ks.contains k &&
    (x.l1.any (fun e => e.2.owner = c && e.2.dirty ≠ 0) || x.cbuf.any (·.ctx = c))).map (·.1)

/-- Performs at their homes what a context holds of the selected lines, on every core (R173, R353). -/
def State.performCtx (s : State) (c : Nat) (p : Nat → Bool) : State :=
  (s.ctxHolders c).foldl (fun s k => (s.sendEntries k fun e => e.ctx = c).cleanWhere k p) s

/-- Release by the executing leaf (R181); its atoms have been performed (log 17). -/
def doRelease (scope : Nat) (all : Bool) : M Unit := do
  let s ← get
  match s.cur with
  | .leaf c _ => upd fun s => s.release c s.leaf.ctx s.myRule scope all
  | .dcc _ => pure ()

/-- Acquire by the executing leaf. -/
def doAcquire (scope : Nat) (all : Bool) : M Unit := do
  let s ← get
  match s.cur with
  | .leaf c _ => upd fun s => s.acquire c s.leaf.ctx s.myRule scope all
  | .dcc _ => pure ()

end Sys2Proof.Machine
end

