-- ==== Sys2Proof/Machine/Ops.lean ====
section
/-! DEFINITION. Shared operations over the state: registers, instruction fetch (R88, R89), the Nest's accesses, notices (R380, R381), the context image and suspension (R48, R376), taking an exception (R139, R379), returning from one (R140), and kills (R393). -/

namespace Sys2Proof.Machine

/-! ## Registers -/

/-- Reads an s-register; s0 is zero (Table 1-9). -/
def Leaf.readS (L : Leaf) (n : Fin 64) : Quad := if n = 0 then 0 else L.s[n]

/-- Taint of an s-register. -/
def Leaf.taintS (L : Leaf) (n : Fin 64) : Bool := n ≠ 0 && L.sT.getLsbD n.val

/-- Writes an s-register and its taint; s0 discards (Table 1-9). That a write to s0 still raises its taint (R41, R115) is read as the counting of its tainting event: s0 itself reads untainted (DEDUCED, log 58). -/
def Leaf.writeS (L : Leaf) (n : Fin 64) (x : Quad) (t : Bool) : Leaf :=
  if n = 0 then L
  else { L with s := L.s.set n x, sT := if t then L.sT ||| (1#64 <<< n.val) else L.sT &&& ~~~(1#64 <<< n.val) }

/-- Reads a predicate; p0 is all ones (Table 1-9). -/
def Leaf.readP (L : Leaf) (n : Fin 8) : PWord := if n = 0 then BitVec.allOnes 1024 else L.p[n]

/-- Taint of a predicate's bits. -/
def Leaf.taintP (L : Leaf) (n : Fin 8) : PWord := if n = 0 then 0 else L.pT[n]

/-- Writes a predicate and its taint; p0 discards (Table 1-9). -/
def Leaf.writeP (L : Leaf) (n : Fin 8) (x t : PWord) : Leaf :=
  if n = 0 then L else { L with p := L.p.set n x, pT := L.pT.set n t }

/-- Writes a vector register and its lane taint. -/
def Leaf.writeV (L : Leaf) (n : Fin 32) (x : VWord) (t : BitVec 128) : Leaf :=
  { L with v := L.v.set n x, vT := L.vT.set n t }

/-- Advances the PC to the next word (R88). -/
def Leaf.advance (L : Leaf) : Leaf := { L with pc := L.pc + 16 }

/-- ORs flags into ARITH_FLAGS (R60). -/
def Leaf.raise (L : Leaf) (f : Flags) : Leaf := { L with flags := L.flags ||| f }

/-- Updates the executing agent's registers. -/
def updLeaf (f : Leaf → Leaf) : M Unit := upd fun s => s.setLeaf (f s.leaf)

/-- Updates a context. -/
def updCtx (c : Nat) (f : Ctx → Ctx) : M Unit := upd fun s => s.setCtx c (f (s.ctx c))

/-! ## Areas of the Nest and the firmware -/

/-- Physical address that a VA of a context maps to for the Nest, 0 when it maps to none. -/
def State.nestPa (s : State) (die ctx va : Nat) : Nat :=
  match attempt (translate (whoNest die ctx) ctx va .load) s with
  | .ok (.ok tr) _ => tr.pa
  | _ => 0

/-- Writes bytes at a PA for a die control core, under slot 0 (R338; log 13). -/
def svWrite (die pa : Nat) (bs : List Byte) : M Unit := do
  for (a, b) in linePieces (bs.length / 128 + 2) pa bs do
    homeStore (whoDcc die) plainAttr a b false

/-! ## Fetch -/

/-- The instruction word at the PC of the executing agent (R88, R89, R323). -/
def fetchWord : M InsnWord := do
  let s ← get
  let pc := s.leaf.pc.toNat
  if pc % 16 ≠ 0 then fail .pcAlign pc
  else if field pc 48 16 ≠ 0 then fail .addrNoncanon pc
  else match s.cur with
  | .dcc d =>
    match s.svAddr pc .fetch with
    | .error c => fail c pc
    | .ok pa =>
      if s.isWindow pa then fail .xlatPerm pc
      else if isControl pa || s.homeOf pa = .none then fail .xlatPaRange pc
      else do
        let (bs, _) ← atAddr pc (homeRead (whoDcc d) plainAttr pa 16)
        pure (BitVec.ofNat 128 (ofBytes bs))
  | .leaf _ _ =>
    if inWindow pc then fail .xlatPerm pc
    else do
      let tr ← translate s.who s.leaf.ctx pc .fetch
      let (bs, _) ← atAddr pc (engineLoad s.actor (.mem tr) 16)
      pure (BitVec.ofNat 128 (ofBytes bs))

/-- The executing agent has no matrix unit (R107, Table 1-1): a string core, a die control core (log 24). -/
def State.noMatrix (s : State) : Bool :=
  match s.cur with
  | .leaf c _ => coreIsString c
  | .dcc _ => true

/-- The word a fetch would give, 0 where it faults: what a fault record shows (Table 14-2). -/
def State.wordAt (s : State) (pc : Quad) : InsnWord :=
  match fetchWord (s.setLeaf { s.leaf with pc := pc }) with
  | .ok w _ => w
  | .error _ _ => 0

/-! ## Fault records and notices -/

/-- A fault record (Table 14-2). -/
structure FaultRec where
  cause : Cause
  kind : Nat
  port : Nat := 0xFF
  ctx : Nat := 0
  elem : Nat := 0xFFFF
  pc : Quad := 0
  word : InsnWord := 0
  addr : Nat := 0
  box : Nat := 0
  left : Nat := 0xFFFFFFFF
  right : Nat := 0xFFFFFFFF
  step : Nat := 0
  core : Nat := 0
  mxpc : Quad := 0
  info : Quad := 0
  cycle : Quad := 0
  deriving DecidableEq, Repr

/-- Number of a cause (Table 14-7). -/
def causeCode (c : Cause) : Nat := c.ctorIdx

/-- The 128 bytes of a fault record. STEP is one byte: of a K-step from 256 on it holds the low 8 bits (DESIGN CHOICE, log 77). -/
def FaultRec.bytes (r : FaultRec) : List Byte :=
  toBytes 2 (causeCode r.cause) ++ toBytes 1 r.kind ++ toBytes 1 r.port ++ toBytes 2 r.ctx ++ toBytes 2 r.elem
    ++ toBytes 8 r.pc.toNat ++ toBytes 16 r.word.toNat ++ toBytes 8 r.addr ++ toBytes 4 r.box ++ toBytes 4 r.left
    ++ toBytes 4 r.right ++ toBytes 1 r.step ++ toBytes 1 0 ++ toBytes 2 r.core ++ toBytes 8 r.mxpc.toNat
    ++ toBytes 8 r.info.toNat ++ toBytes 8 r.cycle.toNat ++ List.replicate 48 0

/-- The word of a notice (Table 14-3). -/
def noticeWord (cause : Cause) (kind ctx box core detail : Nat) : Quad :=
  BitVec.ofNat 64 (causeCode cause * 2 ^ 57 + kind * 2 ^ 55 + ctx % 1024 * 2 ^ 45 + box % 2 ^ 24 * 2 ^ 21
    + core % 1024 * 2 ^ 11 + detail)

/-- The die whose control core serves the notices of a die: the next one that is not halted (R392). -/
def State.noticeDie (s : State) (d : Nat) : Nat :=
  (((List.range 4).map fun i => (d + i) % 4).find? fun e => !(s.die e).dcc.halted).getD d

/-- Puts a notice into its die's queue at the next free position, writing an event's record into the event area (R381). -/
def State.enqueueNotice (s : State) (d : Nat) (n : Notice) : State :=
  let x := s.die d
  let used := x.notices.map (·.pos) ++ x.noteHeld
  let pos := (((List.range 2048).map fun i => (x.notePos + i) % 2048).find? fun p => !used.contains p).getD x.notePos
  let area := x.dcc.evarea.toNat
  let frec := match n.event with
    | some _ => if area = 0 then 0 else area + 128 * pos
    | none => n.frec
  let s := s.setDie d { x with notices := x.notices ++ [{ n with pos := pos, frec := frec }], notePos := (pos + 1) % 2048 }
  match n.event with
  | some (pa, info) =>
    if area = 0 then s
    else
      let code := field n.word.toNat 57 7
      let r : FaultRec := { cause := .opUndef, kind := 3, addr := pa, core := field n.word.toNat 11 10,
                             info := BitVec.ofNat 64 info, cycle := s.cycle }
      runIgnore (svWrite d frec (toBytes 2 code ++ r.bytes.drop 2)) s
  | none => s

/-- Room for one more notice: 2,048 entries, positions still held counted (R380, R381). -/
def Die.noteRoom (d : Die) : Bool := d.notices.length + d.noteHeld.length < Config.noticeDepth

/-- Posts a notice (R380): one that finds the queue full waits for room. -/
def State.postNotice (s : State) (d : Nat) (n : Notice) : State :=
  let d := s.noticeDie d
  let x := s.die d
  if x.noteRoom && x.notePend.isEmpty then s.enqueueNotice d n
  else s.setDie d { x with notePend := x.notePend ++ [n] }

/-- The reporting core of an event: the home string core of the granule or word, 0 for an event of the key store or a link (Table 14-3). -/
def State.eventCore (s : State) (c : Cause) (pa : Nat) : Nat :=
  if c = .keySlotUe || c = .dieLinkLost then 0
  else match (s.homeOf pa).place with
  | some (d, sc) => stringCore d sc
  | none => 0

/-- Posts an event notice (R380, R381). The event record of SEAL_GEN_ROLL names no address (file 20). -/
def State.postEvent (s : State) (d : Nat) (c : Cause) (pa info : Nat) : State :=
  let addr := if c = .sealGenRoll || c = .keySlotUe || c = .dieLinkLost then 0 else pa
  s.postNotice d { word := noticeWord c 3 0 0 (s.eventCore c pa) 0, pos := 0, frec := 0, event := some (addr, info) }

/-! ## Exceptions of the die control cores -/

/-- The four steps of R139: SV_EPC, SV_CAUSE, SV_INFO and SV_FREC, the level saved and raised, the PC at SV_VEC. An `eng` that was in its wait has not committed: the card it has read (R210) does not pass to the handler. -/
def Dcc.enter (c : Dcc) (epc cause info frec : Quad) : Dcc :=
  { c with
    epc := epc, cause := cause, info := info, frec := frec, prevSv := c.sv, sv := true
    leaf := { c.leaf with pc := c.vec, card := none } }

/-- Return from a supervisor trap (R140): the PC and the level. -/
def Dcc.eret (c : Dcc) : Dcc := { c with sv := c.prevSv, leaf := { c.leaf with pc := c.epc } }

/-! ## The context image -/

/-- Register part of a leaf context image (Table 1-11): scalars, control state with the map of the tile rows written at 0x300 (log 5), predicates. -/
def Leaf.imageLow (L : Leaf) (acc : Nat) : List Byte :=
  let quads (xs : List Quad) : List Byte := (xs.map fun x => toBytes 8 x.toNat).flatten
  let calls := (L.calls.reverse ++ List.replicate 8 0).take 8
  quads ((List.range 64).map fun i => L.readS (Fin.ofNat 64 i))
    ++ quads ([L.pc] ++ calls ++ [BitVec.ofNat 64 L.calls.length, L.flags.setWidth 64, L.trapEn.setWidth 64, L.dropMag, L.wrr.setWidth 64]
      ++ L.thresh.toList ++ [BitVec.ofNat 64 acc])
    ++ List.replicate 8 0 ++ toBytes 64 (bitsOf 512 fun k => L.tiles.any fun e => e.1 = k) ++ List.replicate (0x200 - 32 * 8 - 64) 0
    ++ ((List.range 8).map fun i => toBytes 128 (L.readP (Fin.ofNat 8 i)).toNat).flatten

/-- The queue state and the reply area of the image (Table 1-11), oldest entry first: a descriptor holds a head of 0, the reservations and the filled mask as halves (DESIGN CHOICE, log 5). -/
def Leaf.imageQueues (L : Leaf) : List Byte :=
  let desc (q : List QEntry) : List Byte :=
    toBytes 2 0 ++ toBytes 2 q.length ++ toBytes 2 (bitsOf 16 fun i => (q[i]?.bind (·.value)).isSome) ++ List.replicate 10 0
  let replies (q : List QEntry) : List Byte :=
    ((List.range 16).map fun i => toBytes 8 (((q[i]?.bind (·.value)).map (·.toNat)).getD 0)).flatten
  (L.q.toList.map desc).flatten ++ (L.q.toList.map replies).flatten

/-- A parked matrix job in 128 bytes: the layout is the matrix unit's own (R282; log 5). -/
def MxJob.bytes (j : MxJob) : List Byte :=
  let desc (d : MxDesc) : List Byte := toBytes 8 d.pbase ++ toBytes 8 d.sbase ++ toBytes 2 d.rows ++ toBytes 2 d.d ++ toBytes 4 d.cstr
  toBytes 1 1 ++ toBytes 1 j.tile ++ toBytes 1 j.na ++ toBytes 1 j.nw ++ toBytes 1 j.period
    ++ toBytes 1 (j.init.toNat + 2 * j.ctlTaint.toNat) ++ toBytes 2 j.weight ++ toBytes 8 j.pc.toNat ++ toBytes 4 j.kb ++ toBytes 4 j.step
    ++ desc j.da ++ desc j.db ++ toBytes 1 j.hint ++ List.replicate 55 0

/-- The job of a leaf that an entry of the parked jobs holds, none where the entry is empty. -/
def mxJobOf (L : Leaf) (bs : List Byte) : Option MxJob :=
  let f (off n : Nat) : Nat := ofBytes ((bs.drop off).take n)
  let desc (o : Nat) : MxDesc := ⟨f o 8, f (o + 8) 8, f (o + 16) 2, f (o + 18) 2, f (o + 20) 4⟩
  if f 0 1 ≠ 1 then none
  else some { ctx := L.ctx, entry := L.entry, tile := f 1 1 % 4, da := desc 24, db := desc 48, kb := f 16 4, period := f 4 1, na := f 2 1
              nw := f 3 1, init := (f 5 1).testBit 0, weight := f 6 2, pc := BitVec.ofNat 64 (f 8 8), step := f 20 4
              ctlTaint := (f 5 1).testBit 1, hint := f 72 1 % 16 }

/-- The parked jobs of the image: eight entries of 128 bytes (Table 1-11, R282). -/
def Leaf.imageParked (L : Leaf) : List Byte :=
  let bs := ((L.parked.take 8).map MxJob.bytes).flatten
  bs ++ List.replicate (0x400 - bs.length) 0

/-- The vector part of the image. -/
def Leaf.imageVec (L : Leaf) : List Byte := (L.v.toList.map fun x => toBytes 512 x.toNat).flatten

/-- A quad of an image's register part. -/
def imageQuad (low : List Byte) (o : Nat) : Quad := BitVec.ofNat 64 (ofBytes ((low.drop o).take 8))

/-- A leaf with the registers that an image's bytes give (R35, R382). -/
def Leaf.ofImage (L : Leaf) (low vec : List Byte) : Leaf :=
  let q (o : Nat) : Quad := imageQuad low o
  let depth := min 8 (q 0x248).toNat
  { L with
    s := Vector.ofFn fun i => q (8 * i.val)
    pc := q 0x200
    calls := ((List.range depth).map fun i => q (0x208 + 8 * i)).reverse
    flags := (q 0x250).setWidth 6, trapEn := (q 0x258).setWidth 6, dropMag := q 0x260, wrr := (q 0x268).setWidth 4
    thresh := Vector.ofFn fun i => q (0x270 + 8 * i.val)
    p := Vector.ofFn fun i => BitVec.ofNat 1024 (ofBytes ((low.drop (0x400 + 128 * i.val)).take 128))
    v := Vector.ofFn fun i => BitVec.ofNat 4096 (ofBytes ((vec.drop (512 * i.val)).take 512)) }

/-- A leaf with the queues and the parked jobs that an image's bytes from 0x0800 and 0x1100 give (R48, R282); an entry keeps the ticket it was reserved for, which the image does not hold. -/
def Leaf.ofQueues (L : Leaf) (qs parked : List Byte) : Leaf :=
  let f (off n : Nat) : Nat := ofBytes ((qs.drop off).take n)
  let entry (i j : Nat) : QEntry :=
    { ticket := (((L.q[i]?).bind fun q => q[j]?).map (·.ticket)).getD 0
      value := if (f (16 * i + 4) 2).testBit j then some (BitVec.ofNat 64 (f (0x100 + 128 * i + 8 * j) 8)) else none }
  { L with
    q := Vector.ofFn fun i => (List.range (min 16 (f (16 * i.val + 2) 2))).map fun j => entry i.val j
    parked := (List.range 8).filterMap fun k => mxJobOf L ((parked.drop (128 * k)).take 128) }

/-- VA of an image slot (R368). -/
def Ctx.imgAddr (x : Ctx) (j : Nat) : Nat := x.desc.imgVa + 0x90000 * j

/-- The image slot at an address, where it is one of the context's. -/
def Ctx.imgIndex (x : Ctx) (va : Nat) : Option Nat :=
  if x.desc.imgVa ≤ va && (va - x.desc.imgVa) % 0x90000 = 0 then some ((va - x.desc.imgVa) / 0x90000) else none

/-- Writes a leaf's image into its slot (R48, R368). -/
def writeImage (die c : Nat) (L : Leaf) : M Unit := do
  let s ← get
  let va := (s.ctx c).imgAddr L.img
  nestWrite die c va (L.imageLow (va + 0x50000) ++ L.imageQueues ++ L.imageParked) .image
  nestWrite die c (va + 0x2000) L.imageVec .image

/-- The tile rows that a control area's map at 0x300 names as written (R44; DESIGN CHOICE, log 5). -/
def imageRows (low : List Byte) : List Nat := (List.range 512).filter fun k => (ofBytes ((low.drop 0x300).take 64)).testBit k

/-- Reads rows of a leaf's tiles from an accumulator image (R35, R49, R377); a row keeps the taint that the leaf holds of it, which the image has no place for (log 5). -/
def readTiles (die c acc : Nat) (ks : List Nat) (L : Leaf) : M Leaf := do
  let mut rows : Tbl TileRow := []
  for k in ks do
    let bs ← nestRead die c (acc + 512 * k) 512 .image
    rows := rows ++ [(k, { tget ⟨0, 0⟩ L.tiles k with val := BitVec.ofNat 4096 (ofBytes bs) })]
  pure { L with tiles := rows }

/-- Reads a leaf's image back from an address: registers, queues, parked jobs, and the tile rows that its control state names, at the accumulator image that it names (R35, R282, R377). -/
def readImage (die c va : Nat) (L : Leaf) : M Leaf := do
  let low ← nestRead die c va 0x800 .image
  let qs ← nestRead die c (va + 0x800) 0x900 .image
  let parked ← nestRead die c (va + 0x1100) 0x400 .image
  let vec ← nestRead die c (va + 0x2000) 0x4000 .image
  readTiles die c (imageQuad low 0x2F0).toNat (imageRows low) ((L.ofImage low vec).ofQueues qs parked)

/-- Writes the scratch save area of an image slot: the states, the taint and the first `size` bytes of an allocation's words (Table 13-8, R376). -/
def writeScratch (die c img size : Nat) (t : Tbl ScrWord) : M Unit := do
  let s ← get
  let va := (s.ctx c).imgAddr img
  let w (i : Nat) : ScrWord := tget ⟨0, 0, false⟩ t i
  let n := size / 4
  nestWrite die c (va + 0x6000) (toBytes ((n + 3) / 4) (packElems 2 ((List.range n).map fun i => (w i).st.toNat))) .image
  nestWrite die c (va + 0xA000) (toBytes ((n + 7) / 8) (bitsOf n fun i => (w i).taint)) .image
  nestWrite die c (va + 0x10000) ((List.range n).map fun i => toBytes 4 (w i).val.toNat).flatten .image

/-- The 32-bit words in bytes. -/
def words4 : List Byte → List Nat
  | a :: b :: c :: d :: rest => ofBytes [a, b, c, d] :: words4 rest
  | _ => []

/-- Reads the scratch words that the save area of the image slot at an address holds (Table 13-8, R313). -/
def readScratch (die c va size : Nat) : M (Tbl ScrWord) := do
  let n := size / 4
  let sts ← nestRead die c (va + 0x6000) ((n + 3) / 4) .image
  let tns ← nestRead die c (va + 0xA000) ((n + 7) / 8) .image
  let vals ← nestRead die c (va + 0x10000) (4 * n) .image
  let st := (sts.map fun b => (List.range 4).map fun k => BitVec.ofNat 2 (field b.toNat (2 * k) 2)).flatten
  let tn := (tns.map fun b => (List.range 8).map fun k => b.toNat.testBit k).flatten
  let ws : List ScrWord := ((words4 vals).zip (st.zip tn)).map fun (v, u, t) => ⟨BitVec.ofNat 32 v, u, t⟩
  pure ((ws.zipIdx.map fun e => (e.2, e.1)).filter fun e => e.2 ≠ ⟨0, 0, false⟩)

/-- Writes one word of a suspended leaf's allocation to its save area (R231, R313). -/
def writeScrWord (die c va i : Nat) (w : ScrWord) : M Unit := do
  let sb ← nestRead die c (va + 0x6000 + i / 4) 1 .image
  let tb ← nestRead die c (va + 0xA000 + i / 8) 1 .image
  let put (old lo n v : Nat) : Nat := old - field old lo n * 2 ^ lo + v * 2 ^ lo
  nestWrite die c (va + 0x6000 + i / 4) (toBytes 1 (put (ofBytes sb) (2 * (i % 4)) 2 w.st.toNat)) .image
  nestWrite die c (va + 0xA000 + i / 8) (toBytes 1 (put (ofBytes tb) (i % 8) 1 w.taint.toNat)) .image
  nestWrite die c (va + 0x10000 + 4 * i) (toBytes 4 w.val.toNat) .image

/-- Writes the tile rows a leaf has written to the accumulator image of its slot (Table 13-8, R49). -/
def writeTiles (die c : Nat) (L : Leaf) : M Unit := do
  let s ← get
  let va := (s.ctx c).imgAddr L.img + 0x50000
  for (k, row) in L.tiles do
    nestWrite die c (va + 512 * k) (toBytes 512 row.val.toNat) .image

/-! ## Records in the pool -/

/-- Die of the lowest octet of a context's partition (R380). -/
def State.ctxDie (s : State) (c : Nat) : Nat := nodeFirst (s.ctx c).node / 16 % 4

/-- The context may use a die: S(c) as the last loss of a link left it, all its partition where none was lost since it was bound (R398). -/
def Ctx.mayUse (x : Ctx) (d : Nat) : Bool := match x.alive with | some ds => ds.contains d | none => true

/-- The die from which the Nest reaches a context's memory where it would from die d: d, or the first die of the partition that the context may still use (R398). -/
def State.dieFor (s : State) (c d : Nat) : Nat :=
  let x := s.ctx c
  if x.mayUse d then d else (((nodeCores x.node).map coreDie).find? x.mayUse).getD d

/-- The die from which the Nest reaches a context's pool. -/
def State.nestDie (s : State) (c : Nat) : Nat := s.dieFor c (s.ctxDie c)

/-- Number of a record state (Table 1-5). -/
def recStCode : RecSt → Nat
  | .ready => 0 | .running => 1 | .suspended => 2 | .waiting => 3 | .joining => 4 | .failed => 5

/-- The 64 bytes of a record (Table 1-4). -/
def Rec.bytes (r : Rec) : List Byte :=
  (r.lo.toList.map fun x => toBytes 4 x.toNat).flatten ++ (r.hi.toList.map fun x => toBytes 4 x.toNat).flatten
    ++ toBytes 4 r.rule ++ toBytes 4 r.parent
    ++ toBytes 2 (r.pend + 8 * recStCode r.st + 64 * r.waxis)
    ++ toBytes 1 (r.side.toNat + 2 * r.rankM1 + 8 * r.taint.toNat + 16 * r.replay.toNat + 32 * r.walk.toNat)
    ++ toBytes 1 r.sticky.toNat ++ toBytes 4 r.feat ++ toBytes 8 r.views ++ toBytes 8 r.resume.toNat

/-- The view ports of a rule, in increasing number (R298). -/
def Rule.viewPorts (ru : Rule) : List Nat := (ru.ports.zipIdx.filter fun e => e.1.kind = 2).map (·.2)

/-- The view table of a record, 16 bytes for each view: the record whose chunks are the view's plus one, 0 where no chunk is allocated, and how many there are. The contents are the Nest's own (R298; log 16). -/
def Rec.viewTable (r : Rec) (i : Nat) (ru : Rule) : List Byte :=
  (ru.viewPorts.map fun n =>
    let k := (r.chunks.filter fun e => e.1 / 2 ^ 22 = n).length
    toBytes 4 (if k = 0 then 0 else i + 1) ++ toBytes 4 k ++ toBytes 8 0).flatten

/-- Writes a record to the context's pool (R31, R32), and its view table to the address that VIEWS names (R298). A pool that cannot be written is found when the record is picked up (R34). -/
def State.saveRec (s : State) (c i : Nat) : State :=
  let x := s.ctx c
  match x.record i with
  | none => s
  | some r =>
    let s := runIgnore (nestWrite (s.nestDie c) c (x.desc.poolVa + 64 * i) r.bytes) s
    match x.ruleOf r.rule with
    | some ru => if ru.viewPorts.isEmpty then s else runIgnore (nestWrite (s.nestDie c) c r.views (r.viewTable i ru) .pool) s
    | none => s

/-- Sets a record of a context and writes it to the pool. -/
def State.setRec (s : State) (c i : Nat) (r : Rec) : State :=
  let x := s.ctx c
  (s.setCtx c { x with recs := tset x.recs i r }).saveRec c i

/-! ## Suspension -/

/-- A leaf has declared a ring (R226), so it is suspended in place (R313). -/
def State.declaresRing (s : State) (c : Nat) (L : Leaf) : Bool :=
  s.cores.any fun (_, x) => x.rings.any fun r => r.ctx = c && r.declarer = L.entry

/-- The scratch words of an allocation, numbered from its first word. -/
def State.takeScratch (s : State) (core slot : Nat) : Tbl ScrWord :=
  let lo := slot * 0x10000
  ((s.core core).scr.filter fun e => lo ≤ e.1 && e.1 < lo + 0x10000).map fun e => (e.1 - lo, e.2)

/-- Where the scratch allocation of a job's leaf is: in a slot, or saved with a suspended record. -/
inductive OwnPlace where
  | slot (core slot : Nat)
  | saved (box : Nat)
  deriving DecidableEq, Repr

/-- The place and size of the allocation of an entry's leaf (R231, R313). -/
def State.ownPlace (s : State) (ctx entry : Nat) : Option (OwnPlace × Nat) :=
  match s.leaves.find? fun e => e.2.mode ≠ Mode.idle && e.2.ctx = ctx && e.2.entry = entry with
  | some (k, L) => some (.slot (k / 4) (k % 4), (s.ctx ctx).scratchOf L.recIdx)
  | none => ((s.ctx ctx).recs.find? fun e => (e.2.saved.map Leaf.entry) = some entry).map fun (i, r) =>
      (if r.held then .slot r.core r.slot else .saved i, (s.ctx ctx).scratchOf i)

/-- An engine job reads or writes the scratch allocation of the leaf that issued it. -/
def Job.usesOwn (j : Job) (jobCore : Nat) : Bool :=
  let lo := scrNamed jobCore (j.slot * 0x40000)
  (j.reads ++ j.writes).any fun (a, b) => a < b && a < lo + 0x40000 && lo < b

/-- An entry ends and its allocation is freed: its jobs that still use the allocation go on reading what it held, and meet the words that the abnormal end has poisoned (R158, R425, R426; DEDUCED, log 56). -/
def State.keepOwn (s : State) (ctx entry : Nat) : State :=
  match s.ownPlace ctx entry with
  | none => s
  | some (p, size) =>
    let t : Tbl ScrWord := match p with
      | .slot c k => s.takeScratch c k
      | .saved i => (((s.ctx ctx).record i).map Rec.savedScr).getD []
    { s with cores := tmap (fun k x => { x with
        jobs := tmap (fun _ j => if j.ctx = ctx && j.entry = entry && j.usesOwn k then { j with kept := some (t, size) } else j) x.jobs }) s.cores }

/-- A word of an allocation, by its place. -/
def State.ownWord (s : State) (ctx : Nat) (p : OwnPlace) (i : Nat) : ScrWord :=
  match p with
  | .slot c k => s.scrWord c (k * 0x10000 + i)
  | .saved b => tget ⟨0, 0, false⟩ (((s.ctx ctx).record b).map Rec.savedScr |>.getD []) i

/-- Sets a word of an allocation; one of a suspended leaf is written to the save area of its image slot too (R231, R313), and a save that fails kills, as at the suspension (log 22). -/
def State.setOwnWord (s : State) (ctx : Nat) (p : OwnPlace) (i : Nat) (w : ScrWord) : State :=
  match p with
  | .slot c k => s.setScrWord c (k * 0x10000 + i) w
  | .saved b =>
    let x := s.ctx ctx
    match x.record b with
    | none => s
    | some r =>
      let t := if w = ⟨0, 0, false⟩ then terase r.savedScr i else tset r.savedScr i w
      let s := s.setCtx ctx { x with recs := tset x.recs b { r with savedScr := t } }
      match attempt (writeScrWord (s.dieFor ctx (coreDie r.core)) ctx r.resume.toNat i w) s with
      | .ok (.ok _) s' => s'
      | .ok (.error _) s' | .error _ s' => s'.note (.kill ctx .faultDelivery r.core)

/-- Clears an allocation: every word EMPTY, value 0, taint 0 (R148). -/
def State.clearScratch (s : State) (core slot : Nat) : State :=
  let lo := slot * 0x10000
  let c := s.core core
  s.setCore core { c with scr := c.scr.filter fun e => e.1 < lo || lo + 0x10000 ≤ e.1 }

/-- Sets an allocation's words. -/
def State.putScratch (s : State) (core slot : Nat) (t : Tbl ScrWord) : State :=
  t.foldl (fun s e => s.setScrWord core (slot * 0x10000 + e.1) e.2) (s.clearScratch core slot)

/-- What a suspension performs of R354: the core's dirty lines of the context are cleaned and its combining-buffer entries sent. -/
def State.suspendOrder (s : State) (core c : Nat) : State :=
  let s := s.sendEntries core fun e => e.ctx = c
  (((s.core core).l1.filter fun e => e.2.owner = c && e.2.dirty ≠ 0).map (·.1)).foldl (fun s l => s.cleanLine core l) s

/-- Matrix jobs of an entry leave the core's queue for the image, where they go ahead of those still parked (R282). -/
def State.parkJobs (s : State) (core : Nat) (L : Leaf) : State × List MxJob :=
  let c := s.core core
  let mine (j : MxJob) : Bool := j.ctx = L.ctx && j.entry = L.entry
  (s.setCore core { c with mxq := c.mxq.filter fun j => !mine j }, c.mxq.filter mine)

/-- Suspends the leaf of a slot with its saved PC (R371, R376): image, tiles, parked jobs and scratch words go to the image slot, and the record takes it; the leaf slot is free unless the leaf is held in place. The list the record joins is the caller's, and so is what a save that fails causes. -/
def State.suspendLeaf (s : State) (core slot : Nat) (pc : Quad) : State × Option Cause :=
  let L := { s.leafAt core slot with pc := pc, mode := Mode.idle, card := none, fitting := none, mxIssued := none }
  let s := s.suspendOrder core L.ctx
  let (s, parked) := s.parkJobs core L
  let L := { L with parked := parked ++ L.parked }
  let held := s.declaresRing L.ctx L
  let x := s.ctx L.ctx
  let scr := if held then [] else s.takeScratch core slot
  let size := x.scratchOf L.recIdx
  let save : M Unit := do
    writeImage (coreDie core) L.ctx L
    writeTiles (coreDie core) L.ctx L
    if held then pure () else writeScratch (coreDie core) L.ctx L.img size scr
  let (s, err) := match attempt save s with
    | .ok (.ok _) s' => (s', none)
    | .ok (.error t) s' => (s', some t.cause)
    | .error _ s' => (s', some .faultDelivery)
  let x := s.ctx L.ctx
  let r' := (x.record L.recIdx).map fun r =>
    { r with st := .suspended, resume := BitVec.ofNat 64 (x.imgAddr L.img), saved := some L, savedScr := scr
             core := core, slot := slot, held := held }
  let s := match r' with
    | some r => s.setRec L.ctx L.recIdx r
    | none => s
  let s := if held then s else s.clearScratch core slot
  (s.setLeafAt core slot Leaf.idle, err)

/-! ## Kills -/

/-- Poisons the EMPTY words of a ring: an abnormal retirement; a leaf that waits on one is released at once (R194, R227). -/
def State.poisonRing (s : State) (core : Nat) (r : Ring) : State :=
  (List.range r.slots).foldl (fun s i =>
    let w := s.scrWord core (r.base / 4 + i)
    if w.st = 0 then (s.setScrWord core (r.base / 4 + i) { w with st := 3 }).note (.serve core (r.base / 4 + i)) else s) s

/-- Poisons the EMPTY words of the rings declared among a record's saved words, and frees them (R227). -/
def State.poisonSaved (s : State) (c i : Nat) (r : Rec) : State :=
  let s := r.rings.foldl (fun s g => (List.range g.slots).foldl (fun s k =>
    let w := s.ownWord c (.saved i) (g.base / 4 + k)
    if w.st = 0 then s.setOwnWord c (.saved i) (g.base / 4 + k) { w with st := 3 } else s) s) s
  let x := s.ctx c
  s.setCtx c { x with recs := tmap (fun k r => if k = i then { r with rings := [] } else r) x.recs }

/-- Retires the rings that are declared among saved words of a context (R227, Table 13-11). -/
def State.retireSaved (s : State) (c : Nat) : State :=
  ((s.ctx c).recs.filter fun e => !e.2.rings.isEmpty).foldl (fun s (i, r) => s.poisonSaved c i r) s

/-- Retires every ring of a context in the scratchpads abnormally and frees them (R227, R393, Table 13-11). -/
def State.retireRings (s : State) (c : Nat) : State :=
  let s := s.cores.foldl (fun s (k, x) => (x.rings.filter fun r => r.ctx = c).foldl (fun s r => s.poisonRing k r) s) s
  { s with cores := tmap (fun _ x => { x with rings := x.rings.filter fun r => r.ctx ≠ c }) s.cores }

/-- Notices of leaf and merge faults of a context that nothing has taken are removed (Table 14-6). -/
def State.dropNotices (s : State) (c : Nat) : State :=
  let keep (n : Notice) : Bool := !(field n.word.toNat 55 2 < 2 && field n.word.toNat 45 10 = c)
  { s with dies := s.dies.map fun d => { d with notices := d.notices.filter keep, notePend := d.notePend.filter keep } }

/-- Offers that a dying context has not taken return to their givers, to nobody where the giver is dead too (R174). -/
def State.clearOffers (s : State) (c : Nat) : State :=
  s.offers.foldl (fun s (pa, giver) =>
    match s.peek pa 8 0 with
    | some r =>
      if regCtx (field r 32 16) = some c then
        let alive := giver < 1024 && (s.ctx giver).st ≠ .free && (s.ctx giver).st ≠ .draining
        let h := if alive then giver else 0x8000
        let s := runIgnore (homeStore (whoNest 0 c) tableAttr (pa + 2) (toBytes 2 h ++ toBytes 2 0x8000) false) s
        { s with offers := terase s.offers pa }
      else s
    | none => s) s

/-- A dying giver is forgotten: an offer of its that is not taken returns to nobody, whoever its id is bound for later (R174). -/
def State.orphanOffers (s : State) (c : Nat) : State :=
  { s with offers := tmap (fun _ g => if g = c then 0x8000 else g) s.offers }

/-- The control cores that wait in a `ctxstop` of a context learn its status (R146). -/
def State.wakeStops (s : State) (c status : Nat) : State :=
  let x := s.ctx c
  let s := x.waiters.foldl (fun s d => s.setDcc d { (s.die d).dcc with stopRes := some status }) s
  if x.waiters.isEmpty then s else s.setCtx c { x with waiters := [] }

/-- Rendezvous of which a context has a member (R228). -/
def State.deadTags (s : State) (c : Nat) : List (Nat × Nat) :=
  s.colls.filterMap fun m => match m.job with
    | some (k, i) => if ((tfind (s.core k).jobs i).map Job.ctx) = some c then some (m.tenant, m.tag) else none
    | none => none

/-- The members that this package has in rendezvous with a member that dies end with COLL_ABORT (R228). -/
def State.abortMembers (s : State) (c : Nat) : State :=
  let tags := s.deadTags c
  let hit (k i : Nat) : Bool := s.colls.any fun m => m.job = some (k, i) && tags.contains (m.tenant, m.tag)
  { s with
    cores := tmap (fun k x => { x with
      jobs := tmap (fun i j => if hit k i then { j with fail := some .collAbort, pend := [] } else j) x.jobs }) s.cores
    colls := s.colls.filter fun m => !tags.contains (m.tenant, m.tag) }

/-- A record without its view chunks, its snapshot's included. -/
def Rec.noViews (r : Rec) : Rec :=
  { r with chunks := [], pre := [], snap := r.snap.map fun sn => { sn with chunks := [] } }

/-- Kill (R393, R145): the context enters DRAINING, its leaves stop, its rings retire, its jobs stop, its dirty L1 bytes and combining-buffer entries are dropped, and its view chunks with them, so that nothing writes them at their home any more (R394, step 1), a `ctxstop` that waits for it ends; the notice says why, and which core reported it where one did (Table 14-3). The first cause stands. -/
def State.kill (s : State) (c : Nat) (cause : Cause) (core : Nat := 0) : State :=
  let x := s.ctx c
  if x.st = .free || x.st = .draining then s
  else
    let s := (s.retireRings c).abortMembers c
    let s := s.setCtx c { s.ctx c with
      st := .draining, killCause := some cause, killStatus := x.launch.isSome, stop := none, faulted := []
      suspended := [], joining := [], deques := [], ready := [], recs := tmap (fun _ r => r.noViews) (s.ctx c).recs }
    let s := { s with
      leaves := tmap (fun _ L => if L.mode ≠ Mode.idle && L.ctx = c then Leaf.idle else L) s.leaves
      holders := s.holders.filter fun e => e.2 ≠ c
      msgs := s.msgs.filter fun e => e.2.ctx ≠ c
      cores := tmap (fun _ k => { k with
        mxq := k.mxq.filter fun j => j.ctx ≠ c
        cbuf := k.cbuf.filter fun e => e.ctx ≠ c
        l1 := k.l1.filter fun e => e.2.owner ≠ c || e.2.dirty = 0
        jobs := k.jobs.filter fun e => e.2.ctx ≠ c }) s.cores }
    let s := (((s.dropNotices c).clearOffers c).orphanOffers c).wakeStops c 6
    s.postNotice (s.ctxDie c) { word := noticeWord cause 2 c 0 core 0, pos := 0, frec := 0, event := none }

/-! ## Taking an exception -/

/-- A die control core halts (R139, R392): it issues no more, and its die's notices pass to the next die. -/
def State.haltDcc (s : State) (d : Nat) : State :=
  let x := s.die d
  let moved := x.notices ++ x.notePend
  let s := s.setDie d { x with dcc := { x.dcc with halted := true }, notices := [], notePend := [] }
  if s.noticeDie d = d then s.setDie d { s.die d with notices := x.notices, notePend := x.notePend }
  else moved.foldl (fun s n => s.postNotice d n) s

/-- Enters the handler of a die control core (R139); where the fetch at SV_VEC faults, the core halts instead. -/
def State.enterDcc (s : State) (d : Nat) (epc cause info frec : Quad) : State :=
  let s := s.setDcc d ((s.die d).dcc.enter epc cause info frec)
  match fetchWord { s with cur := .dcc d } with
  | .ok _ _ => s
  | .error _ _ => s.haltDcc d

/-- Takes a trap of a die control core (R139): the record goes to SV_FAREA. R139 speaks of supervisor level; a core that runs with SV 0, after an `eret` with PREV_SV 0, enters its handler in the same way, with PREV_SV 0 (DEDUCED, log 58). CTX, REC and CORE of its record are 0: it has no context and no box (DEDUCED, log 54). A record that cannot be written at SV_FAREA is dropped, and the trap is taken with SV_FREC naming SV_FAREA (DESIGN CHOICE, log 79). -/
def State.trapDcc (s : State) (d : Nat) (t : Trap) : State :=
  let c := (s.die d).dcc
  let pc := c.leaf.pc
  let epc := if t.next then pc + 16 else pc
  let area := c.farea.toNat
  let r : FaultRec := { cause := t.cause, kind := 0, elem := t.elem, pc := epc, addr := t.addr, core := 0, info := t.info,
                        word := if t.cause = .pcAlign then 0 else s.wordAt pc, cycle := s.cycle }
  let s := if area = 0 then s else runIgnore (svWrite d area r.bytes) s
  let info := if t.cause = .userTrap then t.info else BitVec.ofNat 64 t.addr
  s.enterDcc d epc (BitVec.ofNat 64 (causeCode t.cause)) info (BitVec.ofNat 64 area)

/-- Takes a leaf fault of user code (R379, R384): the leaf is suspended, its fault record written into its image slot, its record put in the faulted set, a notice posted; where the record cannot be delivered the context is killed. -/
def State.trapLeaf (s : State) (core slot : Nat) (t : Trap) : State :=
  let L := s.leafAt core slot
  let epc := if t.next then L.pc + 16 else L.pc
  let r : FaultRec := {
    cause := t.cause, kind := if t.mx.isSome then 1 else 0, ctx := L.ctx, elem := t.elem, pc := epc, addr := t.addr
    word := if t.cause = .pcAlign then 0 else ({ s with cur := .leaf core slot } : State).wordAt L.pc
    box := L.recIdx, step := (t.mx.map (·.step)).getD 0, core := core, mxpc := (t.mx.map (·.pc)).getD 0
    info := t.info, cycle := s.cycle }
  let (s, err) := s.suspendLeaf core slot epc
  let va := (s.ctx L.ctx).imgAddr L.img + 0xC000
  let (s, err) := match attempt (nestWrite (coreDie core) L.ctx va r.bytes .image) s with
    | .ok (.ok _) s' => (s', err)
    | .ok (.error t') s' => (s', some t'.cause)
    | .error _ s' => (s', some .faultDelivery)
  if err.isSome then s.kill L.ctx .faultDelivery core
  else
    let x := s.ctx L.ctx
    let s := s.setCtx L.ctx { x with faulted := tset x.faulted L.recIdx ⟨t.cause, false⟩ }
    s.postNotice (coreDie core)
      { word := noticeWord t.cause 0 L.ctx L.recIdx core 0, pos := 0, frec := s.nestPa (coreDie core) L.ctx va, event := none }

/-- Taking an exception: the one operation that every trap goes through (R139, R379). -/
def State.takeTrap (s : State) (t : Trap) : State :=
  match s.cur with
  | .dcc d => s.trapDcc d t
  | .leaf c k => s.trapLeaf c k t

/-- A leaf suspends at a stop point (R371, R376): its record joins the SUSPENDED list as the newest; an image that cannot be written kills the context, as a fault record that cannot (R384; log 22). -/
def State.stopLeaf (s : State) (core slot : Nat) (pc : Quad) : State :=
  let L := s.leafAt core slot
  let (s, err) := s.suspendLeaf core slot pc
  if err.isSome then s.kill L.ctx .faultDelivery core
  else
    let x := s.ctx L.ctx
    s.setCtx L.ctx { x with suspended := x.suspended ++ [L.recIdx] }

/-! ## Word-state operations at their words -/

/-- What a waiting operation does at its word (R196). -/
inductive WsRes where
  | wait
  | trap (c : Cause)
  | go (w : ScrWord) (res : Option (BitVec 32 × Bool)) (atEnd atPoison : Bool)
  deriving DecidableEq, Repr

/-- WordOp (R196). `op` is 0 ldw, 1 ldc, 2 stf, 3 ste; an output 0 is absent. -/
def wsStep (op endOut poisonOut : Nat) (v : BitVec 32) (vt : Bool) (w : ScrWord) : WsRes :=
  let load := decide (op < 2)
  match w.st.toNat with
  | 3 => if poisonOut = 0 then .trap .ringPoison else .go w none false true
  | 2 =>
    if endOut = 0 then .trap (if load then .ringEnd else .ringClosed)
    else .go w (if load then some (w.val, w.taint) else none) true false
  | 1 => if load then .go (if op = 1 then { w with st := 0 } else w) (some (w.val, w.taint)) false false else .wait
  | _ => if load then .wait else .go ⟨v, if op = 2 then 1 else 2, vt⟩ none false false

/-- Writes an output predicate: bit 0, the others cleared (R41, R196). -/
def Leaf.putOut (L : Leaf) (k : Nat) (b t : Bool) : Leaf :=
  L.writeP (Fin.ofNat 8 k) (BitVec.ofNat 1024 b.toNat) (BitVec.ofNat 1024 t.toNat)

/-- Writes the results of a word-state operation; `t` is the taint of the address and the guard. -/
def Leaf.deliver (L : Leaf) (dst endOut poisonOut : Nat) (ety : Ety) (res : Option (BitVec 32 × Bool)) (e p t : Bool) : Leaf :=
  let L := (L.putOut endOut false t).putOut poisonOut false t
  let L := match res with
    | some (v, tw) => L.writeS (Fin.ofNat 64 dst) (etyExt ety v.toNat) (tw || t)
    | none => L
  let L := if e then L.putOut endOut true t else L
  if p then L.putOut poisonOut true t else L

/-- The leaf that a message answers still holds the entry that sent it. -/
def State.msgLive (s : State) (m : WsMsg) : Bool :=
  let L := s.leafAt m.core m.slot
  L.mode ≠ Mode.idle && L.ctx = m.ctx && L.entry = m.entry

/-- Takes a message off the way. -/
def State.dropMsg (s : State) (id : Nat) (m : WsMsg) : State :=
  let s := { s with msgs := terase s.msgs id }
  if s.msgLive m then s.setLeafAt m.core m.slot { s.leafAt m.core m.slot with msg := none, mode := Mode.running } else s

/-- A message reaches its word, or its word changes (R197): it waits there, traps its leaf (also where the link on its way is lost, R398), or is performed; a leaf whose stop is pending is then suspended at the next word. -/
def State.wsArrive (s : State) (id : Nat) : State :=
  match tfind s.msgs id with
  | none => s
  | some m =>
    let there := wsStep m.op m.endOut m.poisonOut m.value m.taint (s.scrWord m.target m.word)
    match (if s.linkLost (coreDie m.core) (coreDie m.target) then .trap .homeUnreachable else there) with
    | .wait => s
    | .trap c =>
      let live := s.msgLive m
      let s := s.dropMsg id m
      if live then s.trapLeaf m.core m.slot { cause := c, addr := m.addr } else s
    | .go w res e p =>
      let live := s.msgLive m
      let s := (s.setScrWord m.target m.word w).dropMsg id m
      if !live then s
      else
        let s := s.setLeafAt m.core m.slot
          ((s.leafAt m.core m.slot).deliver m.dst m.endOut m.poisonOut m.ety res e p m.addrTaint).advance
        let rule := ((s.ctx m.ctx).record (s.leafAt m.core m.slot).recIdx).bind fun r => (s.ctx m.ctx).ruleOf r.rule
        let s := if m.acq = 0 then s
          else s.acquire m.core m.ctx rule ((m.acq - 1) % 8) (8 ≤ m.acq - 1)
        if (s.ctx m.ctx).stop.isSome then s.stopLeaf m.core m.slot (s.leafAt m.core m.slot).pc else s

/-- A cancellation reaches the word (R197): an operation still waiting there is cancelled and its leaf suspended at the same word; any other is performed. -/
def State.wsCancel (s : State) (id : Nat) : State :=
  match tfind s.msgs id with
  | none => s
  | some m =>
    if !m.cancel then s
    else if s.linkLost (coreDie m.core) (coreDie m.target) then s.wsArrive id
    else match wsStep m.op m.endOut m.poisonOut m.value m.taint (s.scrWord m.target m.word) with
    | .wait =>
      let live := s.msgLive m
      let s := s.dropMsg id m
      if live then s.stopLeaf m.core m.slot (s.leafAt m.core m.slot).pc else s
    | _ => s.wsArrive id

/-- The operations that wait at a word look at it again at once, the lowest core and slot first (R198; log 45). -/
def State.serveWord (s : State) (core word : Nat) : State :=
  ((s.msgs.filter fun e => e.2.target = core && e.2.word = word).map (·.1)).foldl State.wsArrive s

/-! ## Ending an instruction -/

/-- Settles what a step caused beside its effect: event notices, kills, words whose waiters look again. -/
def State.settleOnce (s : State) : State :=
  s.pending.foldl (fun s p => match p with
    | .event d c pa info => s.postEvent d c pa info
    | .kill c cause core => s.kill c cause core
    | .serve core word => s.serveWord core word
    | .spill slice part line =>
      let t := State.spillDown slice part (s.sliceHeld slice part) s
      match line with
      | some l => if t.sliceHeld slice part ≤ t.sliceRoom slice part then t else t.replaceLine l
      | none => t) { s with pending := [] }

/-- Settles a step: what a kill wakes, and what that causes, is settled with it. -/
def State.settle (s : State) : State := s.settleOnce.settleOnce.settleOnce

/-- No message of the leaf is under way (R197). -/
def State.canSuspend (s : State) (core slot : Nat) : Bool := (s.leafAt core slot).msg.isNone

/-- An R110 wait: the leaf is not ready until it is tried again (R38); with a stop of its context pending the wait is a stop point (R371). -/
def State.markWaiting (s : State) : State :=
  match s.cur with
  | .leaf c k =>
    if s.myCtx.stop.isSome && s.canSuspend c k then s.stopLeaf c k s.leaf.pc
    else s.setLeaf { s.leaf with mode := Mode.waiting }
  | .dcc _ => s.setLeaf { s.leaf with mode := Mode.waiting }

/-- The outcome of a meaning: its state, the exception it raised taken, or the wait it is in. -/
def finish (m : M Unit) (s : State) : Host.Outcome State Fault Refusal :=
  if s.pkg.off then .fault .powerRemoved
  else match m s with
  | .ok _ s' => .next s'.settle
  | .error (.trap t) s' => .next (s'.takeTrap t).settle
  | .error .wait s' => .next s'.markWaiting.settle

/-- The outcome of an instruction that only changes registers of the executing agent. -/
def regStep (f : Leaf → Leaf) (s : State) : Host.Outcome State Fault Refusal :=
  if s.pkg.off then .fault .powerRemoved else .next (s.setLeaf (f s.leaf))

/-- The outcome of an event of the machine: one whose condition does not hold does not happen. -/
def eventStep (f : State → State) (s : State) : Host.Outcome State Fault Refusal :=
  if s.pkg.off then .fault .powerRemoved else .next (f s).settle

end Sys2Proof.Machine
end

