-- ==== Sys2Proof/Machine/Operands.lean ====
section
/-! DEFINITION. Guards (R90, R91), the operand forms (R114, R234-R236), how results and their taint are written (R115, R116, R237), and the modifier fields of IMM48 (R97). -/

namespace Sys2Proof

/-- The s-register of an operand field. -/
def Opnd.sreg : Opnd → Fin 64
  | .s n => n
  | _ => 0
/-- The v-register of an operand field. -/
def Opnd.vreg : Opnd → Fin 32
  | .v n => n
  | _ => 0
/-- The predicate of an operand field. -/
def Opnd.preg : Opnd → Fin 8
  | .p n => n
  | _ => 0
/-- The tile of an operand field. -/
def Opnd.tile : Opnd → Nat
  | .a n => n.val
  | _ => 0

end Sys2Proof

namespace Sys2Proof.Machine

/-! ## Guards -/

/-- GuardMask (R90) over E elements. -/
def Leaf.guardMask (L : Leaf) (g : Guard) (E : Nat) : Nat :=
  let m := 2 ^ E - 1
  let one (p : Fin 8) (neg : Bool) : Nat := ((L.readP p).toNat ^^^ (if neg then 2 ^ 1024 - 1 else 0)) &&& m
  if g.orr then one g.p1 g.neg1 ||| one g.p2 g.neg2 else one g.p1 g.neg1 &&& one g.p2 g.neg2

/-- Taint of the guard bits: of both predicates a mask bit is made of (R116). -/
def Leaf.guardTaint (L : Leaf) (g : Guard) : Nat := (L.taintP g.p1 ||| L.taintP g.p2).toNat

/-- Bit 0 of a predicate, negated as a guard field says. -/
def Leaf.guardBit (L : Leaf) (p : Fin 8) (neg : Bool) : Bool := (p == 0 || (L.p[p]).getLsbD 0) != neg

/-- The guard of an instruction that acts on one element (R90). -/
def Leaf.active (L : Leaf) (g : Guard) : Bool :=
  if g.orr then L.guardBit g.p1 g.neg1 || L.guardBit g.p2 g.neg2 else L.guardBit g.p1 g.neg1 && L.guardBit g.p2 g.neg2

/-- Guard and control taint of an instruction on one element (R116). -/
def Leaf.ctlT (L : Leaf) (g : Guard) : Bool := L.ctlTaint || (L.guardTaint g).testBit 0

/-! ## Scalar sources -/

/-- A bound register (Table 1-9, R33, R43): b0-b3 lo, b4-b7 hi of the current box, a walked axis showing its current grain. An agent that holds no box has no axis within its rank. -/
def State.bound (s : State) (n : Fin 8) : Nat :=
  let j : Fin 4 := ⟨n.val % 4, Nat.mod_lt _ (by decide)⟩
  let isHi := decide (4 ≤ n.val)
  let edge := if isHi then 1 else 0
  match s.cur with
  | .dcc _ => edge
  | .leaf _ _ =>
    match s.myCtx.record s.leaf.recIdx with
    | none => edge
    | some r =>
      if r.rankM1 < j.val then edge
      else
        let lo := r.lo[j].toNat
        let hi := r.hi[j].toNat
        if !isHi then lo
        else if r.walk && r.waxis = j.val then
          let g := match s.myRule with | some ru => ru.grain[j] | none => 1
          min (lo + g) hi
        else hi

/-- A source of one element as a 64-bit value with its taint (R114); `mod` says that IMM48[47:40] is a modifier byte (R97). -/
def srcOf (x : Args) (s : State) (mod : Bool) (o : Opnd) : Nat × Bool :=
  match o with
  | .s n => ((s.leaf.readS n).toNat, s.leaf.taintS n)
  | .b n => (s.bound n, false)
  | .imm k => (immValue mod x.imm.toNat k, false)
  | _ => (0, false)

/-! ## Modifier fields -/

/-- Rounding mode IMM48[41:40]. -/
def modRm (x : Args) : Rm := rmOf (field x.imm.toNat 40 2)
/-- `.ftz`, IMM48[42]. -/
def modFtz (x : Args) : Bool := x.imm.toNat.testBit 42
/-- `.wrap`, IMM48[43]. -/
def modWrap (x : Args) : Bool := x.imm.toNat.testBit 43
/-- The source type field STY, IMM48[47:44] (Table 8-2). -/
def modSty (x : Args) : Ety := (etyOfCode (field x.imm.toNat 44 4)).getD .n4
/-- ORD, IMM48[45:44], and SC, IMM48[42:40], of an ordering modifier byte (Table 6-3). -/
def modOrd (x : Args) : Nat := field x.imm.toNat 44 2
def modScope (x : Args) : Nat := field x.imm.toNat 40 3
/-- HINT.L1 is "no allocate" (Table 3-6). -/
def noAlloc (x : Args) : Bool := x.hint.toNat % 4 == 3

/-! ## Results of one element -/

/-- Writes D with the guard and control taint ORed in (R116). -/
def Leaf.putS (L : Leaf) (x : Args) (v : Quad) (t : Bool) : Leaf := L.writeS x.d.sreg v (t || L.ctlT x.guard)

/-- Writes bit 0 of the predicate D and clears the others (R41). -/
def Leaf.putBit (L : Leaf) (x : Args) (b t : Bool) : Leaf :=
  L.writeP x.d.preg (BitVec.ofNat 1024 b.toNat) (BitVec.ofNat 1024 (t || L.ctlT x.guard).toNat)

/-- An instruction on one element that only changes registers: inactive, it only advances the PC (R91). -/
def scalarStep (x : Args) (f : State → Leaf → Leaf) (s : State) : Host.Outcome State Fault Refusal :=
  regStep (fun L => (if L.active x.guard then f s L else L).advance) s

/-- An instruction on one element that can trap or wait; `m` advances the PC itself where it completes. Inactive, it only advances the PC (R91). -/
def guardedStep (x : Args) (m : M Unit) (s : State) : Host.Outcome State Fault Refusal :=
  if s.leaf.active x.guard then finish m s else regStep Leaf.advance s

/-! ## Vectors -/

/-- Elements of a type in a vector register (R40). -/
def etyCount (t : Ety) : Nat := 4096 / etyBits t

/-- A vector instruction's guard over E elements: mask and taint. -/
def Leaf.vguard (L : Leaf) (x : Args) (E : Nat) : Nat × Nat := (L.guardMask x.guard E, L.guardTaint x.guard)

/-- The lane (32-bit word) of element i of width w (R237). -/
def laneOf (w i : Nat) : Nat := i * w / 32

/-- Taint of element i of width w: of the lane, or both lanes, that hold it (R237). -/
def laneTaint (t : BitVec 128) (w i : Nat) : Bool :=
  if w = 64 then t.getLsbD (2 * i) || t.getLsbD (2 * i + 1) else t.getLsbD (laneOf w i)

/-- A source read as elements of width w: its element function and its taint (R235, R237). -/
def vsrcOf (x : Args) (s : State) (mod : Bool) (o : Opnd) (w : Nat) : (Nat → Nat) × (Nat → Bool) :=
  match o with
  | .v n =>
    let v := (s.leaf.v[n]).toNat
    let t := s.leaf.vT[n]
    (fun i => elem w i v, fun i => laneTaint t w i)
  | o =>
    let (a, t) := srcOf x s mod o
    let a := a % 2 ^ w
    (fun _ => a, fun _ => t)

/-- Writes elements of width w of a vector register: `some` value and taint where an element is written, `none` where it keeps its own. A lane takes the OR of what is written to it, and keeps its taint as well where an element of it keeps its value (R191, R237). -/
def Leaf.putV (L : Leaf) (d : Fin 32) (w : Nat) (els : List (Option (Nat × Bool))) : Leaf :=
  let els := els ++ List.replicate (4096 / w - els.length) none
  let old := (L.v[d]).toNat
  let vals := els.zipIdx.map fun (o, i) => match o with | some (v, _) => v % 2 ^ w | none => elem w i old
  let per := max 1 (32 / w)
  let lane (l : Nat) : Bool :=
    let part := (els.drop (if w = 64 then l / 2 else l * per)).take per
    part.any fun o => match o with | some (_, t) => t | none => (L.vT[d]).getLsbD l
  L.writeV d (BitVec.ofNat 4096 (packElems w vals)) (BitVec.ofNat 128 (bitsOf 128 lane))

end Sys2Proof.Machine
end

