-- ==== Sys2Proof/Machine/Control.lean ====
section
/-! DEFINITION. Control transfer (R131-R133), trap points, traps and the return from them (R137-R140). -/

namespace Sys2Proof.Machine

/-- Control taint of a transfer whose guard reads a tainted predicate bit (R116). -/
def Leaf.noteGuard (L : Leaf) (g : Guard) : Leaf := { L with ctlTaint := L.ctlTaint || (L.guardTaint g).testBit 0 }

/-- The target of a branch (R131): OFF words ahead. -/
def branchTarget (x : Args) (pc : Quad) : Quad := pc + BitVec.ofNat 64 (16 * x.imm.toNat)

/-- `br` (R131). -/
def execBr (x : Args) (s : State) : Host.Outcome State Fault Refusal :=
  regStep (fun L => if L.active x.guard then { L.noteGuard x.guard with pc := branchTarget x L.pc } else (L.noteGuard x.guard).advance) s

/-- `call` (R132): CALL_DEPTH at depth 8. -/
def execCall (x : Args) (s : State) : Host.Outcome State Fault Refusal :=
  if s.leaf.active x.guard && 8 ≤ s.leaf.calls.length then finish (fail .callDepth) s
  else regStep (fun L =>
    if L.active x.guard then { L.noteGuard x.guard with pc := branchTarget x L.pc, calls := (L.pc + 16) :: L.calls }
    else (L.noteGuard x.guard).advance) s

/-- `ret` (R132): CALL_DEPTH at depth 0. -/
def execRet (x : Args) (s : State) : Host.Outcome State Fault Refusal :=
  if s.leaf.active x.guard && s.leaf.calls.isEmpty then finish (fail .callDepth) s
  else regStep (fun L =>
    if L.active x.guard then { L.noteGuard x.guard with pc := L.calls.headD 0, calls := L.calls.tail }
    else (L.noteGuard x.guard).advance) s

/-- `yield` (R133): with a stop of the context pending, the leaf is suspended with its saved PC at the next word. -/
def execYield (x : Args) (s : State) : Host.Outcome State Fault Refusal :=
  if s.leaf.active x.guard && s.myCtx.stop.isSome then
    match s.cur with
    | .leaf c k =>
      if s.canSuspend c k then eventStep (fun s => s.stopLeaf c k (s.leaf.pc + 16)) s else finish waitHere s
    | .dcc _ => regStep Leaf.advance s
  else regStep Leaf.advance s

/-- Jobs of the executing leaf in its core's matrix queue or parked (R282), those that name a tile or all. -/
def State.mxBusy (s : State) (tile : Option Nat) : Bool :=
  let named (j : MxJob) : Bool := match tile with | some t => j.tile = t | none => true
  s.leaf.parked.any named
    || (s.core s.curCore).mxq.any fun j => j.ctx = s.leaf.ctx && j.entry = s.leaf.entry && named j

/-- The wait for matrix jobs (R277, R278): a deferred fault of the failed job or of one it discarded is taken here, once. -/
def mxSettle (tile : Option Nat) : M Unit := do
  let s ← get
  match s.leaf.mxFault.find? fun f => match tile with | some t => f.tiles.contains t | none => true with
  | some f => do
    updLeaf fun L => { L with mxFault := L.mxFault.erase f }
    throw (.trap { cause := f.cause, addr := f.addr, mx := some f })
  | none => if s.mxBusy tile then waitHere else pure ()

/-- `tfence` (R137): waits for the flags of earlier matrix jobs, then ARITH_TRAP when an enabled flag is set. -/
def execTfence (x : Args) (s : State) : Host.Outcome State Fault Refusal :=
  guardedStep x (do
    mxSettle none
    let s ← get
    let L := s.leaf
    if L.flags &&& L.trapEn ≠ 0 then
      throw (.trap { cause := .arithTrap, info := L.flags.setWidth 64 ||| (L.trapEn.setWidth 64 <<< 8) })
    else updLeaf Leaf.advance) s

/-- `trap` (R138): USER_TRAP with its code; the saved PC is PC + 16. -/
def execTrap (x : Args) (s : State) : Host.Outcome State Fault Refusal :=
  guardedStep x (throw (.trap { cause := .userTrap, next := true, info := BitVec.ofNat 64 (field x.imm.toNat 0 8) })) s

/-- A privileged instruction (R106): PRIV_INSN in user code. -/
def privStep (x : Args) (m : Nat → M Unit) (s : State) : Host.Outcome State Fault Refusal :=
  match s.cur with
  | .dcc d => if (s.die d).dcc.sv then guardedStep x (m d) s else finish (fail .privInsn) s
  | .leaf _ _ => finish (fail .privInsn) s

/-- `eret` (R140): PC := SV_EPC, SV := PREV_SV. -/
def execEret (x : Args) (s : State) : Host.Outcome State Fault Refusal :=
  privStep x (fun d => upd fun s => s.setDcc d (s.die d).dcc.eret) s

end Sys2Proof.Machine
end

