-- ==== Sys2Proof/Machine/Nest.lean ====
section
/-! DEFINITION. The split tree and its leaves: records in the pool (R31-R34), clean entries (R148), the end of a box, merges and the root's end (R26-R30, R158-R162, R171), placement (R374-R377), launches and stops (R29, R371). -/

namespace Sys2Proof.Machine

/-! ## Records in the pool -/

/-- A record's bytes obey R34: no reserved bit set, PEND and ST defined, the box as R15 states. A FEAT bit that Table 1-8 reserves, and a RULE that the launch does not have, which no step could run, are refused with them (DEDUCED, log 59). -/
def recordGood (b : Nat) (rules : Nat) : Bool :=
  let stt := field b 0x140 16
  let fl := field b 0x150 8
  let rank := field fl 1 2 + 1
  field stt 8 8 = 0 && field stt 2 1 = 0 && field stt 0 2 ≠ 3 && field stt 3 3 ≤ 5 && field fl 6 2 = 0
    && field b 0x158 8 < 64 && field b 0x163 29 = 0 && field b 0x100 32 < rules
    && (List.range 4).all fun j => j < rank || (field b (32 * j) 32 = 0 && field b (128 + 32 * j) 32 = 1)

/-- The views of a record as its view table names them (R298): a view's chunks are those of the record that its entry names. A table that cannot be read changes nothing (log 16). -/
def loadViews (c i : Nat) (r : Rec) : M Rec := do
  let s ← get
  let x := s.ctx c
  match x.ruleOf r.rule with
  | none => pure r
  | some ru =>
    let ps := ru.viewPorts
    match ← attempt (if ps.isEmpty then pure [] else nestRead (s.nestDie c) c r.views (16 * ps.length) .pool) with
    | .error _ => pure r
    | .ok bs =>
      let owner (v : Nat) : Nat := ofBytes ((bs.drop (16 * v)).take 4)
      let from' (v n : Nat) : Tbl Chunk :=
        let src := if owner v = i + 1 then r.chunks else if owner v = 0 then [] else ((x.record (owner v - 1)).map (·.chunks)).getD []
        src.filter fun e => e.1 / 2 ^ 22 = n
      let other := ((ps.zipIdx.filter fun e => owner e.2 ≠ i + 1).map fun (n, v) => from' v n).flatten
      upd fun s => other.foldl (fun s e => if e.2.spill.isNone then s.note (.spill e.2.slice e.2.part none) else s) s
      pure { r with chunks := (ps.zipIdx.map fun (n, v) => from' v n).flatten }

/-- The record state that a number stands for (Table 1-5). -/
def recStOf (n : Nat) : RecSt :=
  match n with
  | 0 => .ready | 1 => .running | 2 => .suspended | 3 => .waiting | 4 => .joining | _ => .failed

/-- A record with what the 64 bytes of Table 1-4 give, but for ST and RESUME. -/
def Rec.ofBits (r : Rec) (b : Nat) : Rec :=
  let fl := field b 0x150 8
  { r with
    views := field b 0x180 64
    lo := Vector.ofFn fun j => BitVec.ofNat 32 (field b (32 * j.val) 32)
    hi := Vector.ofFn fun j => BitVec.ofNat 32 (field b (128 + 32 * j.val) 32)
    rule := field b 0x100 32, parent := field b 0x120 32, pend := field b 0x140 2, waxis := field b 0x146 2
    side := fl.testBit 0, rankM1 := field fl 1 2, taint := fl.testBit 3, replay := fl.testBit 4, walk := fl.testBit 5
    sticky := BitVec.ofNat 6 (field b 0x158 8), feat := field b 0x160 32 }

/-- Reads a record from the pool (R31, R34): its box, rule, parent, masks, flags and sticky flags, with the number that its bytes make. -/
def readRecord (c i : Nat) : M (Rec × Nat) := do
  let s ← get
  let x := s.ctx c
  match x.record i with
  | none => fail .recordBad
  | some r => do
    let bs ← nestRead (s.nestDie c) c (x.desc.poolVa + 64 * i) 64
    let b := ofBytes bs
    let rules := match x.launch with | some l => l.rules.length | none => 0
    if !recordGood b rules then fail .recordBad
    else
      pure (r.ofBits b, b)

/-- Reads a record back at pickup (R34): what the pool holds of it, its state, image and views with it. -/
def loadRec (c i : Nat) : M Rec := do
  let (r, b) ← readRecord c i
  loadViews c i { r with st := recStOf (field b 0x143 3), resume := BitVec.ofNat 64 (field b 0x1C0 64) }

/-- A record that waits takes what system software has written to the pool (Tables 1-5 to 1-7); one that cannot be read stays as the Nest has it, until it is picked up (R34; log 16). -/
def State.refresh (s : State) (c i : Nat) : State :=
  match (s.ctx c).record i, attempt (readRecord c i) s with
  | some _, .ok (.ok (q, _)) s' => s'.setCtx c { s'.ctx c with recs := tset (s'.ctx c).recs i q }
  | _, .ok _ s' => s'
  | _, .error _ _ => s

/-- Every record that is not running takes what the pool holds. -/
def State.refreshAll (s : State) (c : Nat) : State :=
  ((s.ctx c).recs.filter fun e => e.2.st ≠ RecSt.running).foldl (fun s e => s.refresh c e.1) s

/-- The parent index of the root (Table 1-4). -/
def rootParent : Nat := 0xFFFFFFFF

/-- A record with the box, rule, masks and view table address given, in state READY, with blank views. -/
def Rec.fresh (lo hi : Vector (BitVec 32) 4) (rule parent rankM1 feat : Nat) (side replay : Bool) (views : Nat) : Rec :=
  { lo := lo, hi := hi, rule := rule, parent := parent, st := RecSt.ready, pend := 0, waxis := 0, walk := false
    replay := replay, taint := false, rankM1 := rankM1, side := side, sticky := 0, feat := feat, views := views, resume := 0
    chunks := [], pre := [], saved := none, savedScr := [], core := 0, slot := 0, held := false, mergeDone := false
    children := none, img := none, snap := none, rings := [] }

/-- VA of the view table of a record (R298, Table 13-7). -/
def Ctx.viewsAddr (x : Ctx) (i : Nat) : Nat := x.desc.vtVa + 256 * i

/-- Free records of the pool, lowest first (R164, R367; log 4). -/
def Ctx.freeRecs (x : Ctx) (n : Nat) : List Nat :=
  (((List.range (x.recs.length + n + 1)).map (· + 1)).filter fun i => i < x.desc.poolN && (x.record i).isNone).take n

/-- How many image slots are free (R368). -/
def Ctx.freeImgs (x : Ctx) : Nat := x.desc.imgCnt - (x.imgUsed.filter fun j => j < x.desc.imgCnt).length

/-- The lowest free image slot (R368; log 4). -/
def Ctx.freeImg (x : Ctx) : Option Nat :=
  (List.range (x.imgUsed.length + 1)).find? fun j => j < x.desc.imgCnt && !x.imgUsed.contains j

/-! ## Cores of a context -/

/-- The occupancy bitmap of some string core of a die holds the context's bit: of its L2 slice, its jobs and atomics, its L1, images and queues (Table 14-9, R398). -/
def State.holdsDie (s : State) (c d : Nat) : Bool :=
  let has (inst : Nat) : Bool := (tget 0 s.occ inst).getLsbD (c % 1024)
  (List.range 32).any fun sl =>
    let k := stringCore d sl
    has (occJob k) || has (occL1 k) || has (occImg k) || has (occBuf k) || (List.range 16).any fun p => has (occL2 (d * 32 + sl) p)

/-- Dies from which every die that holds an entry of the context is reached: S(c) of R398 over all dies. -/
def State.reachDies (s : State) (c : Nat) : List Nat :=
  (List.range 4).filter fun d => !(List.range 4).any fun h => s.linkLost d h && s.holdsDie c h

/-- The cores that a context's leaves may use (R369, R398). -/
def State.ctxCores (s : State) (c : Nat) : List Nat :=
  (nodeCores (s.ctx c).node).filter fun k => (s.ctx c).mayUse (coreDie k)

/-- The lowest slot of a core that holds no leaf and no allocation kept in place (R374, R376). -/
def State.freeSlot (s : State) (core : Nat) : Option Nat :=
  (List.range (coreSlots core)).find? fun k => (s.allocOf core k).isNone

/-! ## Clean entries -/

/-- CSR defaults of a leaf start (R47, Table 1-10). -/
def Ctx.leafDefaults (x : Ctx) : Leaf :=
  { Leaf.idle with trapEn := x.desc.dtrap, wrr := if x.desc.dwrr = 0 then 1 else x.desc.dwrr, thresh := x.desc.thr }

/-- The clean leaf state of R148 with the CSRs of `csr`. -/
def Leaf.cleanEntry (csr : Leaf) (c recIdx img entry : Nat) (pc : Quad) (inJoin : Bool) : Leaf :=
  { Leaf.idle with
    flags := csr.flags, trapEn := csr.trapEn, dropMag := csr.dropMag, wrr := csr.wrr, thresh := csr.thresh
    ctlTaint := csr.ctlTaint, ctx := c, recIdx := recIdx, img := img, entry := entry, pc := pc, inJoin := inJoin
    mode := Mode.running }

/-- The 256 bytes of a snapshot (R396): the record as at the entry, the RW CSRs, the control-taint bit, and whether the entry is into a join body (log 5). -/
def Snapshot.bytes (sn : Snapshot) (r : Rec) : List Byte :=
  let bs := { r with st := RecSt.ready, resume := 0 }.bytes
    ++ ([sn.flags.setWidth 64, sn.trapEn.setWidth 64, sn.dropMag, sn.wrr.setWidth 64] ++ sn.thresh.toList).flatMap (fun (q : Quad) => toBytes 8 q.toNat)
    ++ toBytes 1 sn.ctlTaint.toNat ++ toBytes 1 sn.inJoin.toNat
  bs ++ List.replicate (256 - bs.length) 0

/-- What the 256 bytes of a snapshot give back; its views are the Nest's. -/
def Snapshot.ofBytes (sn : Snapshot) (bs : List Byte) : Snapshot :=
  let f (off n : Nat) : Nat := Sys2Proof.ofBytes ((bs.drop off).take n)
  { sn with
    lo := Vector.ofFn fun j => BitVec.ofNat 32 (f (4 * j.val) 4), hi := Vector.ofFn fun j => BitVec.ofNat 32 (f (16 + 4 * j.val) 4)
    taint := (f 0x2A 1).testBit 3, flags := BitVec.ofNat 6 (f 0x40 8), trapEn := BitVec.ofNat 6 (f 0x48 8), dropMag := BitVec.ofNat 64 (f 0x50 8)
    wrr := BitVec.ofNat 4 (f 0x58 8), thresh := Vector.ofFn fun j => BitVec.ofNat 64 (f (0x60 + 8 * j.val) 8)
    ctlTaint := f 0xE0 1 ≠ 0, inJoin := f 0xE1 1 ≠ 0 }

/-- A clean entry into a slot (R148, R396): the leaf, its cleared allocation, the record RUNNING with its snapshot, which is performed at its home. -/
def State.enter (s : State) (core slot : Nat) (csr : Leaf) (c i img : Nat) (pc : Quad) (inJoin : Bool) : State :=
  let L := csr.cleanEntry c i img s.nextEntry pc inJoin
  let s := { (s.clearScratch core slot).setLeafAt core slot L with nextEntry := s.nextEntry + 1 }
  let s := s.occSet (occImg core) c
  match (s.ctx c).record i with
  | none => s
  | some r =>
    let chunks := tmap (fun _ ch => { ch with own := false }) r.chunks
    let snap : Snapshot := ⟨r.lo, r.hi, chunks, r.taint, L.flags, L.trapEn, L.dropMag, L.wrr, L.thresh, L.ctlTaint, inJoin⟩
    let s := runIgnore (nestWrite (coreDie core) c ((s.ctx c).imgAddr img + 0xC080) (snap.bytes r) .image) s
    let x := s.ctx c
    s.setCtx c { x with recs := tset x.recs i { r with
      st := RecSt.running, core := core, slot := slot, held := false, saved := none, resume := 0, chunks := chunks, snap := some snap } }

/-- Frees a leaf slot, its allocation and its image slot (R158, R368). -/
def State.freeLeaf (s : State) (core slot : Nat) : State :=
  let L := s.leafAt core slot
  let s := (s.clearScratch core slot).setLeafAt core slot Leaf.idle
  let x := s.ctx L.ctx
  s.setCtx L.ctx { x with imgUsed := x.imgUsed.filter (· ≠ L.img) }

/-- Entry address of a rule's body (Table 10-4). -/
def Launch.pcOf (l : Launch) (off : Nat) : Quad := BitVec.ofNat 64 (l.text + off)

/-! ## Merges -/

/-- left ⊕ right of two chunks: values, flags, taint (R83). -/
def mergeChunk (op : Nat) (a b : Chunk) : Chunk × Flags :=
  let rs := (List.range 128).map fun i => viewMerge op (a.val.extractLsb' (32 * i) 32) (b.val.extractLsb' (32 * i) 32)
  ({ a with val := BitVec.ofNat 4096 (packElems 32 (rs.map fun r => r.1.toNat)), taint := a.taint ||| b.taint },
   (rs.map (·.2)).foldl (· ||| ·) 0)

/-- The view operator of a port of a rule. -/
def Rule.opOf (r : Rule) (n : Nat) : Nat := ((r.ports[n]?).map (·.op)).getD 0

/-- A child's views; one that ended blank and gave its record back has none. -/
def Ctx.childViews (x : Ctx) (k : Kid) : Tbl Chunk :=
  if k.gone then [] else ((x.record k.idx).map (·.chunks)).getD []

/-- The keys of chunks that some of the tables hold, in increasing order. -/
def chunkKeys (ts : List (Tbl Chunk)) : List Nat := (ts.flatten.foldl (fun t e => tset t e.1 ()) ([] : Tbl Unit)).map (·.1)

/-- One result chunk of a merge into record i (R152, R385): P ⊕ (L ⊕ R), of the operands that have the chunk, written into fresh storage of the record. -/
def mergeKey (die c i op k : Nat) (l r p : Tbl Chunk) : M Flags := do
  let get' (t : Tbl Chunk) : M Chunk := match tfind t k with
    | some ch => chunkRead die c k ch
    | none => pure (blankChunk op)
  let a ← get' l
  let b ← get' r
  let (m, f) := if (tfind l k).isSome || (tfind r k).isSome then mergeChunk op a b else (blankChunk op, 0)
  let (m, g) ← (if p.isEmpty then pure (m, 0) else do
    let pre ← get' p
    pure (mergeChunk op pre m))
  let fresh ← chunkOpen die c i k op true
  chunkPut die c i k { fresh with val := m.val, taint := m.taint }
  pure (f ||| g)

/-- The chunks that a merge touches: those that any operand has allocated (R171). The flags, or the key of the chunk that met a fault, with the fault (R386). -/
def mergeViews (die c i : Nat) (opOf : Nat → Nat) (l r p : Tbl Chunk) : M (Except (Nat × Trap) Flags) := do
  let mut f : Flags := 0
  for k in chunkKeys [l, r, p] do
    match ← attempt (mergeKey die c i (opOf (k / 2 ^ 22)) k l r p) with
    | .ok g => f := f ||| g
    | .error t => return .error (k, t)
  return .ok f

/-! ## The end of a box -/

/-- The launch has been aborted or has failed (R29, R382). -/
def Launch.dead (l : Launch) : Bool := l.abort.isSome || l.fail.isSome

/-- Sets the launch of a context. -/
def State.updLaunch (s : State) (c : Nat) (f : Launch → Launch) : State :=
  let x := s.ctx c
  s.setCtx c { x with launch := x.launch.map f }

/-- Records READY are discarded and never started; a parent whose merge is complete ends without its join body (R29). -/
def State.discardReady (s : State) (c : Nat) : State :=
  let x := s.ctx c
  s.setCtx c { x with
    deques := [], ready := [], joining := []
    recs := x.recs.filter fun e => e.1 = 0 || (e.2.st ≠ RecSt.ready && !x.joining.contains e.1) }

/-- A leaf without its matrix jobs and the faults that wait to be reported. -/
def Leaf.dropMx (L : Leaf) : Leaf := { L with mxFault := [], parked := [] }

/-- At an abort, matrix jobs of the context's leaves, resident or suspended, are discarded with the faults that wait to be reported (R283); the images of suspended leaves hold none any more. -/
def State.discardMx (s : State) (c : Nat) : State :=
  let x := s.ctx c
  let s := x.recs.foldl (fun s (_, r) => match r.saved with
    | some L =>
      if L.parked.isEmpty then s
      else runIgnore (nestWrite (s.nestDie c) c (r.resume.toNat + 0x1100) L.dropMx.imageParked .image) s
    | none => s) s
  let x := s.ctx c
  let s := s.setCtx c { x with recs := tmap (fun _ r => { r with saved := r.saved.map Leaf.dropMx }) x.recs }
  { s with
    cores := tmap (fun _ k => { k with mxq := k.mxq.filter fun j => j.ctx ≠ c }) s.cores
    leaves := tmap (fun _ L => if L.ctx = c then L.dropMx else L) s.leaves }

/-- At an abort, jobs of the context that have not started, because a job they wait for is not complete, end failed with ENG_CANCELLED (R215, R231). -/
def State.cancelJobs (s : State) (c : Nat) : State :=
  let stop (j : Job) : Job :=
    if j.ctx = c && !j.started && !j.preds.isEmpty then { j with started := true, fail := some .engCancelled, pend := [] } else j
  { s with cores := tmap (fun _ k => { k with jobs := tmap (fun _ j => stop j) k.jobs }) s.cores }

/-- The launch of a context has been aborted or has failed, or there is none. -/
def Ctx.dead (x : Ctx) : Bool := match x.launch with | some l => l.dead | none => true

/-- The launch ends as R29 states: an abort code or a failure, the first of which stands; a later one changes nothing (R160). -/
def State.failLaunch (s : State) (c : Nat) (code : Option Nat) (cause : Option Cause) : State :=
  if (s.ctx c).dead then s
  else (((s.updLaunch c fun l => { l with abort := code, fail := cause }).discardReady c).discardMx c).cancelJobs c

/-- One element of the root merge (R171): port ⊕ view, written where the port lies. No rule asks for a BASE that is a multiple of 4; an element that 4 does not divide the address of faults ADDR_ALIGN as any access does (DESIGN CHOICE, log 67). -/
def rootElem (a : Actor) (p : Port) (off : Nat) (v : BitVec 32) (t : Bool) : M Flags := do
  let ea := p.base + off
  let tr ← checkAccess a ea 4 .load
  let (bs, _) ← atAddr ea (engineLoad a tr 4)
  let tw ← checkAccess a ea 4 .store
  let r := viewMerge p.op (BitVec.ofNat 32 (ofBytes bs)) v
  atAddr ea (engineStore a tw ea (toBytes 4 r.1.toNat) t)
  pure r.2

/-- The root's views written into their port regions (R30, R171): the capability of every view port first, then every element of the allocated chunks inside its region, in rising order of chunk and element up to the first fault, where R171 leaves open which were written (DESIGN CHOICE, log 67). An element that BYTES covers only in part is not written (DESIGN CHOICE, log 67). -/
def rootMerge (a : Actor) (ru : Rule) (chunks : Tbl Chunk) : M Flags := do
  for p in ru.ports do
    if p.kind = 2 then do
      let (_, r) ← regionAt a.who a.ctx p.base
      if !r.testBit 8 && regCtx (field r 16 16) ≠ some a.ctx then fail .capAbsent else pure ()
    else pure ()
  let mut f : Flags := 0
  for (k, c) in chunks do
    match ru.ports[k / 2 ^ 22]? with
    | none => pure ()
    | some p => do
      let c ← chunkRead a.who.die a.ctx k c
      for i in List.range 128 do
        let off := k % 2 ^ 22 * 512 + 4 * i
        if off + 4 ≤ p.bytes then do
          let g ← rootElem a p off (c.val.extractLsb' (32 * i) 32) (c.taint.getLsbD i)
          f := f ||| g
        else pure ()
  pure f

/-- The root has ended (R30, R171): its views are merged into the ports, a fault there fails the launch; the status waits for the tickets (R366). The capabilities are checked of a root that has no view to merge, an empty root box among them, which R16 completes with status success and R171 would end CAP_ABSENT: R171's check is made (DEDUCED, log 46). The flags of the elements merged before a faulting port write do not reach STICKY (DESIGN CHOICE, log 67). -/
def State.rootEnd (s : State) (core slot c : Nat) : State :=
  let x := s.ctx c
  match x.launch, x.record 0 with
  | some l, some r =>
    let a : Actor := ⟨s.whoFor core c, c, slot, 0, 0⟩
    let ru := l.rules[r.rule]?
    let s := match ru with
      | none => s
      | some ru =>
        match attempt (rootMerge a ru r.chunks) s with
        | .ok (.ok f) s' =>
          let y := s'.ctx c
          (match y.record 0 with
           | some q => s'.setRec c 0 { q with sticky := q.sticky ||| f }
           | none => s')
        | .ok (.error t) s' => s'.updLaunch c fun l => { l with fail := some t.cause }
        | .error _ s' => s'
    (s.updLaunch c fun l => { l with ended := true }).freeLeaf core slot
  | _, _ => s.freeLeaf core slot

/-- The end of the box of record i (R26), held by the leaf of a slot: its parent as the pool has it, the parent's sticky flags and pending count; the child that completes the pair leaves the merge to the Jigsaw units, its slot freed at once where a stop is pending (R162). -/
def State.endRec (s : State) (core slot c i : Nat) (flags : Flags) (pruned : Bool) : State :=
  let x := s.ctx c
  match x.record i with
  | none => s.freeLeaf core slot
  | some r =>
    let r := { r with sticky := r.sticky ||| flags, chunks := if pruned then r.pre else r.chunks }
    if i = 0 then (s.setRec c 0 r).rootEnd core slot c
    else
      let s := s.refresh c r.parent
      let x := s.ctx c
      match x.record r.parent with
      | none => s.freeLeaf core slot
      | some p =>
        let blank := pruned && r.chunks.isEmpty
        let kids := match p.children with
          | some (a, b) => some (if blank && a.idx = i then { a with gone := true } else a, if blank && b.idx = i then { b with gone := true } else b)
          | none => none
        let p := { p with sticky := p.sticky ||| r.sticky, taint := p.taint || r.taint, pend := p.pend - 1, children := kids }
        let s := if blank then
            s.setCtx c { x with recs := terase x.recs i }
          else s.setRec c i { r with st := RecSt.waiting, pend := 0, pre := [], saved := none }
        if p.pend ≠ 0 then (s.setRec c r.parent p).freeLeaf core slot
        else
          let L := s.leafAt core slot
          let s := s.setRec c r.parent { p with
            st := RecSt.joining, mergeDone := false, core := core, slot := slot, img := some L.img }
          let s := s.clearScratch core slot
          if x.stop.isSome then s.setLeafAt core slot Leaf.idle
          else s.setLeafAt core slot { Leaf.idle with
            ctx := c, recIdx := r.parent, img := L.img, mode := Mode.merging }

/-- What EndBox does after its waits (R158): DROP_MAG into the total, the carried set released (R352), the end of the box; after an abort the box ends without merging (R29). -/
def State.endBox (s : State) (core slot : Nat) (pruned : Bool) (dropTaint : Bool) : State :=
  let L := s.leafAt core slot
  let c := L.ctx
  let s := s.keepOwn c L.entry
  let x := s.ctx c
  let s := s.setCtx c { x with drop := x.drop + L.dropMag, dropTaint := x.dropTaint || dropTaint }
  let rule := (x.record L.recIdx).bind fun r => x.ruleOf r.rule
  let s := s.release core c rule 3 false
  match x.launch with
  | none => s.freeLeaf core slot
  | some l =>
    if l.dead then
      let y := s.ctx c
      let s := if L.recIdx = 0 then s else s.setCtx c { y with recs := terase y.recs L.recIdx }
      s.freeLeaf core slot
    else s.endRec core slot c L.recIdx L.flags pruned

/-- The entry of a join body, or the end of the parent where its rule has none (R161). -/
def State.joinEntry (s : State) (core slot c i img : Nat) : State :=
  let x := s.ctx c
  match x.launch, x.record i with
  | some l, some r =>
    match l.rules[r.rule]? with
    | none => s.freeLeaf core slot
    | some ru =>
      let s := s.acquire core c (some ru) 3 false
      match ru.join with
      | some off => s.enter core slot { x.leafDefaults with flags := r.sticky } c i img (l.pcOf off) true
      | none =>
        let s := s.setLeafAt core slot { Leaf.idle with ctx := c, recIdx := i, img := img, mode := Mode.merging }
        s.endRec core slot c i 0 false
  | _, _ => s

/-- A merge stops on a fault (R386): the chunks it has made go, the parent enters the faulted set and keeps the image slot, where the record is written. -/
def State.mergeFault (s : State) (c i port : Nat) (t : Trap) : State :=
  let x := s.ctx c
  match x.record i with
  | none => s
  | some r =>
    let va := x.imgAddr (r.img.getD 0) + 0xC000
    let (l, rt) := r.children.getD (⟨0, false⟩, ⟨0, false⟩)
    let f : FaultRec := { cause := t.cause, kind := 2, port := port, ctx := c, box := i, left := l.idx, right := rt.idx, core := r.core
                          addr := t.addr, info := t.info, cycle := s.cycle }
    let s := s.setCtx c { x with recs := tset x.recs i { r with chunks := [] } }
    let s := if (s.leafAt r.core r.slot).mode = Mode.merging && (s.leafAt r.core r.slot).ctx = c
        && (s.leafAt r.core r.slot).recIdx = i then s.setLeafAt r.core r.slot Leaf.idle else s
    match attempt (nestWrite (coreDie r.core) c va f.bytes .image) s with
    | .ok (.ok _) s' =>
      let y := s'.ctx c
      let s' := s'.setCtx c { y with faulted := tset y.faulted i ⟨t.cause, true⟩ }
      s'.postNotice (coreDie r.core)
        { word := noticeWord t.cause 1 c i r.core 0, pos := 0, frec := s'.nestPa (coreDie r.core) c va, event := none }
    | .ok (.error _) s' => s'.kill c .faultDelivery r.core
    | .error _ s' => s'

/-! ## Stops -/

/-- A stop becomes pending (R371): waiting leaves suspend at their wait, merging leaves are freed; one whose message is under way has it cancelled first (R197). -/
def State.pendStop (s : State) (c : Nat) (why : Stop) : State :=
  let x := s.ctx c
  if x.stop.isSome then
    if x.stop = some Stop.preempt then s.setCtx c { x with stop := some why } else s
  else
    let s := s.setCtx c { x with stop := some why, stopAge := 0 }
    s.leaves.foldl (fun s (k, L) =>
      let core := k / 4
      let slot := k % 4
      if L.ctx ≠ c || L.mode = Mode.idle then s
      else if L.mode = Mode.merging then s.setLeafAt core slot Leaf.idle
      else if L.mode = Mode.waiting then
        match L.msg with
        | some m => { s with msgs := tmap (fun k w => if k = m then { w with cancel := true } else w) s.msgs }
        | none => if s.canSuspend core slot then s.stopLeaf core slot L.pc else s
      else s) s

/-- A leaf of the context still occupies a slot. -/
def State.ctxActive (s : State) (c : Nat) : Bool := s.leaves.any fun e => e.2.mode ≠ Mode.idle && e.2.ctx = c

/-- READY records leave the core deques (R376): newest first for each core, cores in increasing number; their indices are written to the ready list at RDYVA. -/
def State.saveReady (s : State) (c : Nat) : State :=
  let x := s.ctx c
  let ready := x.ready ++ (x.deques.map fun (k, l) => l.map fun i => (k, i)).flatten
  let s := s.setCtx c { x with deques := [], ready := ready }
  runIgnore (nestWrite (s.nestDie c) c x.desc.rdyVa (ready.map fun e => toBytes 4 e.2).flatten .pool) s

/-- The ready list as it stands at RDYVA, each index with the core that wrote it; one that cannot be read is the Nest's own (log 16). -/
def State.readReady (s : State) (c : Nat) : State :=
  let x := s.ctx c
  if x.ready.isEmpty then s
  else match attempt (nestRead (s.nestDie c) c x.desc.rdyVa (4 * x.ready.length) .pool) s with
  | .ok (.ok bs) s' => s'.setCtx c { s'.ctx c with ready := ((x.ready.map (·.1)).zip (words4 bs)) }
  | .ok (.error _) s' => s'
  | .error _ s' => s'

/-- The ready list supplies the deques again (R377): each index to the core that wrote it, order kept. -/
def Ctx.restoreReady (x : Ctx) : Ctx :=
  { x with ready := [], deques := x.ready.foldl (fun d (k, i) => tset d k ((tget [] d k) ++ [i])) x.deques }

/-- The stop completes when every leaf has suspended (R371, R372, R376): the partition is free; a preempted context stays RUNNING, any other is STOPPED; an exhausted budget traps SLICE_BUDGET. -/
def State.completeStop (s : State) (c : Nat) : State :=
  let x := s.ctx c
  match x.stop with
  | none => s
  | some why =>
    if s.ctxActive c then s
    else
      let s := s.saveReady c
      let y := s.ctx c
      let s := s.setCtx c { y with
        stop := none, stopAge := 0, st := if why = Stop.preempt then y.st else CtxSt.stopped }
      let s := { s with holders := s.holders.filter fun e => e.2 ≠ c }
      let s := if why = Stop.preempt then s else s.wakeStops c 0
      if why = Stop.budget then
        s.postNotice (s.ctxDie c) { word := noticeWord .sliceBudget 2 c 0 0 0, pos := 0, frec := 0, event := none }
      else s

/-- Suspends at its next instruction boundary every leaf of a context that can be (R371). -/
def State.forceSuspend (s : State) (c : Nat) : State :=
  s.leaves.foldl (fun s (k, L) =>
    if L.ctx = c && (L.mode = Mode.running || L.mode = Mode.waiting) && s.canSuspend (k / 4) (k % 4) then
      s.stopLeaf (k / 4) (k % 4) (s.leafAt (k / 4) (k % 4)).pc
    else s) s

/-! ## Placement -/

/-- A record qualifies for a core (R37, R374). -/
def State.fits (s : State) (c i core : Nat) : Bool :=
  let x := s.ctx c
  match x.record i with
  | none => false
  | some r => match x.ruleOf r.rule with
    | none => false
    | some ru => s.qualifies ru.onString r.feat core

/-- The holder of the partition that a core lies in, when it may run there. -/
def State.holderOf (s : State) (core : Nat) : Option Nat :=
  (s.holders.find? fun e => coreIn e.1 core).bind fun e =>
    if (s.ctx e.2).mayUse (coreDie core) then some e.2 else none

/-- The groups of Fill (R374): the core's octet, its die, the other dies in increasing number. Each lists its cores in increasing number starting after the core. -/
def fillGroups (node core : Nat) : List (List Nat) :=
  let all := nodeCores node
  let die := coreDie core
  let turn (l : List Nat) : List Nat := (l.filter fun d => core < d) ++ (l.filter fun d => d < core)
  [turn (all.filter fun d => coreOctet d = coreOctet core), turn (all.filter fun d => coreDie d = die)]
    ++ (List.range 3).map fun k => turn (all.filter fun d => coreDie d = (die + 1 + k) % 4)

/-- The oldest record of a deque that fits a core. -/
def State.stealFrom (s : State) (c d core : Nat) : Option Nat :=
  (tget [] (s.ctx c).deques d).reverse.find? fun i => s.fits c i core

/-- Fill (R374): the record that slot k of a core takes. -/
def State.fillPick (s : State) (core k : Nat) : Option (Nat × Nat) :=
  match s.holderOf core with
  | none => none
  | some c =>
    let x := s.ctx c
    if x.stop.isSome || x.st ≠ CtxSt.running || (s.leafAt core k).mode ≠ Mode.idle || coreSlots core ≤ k then none
    else
      let img := x.freeImg.isSome
      let held := x.suspended.find? fun i => match x.record i with
        | some r => r.held && r.core = core && r.slot = k
        | none => false
      let free (i : Nat) : Bool := match x.record i with | some r => !r.held | none => false
      let empty := s.freeSlot core = some k
      let own := x.suspended.find? fun i => free i && s.fits c i core && ((x.record i).map (·.core)) = some core
      let pick := match held with
        | some i => some i
        | none =>
          if !empty then none
          else match own with
          | some i => some i
          | none =>
            match (if img then x.joining.find? fun i => s.fits c i core else none) with
            | some i => some i
            | none =>
              match (if img then (tget [] x.deques core).find? fun i => s.fits c i core else none) with
              | some i => some i
              | none =>
                match x.suspended.find? fun i => free i && s.fits c i core with
                | some i => some i
                | none =>
                  if img then (fillGroups x.node core).findSome? fun (g : List Nat) => g.findSome? fun d => s.stealFrom c d core
                  else none
      pick.map fun i => (c, i)

/-- Removes a record from every list of the Nest. -/
def Ctx.unlist (x : Ctx) (i : Nat) : Ctx :=
  { x with
    suspended := x.suspended.filter (· ≠ i), joining := x.joining.filter (· ≠ i)
    ready := x.ready.filter fun e => e.2 ≠ i
    deques := (tmap (fun _ l => l.filter (· ≠ i)) x.deques).filter fun e => !e.2.isEmpty }

/-- The leaf's endpoints detach from their rings (R227): at an abnormal end every EMPTY word becomes POISON first. A ring it declared is freed when no endpoint is left. -/
def State.detachRings (s : State) (ctx entry : Nat) (abnormal : Bool) : State :=
  let mine (r : Ring) : Bool := r.ctx = ctx && r.ends.any (·.1 = entry)
  let s := if abnormal then
      s.cores.foldl (fun s (k, x) => (x.rings.filter mine).foldl (fun s r => s.poisonRing k r) s) s
    else s
  { s with cores := tmap (fun _ x => { x with
      rings := (x.rings.map fun r => if r.ctx = ctx then { r with ends := r.ends.filter (·.1 ≠ entry) } else r).filter
        fun r => !(r.ctx = ctx && r.declarer = entry && r.ends.isEmpty) }) s.cores }

/-- A discarded box: an abnormal end of its ring endpoints, the rings it declared freed (R227), its image slot and record returned (R164). Record 0 stays, marked failed, until the status has been written. -/
def State.dropRec (s : State) (c i : Nat) : State :=
  match (s.ctx c).record i with
  | none => s
  | some r =>
    let entry := (r.saved.map (·.entry)).getD 0
    let img := match r.saved, r.img with | some L, _ => some L.img | none, j => j
    let s := if r.rings.isEmpty then s else s.poisonSaved c i r
    let s := if r.saved.isSome then (s.detachRings c entry true).keepOwn c entry else s
    let s := { s with cores := tmap (fun _ k => { k with rings := k.rings.filter fun g => !(g.ctx = c && g.declarer = entry) }) s.cores }
    let x := s.ctx c
    s.setCtx c { x.unlist i with
      imgUsed := x.imgUsed.filter fun j => some j ≠ img
      faulted := terase x.faulted i
      recs := if i = 0 then tset x.recs 0 { r with st := RecSt.failed, saved := none, savedScr := [], held := false, img := none, rings := [] }
        else terase x.recs i }

/-- Parked jobs of a resumed leaf rejoin its core's queue while the queue has room (R277, R282). -/
def State.mxRejoin (s : State) (core slot : Nat) : State :=
  let L := s.leafAt core slot
  let c := s.core core
  let n := Config.mxQueue - c.mxq.length
  if L.parked.isEmpty || n = 0 || L.mode = Mode.idle || (s.ctx L.ctx).stop.isSome then s
  else ((s.setCore core { c with mxq := c.mxq ++ L.parked.take n }).setLeafAt core slot { L with parked := L.parked.drop n }).occSet
    (occBuf core) L.ctx

/-- The leaf that a suspended record resumes as, before its image is read: what the Nest keeps of it, with the image slot that RESUME names; for a record that system software has made one, a leaf of a new entry. -/
def State.resumeBase (s : State) (c i : Nat) (r : Rec) : Leaf :=
  let x := s.ctx c
  let L := r.saved.getD { x.leafDefaults with ctx := c, recIdx := i, entry := s.nextEntry, img := x.freeImg.getD 0 }
  { L with img := (x.imgIndex r.resume.toNat).getD L.img }

/-- Resumes a suspended record in a slot (R35, R282, R313, R354): registers, queues, tiles, parked jobs and scratch words are what the image at RESUME holds, rings declared among those words are its new core's, and RESUME returns to 0. -/
def State.resumeRec (s : State) (core slot c i : Nat) (r : Rec) : State :=
  let s := s.acquire core c none 3 true
  let L := s.resumeBase c i r
  let die := coreDie core
  let load : M (Leaf × Tbl ScrWord) := do
    let L ← readImage die c r.resume.toNat L
    let t ← (if r.held then pure [] else readScratch die c r.resume.toNat ((s.ctx c).scratchOf i))
    pure (L, t)
  match attempt load s with
  | .ok (.ok (L, t)) s =>
    let s := if r.held then s else s.putScratch core slot t
    let s := if r.rings.isEmpty then s else (s.setCore core { s.core core with
      rings := (s.core core).rings ++ r.rings.map fun g => { g with base := slot * 0x40000 + g.base } }).occSet (occNest die) c
    let s := { s.setLeafAt core slot { L with mode := Mode.running } with nextEntry := s.nextEntry + (if r.saved.isNone then 1 else 0) }
    let x := s.ctx c
    let old := (r.saved.map (·.img)).getD L.img
    let s := s.setCtx c { x with imgUsed := L.img :: x.imgUsed.filter fun j => j ≠ old && j ≠ L.img }
    let s := s.setRec c i { r with
      st := RecSt.running, core := core, slot := slot, held := false, saved := none, savedScr := [], rings := [], resume := 0 }
    let s := s.occSet (occImg core) c
    (if L.tiles.isEmpty then s else s.occSet (occOctet (coreOctet core)) c).mxRejoin core slot
  | .ok (.error t) s => (s.failLaunch c none (some t.cause)).dropRec c i
  | .error _ s => s

/-- The CSRs and control taint of a snapshot (R396). -/
def Snapshot.csrs (sn : Snapshot) (L : Leaf) : Leaf :=
  { L with flags := sn.flags, trapEn := sn.trapEn, dropMag := sn.dropMag, wrr := sn.wrr, thresh := sn.thresh, ctlTaint := sn.ctlTaint }

/-- The snapshot at which a replayed record starts (R396). A suspended record whose RESUME software has set to 0 still holds what its leaf saved: it starts as any other does, at its rule's entry body (R35). -/
def Rec.replayAt (r : Rec) : Option Snapshot := if r.saved.isNone then r.snap else none

/-- Starts or resumes a record in a slot (R34, R35, R47, R162, R374): one whose RESUME is not 0 resumes from its image, any other starts, for which it needs a free image slot, and of a launch that has been aborted is discarded (R29). -/
def State.startRec (s0 : State) (core slot c i : Nat) : State :=
  let s := s0
  let s := s.setCtx c ((s.ctx c).unlist i)
  match attempt (loadRec c i) s with
  | .ok (.error t) s' => (s'.failLaunch c none (some t.cause)).dropRec c i
  | .error _ s' => s'
  | .ok (.ok r) s =>
    let x := s.ctx c
    let s := s.setCtx c { x with recs := tset x.recs i r }
    if r.resume ≠ 0 then s.resumeRec core slot c i r
    else if (match x.launch with | some l => l.dead | none => false) then s.dropRec c i
    else
      match x.launch, x.freeImg with
      | some l, some img =>
        let x := s.ctx c
        let old := r.saved.map (·.img)
        let s := s.setCtx c { x with imgUsed := img :: x.imgUsed.filter fun j => some j ≠ old }
        if r.st = RecSt.joining then s.joinEntry core slot c i img
        else
          match l.rules[r.rule]? with
          | none => s
          | some ru =>
            match r.replayAt with
            | some sn =>
              let s := s.acquire core c (some ru) 3 false
              s.enter core slot (sn.csrs x.leafDefaults) c i img (l.pcOf (if sn.inJoin then ru.join.getD 0 else ru.entry)) sn.inJoin
            | none =>
            let blank := (List.range (r.rankM1 + 1)).any fun j =>
              match r.hi[j]?, r.lo[j]? with | some h, some lo => h.toNat ≤ lo.toNat | _, _ => false
            if blank then
              let s := s.setLeafAt core slot { Leaf.idle with ctx := c, recIdx := i, img := img, mode := Mode.merging }
              s.endRec core slot c i 0 true
            else
              let s := s.acquire core c (some ru) 3 false
              s.enter core slot x.leafDefaults c i img (l.pcOf ru.entry) false
      | _, _ => s0

/-! ## Scheduling decisions -/

/-- Nothing of a launch that has been aborted or has failed is left but engine tickets: no leaf, no suspended or faulted record, no merge (R29, R369). -/
def State.boxesOver (s : State) (c : Nat) : Bool :=
  let x := s.ctx c
  !s.ctxActive c && x.suspended.isEmpty && x.faulted.isEmpty && !(x.recs.any fun e => e.2.st = RecSt.joining && !e.2.mergeDone)

/-- A bound context is ready: RUNNING with a launch in progress that waits for more than engine tickets (R369). -/
def State.ctxReady (s : State) (c : Nat) : Bool :=
  let x := s.ctx c
  x.st = CtxSt.running && (match x.launch with
    | some l => !l.ended && !(l.dead && s.boxesOver c)
    | none => false)

/-- Contexts bound to a node that may hold it (R370). -/
def State.candidates (s : State) (node : Nat) : List Nat :=
  ((s.ctxs.filter fun e => e.2.node = node && e.2.st ≠ CtxSt.free).map (·.1)).filter fun c =>
    s.ctxReady c && 0 < (s.ctx c).budget

/-- The candidate with the earliest deadline; equal deadlines go to the holder, then to the lower id (R370). -/
def State.bestOf (s : State) (node : Nat) : Option Nat :=
  (s.candidates node).foldl (fun b c =>
    match b with
    | none => some c
    | some d =>
      let better := (s.ctx c).deadline < (s.ctx d).deadline
        || ((s.ctx c).deadline = (s.ctx d).deadline && tfind s.holders node = some c)
      if better then some c else b) none

/-- A launch of a cohort rule keeps its leaves resident together (R375). -/
def Ctx.cohort (x : Ctx) : Bool :=
  match x.launch, x.record 0 with
  | some l, some r => ((l.rules[r.rule]?).map (·.cohort)).getD false
  | _, _ => false

/-- Starts every SUSPENDED and READY record of a cohort at once, before any JOINING one takes a slot (R375). -/
def State.startAll (s : State) (c : Nat) : State :=
  let js := (s.ctx c).joining
  let s := s.setCtx c { s.ctx c with joining := [] }
  let slots := ((s.ctxCores c).map fun core => (List.range (coreSlots core)).map fun k => (core, k)).flatten
  let s := slots.foldl (fun s (core, k) =>
    match s.fillPick core k with
    | some (d, i) => if d = c then s.startRec core k c i else s
    | none => s) s
  if (s.ctx c).dead then s else s.setCtx c { s.ctx c with joining := js ++ (s.ctx c).joining }

/-- No SUSPENDED or READY record of a launch that goes on is left to be started (R375). -/
def Ctx.allStarted (x : Ctx) : Bool := x.dead || (x.suspended.isEmpty && x.ready.isEmpty && x.deques.all fun e => e.2.isEmpty)

/-- Records that wait to be started, resumed or joined and that no core the context may use qualifies for fault NO_FEATURE_CORE (R37): as with RECORD_BAD the launch ends with that cause, and they are discarded (DEDUCED, log 59). -/
def State.featureCheck (s : State) (c : Nat) : State :=
  let x := s.ctx c
  let lost := (x.recs.filter fun (i, r) => (r.st = RecSt.ready || x.joining.contains i || (r.st = RecSt.suspended && (tfind x.faulted i).isNone))
    && !(s.ctxCores c).any fun k => s.fits c i k).map (·.1)
  if lost.isEmpty then s else lost.foldl (fun s i => s.dropRec c i) (s.failLaunch c none (some .noFeatureCore))

/-- A merge is complete (R161, R162): the parent has its views, the children's records are freed, and the leaf that completed the pair goes on, or the parent waits for the Nest, where no core may be left that qualifies (R37). -/
def State.mergeEnd (s : State) (c i : Nat) (l : Launch) (f : Flags) : State :=
  let s := s.refresh c i
  let x := s.ctx c
  match x.record i with
  | none => s
  | some r =>
    let kid (e : Nat) : Bool := match r.children with
      | some (a, b) => (!a.gone && a.idx = e) || (!b.gone && b.idx = e)
      | none => false
    let r := { r with sticky := r.sticky ||| f, mergeDone := true, children := none }
    let x := { x with recs := x.recs.filter fun e => e.1 = 0 || !kid e.1 }
    let s := (s.setCtx c x).setRec c i r
    let L := s.leafAt r.core r.slot
    let here := L.mode = Mode.merging && L.ctx = c && L.recIdx = i
    let img := r.img.getD 0
    if l.dead then
      let y := s.ctx c
      let s := s.setCtx c { y with recs := if i = 0 then y.recs else terase y.recs i, imgUsed := y.imgUsed.filter (· ≠ img) }
      if here then s.setLeafAt r.core r.slot Leaf.idle else s
    else if here then
      (s.setRec c i { r with img := none }).joinEntry r.core r.slot c i img
    else
      let y := s.ctx c
      let s := (s.setCtx c { y with joining := y.joining ++ [i], imgUsed := y.imgUsed.filter (· ≠ img) }).setRec c i { r with img := none }
      if s.holders.any fun e => e.2 = c then s.featureCheck c else s

/-- The Jigsaw units merge a completed pair (R152, R161, R385, R386): L ⊕ R by side, then P ⊕ that. -/
def State.jigsaw (s : State) (c i : Nat) : State :=
  let x := s.ctx c
  match x.launch, x.record i with
  | some l, some r =>
    if r.st ≠ RecSt.joining || r.mergeDone || (tfind x.faulted i).isSome || x.st = CtxSt.draining then s
    else
      let opOf (n : Nat) : Nat := ((l.rules[r.rule]?).map fun ru => ru.opOf n).getD 0
      let (a, b) := r.children.getD (⟨0, true⟩, ⟨0, true⟩)
      let s := s.setCtx c { x with recs := tset x.recs i { r with chunks := [] } }
      match mergeViews (coreDie r.core) c i opOf (x.childViews a) (x.childViews b) r.pre s with
      | .ok (.ok f) s' => s'.mergeEnd c i l f
      | .ok (.error (k, t)) s' => s'.mergeFault c i (k / 2 ^ 22) t
      | .error _ s' => s'
  | _, _ => s

/-- Decide (R370, R375): a cohort is started only when every SUSPENDED and READY record of it is in the same decision. -/
def State.decide (s : State) (node : Nat) : State :=
  let s := match tfind s.holders node with
    | some h => if !s.ctxReady h && !s.ctxActive h && (s.ctx h).stop.isNone then { s with holders := terase s.holders node } else s
    | none => s
  match s.bestOf node with
  | none => s
  | some b =>
    match tfind s.holders node with
    | some h => if b = h then s else s.pendStop h Stop.preempt
    | none =>
      let s := { s with holders := tset s.holders node b }
      let s := s.readReady b
      let s := s.setCtx b (s.ctx b).restoreReady
      let s := (s.refreshAll b).featureCheck b
      let s := (s.ctx b).deques.foldl (fun s (k, _) => s.occSet (occNest (coreDie k)) b) s
      if (s.ctx b).cohort then
        let t := s.startAll b
        if (t.ctx b).allStarted then t
        else
          let s := s.saveReady b
          let y := s.ctx b
          let s := { s.setCtx b { y with st := CtxSt.stopped } with holders := terase s.holders node }
          s.postNotice (s.ctxDie b) { word := noticeWord .cohortSpace 2 b 0 0 0, pos := 0, frec := 0, event := none }
      else s

end Sys2Proof.Machine
end

