-- ==== Sys2Proof/Machine/Box.lean ====
section
/-! DEFINITION. The terminals (R150-R160), ports and views (R167, R169) and writer capabilities (R173, R174). -/

namespace Sys2Proof.Machine

/-- What a terminal acts on: the leaf's core and slot, its context, and the record, rule and launch of its box. -/
structure BoxView where
  core : Nat
  slot : Nat
  c : Nat
  r : Rec
  ru : Rule
  l : Launch
  deriving DecidableEq, Repr

/-- The box of the executing leaf; a die control core holds none (log 24). -/
def State.boxView (s : State) : Option BoxView :=
  match s.cur with
  | .dcc _ => none
  | .leaf core slot =>
    let x := s.myCtx
    match x.record s.leaf.recIdx, x.launch with
    | some r, some l => (l.rules[r.rule]?).map fun ru => ⟨core, slot, s.leaf.ctx, r, ru, l⟩
    | _, _ => none

/-- A terminal or port instruction: `none` is what an agent without a box does. -/
def boxStep (x : Args) (none : M Unit) (m : BoxView → M Unit) (s : State) : Host.Outcome State Fault Refusal :=
  guardedStep x (match s.boxView with | some b => m b | .none => none) s

/-- The axis operand of `split`, `fit` and `walk` (Table 5-1). -/
def axisOf (x : Args) : Fin 4 := Fin.ofNat 4 (field x.imm.toNat 0 8)

/-- Grains of a box on an axis (R17). -/
def BoxView.grains (b : BoxView) (j : Fin 4) : Nat :=
  let g := b.ru.grain[j]
  (b.r.hi[j].toNat - b.r.lo[j].toNat + g - 1) / g

/-! ## What every end waits for -/

/-- An engine job of core `jobCore` writes into the scratch allocation of a leaf (R51, R158): what it wrote to the allocation of the leaf that issued it follows that leaf. -/
def Job.hitsScratch (j : Job) (jobCore core slot ctx entry : Nat) : Bool :=
  let own := scrNamed jobCore (j.slot * 0x40000)
  let mine := scrNamed core (slot * 0x40000)
  let hits (lo : Nat) : Bool := j.writes.any fun (a, b) => a < b && a < lo + 0x40000 && lo < b
  j.ctx = ctx && ((j.entry = entry && hits own) || (mine ≠ own && hits mine))

/-- Copy tickets that write into the leaf's scratch allocation have not drained (R158). -/
def State.scratchBusy (s : State) (core slot : Nat) : Bool :=
  let L := s.leafAt core slot
  s.cores.any fun (k, x) => x.jobs.any fun e => e.2.hitsScratch k core slot L.ctx L.entry

/-- The leaf holds a ring endpoint or has declared a ring (R153, R227). -/
def State.holdsRing (s : State) : Bool :=
  let L := s.leaf
  s.cores.any fun (_, x) => x.rings.any fun r => r.ctx = L.ctx && (r.declarer = L.entry || r.ends.any (·.1 = L.entry))

/-- Another leaf's endpoint is still attached to a ring that the leaf declared (R227). -/
def State.ringAwaited (s : State) (c : Nat) (L : Leaf) : Bool :=
  s.cores.any fun (_, x) => x.rings.any fun r => r.ctx = c && r.declarer = L.entry && r.ends.any (·.1 ≠ L.entry)

/-- The first step of EndBox (R158, R227): copies into the allocation have drained, the matrix jobs are complete, for every terminal but `abort` (R277), no other endpoint is attached to a ring that the leaf declared; then its endpoints detach and the rings it declared are freed. The waits come before the committing step, so a leaf that is suspended in one has detached and poisoned nothing (R110, R150; DEDUCED, log 61). -/
def waitLocal (b : BoxView) (abnormal : Bool) (mx : Bool := true) : M Unit := do
  let s ← get
  if s.scratchBusy b.core b.slot then waitHere
  else do
    if mx then mxSettle none else pure ()
    let s ← get
    if s.ringAwaited b.c s.leaf then waitHere
    else upd fun s => s.detachRings b.c s.leaf.entry abnormal

/-- A reply reservation of the leaf is not filled (R150). -/
def Leaf.repliesOpen (L : Leaf) : Bool := L.q.toList.any fun l => l.any fun e => e.value.isNone

/-! ## split and fit -/

/-- The midpoint of the canonical split (R18). -/
def canonicalMid (lo hi g : Nat) : Nat := lo + 2 ^ ilog2 ((hi - lo + g - 1) / g - 1) * g

/-- Footprint of a box (R154). -/
def BoxView.footprint (b : BoxView) : Nat :=
  b.ru.scratch + (b.ru.ports.map fun p =>
    p.esize * ((List.range 4).map fun j => if p.axmask.testBit j then
      (b.r.hi[j]?.getD 0).toNat - (b.r.lo[j]?.getD 0).toNat else 1).foldl (· * ·) 1).foldl (· + ·) 0

/-- The fit budget (R154). -/
def BoxView.budget (b : BoxView) : Nat := if b.ru.budget = 0 then Config.fitBudget else b.ru.budget

/-- IdleDemand (R155). -/
def State.idleDemand (s : State) (b : BoxView) : Bool :=
  let x := s.ctx b.c
  ((s.ctxCores b.c).any fun k => s.qualifies b.ru.onString b.r.feat k && (s.freeSlot k).isSome)
    && !(x.recs.any fun e => e.2.st = RecSt.ready)

/-- Some core of the partition can take a right child (R165). -/
def State.canTake (s : State) (b : BoxView) : Bool :=
  (s.ctxCores b.c).any fun k => s.qualifies b.ru.onString b.r.feat k

/-- The slot where a cohort's right child starts: the first free qualifying one in Fill's order from the splitting core, while the context has a free image slot for it (R368, R375). -/
def State.cohortSlot (s : State) (b : BoxView) : Option (Nat × Nat) :=
  let ok := s.ctxCores b.c
  ((b.core :: (fillGroups (s.ctx b.c).node b.core).flatten).filter fun k =>
    ok.contains k && s.qualifies b.ru.onString b.r.feat k && (s.ctx b.c).freeImg.isSome).findSome? fun k => (s.freeSlot k).map fun i => (k, i)

/-- Two free records (R150, R164). -/
def State.poolPair (s : State) (c : Nat) : Option (Nat × Nat) :=
  match (s.ctx c).freeRecs 2 with
  | i :: j :: _ => some (i, j)
  | _ => none

/-- The committing step of a split (R25, R150, R371): the record becomes the parent, the right child is pushed or, in a cohort, started, the left child goes on at a clean entry, or is pushed too where a stop is pending. The splitting leaf then ends: its DROP_MAG joins the context's total, and the left child starts as any READY record does, with the CSR defaults and no control taint (DESIGN CHOICE, log 60). -/
def State.splitBox (s : State) (b : BoxView) (j : Fin 4) (li ri : Nat) (cohort : Option (Nat × Nat)) : State :=
  let L := s.leaf
  let s := (s.keepOwn b.c L.entry).release b.core b.c (some b.ru) 3 false
  let mid := BitVec.ofNat 32 (canonicalMid b.r.lo[j].toNat b.r.hi[j].toNat b.ru.grain[j])
  let x := s.ctx b.c
  let s := if x.stop.isSome then s.setCtx b.c { x with drop := x.drop + L.dropMag } else s
  let x := s.ctx b.c
  let r := (x.record L.recIdx).getD b.r
  let par := { r with st := RecSt.waiting, pend := 2, sticky := r.sticky ||| L.flags, pre := r.chunks, chunks := [], snap := none
                      children := some (⟨li, false⟩, ⟨ri, false⟩) }
  let left := Rec.fresh r.lo (r.hi.set j mid) r.rule L.recIdx r.rankM1 r.feat false r.replay (x.viewsAddr li)
  let right := Rec.fresh (r.lo.set j mid) r.hi r.rule L.recIdx r.rankM1 r.feat true r.replay (x.viewsAddr ri)
  let s := ((s.setRec b.c L.recIdx par).setRec b.c li left).setRec b.c ri right
  let x := s.ctx b.c
  let csr := { L with flags := 0 }
  let push (x : Ctx) (i : Nat) : Ctx := { x with deques := tset x.deques b.core (i :: tget [] x.deques b.core) }
  let s := s.occSet (occNest (coreDie b.core)) b.c
  if x.stop.isSome then (s.setCtx b.c (push (push x ri) li)).freeLeaf b.core b.slot
  else
    let s := match cohort with
      | some _ => s
      | none => s.setCtx b.c (push x ri)
    let s := (s.enter b.core b.slot csr b.c li L.img (b.l.pcOf b.ru.entry) false)
    let s := match (s.ctx b.c).record li with | some r => s.setRec b.c li r | none => s
    match cohort with
    | some (k, i) => s.startRec k i b.c ri
    | none => s

/-- A terminal of a launch that has been aborted or has failed ends the box (R29); any other does what `m` says. -/
def orEnd (b : BoxView) (m : M Unit) : M Unit :=
  if b.l.dead then do
    waitLocal b true
    upd fun s => s.endBox b.core b.slot false false
  else m

/-- A terminal that falls through to the next word (R153, R156): it waits for the leaf's matrix jobs, and takes a deferred fault, as every terminal but `abort` does (R277, Table 1-3). -/
def fallThrough : M Unit := do
  mxSettle none
  updLeaf fun L => ({ L with fitting := none } : Leaf).advance

/-- A `fit` that waits keeps what it has decided, since it reads IdleDemand once (R155); one that is suspended in its wait is issued anew. -/
def keepDecision (d : Bool) (m : M Unit) : M Unit := fun s =>
  match m s with
  | .error .wait s' => .error .wait (s'.setLeaf { s'.leaf with fitting := some d })
  | r => r

/-- The completion of a box terminal after which the leaf goes on with its registers is a stop point (R371). -/
def State.terminalStop (s : State) (b : BoxView) : State :=
  if (s.ctx b.c).stop.isSome && s.canSuspend b.core b.slot then s.stopLeaf b.core b.slot s.leaf.pc else s

/-- `split j` after its first checks (R29, R150, R165, R375); `free` is a `fit` on a free axis, which declines where `split` faults. -/
def splitNow (b : BoxView) (j : Fin 4) (free : Bool) : M Unit := do
  let s ← get
  orEnd b <| match s.poolPair b.c with
  | none => if free then fallThrough else fail .boxPoolEmpty
  | some (li, ri) =>
    if !s.canTake b then fail .noFeatureCore
    else
      let cohort := if b.ru.cohort then s.cohortSlot b else none
      if b.ru.cohort && cohort.isNone then (if free then fallThrough else fail .cohortSpace)
      else do
        if s.leaf.repliesOpen then waitHere else pure ()
        waitLocal b false
        upd fun s => s.splitBox b j li ri cohort

/-- `split` (R150). -/
def execSplit (x : Args) (s : State) : Host.Outcome State Fault Refusal :=
  boxStep x (fail .boxAxis) (fun b =>
    let j := axisOf x
    if b.r.rankM1 < j.val then fail .boxAxis
    else if s.leaf.inJoin then fail .joinTerm
    else if b.r.walk then fail .walkConflict
    else if b.grains j ≤ 1 then fail .boxUnsplit
    else splitNow b j false) s

/-- What a `fit` on a free axis decides, once: a leaf with a ring endpoint and a pool without a pair decline, and otherwise a box over its budget or an idle core splits (R153, R154, R155). -/
def State.fitSplits (s : State) (b : BoxView) : Bool :=
  match s.leaf.fitting with
  | some d => d
  | none => !s.holdsRing && (s.poolPair b.c).isSome && (b.budget < b.footprint || s.idleDemand b)

/-- `fit` (R153). -/
def execFit (x : Args) (s : State) : Host.Outcome State Fault Refusal :=
  boxStep x (fail .boxAxis) (fun b =>
    let j := axisOf x
    if b.r.rankM1 < j.val then fail .boxAxis
    else if s.leaf.inJoin then fail .joinTerm
    else orEnd b <|
    if b.r.walk || b.grains j ≤ 1 then fallThrough
    else if b.ru.red = some j.val then splitNow b j false
    else keepDecision (s.fitSplits b) (if s.fitSplits b then splitNow b j true else fallThrough)) s

/-! ## walk, done, prune, abort -/

/-- `walk` (R156). It is a terminal of Table 1-3, so one that acts in a called routine discards the call stack (R132, Table 5-4), which its own pseudocode does not list; a re-entry, which falls through, keeps it (DEDUCED, log 66). Both wait for the leaf's matrix jobs (R277), and the completion of one that acts is a stop point (R371). -/
def execWalk (x : Args) (s : State) : Host.Outcome State Fault Refusal :=
  boxStep x (fail .boxAxis) (fun b =>
    let j := axisOf x
    if b.r.rankM1 < j.val then fail .boxAxis
    else if s.leaf.inJoin then fail .joinTerm
    else if b.r.walk && b.r.waxis ≠ j.val then fail .walkConflict
    else orEnd b <|
    if b.r.walk then fallThrough
    else do
      mxSettle none
      upd fun s => s.setRec b.c s.leaf.recIdx { b.r with walk := true, waxis := j.val }
      updLeaf fun L => { L with calls := [] }.advance
      upd fun s => s.terminalStop b) s

/-- The next grain of a walk (R157, R371): every register kept, the PC at the rule's entry; the completion of a terminal is a stop point. -/
def State.nextGrain (s : State) (b : BoxView) (lo : BitVec 32) : State :=
  let ax := Fin.ofNat 4 b.r.waxis
  let r := ((s.ctx b.c).record s.leaf.recIdx).getD b.r
  let s := s.setRec b.c s.leaf.recIdx { r with lo := r.lo.set ax lo }
  (s.setLeaf { s.leaf with pc := b.l.pcOf b.ru.entry, calls := [] }).terminalStop b

/-- `done` (R157). After an abort or a failure a leaf ends at its next terminal (R29). -/
def execDone (x : Args) (s : State) : Host.Outcome State Fault Refusal :=
  boxStep x (updLeaf Leaf.advance) (fun b => do
    let ax := Fin.ofNat 4 b.r.waxis
    let next := b.r.lo[ax].toNat + b.ru.grain[ax]
    if b.r.walk && !s.leaf.inJoin && !b.l.dead && next < b.r.hi[ax].toNat then do
      mxSettle none
      upd fun s => s.nextGrain b (BitVec.ofNat 32 next)
    else do
      waitLocal b b.l.dead
      upd fun s => s.endBox b.core b.slot false false) s

/-- `prune` (R159). -/
def execPrune (x : Args) (s : State) : Host.Outcome State Fault Refusal :=
  boxStep x (updLeaf Leaf.advance) (fun b => do
    waitLocal b b.l.dead
    upd fun s => s.endBox b.core b.slot true false) s

/-- `prune.mag` (R159): sA joins DROP_MAG, and its taint the context's total. -/
def execPruneMag (x : Args) (s : State) : Host.Outcome State Fault Refusal :=
  boxStep x (updLeaf Leaf.advance) (fun b => do
    waitLocal b b.l.dead
    let (a, t) := srcOf x s false x.a
    updLeaf fun L => { L with dropMag := L.dropMag + BitVec.ofNat 64 a }
    upd fun s => s.endBox b.core b.slot true t) s

/-- `abort` (R160, R29): the box ends failed; the first code stands. -/
def execAbort (x : Args) (s : State) : Host.Outcome State Fault Refusal :=
  boxStep x (updLeaf Leaf.advance) (fun b => do
    waitLocal b true false
    upd fun s =>
      let (s, _) := s.parkJobs b.core s.leaf
      let s := s.setRec b.c s.leaf.recIdx { (((s.ctx b.c).record s.leaf.recIdx).getD b.r) with st := RecSt.failed }
      let s := s.failLaunch b.c (some (field x.imm.toNat 0 16)) none
      s.endBox b.core b.slot false false) s

/-! ## Ports -/

/-- The port operand n of an instruction with a modifier byte (Table 5-1). -/
def portNo (x : Args) : Nat := field x.imm.toNat 40 4

/-- An instruction that names a port: PORT_UNDEF past the rule's port count (R167). -/
def portStep (x : Args) (m : BoxView → Port → M Unit) (s : State) : Host.Outcome State Fault Refusal :=
  boxStep x (fail .portUndef) (fun b =>
    match b.ru.ports[portNo x]? with
    | none => fail .portUndef
    | some p => m b p) s

/-- `port.cap` (R167): whether stores to the region of BASE are admitted; it never faults. -/
def portCap (c : Nat) (p : Port) : M Quad := do
  if p.kind = 3 then pure 1
  else do
    let s ← get
    match ← attempt (regionAt s.who c p.base) with
    | .ok (_, r) => pure (if r.testBit 8 || regCtx (field r 16 16) = some c then 1 else 0)
    | .error _ => pure 0

/-- The fields of Table 5-5 that are fixed for the launch. -/
def Port.fieldVal (p : Port) (f : Nat) : Quad :=
  match f with
  | 0 => BitVec.ofNat 64 p.base
  | 1 => BitVec.ofNat 64 (p.kind + 16 * (if p.kind = 2 then p.op else 0) + 256 * p.ety)
  | 2 => BitVec.ofNat 64 p.esize
  | 3 => p.str[0]
  | 4 => p.str[1]
  | 5 => p.str[2]
  | 6 => p.str[3]
  | _ => BitVec.ofNat 64 p.bytes

/-- `port` (R167). -/
def execPort (x : Args) (s : State) : Host.Outcome State Fault Refusal :=
  portStep x (fun b p => do
    let f := field x.imm.toNat 44 4
    if f = 8 then do
      let v ← portCap b.c p
      upd fun s => s.countTaint b.c 1
      updLeaf fun L => (L.putS x v true).advance
    else updLeaf fun L => (L.putS x (p.fieldVal f) false).advance) s

/-- First address of the view of a port (R168). -/
def viewBase (n : Nat) : Nat := 0xFFF000000000 + n * 2 ^ 31

/-- `vwaddr` (R169). The result carries A's own taint, as R116 has of every source; R169's "not tainted" is read as adding none of its own (DEDUCED, log 80). -/
def execVwaddr (x : Args) (s : State) : Host.Outcome State Fault Refusal :=
  portStep x (fun _ p => do
    let (a, t) := srcOf x s true x.a
    if p.kind ≠ 2 then fail .portKind
    else if a < p.base || p.base + p.bytes ≤ a then fail .portRange
    else updLeaf fun L => (L.putS x (BitVec.ofNat 64 (viewBase (portNo x) + (a - p.base))) t).advance) s

/-! ## Capabilities -/

/-- Tenant of a context: that of its key slot (R400, R407). -/
def State.tenantOf (s : State) (c : Nat) : Nat := tget 0 s.pkg.ks.tenants (s.ctx c).desc.slot

/-- The lines of the region that an entry describes: every page whose leaf PTE names it (R173, R327). -/
def State.regionPred (s : State) (c ridx : Nat) : Nat → Bool :=
  lineIn ((s.physOf c 0 (2 ^ 48)).filter fun (_, _, e) => field e 52 12 = ridx)

/-- Every store of a context to a region is cleaned and performed at its home (R173). -/
def State.releaseRegion (s : State) (c ridx : Nat) : State :=
  s.performCtx c (s.regionPred c ridx)

/-- L1 and RDC lines of a region invalidated in every core of the partition (R174). -/
def State.acquireRegion (s : State) (c ridx : Nat) : State :=
  let p := s.regionPred c ridx
  let ks := nodeCores (s.ctx c).node
  let s := ks.foldl (fun s k => s.dropWhere k p) s
  (List.range 4).foldl (fun s d => if ks.any (coreDie · = d) then s.dropRdc d p else s) s

/-- Index of a region entry by its address. -/
def State.ridxOf (s : State) (c regAddr : Nat) : Nat := (regAddr - (s.ctx c).desc.regtab) / 16

/-- Writes HOLDER and PENDING of a region entry (Table 11-4). -/
def setCapability (c regAddr holder pend : Nat) : M Unit := do
  let s ← get
  homeStore { whoNest s.curDie c with slot := 0 } tableAttr (regAddr + 2) (toBytes 2 holder ++ toBytes 2 pend) false

/-- `capgive` (R173): the step at the region's capability record, then the release. A receiver that is DRAINING already takes nothing, so the capability is back with the giver after the step, as at the kill of a receiver (R174; DEDUCED, log 37). -/
def execCapgive (x : Args) (s : State) : Host.Outcome State Fault Refusal :=
  portStep x (fun b p => do
    let rcv := (srcOf x s true x.a).1
    if p.kind = 2 || p.kind = 3 then fail .portKind
    else do
      let (regAddr, r) ← regionAt s.who b.c p.base
      if regCtx (field r 16 16) ≠ some b.c then fail .capAbsent
      else if 1023 < rcv || (s.ctx rcv).st = CtxSt.free || s.tenantOf rcv ≠ s.tenantOf b.c then fail .capTarget
      else do
        if rcv = b.c then pure ()
        else do
          setCapability b.c regAddr 0x8000 rcv
          upd fun s => { s with offers := tset s.offers regAddr b.c }
          if (s.ctx rcv).st = CtxSt.draining then upd fun s => s.clearOffers rcv else pure ()
        updLeaf fun L => { L with noReplay := true }
        upd fun s => s.releaseRegion b.c (s.ridxOf b.c regAddr)
        updLeaf Leaf.advance) s

/-- `captake` (R174): waits for the offer, becomes the holder, acquires. -/
def execCaptake (x : Args) (s : State) : Host.Outcome State Fault Refusal :=
  portStep x (fun b p => do
    if p.kind = 2 || p.kind = 3 then fail .portKind
    else do
      let (regAddr, r) ← regionAt s.who b.c p.base
      if regCtx (field r 16 16) = some b.c then pure ()
      else if regCtx (field r 32 16) = some b.c then do
        setCapability b.c regAddr b.c 0x8000
        upd fun s => { s with offers := terase s.offers regAddr }
      else waitHere
      updLeaf fun L => { L with noReplay := true }
      upd fun s => s.acquireRegion b.c (s.ridxOf b.c regAddr)
      updLeaf Leaf.advance) s

end Sys2Proof.Machine
end

