-- ==== Sys2Proof/Machine/Csr.lean ====
section
/-! DEFINITION. Control and status registers (R46, R134-R136, Tables 1-10, 4-8, 14-4) and the resolution of faulted records (R382, R387). -/

namespace Sys2Proof.Machine

/-! ## FRESOLVE -/

/-- FRESOLVE on a record: the state and the outcome of Table 14-5. -/
def State.fresolve (s : State) (c i : Nat) (isFail : Bool) : State × Nat :=
  let x := s.ctx c
  if x.st = CtxSt.draining then (s, 2)
  else match tfind x.faulted i with
  | none => (s, 1)
  | some f =>
    if isFail then
      let s := s.failLaunch c none (some f.cause)
      (x.faulted.foldl (fun s e => s.dropRec c e.1) s, 0)
    else
      let x := { x with faulted := terase x.faulted i }
      let s := s.setCtx c (if f.merge then x else { x with suspended := x.suspended ++ [i] })
      (if s.holders.any fun e => e.2 = c then s.featureCheck c else s, 0)

/-! ## Reading and writing -/

/-- A value the spec does not state, with the next number of the counter (log 3). -/
def takeFree : M Quad := do
  let s ← get
  set { s with free := s.free + 1 }
  pure (Config.freeValue s.free)

/-- Reading the register taints the destination and counts a tainting event (R135). -/
def csrTaints (n : Nat) : Bool := n = 0x003 || n = 0x011 || n = 0x012 || n = 0x014 || n = 0x018

/-- Registers that describe the box of a leaf and its core, which a die control core does not have (log 24). -/
def csrOfLeaf (n : Nat) : Bool :=
  n = 0x003 || n = 0x010 || n = 0x011 || n = 0x012 || n = 0x013 || n = 0x014 || n = 0x01C

/-- Those registers of a leaf (Table 1-10). -/
def State.csrLeafVal (s : State) (core slot n : Nat) : Quad :=
  let L := s.leaf
  match n with
  | 0x003 => s.myCtx.taintCnt
  | 0x010 => BitVec.ofNat 64 L.ctx
  | 0x011 => BitVec.ofNat 64 (s.feature core)
  | 0x012 => BitVec.ofNat 64 L.recIdx
  | 0x013 => BitVec.ofNat 64 (((s.myCtx.record L.recIdx).map (·.rule)).getD 0)
  | 0x014 => BitVec.ofNat 64 core
  | _ => BitVec.ofNat 64 (if coreIsString core then scrNamed core (slot * 0x40000) else 0xFFFE00000000)

/-- The privileged registers (Tables 4-8, 14-4). -/
def Die.csrPrivVal (x : Die) (d n : Nat) : Quad :=
  let c := x.dcc
  match n with
  | 0x800 => BitVec.ofNat 64 (c.sv.toNat + 2 * c.prevSv.toNat)
  | 0x801 => c.epc
  | 0x802 => c.cause
  | 0x803 => c.vec
  | 0x804 => c.frec
  | 0x805 => c.info
  | 0x806 => c.scratch
  | 0x807 => c.farea
  | 0x808 => BitVec.ofNat 64 c.noteEn.toNat
  | 0x809 => BitVec.ofNat 64 x.notices.length
  | 0x80A => BitVec.ofNat 64 c.fresolve
  | 0x80B => c.evarea
  | _ => BitVec.ofNat 64 d

/-- The value of a register at this issue (R135). -/
def csrRead (n : Nat) : M Quad := do
  let s ← get
  let L := s.leaf
  if n = 0x001 then pure (L.flags.setWidth 64)
  else if n = 0x002 then pure (L.trapEn.setWidth 64)
  else if n = 0x004 then pure L.dropMag
  else if n = 0x008 then pure (L.wrr.setWidth 64)
  else if n = 0x018 then pure s.cycle
  else if 0x040 ≤ n && n ≤ 0x04F then pure (L.thresh[(Fin.ofNat 16 (n - 0x040))])
  else match s.cur with
  | .dcc d => if csrOfLeaf n then takeFree else pure ((s.die d).csrPrivVal d n)
  | .leaf c k => pure (s.csrLeafVal c k n)

/-- Sets a privileged register; reserved bits are dropped (R8, R134). -/
def Dcc.csrSet (c : Dcc) (n : Nat) (v : Quad) : Dcc :=
  let low (k : Nat) : Quad := v &&& ~~~BitVec.ofNat 64 (2 ^ k - 1)
  match n with
  | 0x800 => { c with prevSv := v.toNat.testBit 1 }
  | 0x801 => { c with epc := v }
  | 0x802 => { c with cause := v &&& 0x7F }
  | 0x803 => { c with vec := low 4 }
  | 0x805 => { c with info := v }
  | 0x806 => { c with scratch := v }
  | 0x807 => { c with farea := low 7 }
  | 0x80B => { c with evarea := low 12 }
  | _ => c

/-- Sets NOTE_EN.EN of a die (Table 14-4). -/
def State.setNoteEn (s : State) (d : Nat) (en : Bool) : State :=
  let x := s.die d
  s.setDie d { x with dcc := { x.dcc with noteEn := en }, noteHeld := if en then [] else x.noteHeld }

/-- A write of FRESOLVE by a die control core: [34] ACT, [33:10] record, [9:0] context (Table 14-4). -/
def State.writeFresolve (s : State) (d : Nat) (v : Quad) : State :=
  let (s, r) := s.fresolve (field v.toNat 0 10) (field v.toNat 10 24) (v.toNat.testBit 34)
  s.setDcc d { (s.die d).dcc with fresolve := r }

/-- Writes a register. Setting NOTE_EN.EN makes the positions that popped notices held usable again (Table 14-4); a write of FRESOLVE resolves a fault (R382). -/
def csrWrite (n : Nat) (v : Quad) : M Unit := do
  let s ← get
  if n = 0x001 then updLeaf fun L => { L with flags := v.setWidth 6 }
  else if n = 0x002 then updLeaf fun L => { L with trapEn := v.setWidth 6 }
  else if n = 0x004 then updLeaf fun L => { L with dropMag := v }
  else if n = 0x008 then updLeaf fun L => { L with wrr := if v.setWidth 4 = (0 : BitVec 4) then 1 else v.setWidth 4 }
  else if 0x040 ≤ n && n ≤ 0x04F then
    updLeaf fun L => { L with thresh := L.thresh.set ((n - 0x040) % 16) v (Nat.mod_lt _ (by decide)) }
  else match s.cur with
  | .leaf _ _ => pure ()
  | .dcc d =>
    if n = 0x808 then upd fun s => s.setNoteEn d (v.toNat.testBit 0)
    else if n = 0x80A then upd fun s => s.writeFresolve d v
    else upd fun s => s.setDcc d ((s.die d).dcc.csrSet n v)

/-- A CSR instruction (R134, R135): `f old a` is the value written. A read of TAINT_CNT returns the count before the event that the read itself counts (DEDUCED, log 58). -/
def csrStep (x : Args) (wr : Option (Quad → Quad → Quad)) (s : State) : Host.Outcome State Fault Refusal :=
  let n := field x.imm.toNat 0 16
  if 0x800 ≤ n && !s.priv then finish (fail .privInsn) s
  else guardedStep x (do
    if n = 0x001 then mxSettle none else pure ()
    let s ← get
    let a := BitVec.ofNat 64 (srcOf x s false x.a).1
    let old ← csrRead n
    let t := csrTaints n
    match s.cur with
    | .leaf _ _ => if t then upd fun s => s.countTaint s.leaf.ctx 1 else pure ()
    | .dcc _ => pure ()
    match wr with
    | some f => csrWrite n (if n = 0x80A then a else f old a)
    | none => pure ()
    let at' := if wr.isSome then (srcOf x s false x.a).2 else false
    updLeaf fun L => (L.putS x old (t || at')).advance) s

/-- `csrrd` (R134). -/
def execCsrrd (x : Args) (s : State) : Host.Outcome State Fault Refusal := csrStep x none s

/-- `csrwr` (R134). -/
def execCsrwr (x : Args) (s : State) : Host.Outcome State Fault Refusal := csrStep x (some fun _ a => a) s

/-- `csrset` (R134). -/
def execCsrset (x : Args) (s : State) : Host.Outcome State Fault Refusal := csrStep x (some fun o a => o ||| a) s

/-- `csrclr` (R134). -/
def execCsrclr (x : Args) (s : State) : Host.Outcome State Fault Refusal := csrStep x (some fun o a => o &&& ~~~a) s

end Sys2Proof.Machine
end

