-- ==== Sys2Proof/Machine/System.lean ====
section
/-! DEFINITION. The context and partition instructions of the die control cores (R141-R146, R367, R370, Table 13-11). -/

namespace Sys2Proof.Machine

/-- Status values (Table 4-11). -/
inductive Status where
  | done | noCtx | badState | badNode | nodeBusy | badArg | killed | descFault
  deriving DecidableEq, Repr

/-- The number of a status. -/
def Status.code (r : Status) : Nat := r.ctorIdx

/-! ## The context descriptor -/

/-- The descriptor in 128 bytes, when its fields are in range and no reserved bit is set (Table 13-7). -/
def ctxDescOf (b : Nat) : Option CtxDesc :=
  let f (off n : Nat) : Nat := field b (8 * off) (8 * n)
  let ok := f 0x10 8 % 0x10000 = 0 && 3 ≤ f 0x18 4 && f 0x18 4 ≤ 2 ^ 24 && f 0x1C 1 ≠ 0 && f 0x1D 1 < 16 && f 0x1E 1 < 4
    && f 0x1F 1 = 0 && f 0x20 8 % 0x10000 = 0 && 1 ≤ f 0x28 4 && f 0x28 4 ≤ 4096 && f 0x2C 4 = 0 && f 0x38 8 % 512 = 0
    && f 0x48 1 < 64 && f 0x49 1 < 16 && f 0x4A 6 = 0 && f 0x58 8 % 0x10000 = 0 && f 0x60 32 = 0
  if !ok then none
  else some {
    root := f 0 8, regtab := f 8 8, poolVa := f 0x10 8, poolN := f 0x18 4, slot := f 0x1C 1, part := f 0x1D 1
    iclass := f 0x1E 1, imgVa := f 0x20 8, imgCnt := f 0x28 4, spillVa := f 0x30 8, spillLen := f 0x38 8, rdyVa := f 0x40 8
    dtrap := BitVec.ofNat 6 (f 0x48 1), dwrr := BitVec.ofNat 4 (f 0x49 1), thr := Vector.replicate 16 0, vtVa := f 0x58 8 }

/-- Reads the descriptor of a context and its default thresholds (R367). -/
def readDesc (die c : Nat) : M (Except Status CtxDesc) := do
  let s ← get
  match ← attempt (homeRead (whoDcc die) plainAttr (s.pkg.ctxTab + 128 * c) 128) with
  | .error _ => pure (.error .descFault)
  | .ok (bs, _) =>
    let b := ofBytes bs
    match ctxDescOf b with
    | none => pure (.error .badArg)
    | some d =>
      let thr := field b (8 * 0x50) 64
      if thr = 0 then pure (.ok { d with thr := Vector.replicate 16 0 })
      else do
        let old := (← get).ctx c
        updCtx c fun x => { x with desc := d }
        let r ← attempt (nestRead die c thr 128)
        updCtx c fun x => { x with desc := old.desc }
        match r with
        | .error _ => pure (.error .descFault)
        | .ok bs => pure (.ok { d with thr := Vector.ofFn fun i => BitVec.ofNat 64 (ofBytes ((bs.drop (8 * i.val)).take 8)) })

/-! ## Partitions -/

/-- No context in any state but FREE is bound to a node (R143). -/
def State.nodeIdle (s : State) (n : Nat) : Bool := !(s.ctxs.any fun e => e.2.st ≠ CtxSt.free && e.2.node = n)

/-- `partsplit` (Table 4-12). -/
def State.partSplit (s : State) (n : Nat) : State × Status :=
  if n = 0 || 127 < n then (s, .badArg)
  else if !s.parts.contains n || 64 ≤ n then (s, .badNode)
  else if !s.nodeIdle n then (s, .nodeBusy)
  else ({ s with parts := (s.parts.filter (· ≠ n)) ++ [2 * n, 2 * n + 1], holders := terase s.holders n }, .done)

/-- `partmerge` (Table 4-12). -/
def State.partMerge (s : State) (n : Nat) : State × Status :=
  if n = 0 || 127 < n then (s, .badArg)
  else if !(s.parts.contains (2 * n) && s.parts.contains (2 * n + 1)) then (s, .badNode)
  else if !(s.nodeIdle (2 * n) && s.nodeIdle (2 * n + 1)) then (s, .nodeBusy)
  else ({ s with
    parts := (s.parts.filter fun k => k ≠ 2 * n && k ≠ 2 * n + 1) ++ [n]
    holders := terase (terase s.holders (2 * n)) (2 * n + 1) }, .done)

/-! ## Contexts -/

/-- The image lines of a context go out of the L2 when its class is not a resident one (R49, R145, R373). -/
def State.evictImages (s : State) (c : Nat) : State :=
  let x := s.ctx c
  if x.desc.iclass < 2 then s
  else
    let iv := (x.imgUsed.map fun j => s.physOf c (x.imgAddr j) (x.imgAddr j + 0x90000)).flatten
    ((s.l2.filter fun e => e.2.dirty ≠ 0 && lineIn iv e.1)).foldl (fun s (line, l) =>
      (s.writeBack (granBase (line * 128) l.attr.g512) l.attr.g512 l.attr.anchor false).1) s

/-- A leaf held in place is saved as any other at a move (Table 13-11); a save that fails kills, as at a suspension (log 22). -/
def State.saveHeld (s : State) (c : Nat) : State :=
  (s.ctx c).recs.foldl (fun s (i, r) =>
    if r.held then
      let scr := s.takeScratch r.core r.slot
      let s := match r.saved with
        | some L => match attempt (writeScratch (s.dieFor c (coreDie r.core)) c L.img ((s.ctx c).scratchOf i) scr) s with
          | .ok (.ok _) s' => s'
          | .ok (.error _) s' | .error _ s' => s'.note (.kill c .faultDelivery r.core)
        | none => s
      let s := s.clearScratch r.core r.slot
      s.setRec c i { r with held := false, savedScr := scr }
    else s) s

/-- READY indices dealt to the cores of a node in ready-list order, one per core in turn (Table 13-11). -/
def dealReady (node : Nat) (ready : List (Nat × Nat)) : List (Nat × Nat) :=
  let cores := nodeCores node
  ready.zipIdx.map fun (e, k) => (cores.getD (k % cores.length) e.1, e.2)

/-- `partbind` (R145, R367, R370): a move to another node saves what was held in place, retires the rings and deals the READY indices anew (Table 13-11); any binding ends the restriction that the loss of a die link had put on the context (R398). Where a context that is RUNNING or DRAINING is bound to a node that is not current, both statuses of Table 4-12 apply, and it is BAD_STATE; a node that is not current is told before a descriptor that is bad or cannot be read, BAD_NODE before BAD_ARG or DESC_FAULT (DEDUCED, log 69). -/
def partBind (die c n : Nat) : M Status := do
  let s ← get
  let x := s.ctx c
  if 1023 < c || n = 0 || 127 < n then pure .badArg
  else if x.st = CtxSt.running || x.st = CtxSt.draining then pure .badState
  else if !s.parts.contains n then pure .badNode
  else match ← readDesc die c with
  | .error r => pure r
  | .ok d => do
    if x.st = CtxSt.stopped then upd fun s => s.evictImages c else pure ()
    if x.st ≠ CtxSt.free && x.node ≠ n then upd fun s => ((s.retireRings c).retireSaved c).saveHeld c else pure ()
    updCtx c fun y =>
      if x.st = CtxSt.free then { Ctx.free with st := CtxSt.bound, node := n, desc := d }
      else { y with st := CtxSt.bound, node := n, desc := d, alive := none, ready := if x.node = n then y.ready else dealReady n y.ready }
    pure .done

/-- `ctxstart` (R145, R146): ordered after the completion of every `ctxstop` of the context that waits; while it waits no notice trap comes in between, for it is over with its status only (R141; log 48). -/
def ctxStart (die c : Nat) : M Status := do
  let s ← get
  let x := s.ctx c
  if 1023 < c then pure .badArg
  else match x.st with
  | .free => pure .noCtx
  | .draining => pure .badState
  | .running =>
    if x.waiters.isEmpty then pure .done
    else do
      updLeaf fun L => { L with committed := some c }
      waitHere
  | _ => match ← readDesc die c with
    | .error r => pure r
    | .ok d => do
      updCtx c fun x => { x with st := CtxSt.running, desc := d }
      pure .done

/-- The status of a `ctxstop` that has been requested (R146): what its completion, or a kill, has left for the control core, which waits till then. -/
def stopResult (die : Nat) : M Status := do
  let c := ((← get).die die).dcc
  match c.stopRes with
  | none => waitHere
  | some r => do
    upd fun s => s.setDcc die { (s.die die).dcc with stopRes := none }
    pure (if r = Status.killed.code then .killed else .done)

/-- `ctxstop` (R145, R146): requests the stop, then waits; `asked` says that it has been requested. -/
def ctxStop (die c : Nat) (asked : Bool) : M Status := do
  let s ← get
  let x := s.ctx c
  if 1023 < c then pure .badArg
  else if asked then stopResult die
  else match x.st with
  | .free => pure .noCtx
  | .draining => pure .badState
  | .running => do
    upd fun s => s.setDcc die { (s.die die).dcc with stopRes := none }
    upd fun s => s.pendStop c Stop.request
    updCtx c fun x => { x with waiters := die :: x.waiters.filter (· ≠ die) }
    upd fun s => s.completeStop c
    updLeaf fun L => { L with committed := some c }
    stopResult die
  | _ => pure .done

/-- `ctxkill` (R145, R393). -/
def ctxKill (c : Nat) : M Status := do
  let s ← get
  if 1023 < c then pure .badArg
  else match (s.ctx c).st with
  | .free => pure .noCtx
  | .draining => pure .done
  | _ => do
    upd fun s => s.kill c .ctxKilled
    pure .done

/-- `ctxevict` (R145). -/
def ctxEvict (c : Nat) : M Status := do
  let s ← get
  if 1023 < c then pure .badArg
  else match (s.ctx c).st with
  | .free => pure .noCtx
  | .running | .draining => pure .badState
  | _ => do
    upd fun s => s.evictImages c
    pure .done

/-- `sliceset` (R144, R145). -/
def sliceSet (c deadline budget : Nat) : M Status := do
  let s ← get
  if 1023 < c || budget = 0 || 2 ^ 40 ≤ budget then pure .badArg
  else match (s.ctx c).st with
  | .free => pure .noCtx
  | .draining => pure .badState
  | _ => do
    updCtx c fun x => { x with deadline := deadline, budget := budget }
    pure .done

/-! ## The instructions -/

/-- A context or partition instruction: its operands read, its status written to sD (R141, R144). -/
def sysStep (x : Args) (m : Nat → Nat → Nat → Nat → M Status) (s : State) : Host.Outcome State Fault Refusal :=
  privStep x (fun d => do
    let s ← get
    let (a, ta) := srcOf x s false x.a
    let (b, tb) := srcOf x s false x.b
    let (c, tc) := srcOf x s false x.c
    let r ← m d a b c
    updLeaf fun L => ({ L with committed := none }.putS x (BitVec.ofNat 64 r.code) (ta || tb || tc)).advance) s

/-- An operation that changes partitions. -/
def partOp (f : State → State × Status) : M Status := do
  let s ← get
  let (s, r) := f s
  set s
  pure r

/-- `ctxstop` (R145). -/
def execCtxstop (x : Args) (s : State) : Host.Outcome State Fault Refusal :=
  sysStep x (fun d a _ _ => ctxStop d a (s.leaf.committed = some a)) s

/-- `ctxstart` (R145). -/
def execCtxstart (x : Args) (s : State) : Host.Outcome State Fault Refusal := sysStep x (fun d a _ _ => ctxStart d a) s

/-- `ctxkill` (R145). -/
def execCtxkill (x : Args) (s : State) : Host.Outcome State Fault Refusal := sysStep x (fun _ a _ _ => ctxKill a) s

/-- `ctxevict` (R145). -/
def execCtxevict (x : Args) (s : State) : Host.Outcome State Fault Refusal := sysStep x (fun _ a _ _ => ctxEvict a) s

/-- `partsplit` (R145). -/
def execPartsplit (x : Args) (s : State) : Host.Outcome State Fault Refusal :=
  sysStep x (fun _ a _ _ => partOp (·.partSplit a)) s

/-- `partmerge` (R145). -/
def execPartmerge (x : Args) (s : State) : Host.Outcome State Fault Refusal :=
  sysStep x (fun _ a _ _ => partOp (·.partMerge a)) s

/-- `partbind` (R145). -/
def execPartbind (x : Args) (s : State) : Host.Outcome State Fault Refusal := sysStep x (fun d a b _ => partBind d a b) s

/-- `sliceset` (R145). -/
def execSliceset (x : Args) (s : State) : Host.Outcome State Fault Refusal := sysStep x (fun _ a b c => sliceSet a b c) s

end Sys2Proof.Machine
end

