-- ==== Sys2Proof/Machine/Ctrl.lean ====
section
/-! DEFINITION. The control space (R399, Table 15-1): die control blocks, queue registers (R361, R362), way masks (R318), access tables (R401, R402), format windows (R340, R342), translation invalidation (R325), the package control block, the key store (R407, R428, R429), KiteLink ports (R408), power registers (R416) and the host memory window (R404). -/

namespace Sys2Proof.Machine

/-! ## Registers of a target's access table -/

/-- Bits an access-table entry keeps (R401). -/
def atEntryMask : Quad := BitVec.ofNat 64 (2 ^ 63 + ones 39 13 + ones 0 24)

/-- The table of a target is locked (R402). -/
def State.atLocked (s : State) (target : Nat) : Bool := (tget 0 s.atab (target * 64 + 32)).toNat.testBit 63

/-- A write of ATCTL that is not refused (R402): LOCK stays once set; 1 in VVALID clears VVALID, VMASTER's claim and VCOUNT. -/
def State.atctl (s : State) (target : Nat) (v : Quad) : State :=
  let k := target * 64 + 32
  let c := (tget 0 s.atab k).toNat
  let lock := c.testBit 63 || v.toNat.testBit 63
  let low := if v.toNat.testBit 31 then field c 32 12 * 2 ^ 32 else c % 2 ^ 63
  { s with atab := tset s.atab k (BitVec.ofNat 64 (lock.toNat * 2 ^ 63 + low)) }

/-- Quad `off` of an access table: ATCTL at 0, the entries from 0x100 (R401). -/
def State.atRead (s : State) (target off : Nat) : Quad :=
  if off = 0 then tget 0 s.atab (target * 64 + 32)
  else if 0x100 ≤ off && off < 0x200 then tget 0 s.atab (target * 64 + (off - 0x100) / 8) else 0

/-- A write to an access table; entries of a locked one keep their values. -/
def State.atWrite (s : State) (target off : Nat) (v : Quad) : State :=
  if off = 0 then s.atctl target v
  else if 0x100 ≤ off && off < 0x200 && !s.atLocked target then
    { s with atab := tset s.atab (target * 64 + (off - 0x100) / 8) (v &&& atEntryMask) }
  else s

/-! ## Queues -/

/-- A queue at reset (Table 13-1). -/
def Queue.reset : Queue := { base := 0, ctl := 0, rdidx := 0, wridx := 0, inflight := 0 }

/-- A queue of a die. -/
def State.queue (s : State) (d q : Nat) : Queue := tget Queue.reset (s.die d).queues q

/-- Sets a queue of a die. -/
def State.setQueue (s : State) (d q : Nat) (x : Queue) : State := s.setDie d { s.die d with queues := tset (s.die d).queues q x }

/-- Packets a ring holds, 0 when LOG2N disables the queue (Table 13-2). -/
def Queue.size (x : Queue) : Nat := if field x.ctl.toNat 0 4 = 0 then 0 else 2 ^ field x.ctl.toNat 0 4

/-- The queue is enabled and has not halted. -/
def Queue.live (x : Queue) : Bool := x.ctl.toNat.testBit 31 && !x.ctl.toNat.testBit 30 && x.size ≠ 0

/-- Halt (R365): ERR and ECAUSE; a notice names the queue (Table 14-3). -/
def State.haltQueue (s : State) (d q : Nat) (c : Cause) : State :=
  let x := s.queue d q
  let keep := x.ctl &&& ~~~BitVec.ofNat 64 (ones 23 7)
  let s := s.setQueue d q { x with ctl := keep ||| BitVec.ofNat 64 (2 ^ 30 + causeCode c * 2 ^ 23) }
  s.postNotice d { word := noticeWord c 3 0 0 0 (d % 4 * 64 + q), pos := 0, frec := 0, event := none }

/-- WRIDX is below RDIDX or beyond the ring (R362). -/
def Queue.badIndex (x : Queue) : Bool := x.wridx < x.rdidx || x.rdidx + x.size < x.wridx

/-- A write of WRIDX (R362). -/
def State.writeWridx (s : State) (d q : Nat) (v : Quad) : State :=
  let x := { s.queue d q with wridx := v.toNat }
  let s := s.setQueue d q x
  if x.live && x.badIndex then s.haltQueue d q .launchBadPkt else s

/-- A write of QCTL (Table 13-2): 1 in ERR skips the packet that halted the queue. -/
def State.writeQctl (s : State) (d q : Nat) (v : Quad) : State :=
  let x := s.queue d q
  let rw := BitVec.ofNat 64 (ones 32 8 + 2 ^ 31 + ones 0 4)
  let skip := x.ctl.toNat.testBit 30 && v.toNat.testBit 30
  let hold := x.ctl &&& BitVec.ofNat 64 (ones 23 8)
  let hold := if skip then hold &&& ~~~BitVec.ofNat 64 (2 ^ 30) else hold
  s.setQueue d q { x with ctl := (v &&& rw) ||| hold, rdidx := if skip then (x.rdidx + 1) % 2 ^ 64 else x.rdidx }

/-! ## Format windows and translation invalidation -/

/-- First line of an aperture (Table 11-1). -/
def apertureBase (die sc win : Nat) : Nat := 0x8000000000000 + die * 2 ^ 49 + sc * 2 ^ 44 + win * 2 ^ 40

/-- A write to a window register (R342): every line of its aperture is dropped first. -/
def State.writeFwin (s : State) (die sc win reg : Nat) (v : Quad) : State :=
  let lo := apertureBase (die % 4) (sc % 32) (win % 16) / 128
  let mask : Quad := match reg with
    | 5 => BitVec.ofNat 64 (ones 32 3 + ones 0 24)
    | 7 => BitVec.ofNat 64 (ones 0 10)
    | _ => BitVec.allOnes 64
  let s := { s with l2 := s.l2.filter fun e => e.1 < lo || lo + 2 ^ 33 ≤ e.1 }
  s.setDie die { s.die die with fwin := tset (s.die die).fwin (sc % 32 * 128 + win % 16 * 8 + reg % 8) (v &&& mask) }

/-- Drops cached translations of the whole package (R325). -/
def State.dropXlat (s : State) (p : Nat → Bool) : State := { s with tlb := tmap (fun _ t => t.filter fun e => !p e.1) s.tlb }

/-- The translations, by their keys, that a write of the translation invalidate register names (R325). -/
def invalNames (v : Quad) (key : Nat) : Bool :=
  let x := v.toNat
  if x.testBit 11 then true
  else if x.testBit 10 then key / 2 ^ 32 = field x 0 10
  else key = field x 0 10 * 2 ^ 32 + field x 16 32

/-- A write of the translation invalidate register (R325): the accesses that used a named translation are performed, which only reductions in combining buffers still wait for (R205, R344); then every cache of the package drops it. -/
def State.writeInval (s : State) (v : Quad) : State :=
  let sent := (s.cores.map (·.1)).foldl (fun s k => s.sendEntries k fun e => invalNames v (tlbKey e.ctx e.va)) s
  sent.dropXlat (invalNames v)

/-! ## The key store -/

/-- The granule size of an address that no page of the requester names (log 25). -/
def State.gran512 (s : State) (pa : Nat) : Bool := (s.plainAt pa).g512

/-- The authoritative record of a granule (Table 15-3). -/
def State.recordOf (s : State) (pa : Nat) : BitVec 128 := (tfind s.anchors (pa / 512)).getD (s.sealRec (granBase pa true))

/-- A write of KS_RDATA (Table 15-3): the off-chip record, and the anchor record where there is one. Bits [127:107] are read only (Table 11-5). -/
def State.writeRecord (s : State) (pa : Nat) (v : BitVec 128) : State :=
  let ro := BitVec.ofNat 128 (ones 107 21)
  let r := (v &&& ~~~ro) ||| (s.recordOf pa &&& ro)
  let s := { s with
    seals := tset s.seals (pa / 512) r
    ueMarks := if 2 ≤ tget 0 s.ueMarks (pa / 512) then terase s.ueMarks (pa / 512) else s.ueMarks }
  if (tfind s.anchors (pa / 512)).isSome then { s with anchors := tset s.anchors (pa / 512) r } else s

/-- Sets the key store. -/
def State.setKs (s : State) (k : KeyStore) : State := { s with pkg := { s.pkg with ks := k } }

/-- LOAD (R407). -/
def State.ksLoad (s : State) : State :=
  let k := s.pkg.ks
  if k.sel = 0 || (tfind k.keys k.sel).isSome then s.setKs { k with err := true }
  else s.setKs { k with keys := tset k.keys k.sel k.key, key := 0 }

/-- A key slot loses its key (R338, Table 14-8): the write-backs of the dirty bytes of its granules find none, so the bytes are dropped and the granules quarantined. -/
def State.loseKey (s : State) (slot : Nat) : State :=
  let s := s.setKs { s.pkg.ks with keys := terase s.pkg.ks.keys slot }
  (s.l2.filter fun e => e.2.slot = slot && e.2.dirty ≠ 0).foldl (fun s (line, l) =>
    (s.writeBack (granBase (line * 128) l.attr.g512) l.attr.g512 l.attr.anchor false).1) s

/-- CLEAR (R338, R407). -/
def State.ksClear (s : State) : State :=
  let k := s.pkg.ks
  if k.sel = 0 then s.setKs { k with err := true } else s.loseKey k.sel

/-- RESEAL of one granule (R333, R407): verified under its record, rewritten under the new slot at GEN 0 and CTR 0 with the L2 bytes of a frozen granule merged in; the frozen write-back then proceeds, from CTR 0, with every line of the granule under the new slot, those that came in after the freeze too, and unpins them. False says that it failed. -/
def State.resealOne (s : State) (base : Nat) (g512 : Bool) (slot : Nat) : State × Bool :=
  let anchor := (tfind s.anchors (base / 512)).isSome
  match s.checkGranule base (recSlot (s.sealRec base)) g512 anchor with
  | .error _ => (s.quarantine base g512, false)
  | .ok (bytes, r) =>
    if (s.keyOf slot 0).isNone then (s, false)
    else
      let lines := s.l2.filter fun e => base / 128 ≤ e.1 && e.1 < (base + granSize g512) / 128 && e.2.frozen
      let cur := readBytes s.mem base (granSize g512)
      let data := (List.zip bytes cur).zipIdx.map fun (p, i) =>
        match tfind lines (base / 128 + i / 128) with
        | some l => if l.present.toNat.testBit (i % 128) then p.2 else p.1
        | none => p.1
      let t := recT r || lines.any fun e => e.2.taint ≠ 0
      let s := s.reseal base g512 data t slot 0 0
      if lines.isEmpty then (s, true)
      else
        let s := { s with l2 := tmap (fun k l =>
          if base / 128 ≤ k && k < (base + granSize g512) / 128 then { l with slot := slot, frozen := false } else l) s.l2 }
        ((s.writeBack base g512 anchor false).1, true)

/-- Granules of a range, 4 KiB or 512 bytes each by their size. -/
def State.granulesOf (s : State) : Nat → Nat → Nat → List (Nat × Bool)
  | 0, _, _ => []
  | fuel + 1, a, hi =>
    if hi ≤ a then []
    else
      let g := s.gran512 a
      (granBase a g, g) :: s.granulesOf fuel (granBase a g + granSize g) hi

/-- RESEAL (R407). -/
def State.ksReseal (s : State) : State :=
  let k := s.pkg.ks
  let gs := s.granulesOf (k.rlen / 512 + 1) k.rbase (k.rbase + k.rlen)
  let (s, bad) := gs.foldl (fun (s, bad) (b, g) =>
    let (s, ok) := s.resealOne b g k.newslot
    (s, bad || !ok)) (s, false)
  s.setKs { s.pkg.ks with err := s.pkg.ks.err || bad }

/-- A write of KS_CMD (R407, Table 15-3): the key store clears ERR and is busy with the command until it has performed it; one written meanwhile only sets ERR, which stands until the next command. -/
def State.ksCommand (s : State) (v : Quad) : State :=
  let k := s.pkg.ks
  let n := field v.toNat 0 3
  if k.busy ≠ 0 || n = 0 || 3 < n then s.setKs { k with err := true } else s.setKs { k with busy := n, err := false }

/-- The key store performs a command that has been written, and is busy no more. -/
def State.ksRun (s : State) (n : Nat) (f : State → State) : State :=
  if s.pkg.ks.busy = n then
    let s := f s
    s.setKs { s.pkg.ks with busy := 0 }
  else s

/-- A write of KS_TAMPER (R428, R429): in test mode, and with a command not in progress. -/
def State.ksTamper (s : State) (v : Quad) : State :=
  let x := v.toNat
  let pa := field x 0 52
  let k := s.pkg.ks
  let err := s.setKs { k with err := true }
  if !k.testMode then s
  else if k.busy ≠ 0 then err
  else match s.homeOf pa with
  | .lpddr _ _ _ | .cxl _ _ _ =>
    if field x 56 8 = 0 || field x 52 3 ≠ 0 then err
    else
      let g := s.gran512 pa
      let base := granBase pa g
      if !(s.dirtyLines base g).isEmpty then err
      else
        let lo := base / 128
        let hi := (base + granSize g) / 128
        let s := { s with l2 := s.l2.filter fun e => e.1 < lo || hi ≤ e.1 }
        let s := (List.range 4).foldl (fun s d => s.dropRdc d fun k => lo ≤ k && k < hi) s
        let mask := field x 56 8
        if x.testBit 55 then
          let flip (r : BitVec 128) : BitVec 128 := r ^^^ BitVec.ofNat 128 (mask <<< (8 * (pa % 8)))
          let s := { s with seals := tset s.seals (base / 512) (flip (s.sealRec base)) }
          match tfind s.anchors (base / 512) with
          | some a => { s with anchors := tset s.anchors (base / 512) (flip a) }
          | none => s
        else { s with dram := writeBytes s.dram pa [readByte s.dram pa ^^^ BitVec.ofNat 8 mask] }
  | _ => err

/-- Quad i of a number. -/
def quadOf (x i : Nat) : Quad := BitVec.ofNat 64 (field x (64 * i) 64)
/-- A number with quad i replaced. -/
def setQuad (x i : Nat) (v : Quad) : Nat := x - (field x (64 * i) 64 <<< (64 * i)) + (v.toNat <<< (64 * i))

/-- Reads a key store register (Table 15-3); TAG is given, as to the security firmware. -/
def State.ksRead (s : State) (off : Nat) : Quad :=
  let k := s.pkg.ks
  match off with
  | 0x00 => BitVec.ofNat 64 k.sel
  | 0x08 => BitVec.ofNat 64 (tget 0 k.tenants k.sel)
  | 0x18 => BitVec.ofNat 64 ((k.busy != 0).toNat + 2 * k.err.toNat)
  | 0x40 => BitVec.ofNat 64 k.rbase
  | 0x48 => BitVec.ofNat 64 k.rlen
  | 0x50 => BitVec.ofNat 64 k.newslot
  | 0x58 => BitVec.ofNat 64 k.raddr
  | 0x60 => quadOf (s.recordOf k.raddr).toNat 0
  | 0x68 => quadOf (s.recordOf k.raddr).toNat 1
  | _ => 0

/-- Writes a key store register. -/
def State.ksWrite (s : State) (off : Nat) (v : Quad) : State :=
  let k := s.pkg.ks
  let x := v.toNat
  match off with
  | 0x00 => s.setKs { k with sel := field x 0 8 }
  | 0x08 => s.setKs { k with tenants := tset k.tenants k.sel (field x 0 16) }
  | 0x10 => s.ksCommand v
  | 0x20 => s.setKs { k with key := BitVec.ofNat 256 (setQuad k.key.toNat 0 v) }
  | 0x28 => s.setKs { k with key := BitVec.ofNat 256 (setQuad k.key.toNat 1 v) }
  | 0x30 => s.setKs { k with key := BitVec.ofNat 256 (setQuad k.key.toNat 2 v) }
  | 0x38 => s.setKs { k with key := BitVec.ofNat 256 (setQuad k.key.toNat 3 v) }
  | 0x40 => s.setKs { k with rbase := x }
  | 0x48 => s.setKs { k with rlen := x }
  | 0x50 => s.setKs { k with newslot := field x 0 8 }
  | 0x58 => s.setKs { k with raddr := x }
  | 0x60 => s.writeRecord k.raddr (BitVec.ofNat 128 (setQuad (s.recordOf k.raddr).toNat 0 v))
  | 0x68 => s.writeRecord k.raddr (BitVec.ofNat 128 (setQuad (s.recordOf k.raddr).toNat 1 v))
  | 0x70 => s.ksTamper v
  | _ => s

/-! ## KiteLink ports, power, package registers -/

/-- A KiteLink port. -/
def Pkg.port (p : Pkg) (k : Nat) : KlPort := p.kl[k % 18]'(Nat.mod_lt _ (by decide))
/-- Sets a KiteLink port. -/
def State.setPort (s : State) (k : Nat) (x : KlPort) : State :=
  { s with pkg := { s.pkg with kl := s.pkg.kl.set (k % 18) x (Nat.mod_lt _ (by decide)) } }

/-- Reads a KiteLink port register (Table 15-5). -/
def KlPort.read (p : KlPort) (off : Nat) : Quad :=
  match off with
  | 0x00 => BitVec.ofNat 64 (p.up.toNat + 2 * p.conflict.toNat + p.peer * 2 ^ 8 + p.replays * 2 ^ 32)
  | 0x08 => BitVec.ofNat 64 p.enabled.toNat
  | 0x10 => p.route
  | _ => 0

/-- Writes a KiteLink port register; a retrain takes the port down until it has trained. -/
def KlPort.write (p : KlPort) (off : Nat) (v : Quad) : KlPort :=
  match off with
  | 0x08 =>
    let p := { p with enabled := v.toNat.testBit 0 }
    if v.toNat.testBit 1 then { p with up := false, conflict := false } else p
  | 0x10 => { p with route := BitVec.ofNat 64 (field v.toNat 0 32) }
  | _ => p

/-- Lowest boot stage of the four dies (R411). -/
def State.pkgStage (s : State) : Nat := ((List.range 4).map fun d => (s.die d).boot).foldl min 5

/-- Reads a quad of the package control block at offset `off` from P (Tables 15-1, 15-6). -/
def State.pkgRead (s : State) (off : Nat) : Quad :=
  let p := s.pkg
  if off = 0 then BitVec.ofNat 64 (p.index + 32 * p.indexValid.toNat + 256 * s.pkgStage)
  else if off = 0x100 then BitVec.ofNat 64 p.ctxTab
  else if 0xE00 ≤ off && off < 0x1000 then s.atRead tgtPkg (off - 0xE00)
  else if 0x1000 ≤ off && off < 0x1E00 then s.ksRead (off - 0x1000)
  else if 0x1E00 ≤ off && off < 0x2000 then s.atRead tgtKey (off - 0x1E00)
  else if 0x2000 ≤ off && off < 0x2000 + 64 * 18 then (p.port ((off - 0x2000) / 64)).read (off % 64)
  else if off = 0x3000 then BitVec.ofNat 64 p.hostCap
  else if off = 0x3008 then BitVec.ofNat 64 p.bmcCap
  else if off = 0x3010 then BitVec.ofNat 64 (p.thrStep + 256 * p.thrPower.toNat + 512 * p.thrTemp.toNat)
  else if off = 0x3018 then BitVec.ofNat 64 (p.thrCnt / 1250)
  else if 0x3800 ≤ off && off < 0x3880 then p.hostWin[(off - 0x3800) / 8 % 16]'(Nat.mod_lt _ (by decide))
  else if 0x40000000 ≤ off && off < 2 ^ 40 then BitVec.ofNat 64 (ofBytes (readBytes s.hostMem (off - 0x40000000) 8))
  else 0

/-- Writes a quad of the package control block. -/
def State.pkgWrite (s : State) (off : Nat) (v : Quad) : State :=
  let p := s.pkg
  let x := v.toNat
  if off = 0 then { s with pkg := { p with index := field x 0 5, indexValid := x.testBit 5 } }
  else if off = 0x100 then { s with pkg := { p with ctxTab := x - x % 4096 } }
  else if 0xE00 ≤ off && off < 0x1000 then s.atWrite tgtPkg (off - 0xE00) v
  else if 0x1000 ≤ off && off < 0x1E00 then s.ksWrite (off - 0x1000) v
  else if 0x1E00 ≤ off && off < 0x2000 then s.atWrite tgtKey (off - 0x1E00) v
  else if 0x2000 ≤ off && off < 0x2000 + 64 * 18 then
    s.setPort ((off - 0x2000) / 64) ((p.port ((off - 0x2000) / 64)).write (off % 64) v)
  else if off = 0x3000 then { s with pkg := { p with hostCap := field x 0 12 } }
  else if off = 0x3008 then { s with pkg := { p with bmcCap := field x 0 12 } }
  else if 0x3800 ≤ off && off < 0x3880 then
    { s with pkg := { p with hostWin := p.hostWin.set ((off - 0x3800) / 8 % 16) (BitVec.ofNat 64 (field x 0 8)) (Nat.mod_lt _ (by decide)) } }
  else if 0x40000000 ≤ off && off < 2 ^ 40 then { s with hostMem := writeBytes s.hostMem (off - 0x40000000) (toBytes 8 x) }
  else s

/-! ## Die control blocks -/

/-- Reads a quad of a die's control block at offset `off` from D (Table 15-1); the telemetry block is read apart (log 26). -/
def State.dieRead (s : State) (d off : Nat) : Quad :=
  let x := s.die d
  if off = 0 then BitVec.ofNat 64 (d + 16 * x.boot)
  else if 0x200 ≤ off && off < 0x280 then (x.wayMask[(off - 0x200) / 8 % 16]'(Nat.mod_lt _ (by decide))).setWidth 64
  else if 0x1000 ≤ off && off < 0x1200 then s.atRead (tgtDie d) (off - 0x1000)
  else if 0x10000 ≤ off && off < 0x10000 + 32 * 64 then
    let q := s.queue d ((off - 0x10000) / 32)
    match off % 32 with
    | 0 => BitVec.ofNat 64 q.base
    | 8 => q.ctl
    | 16 => BitVec.ofNat 64 q.rdidx
    | _ => BitVec.ofNat 64 q.wridx
  else if 0x20000 ≤ off && off < 0x40000 then
    let sc := (off - 0x20000) / 0x1000
    let o := off % 0x1000
    if o < 0x400 then tget 0 x.fwin (sc * 128 + o / 8)
    else if 0x800 ≤ o && o < 0xA00 then s.atRead (tgtString d sc) (o - 0x800) else 0
  else if 0x40000 ≤ off && off < 0x40000 + 0x200 * 32 then s.atRead (tgtL2 d ((off - 0x40000) / 0x200)) (off % 0x200)
  else if 0x50000 ≤ off && off < 0x50200 then s.atRead (tgtCxl d) (off - 0x50000)
  else if off = 0x51000 then x.cxl
  else 0

/-- Writes a quad of a die's control block. Bit [0] of the CXL port's status is set again only after the port has been retrained (R406). -/
def State.dieWrite (s : State) (d off : Nat) (v : Quad) : State :=
  let x := s.die d
  if off = 0x100 then s.writeInval v
  else if 0x200 ≤ off && off < 0x280 then
    s.setDie d { x with wayMask := x.wayMask.set ((off - 0x200) / 8 % 16) (v.setWidth 16) (Nat.mod_lt _ (by decide)) }
  else if 0x1000 ≤ off && off < 0x1200 then s.atWrite (tgtDie d) (off - 0x1000) v
  else if 0x10000 ≤ off && off < 0x10000 + 32 * 64 then
    let q := (off - 0x10000) / 32
    match off % 32 with
    | 0 => s.setQueue d q { s.queue d q with base := v.toNat - v.toNat % 4096 }
    | 8 => s.writeQctl d q v
    | 24 => s.writeWridx d q v
    | _ => s
  else if 0x20000 ≤ off && off < 0x40000 then
    let sc := (off - 0x20000) / 0x1000
    let o := off % 0x1000
    if o < 0x400 then s.writeFwin d sc (o / 64) (o / 8 % 8) v
    else if 0x800 ≤ o && o < 0xA00 then s.atWrite (tgtString d sc) (o - 0x800) v else s
  else if 0x40000 ≤ off && off < 0x40000 + 0x200 * 32 then s.atWrite (tgtL2 d ((off - 0x40000) / 0x200)) (off % 0x200) v
  else if 0x50000 ≤ off && off < 0x50200 then s.atWrite (tgtCxl d) (off - 0x50000) v
  else if off = 0x51000 then
    s.setDie d { x with cxl := (x.cxl &&& ~~~1#64) ||| (if x.cxlTrained then v &&& 1#64 else 0) }
  else s

/-! ## The control space as a whole -/

/-- First address of the control space. -/
def ctrlBase : Nat := 0x3000000000000

/-- Die block and offset of an address, or the package block (block 4). -/
def ctrlBlock (pa : Nat) : Nat × Nat := ((pa - ctrlBase) / 2 ^ 40, (pa - ctrlBase) % 2 ^ 40)

/-- The target that checks a request for a control-space address (R401): the unit whose registers it holds. -/
def ctrlTarget (pa : Nat) : Option Nat :=
  let (b, off) := ctrlBlock pa
  if b < 4 then
    if 0x20000 ≤ off && off < 0x40000 then some (tgtString b ((off - 0x20000) / 0x1000))
    else if 0x40000 ≤ off && off < 0x40000 + 0x200 * 32 then some (tgtL2 b ((off - 0x40000) / 0x200))
    else if 0x50000 ≤ off && off < 0x52000 then some (tgtCxl b)
    else some (tgtDie b)
  else if b = 4 then (if 0x1000 ≤ off && off < 0x2000 then some tgtKey else some tgtPkg)
  else none

/-- The access table that an address lies in, and the offset in it (Table 15-1). -/
def ctrlTable (pa : Nat) : Option (Nat × Nat) :=
  let (b, off) := ctrlBlock pa
  let tbl (lo t : Nat) : Option (Nat × Nat) := if lo ≤ off && off < lo + 0x200 then some (t, off - lo) else none
  if b < 4 then
    (tbl 0x1000 (tgtDie b)).or ((tbl 0x50000 (tgtCxl b)).or
      (if 0x20000 ≤ off && off < 0x40000 then
        (if 0x800 ≤ off % 0x1000 && off % 0x1000 < 0xA00 then some (tgtString b ((off - 0x20000) / 0x1000), off % 0x1000 - 0x800) else none)
      else if 0x40000 ≤ off && off < 0x40000 + 0x200 * 32 then some (tgtL2 b ((off - 0x40000) / 0x200), off % 0x200)
      else none))
  else if b = 4 then (tbl 0xE00 tgtPkg).or (tbl 0x1E00 tgtKey)
  else none

/-- Control block of a die, and of the package (Table 15-1). -/
def dieCtrl (d : Nat) : Nat := ctrlBase + d * 2 ^ 40
def pkgCtrl : Nat := ctrlBase + 4 * 2 ^ 40

/-- Address of the access table of a target. -/
def tableAddr (t : Nat) : Nat :=
  if t < 128 then dieCtrl (t / 32) + 0x40000 + 0x200 * (t % 32)
  else if t < 256 then dieCtrl ((t - 128) / 32) + 0x20800 + 0x1000 * (t % 32)
  else if t < 260 then dieCtrl (t - 256) + 0x50000
  else if t < 264 then dieCtrl (t - 260) + 0x1000
  else if t = tgtPkg then pkgCtrl + 0xE00 else pkgCtrl + 0x1E00

/-- A request of a master without a domain for a quad of the control space is admitted (R401, R402). The entries of a table decide over the registers of its target; over the table's own registers only LOCK does: once it is set, a write of an entry, or of 1 to LOCK, is refused (DEDUCED, log 62). -/
def State.ctrlAdmits (s : State) (id pa : Nat) (write : Option Quad) : Bool :=
  match ctrlTable pa with
  | some (t, off) => match write with
    | some v => !(s.atLocked t && (0x100 ≤ off || v.toNat.testBit 63))
    | none => true
  | none => match ctrlTarget pa with
    | some t => s.admits t id none write.isSome
    | none => true

/-- A refusal of such a request at its target (R402). -/
def State.ctrlRefuse (s : State) (id pa : Nat) : State :=
  match (ctrlTable pa).map (·.1) |>.or (ctrlTarget pa) with
  | some t => s.refuse t id
  | none => s

/-- A write at the register, admitted (R399). -/
def State.ctrlPut (s : State) (pa : Nat) (v : Quad) : State :=
  let (b, off) := ctrlBlock pa
  if b < 4 then s.dieWrite b off v else if b = 4 then s.pkgWrite off v else s

/-- The arithmetic clock in MHz (R415, R416). -/
def State.clockMhz (s : State) : Nat := 1250 * s.pkg.thrStep / 16

/-- What the telemetry block of a die holds (R415): its eight temperatures, its power, the arithmetic clock, the errors corrected and not of each structure class, its replays, the last boot failure and the last core named (0 where there is none). -/
def State.teleHeld (s : State) (d : Nat) : List Nat :=
  let t := (s.die d).tele
  t.temps.toList ++ [t.power, s.clockMhz] ++ (List.range 10).map (fun k => tget 0 t.corrected k)
    ++ (List.range 10).map (fun k => tget 0 t.uncorrected k)
    ++ [t.replays, (t.bootFail.map (· + 1)).getD 0, (t.errCore.map (· + 1)).getD 0]

/-- A quad of the telemetry block of a die. -/
def isTelemetry (pa : Nat) : Bool := (ctrlBlock pa).1 < 4 && 0x60000 ≤ (ctrlBlock pa).2 && (ctrlBlock pa).2 < 0x61000

/-- A read by a die control core (R399, R401, R415). -/
def ctrlRead (w : Who) (pa : Nat) : M Quad := do
  let s ← get
  if !s.ctrlAdmits w.id pa none then do
    upd fun s => s.ctrlRefuse w.id pa
    fail .xlatPerm
  else if isTelemetry pa then pure (Config.teleQuad ((ctrlBlock pa).2 - 0x60000) (s.teleHeld (ctrlBlock pa).1))
  else
    let (b, off) := ctrlBlock pa
    pure (if b < 4 then s.dieRead b off else if b = 4 then s.pkgRead off else 0)

/-- A write by a die control core (R399, R401, R402). -/
def ctrlWrite (w : Who) (pa : Nat) (v : Quad) : M Unit := do
  let s ← get
  if !s.ctrlAdmits w.id pa (some v) then do
    upd fun s => s.ctrlRefuse w.id pa
    fail .xlatPerm
  else upd fun s => s.ctrlPut pa v

/-- The window of the package block into the host's memory, which only the die control cores and the packet processors use (R404). -/
def inHostWindow (pa : Nat) : Bool := pkgCtrl + 0x40000000 ≤ pa

/-- A write from outside the dies (R399, R401-R404, R415): a host function's through BAR0 needs a module of the host link and an entry that admits it, and a refused one is counted; the window into the host's own memory is not for it; over I3C only BMC_CAP is written. -/
def State.ctrlBy (s : State) (pa : Nat) (v : Quad) : State :=
  match s.master with
  | .bmc => if pa = pkgCtrl + 0x3008 then s.ctrlPut pa v else s
  | .host fn =>
    let id := 3 * 512 + fn % 16
    if s.pkg.hostMods = 0 || !isControl pa || inHostWindow pa || pa % 8 ≠ 0 then s
    else if s.ctrlAdmits id pa (some v) then s.ctrlPut pa v else s.ctrlRefuse id pa

/-- A host read of the control space: it has no effect but to be counted where it is refused (R402). -/
def State.hostIoRead (s : State) (fn pa : Nat) : State :=
  let id := 3 * 512 + fn % 16
  if s.pkg.hostMods = 0 || !isControl pa || inHostWindow pa || pa % 8 ≠ 0 || s.ctrlAdmits id pa none then s else s.ctrlRefuse id pa

end Sys2Proof.Machine
end

