-- ==== Sys2Proof/Machine/Memory.lean ====
section
/-! DEFINITION. Scalar and vector loads and stores (R176-R191), plane accesses (R263), prefetch and cache operations (R192, R193). -/

namespace Sys2Proof.Machine

/-! ## Addresses and ordering -/

/-- EA := A + B (R177), with the taint of the address operands. -/
def eaOf (x : Args) (s : State) : Nat × Bool :=
  let (a, ta) := srcOf x s true x.a
  let (b, tb) := srcOf x s true x.b
  ((a + b) % 2 ^ 64, ta || tb)

/-- The `.all` bit of an ordering modifier byte (Table 6-1). -/
def modAll (x : Args) : Bool := x.imm.toNat.testBit 43

/-- The release that an ordering modifier asks for before the access (R181). -/
def ordBefore (x : Args) : M Unit := if (modOrd x).testBit 1 then doRelease (modScope x) (modAll x) else pure ()

/-- The acquire that an ordering modifier asks for after the access (R181). -/
def ordAfter (x : Args) : M Unit := if (modOrd x).testBit 0 then doAcquire (modScope x) (modAll x) else pure ()

/-! ## One element -/

/-- Reads n bytes of a checked element, a control register included. -/
def loadEl (a : Actor) (t : Target) (ea n : Nat) (na : Bool) : M (List Byte × Bool) :=
  atAddr ea (match t with
    | .ctl pa => do
      let q ← ctrlRead a.who pa
      pure (toBytes n q.toNat, false)
    | _ => loadAt a t n na)

/-- Stores the bytes of a checked element whose fills have been made, a control register included. -/
def storeEl (a : Actor) (t : Target) (ea : Nat) (bs : List Byte) (taint na : Bool) : M Unit :=
  atAddr ea (match t with
    | .ctl pa => ctrlWrite a.who pa (BitVec.ofNat 64 (ofBytes bs))
    | _ => storeAt a t ea bs taint na)

/-- `ld` (R186). -/
def execLd (x : Args) (s : State) : Host.Outcome State Fault Refusal :=
  guardedStep x (do
    let (ea, ta) := eaOf x s
    let n := etyBits x.ety / 8
    let t ← checkAccess (s.actorFor x) ea n .load
    let (bs, tm) ← loadEl (s.actorFor x) t ea n (noAlloc x)
    ordAfter x
    updLeaf fun L => (L.putS x (etyExt x.ety (ofBytes bs)) (tm || ta)).advance) s

/-- `st` (R186). -/
def execSt (x : Args) (s : State) : Host.Outcome State Fault Refusal :=
  guardedStep x (do
    let (ea, ta) := eaOf x s
    let (c, tc) := srcOf x s true x.c
    let n := etyBits x.ety / 8
    let t ← checkAccess (s.actorFor x) ea n .store
    ordBefore x
    atAddr ea (fillFor (s.actorFor x) t n (noAlloc x))
    storeEl (s.actorFor x) t ea (toBytes n c) (ta || tc || s.leaf.ctlT x.guard) (noAlloc x)
    updLeaf Leaf.advance) s

/-! ## Vector accesses -/

/-- A fault of element i reports its number (R190). -/
def atElem {α : Type} (i : Nat) (m : M α) : M α := do
  match ← attempt m with
  | .ok a => pure a
  | .error t => throw (.trap { t with elem := i })

/-- The checks of the elements of a vector access in increasing number. -/
def checkEach (hint : Nat) (els : List (Nat × Nat)) (size : Nat) (kind : Kind) : M (List (Nat × Nat × Target)) := do
  let mut out : List (Nat × Nat × Target) := []
  for (i, ea) in els do
    let s ← get
    let t ← atElem i (checkAccess { s.actor with hint := hint } ea size kind)
    out := out ++ [(i, ea, t)]
  pure out

/-- Checks every element of a vector access before any is performed (R190): (element, address) pairs to targets. A store gets backing for all the view chunks it allocates (R170), and none where an element fails. `hint` is the HINT of the instruction. -/
def checkAll (hint : Nat) (els : List (Nat × Nat)) (size : Nat) (kind : Kind) : M (List (Nat × Nat × Target)) := do
  let s ← get
  keepChunks s.actor.ctx (checkEach hint els size kind)

/-- Reads the checked elements in increasing number: (element, bytes, taint). -/
def loadAll (els : List (Nat × Nat × Target)) (size : Nat) (na : Bool) : M (Tbl (Nat × Bool)) := do
  let mut out : Tbl (Nat × Bool) := []
  for (i, ea, t) in els do
    let s ← get
    let (bs, tm) ← atElem i (loadEl s.actor t ea size na)
    out := out ++ [(i, ofBytes bs, tm)]
  pure out

/-- The dirty bytes that the executing core has of the line of a target are cleaned. -/
def State.cleanTarget (s : State) (t : Target) : State :=
  match t with
  | .mem tr => s.cleanLine s.who.core (tr.pa / 128)
  | _ => s

/-- Makes every fill that the stores need, and every read of a part of a byte at its home, so that what either finds wrong comes before the first store; then stores in increasing number (R189, R190); `data` gives an element's bytes and taint, from the bytes there for a part of a byte: those at the home, the core's own dirty ones cleaned first, where the store goes there (R187, R346). -/
def storeAll (els : List (Nat × Nat × Target)) (size : Nat) (na : Bool) (data : Nat → (List Byte → List Byte) × Bool) (part : Bool) : M Unit := do
  for (i, ea, t) in els do
    let s ← get
    atElem i (atAddr ea (do
      fillFor s.actor t size na
      if part && na then do
        let _ ← engineLoad s.actor t size
        pure ()
      else pure ()))
  for (i, ea, t) in els do
    let s ← get
    let (f, tn) := data i
    let old ← (if part then do
        let (bs, _) ← atElem i (if na then atAddr ea (do
            upd fun s => s.cleanTarget t
            engineLoad s.actor t size) else loadEl s.actor t ea size na)
        pure bs
      else pure [])
    atElem i (storeEl s.actor t ea (f old) tn na)

/-- Bytes of an element: a 4-bit type takes one (R179, R189). -/
def elSize (t : Ety) : Nat := max 1 (etyBits t / 8)

/-- Active elements of a mask below E. -/
def actives (m E : Nat) : List Nat := (List.range E).filter fun i => m.testBit i

/-- Elements and addresses of `vld` and `vst` (R189). -/
def contigEls (t : Ety) (ea : Nat) (act : List Nat) : List (Nat × Nat) :=
  act.map fun i => (i, (ea + (if etyBits t = 4 then i / 2 else i * elSize t)) % 2 ^ 64)

/-- Elements and addresses of the strided forms: A + i * B modulo 2^64 (R189). -/
def stridedEls (a b : Nat) (act : List Nat) : List (Nat × Nat) := act.map fun i => (i, (a + i * b) % 2 ^ 64)

/-- Elements and addresses of the indexed forms (R189). -/
def indexedEls (a sh : Nat) (idx : VWord) (act : List Nat) : List (Nat × Nat) :=
  act.map fun i => (i, (a + narrow 64 (toS 32 (elem 32 i idx.toNat) * 2 ^ sh)) % 2 ^ 64)

/-- A vector load: its elements, written with the taint read, of the address operands `ta`, of the index lanes and of the guard bits (R191). `clear` clears the register beyond E. -/
def vecLoad (x : Args) (E : Nat) (els : List (Nat × Nat)) (ta : Bool) (tIdx : Nat → Bool) (clear : Bool) : M Unit := do
  let s ← get
  let L := s.leaf
  let w := etyBits x.ety
  let size := elSize x.ety
  let ts ← checkAll x.hint.toNat els size .load
  let got ← loadAll ts size (noAlloc x)
  let gt := L.guardTaint x.guard
  let cell (i : Nat) : Option (Nat × Bool) :=
    if E ≤ i then (if clear then some (0, false) else none)
    else (tfind got i).map fun (v, tm) =>
      ((if w = 4 then elem 4 (i % 2) v else v), tm || ta || tIdx i || gt.testBit i || L.ctlTaint)
  updLeaf fun L => (L.putV x.d.vreg w ((List.range (4096 / w)).map cell)).advance

/-- A vector store of the elements of C (R189-R191). -/
def vecStore (x : Args) (els : List (Nat × Nat)) (ta : Bool) (tIdx : Nat → Bool) : M Unit := do
  let s ← get
  let L := s.leaf
  let w := etyBits x.ety
  let size := elSize x.ety
  let c := (L.v[x.c.vreg]).toNat
  let ct := L.vT[x.c.vreg]
  let gt := L.guardTaint x.guard
  let ts ← checkAll x.hint.toNat els size .store
  let data (i : Nat) : (List Byte → List Byte) × Bool :=
    let v := elem w i c
    (fun old =>
      if w = 4 then
        let o := ofBytes old
        toBytes 1 (if i % 2 = 0 then o / 16 * 16 + v else o % 16 + 16 * v)
      else toBytes size v,
     laneTaint ct w i || ta || tIdx i || gt.testBit i || L.ctlTaint)
  storeAll ts size (noAlloc x) data (w = 4)
  updLeaf Leaf.advance

/-- `vld` (R189). -/
def execVld (x : Args) (s : State) : Host.Outcome State Fault Refusal :=
  finish (do
    let E := etyCount x.ety
    let (ea, ta) := eaOf x s
    vecLoad x E (contigEls x.ety ea (actives (s.leaf.guardMask x.guard E) E)) ta (fun _ => false) false) s

/-- `vld.str` (R189). -/
def execVldStr (x : Args) (s : State) : Host.Outcome State Fault Refusal :=
  finish (do
    let E := etyCount x.ety
    let (a, ta) := srcOf x s true x.a
    let (b, tb) := srcOf x s true x.b
    vecLoad x E (stridedEls a b (actives (s.leaf.guardMask x.guard E) E)) (ta || tb) (fun _ => false) false) s

/-- `vst` (R189). -/
def execVst (x : Args) (s : State) : Host.Outcome State Fault Refusal :=
  finish (do
    let E := etyCount x.ety
    let (ea, ta) := eaOf x s
    vecStore x (contigEls x.ety ea (actives (s.leaf.guardMask x.guard E) E)) ta (fun _ => false)) s

/-- `vst.str` (R189). -/
def execVstStr (x : Args) (s : State) : Host.Outcome State Fault Refusal :=
  finish (do
    let E := etyCount x.ety
    let (a, ta) := srcOf x s true x.a
    let (b, tb) := srcOf x s true x.b
    vecStore x (stridedEls a b (actives (s.leaf.guardMask x.guard E) E)) (ta || tb) (fun _ => false)) s

/-- Elements of an indexed access (R189). -/
def idxCount (t : Ety) : Nat := if etyBits t = 64 then 64 else 128

/-- The shift SH of an indexed access (Table 6-2). -/
def modSh (x : Args) : Nat := field x.imm.toNat 40 2

/-- `vgath` (R189). -/
def execVgath (x : Args) (s : State) : Host.Outcome State Fault Refusal :=
  finish (do
    let E := idxCount x.ety
    let (a, ta) := srcOf x s true x.a
    let iv := s.leaf.v[x.b.vreg]
    let it := s.leaf.vT[x.b.vreg]
    vecLoad x E (indexedEls a (modSh x) iv (actives (s.leaf.guardMask x.guard E) E)) ta (fun i => it.getLsbD i) true) s

/-- `vscat` (R189). -/
def execVscat (x : Args) (s : State) : Host.Outcome State Fault Refusal :=
  finish (do
    let E := idxCount x.ety
    let (a, ta) := srcOf x s true x.a
    let iv := s.leaf.v[x.b.vreg]
    let it := s.leaf.vT[x.b.vreg]
    vecStore x (indexedEls a (modSh x) iv (actives (s.leaf.guardMask x.guard E) E)) ta (fun i => it.getLsbD i)) s

/-! ## Plane layout -/

/-- Byte number of bit k of plane p of K-row r, for elements of D bits (R263). -/
def planeByte (D r p k : Nat) : Nat := r * D * 32 + p * 32 + k / 8

/-- The 512 bytes of a register in plane layout (R263). -/
def planeBytes (D v : Nat) : List Byte :=
  (List.range 512).map fun b =>
    let r := b / (D * 32)
    let p := b / 32 % D
    BitVec.ofNat 8 (bitsOf 8 fun j => (elem D (r * 256 + b % 32 * 8 + j) v).testBit (D - 1 - p))

/-- The element i that plane layout holds (R263). -/
def planeUnpack (D : Nat) (b i : Nat) : Nat :=
  let r := i / 256
  let k := i % 256
  bitsOf D fun q => (elem 8 (planeByte D r (D - 1 - q) k) b).testBit (k % 8)

/-- Lanes of K-row r of a register of D-bit elements: 8 * D of them. -/
def rowLanes (D r : Nat) : List Nat := (List.range (8 * D)).map fun i => r * 8 * D + i

/-- The 16 planes of a plane access with their addresses, 32 bytes each (R263). -/
def planeEls (ea : Nat) : List (Nat × Nat) := (List.range 16).map fun i => (i, (ea + 32 * i) % 2 ^ 64)

/-- A fault of a plane access, which acts on one element, names none: ELEM is 0xFFFF, as otherwise in Table 14-2, where the spec does not say whether it is element 0 of a vector access (DESIGN CHOICE, log 76). -/
def wholeElem {α : Type} (m : M α) : M α := do
  match ← attempt m with
  | .ok a => pure a
  | .error t => throw (.trap { t with elem := 0xFFFF })

/-- `vstp` (R263). -/
def execVstp (x : Args) (s : State) : Host.Outcome State Fault Refusal :=
  guardedStep x (do
    let (ea, ta) := eaOf x s
    let D := etyBits x.ety
    let L := s.leaf
    let bs := planeBytes D (L.v[x.c.vreg]).toNat
    let row (r : Nat) : Bool := (rowLanes D r).any fun l => (L.vT[x.c.vreg]).getLsbD l
    let t0 := ta || L.ctlT x.guard
    wholeElem (do
      let ts ← checkAll x.hint.toNat (planeEls ea) 32 .store
      storeAll ts 32 (noAlloc x) (fun i => (fun _ => (bs.drop (32 * i)).take 32, row (i / D) || t0)) false)
    updLeaf Leaf.advance) s

/-- `vldp` (R263). -/
def execVldp (x : Args) (s : State) : Host.Outcome State Fault Refusal :=
  guardedStep x (do
    let (ea, ta) := eaOf x s
    let D := etyBits x.ety
    let L := s.leaf
    let got ← wholeElem (do
      let ts ← checkAll x.hint.toNat (planeEls ea) 32 .load
      loadAll ts 32 (noAlloc x))
    let b := packElems 256 (got.map fun e => e.2.1)
    let row (r : Nat) : Bool := got.any fun e => e.1 / D = r && e.2.2
    let t0 := ta || L.ctlT x.guard
    updLeaf fun L => (L.putV x.d.vreg D ((List.range (4096 / D)).map fun i =>
      some (planeUnpack D b i, row (i / 256) || t0))).advance) s

/-! ## Prefetch, clean, inval -/

/-- `pref` (R192): the line enters the L1 unless HINT.L1 is 0b11, and the L2 or the RDC unless HINT.L2 is 0b11, each where it is not there already; a prefetch that would fault is dropped. -/
def prefetch (x : Args) (a : Actor) (ea : Nat) : M Unit := do
  let na2 := x.hint.toNat / 4 = 3
  if noAlloc x && na2 then pure ()
  else if inWindow ea then pure ()
  else do
    let t ← checkAccess a ea 1 .load
    match t with
    | .mem tr => do
      let s ← get
      let line := tr.pa / 128
      let shared : M Unit := if na2 || (tfind (s.die a.who.die).rdc line).isSome then pure ()
        else do
          let _ ← fetchLine a.who tr.pa tr.attr
          pure ()
      if s.isWindow tr.pa then do
        let _ ← loadAt a t 1 true
        pure ()
      else if noAlloc x then shared
      else do
        if (tfind (s.core a.who.core).l1 line).isSome then shared else pure ()
        let _ ← l1Fill a.who tr.pa tr.attr
        pure ()
    | .sv _ _ => do
      let _ ← loadAt a t 1 (noAlloc x)
      pure ()
    | _ => pure ()

/-- `pref` (R192). -/
def execPref (x : Args) (s : State) : Host.Outcome State Fault Refusal :=
  guardedStep x (do
    let _ ← attempt (prefetch x (s.actorFor x) (eaOf x s).1)
    updLeaf Leaf.advance) s

/-- The lines of [lo, hi) in pages that the context may load from, outside the scratchpad windows and the view aperture (R193): a page that does not translate, or whose region is not valid, is skipped. -/
def State.rangeLines (s : State) (ctx lo hi : Nat) : Nat → Bool :=
  lineIn ((s.physOf ctx lo hi).filter fun (pa, _, e) =>
    e.testBit 3 && !e.testBit 9 && (s.homeOf pa ≠ Home.none) && (s.peekRegion ctx e).isSome)

/-- A cache operation on [A, A + B) (R193): ADDR_NONCANON when its last byte is not canonical, which it is not where A + B exceeds 2^64 (DEDUCED, log 57); a die control core has no L1. `f` is given the core and the lines of the pages that the context may load from. -/
def cacheOp (x : Args) (f : State → Nat → (Nat → Bool) → State) (s : State) : Host.Outcome State Fault Refusal :=
  guardedStep x (do
    let (a, _) := srcOf x s true x.a
    let (n, _) := srcOf x s true x.b
    if n = 0 then pure ()
    else if 2 ^ 48 ≤ a + n - 1 then fail .addrNoncanon ((a + n - 1) % 2 ^ 64)
    else match s.cur with
    | .leaf c _ =>
      let k := s.leaf.ctx
      upd fun s => f s c (s.rangeLines k a (a + n))
    | .dcc _ => pure ()
    updLeaf Leaf.advance) s

/-- `clean` (R193): every line under a page with R, with W or without: R193 skips no other page, where R323 lists a clean into a page among what needs W (DEDUCED, log 57). -/
def execClean (x : Args) (s : State) : Host.Outcome State Fault Refusal :=
  let hint := some (x.hint.toNat / 4)
  cacheOp x (fun s c p => if noAlloc x then s.dropWhere c p hint else s.cleanWhere c p hint) s

/-- `inval` (R193): as `clean`, and then the lines are dropped from the L1 and the RDC. -/
def execInval (x : Args) (s : State) : Host.Outcome State Fault Refusal :=
  cacheOp x (fun s c p => (s.dropWhere c p (some (x.hint.toNat / 4))).dropRdc (coreDie c) p) s

end Sys2Proof.Machine
end

