-- ==== Sys2Proof/Machine/WordState.lean ====
section
/-! DEFINITION. Scratchpad word states (R194-R199) and the messages that carry them to another core (R197). -/

namespace Sys2Proof.Machine

/-- The register number of D where it is a result, 0 otherwise. -/
def wsDst (op : Nat) (x : Args) : Nat := if op < 2 then x.d.sreg.val else 0
/-- The END output: C of the loads, D of the stores (Table 6-10). -/
def wsEnd (op : Nat) (x : Args) : Nat := if op < 2 then x.c.preg.val else x.d.preg.val
/-- The value stored. -/
def wsVal (op : Nat) (x : Args) (s : State) : Nat × Bool := if op < 2 then (0, false) else srcOf x s true x.c

/-- The acquire of a message as a number: 0 none. -/
def acqCode (x : Args) : Nat := if (modOrd x).testBit 0 then 1 + modScope x + 8 * (modAll x).toNat else 0

/-! ## The waiting operations -/

/-- The operation as it waits at its word, or travels to it (R197). -/
def wsMsgOf (op : Nat) (x : Args) (s : State) (core off ea : Nat) : WsMsg :=
  let a := s.actor
  let (v, tv) := wsVal op x s
  let t := (eaOf x s).2 || s.leaf.ctlT x.guard
  { core := a.who.core, slot := a.slot, ctx := a.ctx, entry := s.leaf.entry, op := op, target := core, word := off / 4
    ety := x.ety, value := BitVec.ofNat 32 v, taint := tv || t, addrTaint := t, dst := wsDst op x, endOut := wsEnd op x
    poisonOut := x.e.preg.val, acq := acqCode x, addr := ea, cancel := s.myCtx.stop.isSome }

/-- The executing leaf waits for an operation that stands at its word, or is on the way to it. -/
def wsWait (m : WsMsg) : M Unit := do
  let id := leafKey m.core m.slot
  upd fun s => { s with msgs := tset s.msgs id m }
  updLeaf fun L => { L with msg := some id }
  waitHere

/-- A waiting word-state operation (R196): at the word of the leaf's own core, or as a message to another core (R197). -/
def wordStep (op : Nat) (x : Args) (s : State) : Host.Outcome State Fault Refusal :=
  guardedStep x (do
    if s.leaf.msg.isSome then waitHere else pure ()
    let (ea, ta) := eaOf x s
    let t := ta || s.leaf.ctlT x.guard
    let (v, tv) := wsVal op x s
    match ← checkAccess s.actor ea 4 .ws with
    | .scr core off => do
      ordBefore x
      let s ← get
      if core = s.curCore then
        match wsStep op (wsEnd op x) x.e.preg.val (BitVec.ofNat 32 v) (tv || t) (s.scrWord core (off / 4)) with
        | .wait => if s.myCtx.stop.isSome then waitHere else wsWait (wsMsgOf op x s core off ea)
        | .trap c => fail c ea
        | .go w res e p => do
          upd fun s => s.setScrWord core (off / 4) w
          updLeaf fun L => L.deliver (wsDst op x) (wsEnd op x) x.e.preg.val x.ety res e p t
          ordAfter x
          updLeaf Leaf.advance
      else wsWait (wsMsgOf op x s core off ea)
    | _ => fail .wsSpace ea) s

/-- `ldw` (R196). -/
def execLdw (x : Args) (s : State) : Host.Outcome State Fault Refusal := wordStep 0 x s
/-- `ldc` (R196). -/
def execLdc (x : Args) (s : State) : Host.Outcome State Fault Refusal := wordStep 1 x s
/-- `stf` (R196). -/
def execStf (x : Args) (s : State) : Host.Outcome State Fault Refusal := wordStep 2 x s
/-- `ste` (R196). -/
def execSte (x : Args) (s : State) : Host.Outcome State Fault Refusal := wordStep 3 x s

/-- `fe.set` (R198): the state alone; the operations that wait at the word look at it again at once. -/
def execFeSet (x : Args) (s : State) : Host.Outcome State Fault Refusal :=
  guardedStep x (do
    let (ea, _) := eaOf x s
    match ← checkAccess s.actor ea 4 .ws with
    | .scr core off => do
      upd fun s => s.setScrWord core (off / 4) { s.scrWord core (off / 4) with st := BitVec.ofNat 2 (field x.imm.toNat 40 2) }
      upd fun s => s.serveWord core (off / 4)
      updLeaf Leaf.advance
    | _ => fail .wsSpace ea) s

/-- `fe.rd` (R198): the state and taint bit, tainted and counted. -/
def execFeRd (x : Args) (s : State) : Host.Outcome State Fault Refusal :=
  guardedStep x (do
    let (ea, _) := eaOf x s
    match ← checkAccess s.actor ea 4 .ws with
    | .scr core off => do
      let s ← get
      let w := s.scrWord core (off / 4)
      upd fun s => s.countTaint s.leaf.ctx 1
      updLeaf fun L => (L.putS x (BitVec.ofNat 64 (w.st.toNat + 4 * w.taint.toNat)) true).advance
    | _ => fail .wsSpace ea) s

/-- REMOTE_WS_OP (R197). -/
def execRemoteWsOp (msg : Nat) (s : State) : Host.Outcome State Fault Refusal := eventStep (·.wsArrive msg) s

/-- REMOTE_WS_CANCEL (R197). -/
def execRemoteWsCancel (msg : Nat) (s : State) : Host.Outcome State Fault Refusal := eventStep (·.wsCancel msg) s

end Sys2Proof.Machine
end

