-- ==== Sys2Proof/Machine/Atomic.lean ====
section
/-! DEFINITION. Far atomics (R200-R203), reductions and the combining buffer (R204, R205, R431), fences (R206). -/

namespace Sys2Proof.Machine

/-- An atom (R201, R202): the issuing core's line is cleaned and dropped, the handler of the home performs the step, the old value is tainted. -/
def atomStep (op : AtomOp) (x : Args) (s : State) : Host.Outcome State Fault Refusal :=
  guardedStep x (do
    let (ea, ta) := eaOf x s
    let (c, tc) := srcOf x s true x.c
    let (e, te) := if op = .cas then srcOf x s true x.e else (0, false)
    let n := atomSize x.ety
    let t ← checkAccess (s.actorFor x) ea n .atom
    let taint := ta || tc || te || s.leaf.ctlT x.guard
    ordBefore x
    let s ← get
    let old ← (match t with
      | .mem tr => do
        upd fun s => (s.sendEntries s.curCore (·.meets tr.pa n)).dropForAtom s.curCore (tr.pa / 128)
        let s ← get
        atAddr ea (atomHome s.who tr.pa x.ety op c e taint (s.inPort s.leaf.ctx ea n) tr.attr 1)
      | .sv pa h => atAddr ea (atomHome s.who pa x.ety op c e taint false { plainAttr with hint := h } 1)
      | _ => fail .atomSpace ea)
    match s.cur with
    | .leaf _ _ => upd fun s => s.countTaint s.leaf.ctx 1
    | .dcc _ => pure ()
    ordAfter x
    updLeaf fun L => (L.putS x (etyExt x.ety old) true).advance) s

/-- `atom.add` (R201). -/
def execAtomAdd (x : Args) (s : State) : Host.Outcome State Fault Refusal := atomStep .add x s
/-- `atom.min` (R201). -/
def execAtomMin (x : Args) (s : State) : Host.Outcome State Fault Refusal := atomStep .min x s
/-- `atom.max` (R201). -/
def execAtomMax (x : Args) (s : State) : Host.Outcome State Fault Refusal := atomStep .max x s
/-- `atom.and` (R201). -/
def execAtomAnd (x : Args) (s : State) : Host.Outcome State Fault Refusal := atomStep .and x s
/-- `atom.or` (R201). -/
def execAtomOr (x : Args) (s : State) : Host.Outcome State Fault Refusal := atomStep .or x s
/-- `atom.xor` (R201). -/
def execAtomXor (x : Args) (s : State) : Host.Outcome State Fault Refusal := atomStep .xor x s
/-- `atom.swap` (R201). -/
def execAtomSwap (x : Args) (s : State) : Host.Outcome State Fault Refusal := atomStep .swap x s
/-- `atom.cas` (R201). -/
def execAtomCas (x : Args) (s : State) : Host.Outcome State Fault Refusal := atomStep .cas x s

/-! ## Reductions -/

/-- The entry of a reduction is of the same word, operation, type and context as one of the buffer (R205). -/
def CEntry.alike (a b : CEntry) : Bool := a.pa = b.pa && a.op = b.op && a.ety = b.ety && a.ctx = b.ctx

/-- An f32 sum that would take terms of two leaves of the core: R205 combines them, and R424 with Table 18-9 excludes a word that this makes (log 34). -/
def CEntry.mixes (a b : CEntry) : Bool := a.alike b && a.op = .add && a.ety = .f32 && a.leaf ≠ b.leaf

/-- The entry after a reduction that is alike: its one value takes the reduction's by the operation, an f32 sum with RNE (R205). -/
def CEntry.combine (o e : CEntry) : CEntry :=
  if o.alike e then
    { o with
      taint := o.taint || e.taint, inPort := o.inPort || e.inPort, count := o.count + e.count
      value := BitVec.ofNat 64 (atomNew o.op o.ety (o.value.toNat % 2 ^ (8 * atomSize o.ety)) e.value.toNat 0) }
  else o

/-- A `red` enters its core's combining buffer (R205): it combines with its word's entry, or first sends what stands in its way. Whether an f32 sum of another leaf's entry combines or sends it first is a free value (DESIGN CHOICE, log 34). -/
def State.bufferRed (s : State) (core : Nat) (e : CEntry) : State :=
  let n := atomSize e.ety
  let mix := s.freePick 2 = 1
  let s := if (s.core core).cbuf.any (·.mixes e) then { s with free := s.free + 1 } else s
  let s := s.sendEntries core fun o => o.meets e.pa n && (!o.alike e || (o.mixes e && !mix))
  let c := s.core core
  if c.cbuf.any (·.alike e) then
    s.setCore core { c with cbuf := c.cbuf.map (·.combine e) }
  else
    let s := if Config.combining ≤ c.cbuf.length then
        (match c.cbuf with
         | o :: _ => s.sendEntries core (· == o)
         | [] => s)
      else s
    let c := s.core core
    (s.setCore core { c with cbuf := c.cbuf ++ [e] }).occSet (occBuf core) e.ctx

/-- A `red` (R204): checked at issue; a die control core has no buffer and performs it at the home. -/
def redStep (op : AtomOp) (x : Args) (s : State) : Host.Outcome State Fault Refusal :=
  guardedStep x (do
    let (ea, ta) := eaOf x s
    let (c, tc) := srcOf x s true x.c
    let n := atomSize x.ety
    let t ← checkAccess (s.actorFor x) ea n .atom
    let taint := ta || tc || s.leaf.ctlT x.guard
    ordBefore x
    match t with
    | .mem tr =>
      upd fun s => s.bufferRed s.curCore
        { pa := tr.pa, va := ea, op := op, ety := x.ety, value := BitVec.ofNat 64 (c % 2 ^ (8 * n)), taint := taint
          ctx := s.leaf.ctx, attr := tr.attr, inPort := s.inPort s.leaf.ctx ea n, count := 1, leaf := s.leaf.entry }
    | .sv pa h => do
      let _ ← atAddr ea (atomHome s.who pa x.ety op c 0 taint false { plainAttr with hint := h } 1)
      pure ()
    | _ => fail .atomSpace ea
    updLeaf Leaf.advance) s

/-- `red.add` (R204). -/
def execRedAdd (x : Args) (s : State) : Host.Outcome State Fault Refusal := redStep .add x s
/-- `red.min` (R204). -/
def execRedMin (x : Args) (s : State) : Host.Outcome State Fault Refusal := redStep .min x s
/-- `red.max` (R204). -/
def execRedMax (x : Args) (s : State) : Host.Outcome State Fault Refusal := redStep .max x s
/-- `red.and` (R204). -/
def execRedAnd (x : Args) (s : State) : Host.Outcome State Fault Refusal := redStep .and x s
/-- `red.or` (R204). -/
def execRedOr (x : Args) (s : State) : Host.Outcome State Fault Refusal := redStep .or x s
/-- `red.xor` (R204). -/
def execRedXor (x : Args) (s : State) : Host.Outcome State Fault Refusal := redStep .xor x s

/-- `fence` (R206): release, then acquire, by ORD; the combining buffer is flushed in every case. -/
def execFence (x : Args) (s : State) : Host.Outcome State Fault Refusal :=
  guardedStep x (do
    ordBefore x
    upd fun s => s.sendEntries s.curCore fun _ => true
    ordAfter x
    updLeaf Leaf.advance) s

/-! ## Home steps -/

/-- RED_HOME_STEP (R205, R431): the entry of a word reaches its home. -/
def execRedHomeStep (core pa : Nat) (s : State) : Host.Outcome State Fault Refusal :=
  eventStep (fun s => s.sendEntries core (·.pa == pa)) s

/-- An atomic add that another package sent is performed at its home under the pod tenant's key slot, or refused (R201, R401, R408). -/
def State.atomServe (s : State) (home : Nat) : State :=
  match tget [] s.atomQ home with
  | [] => s
  | r :: rest =>
    let s := { s with atomQ := if rest.isEmpty then terase s.atomQ home else tset s.atomQ home rest }
    let slot := ((s.pkg.ks.tenants.find? fun e => e.2 = r.tenant).map (·.1)).getD 0
    let w : Who := ⟨none, 1024 + s.homeDie r.pa, s.homeDie r.pa, slot, 4 * 512 + r.pkg, false⟩
    runIgnore (atomHome w r.pa .n64 .add r.value.toNat 0 false false plainAttr 1) s

/-- ATOM_HOME_STEP (R201): the handler thread of a string core performs its oldest request. -/
def execAtomHomeStep (home : Nat) (s : State) : Host.Outcome State Fault Refusal := eventStep (·.atomServe home) s

end Sys2Proof.Machine
end

