-- ==== Sys2Proof/Machine/Vector.lean ====
section
/-! DEFINITION. The vector instructions on registers (R234-R262, R264). -/

namespace Sys2Proof.Machine

/-! ## Element-wise operations -/

/-- An element-wise instruction over E elements of width w: `el i` is an active element's value, flags and source taint (R236-R238). -/
def vmap (x : Args) (E w : Nat) (el : State → Nat → (Nat × Flags) × Bool) (s : State) : Host.Outcome State Fault Refusal :=
  regStep (fun L =>
    let (m, gt) := L.vguard x E
    let rs := (List.range E).map fun i => if m.testBit i then some (el s i) else none
    let fl := rs.foldl (fun f o => match o with | some r => f ||| r.1.2 | none => f) 0
    let cells := rs.zipIdx.map fun (o, i) => o.map fun r => (r.1.1, r.2 || gt.testBit i || L.ctlTaint)
    ((L.putV x.d.vreg w cells).raise fl).advance) s

/-- An element-wise instruction of A. -/
def vmap1 (x : Args) (f : Nat → Nat × Flags) (s : State) : Host.Outcome State Fault Refusal :=
  vmap x (etyCount x.ety) (etyBits x.ety) (fun s i =>
    let a := vsrcOf x s true x.a (etyBits x.ety)
    (f (a.1 i), a.2 i)) s

/-- An element-wise instruction of A and B. -/
def vmap2 (x : Args) (f : Nat → Nat → Nat × Flags) (s : State) : Host.Outcome State Fault Refusal :=
  vmap x (etyCount x.ety) (etyBits x.ety) (fun s i =>
    let a := vsrcOf x s true x.a (etyBits x.ety)
    let b := vsrcOf x s true x.b (etyBits x.ety)
    (f (a.1 i) (b.1 i), a.2 i || b.2 i)) s

/-- An element-wise instruction of A, B and C. -/
def vmap3 (x : Args) (f : Nat → Nat → Nat → Nat × Flags) (s : State) : Host.Outcome State Fault Refusal :=
  vmap x (etyCount x.ety) (etyBits x.ety) (fun s i =>
    let a := vsrcOf x s true x.a (etyBits x.ety)
    let b := vsrcOf x s true x.b (etyBits x.ety)
    let c := vsrcOf x s true x.c (etyBits x.ety)
    (f (a.1 i) (b.1 i) (c.1 i), a.2 i || b.2 i || c.2 i)) s

/-- A pattern after `.ftz` on the input (R59). -/
def flushBits (f : Fmt) (ftz : Bool) (x : Nat) : Nat := if ftz && isSubnormal f x then field x (f.bits - 1) 1 * 2 ^ (f.bits - 1) else x

/-- An operation by type: on exact integers, or on float values (R238, R241). -/
def arith2 (x : Args) (int : Int → Int → Int) (flt : Fmt → Rm → Bool → Fv → Fv → Nat × Flags) (a b : Nat) : Nat × Flags :=
  match etyFmt x.ety with
  | some f => flt f (modRm x) (modFtz x) (fdecodeFtz f (modFtz x) a) (fdecodeFtz f (modFtz x) b)
  | none => (narrow (etyBits x.ety) (int (etyVal x.ety a) (etyVal x.ety b)), 0)

/-- A fused multiply-add by type (R241). -/
def arith3 (x : Args) (neg : Bool) (a b c : Nat) : Nat × Flags :=
  match etyFmt x.ety with
  | some f =>
    let d (v : Nat) : Fv := fdecodeFtz f (modFtz x) v
    ffma f (modRm x) (modFtz x) neg (d a) (d b) (d c)
  | none =>
    let p := etyVal x.ety a * etyVal x.ety b
    (narrow (etyBits x.ety) (etyVal x.ety c + (if neg then -p else p)), 0)

/-- Minimum or maximum by type (R241). -/
def minmax2 (x : Args) (isMax : Bool) (a b : Nat) : Nat × Flags :=
  match etyFmt x.ety with
  | some f =>
    let a := flushBits f (modFtz x) a
    let b := flushBits f (modFtz x) b
    fminmax f isMax a b (fdecode f a) (fdecode f b)
  | none =>
    let lt := etyVal x.ety a < etyVal x.ety b
    (if (if isMax then !lt else lt) then a else b, 0)

/-- A saturating operation (R54, R241). -/
def sat2 (x : Args) (int : Int → Int → Int) (a b : Nat) : Nat × Flags :=
  satInt (etyBits x.ety) (etySigned x.ety) (int (etyVal x.ety a) (etyVal x.ety b))

/-- `vadd` (R241): a + b. -/
def execVadd (x : Args) (s : State) : Host.Outcome State Fault Refusal := vmap2 x (arith2 x (fun a b => a + b) fadd) s

/-- `vadd.sat` (R241). -/
def execVaddSat (x : Args) (s : State) : Host.Outcome State Fault Refusal := vmap2 x (sat2 x fun a b => a + b) s

/-- `vsub` (R241): a - b. -/
def execVsub (x : Args) (s : State) : Host.Outcome State Fault Refusal := vmap2 x (arith2 x (fun a b => a - b) fun f rm ftz a b => fadd f rm ftz a (fneg b)) s

/-- `vsub.sat` (R241). -/
def execVsubSat (x : Args) (s : State) : Host.Outcome State Fault Refusal := vmap2 x (sat2 x fun a b => a - b) s

/-- `vmul` (R241): a * b. -/
def execVmul (x : Args) (s : State) : Host.Outcome State Fault Refusal := vmap2 x (arith2 x (fun a b => a * b) fmul) s

/-- `vmul.hi` (R241): the high half of the exact product. -/
def execVmulHi (x : Args) (s : State) : Host.Outcome State Fault Refusal := vmap2 x (fun a b => (mulHighInt (etyBits x.ety) (etyVal x.ety a) (etyVal x.ety b), 0)) s

/-- `vfma` (R241): a * b + c. -/
def execVfma (x : Args) (s : State) : Host.Outcome State Fault Refusal := vmap3 x (arith3 x false) s

/-- `vfnma` (R241): c - a * b. -/
def execVfnma (x : Args) (s : State) : Host.Outcome State Fault Refusal := vmap3 x (arith3 x true) s

/-- `vmin` (R241). -/
def execVmin (x : Args) (s : State) : Host.Outcome State Fault Refusal := vmap2 x (minmax2 x false) s

/-- `vmax` (R241). -/
def execVmax (x : Args) (s : State) : Host.Outcome State Fault Refusal := vmap2 x (minmax2 x true) s

/-- |a| or 0 - a by type (R241): the most negative integer stays itself. -/
def absNeg (x : Args) (neg : Bool) (a : Nat) : Nat × Flags :=
  match etyFmt x.ety with
  | some f => fabsBits f neg a
  | none =>
    let z := etyVal x.ety a
    (narrow (etyBits x.ety) (if neg then -z else z.natAbs), 0)

/-- `vabs` (R241). -/
def execVabs (x : Args) (s : State) : Host.Outcome State Fault Refusal := vmap1 x (absNeg x false) s

/-- `vneg` (R241). -/
def execVneg (x : Args) (s : State) : Host.Outcome State Fault Refusal := vmap1 x (absNeg x true) s

/-- `vand` (R243). -/
def execVand (x : Args) (s : State) : Host.Outcome State Fault Refusal := vmap2 x (fun a b => (a &&& b, 0)) s

/-- `vor` (R243). -/
def execVor (x : Args) (s : State) : Host.Outcome State Fault Refusal := vmap2 x (fun a b => (a ||| b, 0)) s

/-- `vxor` (R243). -/
def execVxor (x : Args) (s : State) : Host.Outcome State Fault Refusal := vmap2 x (fun a b => (a ^^^ b, 0)) s

/-- `vandn` (R243): a AND NOT b. -/
def execVandn (x : Args) (s : State) : Host.Outcome State Fault Refusal := vmap2 x (fun a b => (a &&& notBits (etyBits x.ety) b, 0)) s

/-- `vshl` (R244). -/
def execVshl (x : Args) (s : State) : Host.Outcome State Fault Refusal := vmap2 x (fun a c => (shlBits (etyBits x.ety) a c, 0)) s

/-- `vshr` (R244). -/
def execVshr (x : Args) (s : State) : Host.Outcome State Fault Refusal := vmap2 x (fun a c => (shrBits (etyBits x.ety) a c, 0)) s

/-- `vsra` (R244). -/
def execVsra (x : Args) (s : State) : Host.Outcome State Fault Refusal := vmap2 x (fun a c => (sraBits (etyBits x.ety) a c, 0)) s

/-! ## Compare and select -/

/-- One comparison by type (R245). -/
def cmp2 (c : Cond) (x : Args) (a b : Nat) : Bool × Flags :=
  match etyFmt x.ety with
  | some f => fcompare c (fdecodeFtz f (modFtz x) a) (fdecodeFtz f (modFtz x) b)
  | none => (intCompare c (etyVal x.ety a) (etyVal x.ety b), 0)

/-- `vcmp` (R245): every bit below E is written, an inactive one with 0; the bits from E on are cleared. -/
def execVcmp (c : Cond) (x : Args) (s : State) : Host.Outcome State Fault Refusal :=
  regStep (fun L =>
    let E := etyCount x.ety
    let (m, gt) := L.vguard x E
    let a := vsrcOf x s true x.a (etyBits x.ety)
    let b := vsrcOf x s true x.b (etyBits x.ety)
    let rs := (List.range E).map fun i =>
      if m.testBit i then (let r := cmp2 c x (a.1 i) (b.1 i); (r.1, r.2, a.2 i || b.2 i)) else (false, 0, false)
    let fl := rs.foldl (fun f r => f ||| r.2.1) 0
    let bits := packElems 1 (rs.map fun r => r.1.toNat)
    let ts := packElems 1 (rs.zipIdx.map fun (r, i) => (r.2.2 || gt.testBit i || L.ctlTaint).toNat)
    ((L.writeP x.d.preg (BitVec.ofNat 1024 bits) (BitVec.ofNat 1024 ts)).raise fl).advance) s

/-- `vsel` (R246): B where the bit of pA is 1, else C; only the operand taken adds its taint. -/
def execVsel (x : Args) (s : State) : Host.Outcome State Fault Refusal :=
  vmap x (etyCount x.ety) (etyBits x.ety) (fun s i =>
    let p := x.a.preg
    let v := vsrcOf x s true (if (s.leaf.readP p).getLsbD i then x.b else x.c) (etyBits x.ety)
    ((v.1 i, 0), v.2 i || (s.leaf.taintP p).getLsbD i)) s

/-! ## Conversions -/

/-- `vcvt` (R248). -/
def execVcvt (x : Args) (s : State) : Host.Outcome State Fault Refusal :=
  vmap1 x (cvtElem (modSty x) x.ety (modRm x) (modFtz x) (modWrap x)) s

/-- The factor of a widening or narrowing. -/
def Wid.k : Wid → Nat
  | .w2 => 2
  | .w4 => 4

/-- `vwid` (R249): source element i to register vD + (i mod k), position i div k. -/
def execVwid (k : Wid) (x : Args) (s : State) : Host.Outcome State Fault Refusal :=
  regStep (fun L =>
    let sty := modSty x
    let E := etyCount sty
    let n := Wid.k k
    let (m, gt) := L.vguard x E
    let a := vsrcOf x s true x.a (etyBits sty)
    let cell (i : Nat) : Option ((Nat × Flags) × Bool) :=
      if m.testBit i then some (cvtElem sty x.ety .rne (modFtz x) false (a.1 i), a.2 i || gt.testBit i || L.ctlTaint) else none
    let rs := (List.range n).map fun r => (List.range (E / n)).map fun p => cell (p * n + r)
    let fl := rs.flatten.foldl (fun f o => match o with | some c => f ||| c.1.2 | none => f) 0
    let L := rs.zipIdx.foldl (fun L (cs, r) =>
      L.putV (Fin.ofNat 32 (x.d.vreg.val + r)) (etyBits x.ety) (cs.map fun o => o.map fun c => (c.1.1, c.2))) L
    (L.raise fl).advance) s

/-- `vnar` (R250): element i from register vA + (i mod k), position i div k. -/
def execVnar (k : Wid) (x : Args) (s : State) : Host.Outcome State Fault Refusal :=
  vmap x (etyCount x.ety) (etyBits x.ety) (fun s i =>
    let sty := modSty x
    let n := Wid.k k
    let src := vsrcOf x s true (.v (Fin.ofNat 32 (x.a.vreg.val + i % n))) (etyBits sty)
    (cvtElem sty x.ety (modRm x) (modFtz x) (modWrap x) (src.1 (i / n)), src.2 (i / n))) s

/-! ## Reductions -/

/-- TreeReduce (R85): adjacent pairs first; the flags of every combination. -/
def treeReduce {α : Type} (op : α → α → α × Flags) (z : α) : Nat → List α → α × Flags
  | 0, xs => (xs.headD z, 0)
  | fuel + 1, xs =>
    let rec pairs : List α → List (α × Flags)
      | a :: b :: r => op a b :: pairs r
      | [a] => [(a, 0)]
      | [] => []
    let ps := pairs xs
    let r := treeReduce op z fuel (ps.map (·.1))
    (r.1, ps.foldl (fun f p => f ||| p.2) r.2)

/-- A lane reduction over values of a type: `val` reads an active element, `z` is the identity, `out` the quad written (R251, R252). -/
def vredStep {α : Type} (x : Args) (val : Nat → α × Flags) (op : α → α → α × Flags) (z : α) (out : α → Quad) (s : State) :
    Host.Outcome State Fault Refusal :=
  regStep (fun L =>
    let E := etyCount x.ety
    let w := etyBits x.ety
    let (m, gt) := L.vguard x E
    let a := vsrcOf x s true x.a w
    let xs := (List.range E).map fun i => if m.testBit i then val (a.1 i) else (z, 0)
    let r := treeReduce op z (ilog2 E) (xs.map (·.1))
    let fl := xs.foldl (fun f e => f ||| e.2) r.2
    let t := (List.range E).any fun i => (m.testBit i && a.2 i) || gt.testBit i
    ((L.writeS x.d.sreg (out r.1) (t || L.ctlTaint)).raise fl).advance) s

/-- A reduction by type: exact integers, or f32 operations on the elements converted exactly (R251). -/
def vredBy (x : Args) (int : Int → Int → Int) (zi : Int) (out : Int → Quad) (flt : Fmt → Rm → Bool → Nat → Nat → Nat × Flags) (zf : Nat)
    (s : State) : Host.Outcome State Fault Refusal :=
  match etyFmt x.ety with
  | some f =>
    vredStep x (fun v => if f.bits = 32 then (v, 0) else fconvert fmtF32 .rne false (fdecode f v))
      (flt fmtF32 (modRm x) (modFtz x)) zf (fun v => BitVec.ofNat 64 v) s
  | none => vredStep x (fun v => (etyVal x.ety v, 0)) (fun a b => (int a b, 0)) zi out s

/-- f32 addition of two patterns. -/
def faddBits (f : Fmt) (rm : Rm) (ftz : Bool) (a b : Nat) : Nat × Flags := fadd f rm ftz (fdecodeFtz f ftz a) (fdecodeFtz f ftz b)
/-- f32 minimum or maximum of two patterns. -/
def fminmaxBits (isMax : Bool) (f : Fmt) (_ : Rm) (ftz : Bool) (a b : Nat) : Nat × Flags :=
  let a := flushBits f ftz a
  let b := flushBits f ftz b
  fminmax f isMax a b (fdecode f a) (fdecode f b)

/-- The quad of an integer of a type (R115). -/
def intOut (t : Ety) (z : Int) : Quad := etyExt t (narrow (etyBits t) z)

/-- `vred.add` (R251). -/
def execVredAdd (x : Args) (s : State) : Host.Outcome State Fault Refusal := vredBy x (fun a b => a + b) 0 (fun z => BitVec.ofNat 64 (narrow 64 z)) faddBits 0x80000000 s

/-- `vred.min` (R251). -/
def execVredMin (x : Args) (s : State) : Host.Outcome State Fault Refusal := vredBy x min (intHi (etyBits x.ety) (etySigned x.ety)) (intOut x.ety) (fminmaxBits false) 0x7F800000 s

/-- `vred.max` (R251). -/
def execVredMax (x : Args) (s : State) : Host.Outcome State Fault Refusal := vredBy x max (intLo (etyBits x.ety) (etySigned x.ety)) (intOut x.ety) (fminmaxBits true) 0xFF800000 s

/-- `vred.and` (R251). -/
def execVredAnd (x : Args) (s : State) : Host.Outcome State Fault Refusal := vredStep x (fun v => (v, 0)) (fun a b => (a &&& b, 0)) (2 ^ etyBits x.ety - 1) (fun v => BitVec.ofNat 64 v) s

/-- `vred.or` (R251). -/
def execVredOr (x : Args) (s : State) : Host.Outcome State Fault Refusal := vredStep x (fun v => (v, 0)) (fun a b => (a ||| b, 0)) 0 (fun v => BitVec.ofNat 64 v) s

/-- `vred.xor` (R251). -/
def execVredXor (x : Args) (s : State) : Host.Outcome State Fault Refusal := vredStep x (fun v => (v, 0)) (fun a b => (a ^^^ b, 0)) 0 (fun v => BitVec.ofNat 64 v) s

/-! ## Moving elements -/

/-- `vperm` (R253): vA[n mod E], n the natural value of vB's element. -/
def execVperm (x : Args) (s : State) : Host.Outcome State Fault Refusal :=
  vmap x (etyCount x.ety) (etyBits x.ety) (fun s i =>
    let a := vsrcOf x s true x.a (etyBits x.ety)
    let b := vsrcOf x s true x.b (etyBits x.ety)
    let n := b.1 i % etyCount x.ety
    ((a.1 n, 0), a.2 n || b.2 i)) s

/-- The position that element i of a shuffle reads (Table 8-9): in vA, or at or above E in vB. -/
def shufPos (kind N E i : Nat) : Nat :=
  match kind with
  | 0 => if i % 2 = 0 then i / 2 else E + i / 2
  | 1 => if i % 2 = 0 then E / 2 + i / 2 else E + E / 2 + i / 2
  | 2 => 2 * i
  | 3 => 2 * i + 1
  | 4 => i + N
  | 5 => i ^^^ (2 ^ N - 1)
  | _ => i &&& (2 ^ N - 1)

/-- `vshuf` (R254). -/
def execVshuf (x : Args) (s : State) : Host.Outcome State Fault Refusal :=
  vmap x (etyCount x.ety) (etyBits x.ety) (fun s i =>
    let E := etyCount x.ety
    let a := vsrcOf x s true x.a (etyBits x.ety)
    let b := vsrcOf x s true x.b (etyBits x.ety)
    let ctl := (srcOf x s true x.c).1
    let j := shufPos (field ctl 0 4) (field ctl 4 12) E i
    if j < E then ((a.1 j, 0), a.2 j) else ((b.1 (j - E), 0), b.2 (j - E))) s

/-- Any of the E guard bits is tainted. -/
def anyGuard (gt E : Nat) : Bool := gt % 2 ^ E ≠ 0

/-- `vcompress` (R255): the active elements packed low, the rest zero. -/
def execVcompress (x : Args) (s : State) : Host.Outcome State Fault Refusal :=
  regStep (fun L =>
    let E := etyCount x.ety
    let w := etyBits x.ety
    let (m, gt) := L.vguard x E
    let a := vsrcOf x s true x.a w
    let g := anyGuard gt E || L.ctlTaint
    let kept := ((List.range E).filter fun i => m.testBit i).map fun i => some (a.1 i, a.2 i || g)
    (L.putV x.d.vreg w (kept ++ List.replicate (E - kept.length) (some (0, g)))).advance) s

/-- `vexpand` (R255): consecutive elements spread to the active positions. -/
def execVexpand (x : Args) (s : State) : Host.Outcome State Fault Refusal :=
  regStep (fun L =>
    let E := etyCount x.ety
    let w := etyBits x.ety
    let (m, gt) := L.vguard x E
    let a := vsrcOf x s true x.a w
    let g := anyGuard gt E || L.ctlTaint
    let (cells, _) := (List.range E).foldl (fun (cs, j) i =>
      if m.testBit i then (some (a.1 j, a.2 j || g) :: cs, j + 1) else (none :: cs, j)) (([] : List (Option (Nat × Bool))), 0)
    (L.putV x.d.vreg w cells.reverse).advance) s

/-- `vbcast` (R256). -/
def execVbcast (x : Args) (s : State) : Host.Outcome State Fault Refusal :=
  vmap1 x (fun a => (a, 0)) s

/-- `vget` (R256): one element into sD. -/
def execVget (x : Args) (s : State) : Host.Outcome State Fault Refusal :=
  scalarStep x (fun s L =>
    let w := etyBits x.ety
    let b := srcOf x s true x.b
    let a := vsrcOf x s true x.a w
    let i := b.1 % etyCount x.ety
    L.putS x (etyExt x.ety (a.1 i)) (a.2 i || b.2)) s

/-- `vset` (R256): one element of vD. -/
def execVset (x : Args) (s : State) : Host.Outcome State Fault Refusal :=
  scalarStep x (fun s L =>
    let w := etyBits x.ety
    let a := srcOf x s true x.a
    let b := srcOf x s true x.b
    let i := b.1 % etyCount x.ety
    L.putV x.d.vreg w (List.replicate i none ++ [some (a.1, a.2 || b.2 || L.ctlT x.guard)])) s

/-! ## Bit matrices -/

/-- BitMatMul8 (R257). -/
def bitMatMul8 (x y : Nat) : Nat :=
  bitsOf 64 fun i => ((List.range 8).filter fun k => x.testBit (8 * (i / 8) + k) && y.testBit (8 * k + i % 8)).length % 2 = 1

/-- Set bits of a 64-bit mask, lowest first. -/
def maskBits (m : Nat) : List Nat := (List.range 64).filter fun b => m.testBit b

/-- Deposit (R258). -/
def deposit64 (x m : Nat) : Nat := ((maskBits m).zipIdx.map fun (b, j) => if x.testBit j then 2 ^ b else 0).foldl (· + ·) 0

/-- Extract (R258). -/
def extract64 (x m : Nat) : Nat := ((maskBits m).zipIdx.map fun (b, j) => if x.testBit b then 2 ^ j else 0).foldl (· + ·) 0

/-- `vbmm8` (R257). -/
def execVbmm8 (x : Args) (s : State) : Host.Outcome State Fault Refusal := vmap2 x (fun a b => (bitMatMul8 a b, 0)) s

/-- `vpdep` (R258). -/
def execVpdep (x : Args) (s : State) : Host.Outcome State Fault Refusal := vmap2 x (fun a m => (deposit64 a m, 0)) s

/-- `vpext` (R258). -/
def execVpext (x : Args) (s : State) : Host.Outcome State Fault Refusal := vmap2 x (fun a m => (extract64 a m, 0)) s

/-- `vbperm` (R259): one permutation of 64 bits by the first 48 bytes of vB. -/
def execVbperm (x : Args) (s : State) : Host.Outcome State Fault Refusal :=
  vmap x 64 64 (fun s i =>
    let a := vsrcOf x s true x.a 64
    let ctl := (s.leaf.v[x.b.vreg]).toNat
    let tb := field (s.leaf.vT[x.b.vreg]).toNat 0 12 ≠ 0
    ((bitsOf 64 fun j => (a.1 i).testBit (elem 6 j ctl), 0), a.2 i || tb)) s

/-! ## Thresholding -/

/-- Floor of |v| * 2^16; an infinity counts as 2^64 (R260). -/
def magFix : Fv → Nat
  | .fin _ m e => if -16 ≤ e then m <<< (e + 16).toNat else m >>> (-16 - e).toNat
  | .inf _ => 2 ^ 64
  | .nan _ => 0

/-- The magnitude of an element that the threshold drops, if it does (R260). -/
def thzDrop (t : Ety) (thr v : Nat) : Option Nat :=
  match etyFmt t with
  | some f =>
    let a := match fdecode f v with | .fin _ m e => Fv.fin false m e | .inf _ => .inf false | n => n
    let T := fdecode f thr
    if a.isNaN || T.isNaN || fcmpVal a T = 1 then none else some (magFix a)
  | none =>
    let a := (etyVal t v).natAbs
    if (a : Int) ≤ etyVal t thr then some (a * 2 ^ 16) else none

/-- `vthz` (R260). -/
def execVthz (x : Args) (s : State) : Host.Outcome State Fault Refusal :=
  regStep (fun L =>
    let E := etyCount x.ety
    let w := etyBits x.ety
    let (m, gt) := L.vguard x E
    let a := vsrcOf x s true x.a w
    let thr := (L.thresh[Fin.ofNat 16 (field x.imm.toNat 44 4)]).toNat % 2 ^ w
    let rs := (List.range E).map fun i => if m.testBit i then some (a.1 i, thzDrop x.ety thr (a.1 i), a.2 i) else none
    let total := rs.foldl (fun n o => match o with | some (_, some k, _) => n + k | _ => n) 0
    let cells := rs.zipIdx.map fun (o, i) => o.map fun r => ((if r.2.1.isSome then 0 else r.1), r.2.2 || gt.testBit i || L.ctlTaint)
    let t := (rs.any fun o => match o with | some r => r.2.2 | none => false) || anyGuard gt E || L.ctlTaint
    let tooBig := 2 ^ 64 ≤ total
    let L := (L.putV x.d.vreg w cells).writeS x.c.sreg (BitVec.ofNat 64 (if tooBig then 2 ^ 64 - 1 else total)) t
    (L.raise (if tooBig then flagSAT else 0)).advance) s

/-! ## Block quantisation -/

/-- The float format of a type, f32 where it has none. -/
def fmtOf (t : Ety) : Fmt := (etyFmt t).getD fmtF32

/-- `vqblk` (R261): integers into vD, scale words into vC. The zeros from element 32 · (E/32) on take the control taint alone (DEDUCED, log 80). -/
def execVqblk (x : Args) (s : State) : Host.Outcome State Fault Refusal :=
  regStep (fun L =>
    let sty := modSty x
    let E := etyCount sty
    let D := etyBits x.ety
    let (m, gt) := L.vguard x E
    let a := vsrcOf x s true x.a (etyBits sty)
    let blocks := (List.range (E / 32)).map fun j =>
      let is := (List.range 32).map fun i => 32 * j + i
      let q := quantBlock D (is.map fun i => if m.testBit i then fdecode (fmtOf sty) (a.1 i) else .fin false 0 0)
      (q, (is.any fun i => a.2 i || gt.testBit i) || L.ctlTaint)
    let fl := blocks.foldl (fun f b => f ||| b.1.2.2) 0
    let ints := (blocks.map fun b => b.1.2.1.map fun z => some (narrow D z, b.2)).flatten
    let cells := ints ++ List.replicate (4096 / D - ints.length) (some (0, L.ctlTaint))
    let L := L.putV x.d.vreg D cells
    let L := L.putV x.c.vreg 16 (blocks.map fun b => some (b.1.1, b.2))
    (L.raise fl).advance) s

/-- Dequant (R262). -/
def dequant (f : Fmt) (rm : Rm) (ftz : Bool) (d : Int) (S : Nat) : Nat × Flags :=
  let tag := field S 8 2
  if field S 10 6 ≠ 0 || tag = 1 || tag = 3 then (f.nan, flagIV)
  else if tag = 2 then (0, 0)
  else if field S 0 8 = 0xFF then (f.nan, flagIV)
  else fround f rm ftz (d < 0) d.natAbs ((field S 0 8 : Int) - 127) false

/-- `vdqblk` (R262). -/
def execVdqblk (x : Args) (s : State) : Host.Outcome State Fault Refusal :=
  vmap x (etyCount x.ety) (etyBits x.ety) (fun s i =>
    let sty := modSty x
    let a := vsrcOf x s true x.a (etyBits sty)
    let b := vsrcOf x s true x.b 16
    (dequant (fmtOf x.ety) (modRm x) (modFtz x) (etyVal sty (a.1 i)) (b.1 (i / 32)), a.2 i || b.2 (i / 32))) s

/-! ## Special functions -/

/-- A special function by type (R264). -/
def special (x : Args) (f : Fmt → Bool → Fv → Nat × Flags) (s : State) : Host.Outcome State Fault Refusal :=
  vmap1 x (fun a => f (fmtOf x.ety) (modFtz x) (fdecodeFtz (fmtOf x.ety) (modFtz x) a)) s

/-- `vexp2` (R264). -/
def execVexp2 (x : Args) (s : State) : Host.Outcome State Fault Refusal := special x fexp2 s

/-- `vlog2` (R264). -/
def execVlog2 (x : Args) (s : State) : Host.Outcome State Fault Refusal := special x flog2 s

/-- `vrcp` (R264). -/
def execVrcp (x : Args) (s : State) : Host.Outcome State Fault Refusal := special x frcp s

/-- `vrsq` (R264). -/
def execVrsq (x : Args) (s : State) : Host.Outcome State Fault Refusal := special x frsq s

/-- `vtanh` (R264). -/
def execVtanh (x : Args) (s : State) : Host.Outcome State Fault Refusal := special x ftanh s

end Sys2Proof.Machine
end

