-- ==== Sys2Proof/Machine/Matrix.lean ====
section
/-! DEFINITION. The matrix instructions and the octet's matrix unit (R266-R286). -/

namespace Sys2Proof.Machine

/-! ## Descriptors -/

/-- A matrix instruction: NO_MATRIX where there is no matrix unit (R268), guarded on one element. -/
def mxStep (x : Args) (m : M Unit) (s : State) : Host.Outcome State Fault Refusal :=
  if s.noMatrix then finish (fail .noMatrix) s else guardedStep x m s

/-- CheckAccess of an operand or a descriptor: PORT_KIND in the view aperture (R272). -/
def mxCheck (a : Actor) (ea size : Nat) : M Target :=
  if ea % size = 0 && 0xFFF000000000 ≤ ea && ea ≤ 0xFFF7FFFFFFFF then fail .portKind ea else checkAccess a ea size .load

/-- An operand descriptor from its bytes, and whether its reserved bytes are zero (Table 9-5). -/
def descOf (b : Nat) : MxDesc × Bool :=
  ({ pbase := field b 0 64, sbase := field b 64 64, rows := field b 128 16, d := field b 144 8, cstr := field b 160 32 },
   field b 152 8 = 0 && field b 192 64 = 0)

/-- DescValid of R272. -/
def MxDesc.valid (d : MxDesc) (n : Nat) : Bool :=
  d.pbase % 32 = 0 && d.sbase % 16 = 0 && 1 ≤ d.rows && d.rows ≤ 128 && (d.d = 4 || d.d = 8 || d.d = 16) && n ≤ d.d && 1 ≤ d.cstr

/-- K-steps of a job of kb blocks (R271). -/
def mxSteps (kb : Nat) : Nat := (kb + 7) / 8

/-- Blocks of K-step s that take part (R271). -/
def mxBlocks (kb s : Nat) : Nat := min 8 (kb - 8 * s)

/-- Address of the D planes of chunk s of row r (R271). -/
def MxDesc.planeAddr (d : MxDesc) (r s : Nat) : Nat := (d.pbase + (r * d.cstr + s) * d.d * 32) % 2 ^ 64

/-- Address of the scale row of chunk s of row r (R271). -/
def MxDesc.scaleAddr (d : MxDesc) (r s : Nat) : Nat := (d.sbase + 16 * (r * d.cstr + s)) % 2 ^ 64

/-- What a K-step reads of one row: (address, bytes), of N planes the 32 bits of each block that takes part, and those blocks' scale words (R271). -/
def MxDesc.rowPieces (d : MxDesc) (n kb r s : Nat) : List (Nat × Nat) :=
  ((List.range n).map fun p => (d.planeAddr r s + 32 * p, 4 * mxBlocks kb s)) ++ [(d.scaleAddr r s, 2 * mxBlocks kb s)]

/-- What a job reads of an operand (R271). -/
def MxDesc.pieces (d : MxDesc) (n kb : Nat) : List (Nat × Nat) :=
  ((List.range d.rows).map fun r => ((List.range (mxSteps kb)).map fun s => d.rowPieces n kb r s).flatten).flatten

/-! ## mxmul -/

/-- Reads the descriptor at an address whose access has been checked (R272). -/
def readMxDesc (a : Actor) (t : Target) (ea : Nat) : M (MxDesc × Bool) := do
  let (bs, _) ← loadEl a t ea 32 false
  pure (descOf (ofBytes bs))

/-- Checks the bytes that a job reads: a plane or scale row lies in one page and one allocation, so its first byte stands for all. The physical ranges of memory that are read. R272 gives no order among bytes that fail; the model takes the first operand before the second, of each its rows, their K-steps, and in a K-step its planes before its scale row (DESIGN CHOICE, log 83). -/
def mxCheckAll (a : Actor) (ps : List (Nat × Nat)) : M (List (Nat × Nat)) := do
  let mut out : List (Nat × Nat) := []
  for (ea, n) in ps do
    match ← mxCheck a ea 1 with
    | .mem tr => out := (tr.pa, n) :: out
    | _ => pure ()
  pure out

/-- The clean of R272: dirty L1 bytes and combining-buffer entries in the ranges that a job reads. -/
def State.mxClean (s : State) (core : Nat) (rs : List (Nat × Nat)) : State :=
  let s := s.sendEntries core fun e => rs.any fun (pa, n) => e.meets pa n
  s.cleanWhere core fun l => rs.any fun (pa, n) => pa / 128 ≤ l && l ≤ (pa + n - 1) / 128

/-- The job of an `mxmul`, its descriptors read and every byte it reads checked, with the physical ranges of those (MxIssue of R272); its HINT.L2 goes with the job and its HINT.L1 is ignored (R102, Table 9-2). What the leaf's control taint or the guard taints is fixed at issue (R116, R275). -/
def mxIssue (x : Args) : M (MxJob × List (Nat × Nat)) := do
  let s ← get
  let a := { s.actor with hint := x.hint.toNat / 4 * 4 }
  let (ea, _) := srcOf x s false x.a
  let (eb, _) := srcOf x s false x.b
  let kb := (srcOf x s false x.c).1
  let na := field x.imm.toNat 0 4 + 1
  let nw := field x.imm.toNat 4 4 + 1
  let ta ← mxCheck a ea 32
  let tb ← mxCheck a eb 32
  let (da, za) ← readMxDesc a ta ea
  let (db, zb) ← readMxDesc a tb eb
  if kb = 0 || 2 ^ 24 < kb || !da.valid na || !db.valid nw || !za || !zb || da.cstr < mxSteps kb || db.cstr < mxSteps kb then
    fail .mxDescBad
  else do
    let ra ← mxCheckAll a (da.pieces na kb)
    let rb ← mxCheckAll a (db.pieces nw kb)
    let L := (← get).leaf
    pure ({ ctx := L.ctx, entry := L.entry, tile := x.d.tile, da := da, db := db, kb := kb
            period := 2 ^ field x.imm.toNat 40 2, na := na, nw := nw, init := x.imm.toNat.testBit 42
            weight := L.wrr.toNat, pc := L.pc, step := 0, ctlTaint := L.ctlT x.guard, hint := a.hint }, ra ++ rb)

/-- A job enters its core's queue (R272). -/
def State.mxAccept (s : State) (core : Nat) (job : MxJob) (rs : List (Nat × Nat)) : State :=
  let s := s.mxClean core rs
  let c := s.core core
  (s.setCore core { c with mxq := c.mxq ++ [job] }).occSet (occBuf core) job.ctx

/-- `mxmul` (R272). The descriptors and kblocks are read, and the bytes checked, once: one that waits for a free entry keeps what it has read. A job of the leaf that is still parked goes first (R282). -/
def execMxmul (x : Args) (s : State) : Host.Outcome State Fault Refusal :=
  mxStep x (do
    let core := s.curCore
    let (job, rs) ← match s.leaf.mxIssued with
      | some j => pure j
      | none => mxIssue x
    let s ← get
    if Config.mxQueue ≤ (s.core core).mxq.length || !s.leaf.parked.isEmpty then do
      updLeaf fun L => { L with mxIssued := some (job, rs) }
      waitHere
    else do
      upd fun s => s.mxAccept core job rs
      updLeaf fun L => ({ L with mxIssued := none } : Leaf).advance) s

/-! ## Tile steps -/

/-- What a K-step holds of one row of an operand: the 256 integers, the scale words, the taint. -/
structure MxRow where
  ints : List Int
  scales : List Nat
  taint : Bool
  deriving DecidableEq, Repr

/-- An operand read of a job, from the home, the RDC or the scratchpad (R276). -/
def mxRead (a : Actor) (ea n : Nat) : M (List Byte × Bool) := do
  let t ← mxCheck a ea 1
  atAddr ea (matrixLoad a t n)

/-- One row of an operand in K-step s, its scale words checked (R70, R273). The planes of a ZERO block are read with the others: R271 reads those of every block that takes part, and a plane interleaves the blocks of a chunk, where R69 says that such a payload is not read; their taint and faults count (DEDUCED, log 29). -/
def mxRow (a : Actor) (d : MxDesc) (n kb s r : Nat) : M MxRow := do
  let mut ps : List Nat := []
  let mut tn := false
  for p in List.range n do
    let (bs, t) ← mxRead a (d.planeAddr r s + 32 * p) (4 * mxBlocks kb s)
    ps := ps ++ [ofBytes bs]
    tn := tn || t
  let (bs, t) ← mxRead a (d.scaleAddr r s) (2 * mxBlocks kb s)
  let ws := (List.range (mxBlocks kb s)).map fun j => elem 16 j (ofBytes bs)
  for (w, j) in ws.zipIdx do
    match scaleFault w with
    | some c => fail c (d.scaleAddr r s + 2 * j)
    | none => pure ()
  pure { ints := (List.range 256).map (planeElem n ps), scales := ws, taint := tn || t }

/-- The rows of an operand in a K-step. -/
def mxRows (a : Actor) (d : MxDesc) (n kb s : Nat) : M (List MxRow) := do
  let mut out : List MxRow := []
  for r in List.range d.rows do
    let row ← mxRow a d n kb s r
    out := out ++ [row]
  pure out

/-- The block pair j of an element: (P_j, x_j, NaN), none where it takes no part or either block is ZERO (R69, R77). -/
def MxJob.block (job : MxJob) (a b : MxRow) (j : Nat) : Option (Int × Int × Bool) :=
  match a.scales[j]?, b.scales[j]? with
  | some wa, some wb =>
    if field wa 8 2 = 2 || field wb 8 2 = 2 then none
    else
      let xs := List.zipWith (· * ·) ((a.ints.drop (32 * j)).take 32) ((b.ints.drop (32 * j)).take 32)
      let ea : Int := (field wa 0 8 : Int) - 127 + (job.da.d - job.na : Nat)
      let eb : Int := (field wb 0 8 : Int) - 127 + (job.db.d - job.nw : Nat)
      some (xs.foldl (· + ·) 0, ea + eb, field wa 0 8 = 0xFF || field wb 0 8 = 0xFF)
  | _, _ => none

/-- A row holds a block that decodes to NaN: one with scale 0xFF that is not ZERO (R68, R69). -/
def MxRow.hasNan (r : MxRow) : Bool := r.scales.any fun w => field w 8 2 ≠ 2 && field w 0 8 = 0xFF

/-- One accumulator element through a K-step: groups of P blocks in increasing K (R78-R81); IV where a block of either row decodes to NaN, whatever it meets (R68; log 29). -/
def MxJob.element (job : MxJob) (a b : MxRow) (c : Nat) : Nat × Flags :=
  (List.range (8 / job.period)).foldl (fun (acc, f) g =>
    let bs := (List.range job.period).filterMap fun i => job.block a b (g * job.period + i)
    let (r, h) := promoteGroup acc bs
    (r, f ||| h)) (c, if a.hasNan || b.hasNan then flagIV else 0)

/-- A row of a tile; one that has not been written reads +0.0, untainted (R44, R279). -/
def Leaf.tileRow (L : Leaf) (t r : Nat) : TileRow := tget ⟨0, 0⟩ L.tiles (t * 128 + r)

/-- Sets a row of a tile. -/
def Leaf.setTileRow (L : Leaf) (t r : Nat) (row : TileRow) : Leaf := { L with tiles := tset L.tiles (t * 128 + r) row }

/-- Row m of the tile through a K-step (R273, R275). -/
def MxJob.rowStep (job : MxJob) (L : Leaf) (m : Nat) (a : MxRow) (bs : List MxRow) : Leaf :=
  let row := L.tileRow job.tile m
  let els := bs.zipIdx.map fun (b, n) => job.element a b (elem 32 n row.val.toNat)
  let val := packElems 32 ((List.range 128).map fun n => match els[n]? with | some e => e.1 | none => elem 32 n row.val.toNat)
  let t := bitsOf 128 fun n => row.taint.getLsbD n || (match bs[n]? with | some b => a.taint || b.taint || job.ctlTaint | none => false)
  (L.setTileRow job.tile m ⟨BitVec.ofNat 4096 val, BitVec.ofNat 128 t⟩).raise (els.foldl (fun f e => f ||| e.2) 0)

/-- The slot of a core whose leaf a job belongs to. -/
def State.jobSlot (s : State) (core ctx entry : Nat) : Option Nat :=
  (List.range 4).find? fun k =>
    let L := s.leafAt core k
    L.mode ≠ Mode.idle && L.ctx = ctx && L.entry = entry

/-- The leaf of a job as an actor, with the HINT of the job. -/
def State.jobActor (s : State) (core slot hint : Nat) : Actor :=
  let L := s.leafAt core slot
  ⟨s.whoFor core L.ctx, L.ctx, slot, L.recIdx, hint⟩

/-- A job ends on a fault (R277): later jobs of the leaf, queued or still parked, are discarded, and the fault waits for the instruction that reports it, behind any that waits already. -/
def State.mxFail (s : State) (core slot : Nat) (job : MxJob) (t : Trap) : State :=
  let c := s.core core
  let mine (j : MxJob) : Bool := j.ctx = job.ctx && j.entry = job.entry
  let L := s.leafAt core slot
  let gone := c.mxq.filter mine ++ L.parked
  let f : MxFault := ⟨t.cause, t.addr, job.step, job.pc, gone.map (·.tile)⟩
  (s.setCore core { c with mxq := c.mxq.filter fun j => !mine j }).setLeafAt core slot { L with mxFault := L.mxFault ++ [f], parked := [] }

/-- The queued jobs of the leaf of a slot move to the leaf, which holds them until it resumes, ahead of those that had not rejoined the queue (R282). -/
def State.parkLeaf (s : State) (core slot : Nat) : State :=
  let L := s.leafAt core slot
  let (s, js) := s.parkJobs core L
  s.setLeafAt core slot { L with parked := js ++ L.parked }

/-- The body of one pass of R273 for a job whose operands have been read: promotion, and the job's next step or its completion. -/
def State.mxPromote (s : State) (core slot : Nat) (job : MxJob) (ra rb : List MxRow) : State :=
  let L := ra.zipIdx.foldl (fun L (a, m) => job.rowStep L m a rb) (s.leafAt core slot)
  let c := s.core core
  let q := c.mxq.drop 1
  let q := if job.step + 1 < mxSteps job.kb then { job with step := job.step + 1 } :: q else q
  ((s.setCore core { c with mxq := q }).setLeafAt core slot L).occSet (occOctet (coreOctet core)) job.ctx

/-- One tile step of the head job of a core (R273, R275, R282). -/
def State.mxStepCore (s : State) (core : Nat) : State :=
  match (s.core core).mxq with
  | [] => s
  | job :: rest =>
    match s.jobSlot core job.ctx job.entry with
    | none => s.setCore core { s.core core with mxq := rest }
    | some slot =>
      if (s.ctx job.ctx).stop.isSome then s.parkLeaf core slot
      else
        let L := s.leafAt core slot
        let s := if job.init && job.step = 0 then
            s.setLeafAt core slot { L with tiles := L.tiles.filter fun e => e.1 / 128 ≠ job.tile }
          else s
        let a := s.jobActor core slot job.hint
        let m : M (List MxRow × List MxRow) := do
          let ra ← mxRows a job.da job.na job.kb job.step
          let rb ← mxRows a job.db job.nw job.kb job.step
          pure (ra, rb)
        match attempt m s with
        | .ok (.ok (ra, rb)) s' => s'.mxPromote core slot job ra rb
        | .ok (.error t) s' => s'.mxFail core slot job t
        | .error _ s' => s'

/-- The i-th compute core of an octet. -/
def octetCore (o i : Nat) : Nat := computeCore (o / 16) (o % 16 * 8 + i)

/-- The core whose turn it is and the credit it has (R284): the last one while it has credit and a job, else the first after it that has one, with its head's weight. -/
def State.mxTurn (s : State) (o : Nat) : Option (Nat × Nat) :=
  let head (i : Nat) : Option MxJob := (s.core (octetCore o i)).mxq.head?
  let last := tget 7 s.arbLast o
  let credit := tget 0 s.arbCredit o
  if 0 < credit && (head last).isSome then some (last, credit)
  else ((List.range 8).map fun i => (last + 1 + i) % 8).findSome? fun i => (head i).map fun j => (i, j.weight)

/-- The parked jobs of every leaf of an octet that find room in their queues. -/
def State.mxRefill (s : State) (o : Nat) : State :=
  ((List.range 8).map fun i => (List.range 4).map fun k => (octetCore o i, k)).flatten.foldl (fun s (c, k) => s.mxRejoin c k) s

/-- One tile step of an octet's unit (R284). A turn ends when its core has no job left. -/
def State.mxArbiter (s : State) (o : Nat) : State :=
  let s := s.mxRefill o
  match s.mxTurn o with
  | none => s
  | some (i, credit) =>
    let s := s.mxStepCore (octetCore o i)
    let left := if (s.core (octetCore o i)).mxq.isEmpty then 0 else credit - 1
    { s with arbLast := tset s.arbLast o i, arbCredit := tset s.arbCredit o left }

/-- `mx.tile-step`: the matrix unit of an octet runs one tile step (R273, R284). -/
def execMxTileStep (octet : Nat) (s : State) : Host.Outcome State Fault Refusal :=
  eventStep (fun s => s.mxArbiter (octet % 64)) s

/-- `mx.job-park`: the queued jobs of contexts with a stop pending leave a core's queue (R282). -/
def execMxJobPark (core : Nat) (s : State) : Host.Outcome State Fault Refusal :=
  eventStep (fun s =>
    (List.range 4).foldl (fun s k =>
      let L := s.leafAt core k
      if L.mode ≠ Mode.idle && (s.ctx L.ctx).stop.isSome then s.parkLeaf core k else s) s) s

/-! ## mxwait, mxrd, mxwr, mxst -/

/-- `mxwait` (R278). -/
def execMxwait (x : Args) (s : State) : Host.Outcome State Fault Refusal :=
  mxStep x (do
    mxSettle none
    updLeaf Leaf.advance) s

/-- The row operand: a register or bound one uses its bits [6:0] (R268). -/
def mxRowOf (x : Args) (s : State) : Nat × Bool :=
  let (r, t) := srcOf x s false x.b
  (r % 128, t)

/-- `mxrd` (R279). It waits for the tile's jobs, and takes a deferred fault, whatever its mask is: R279 says that it first waits, and R91 speaks of the elements (DEDUCED, log 29). The taint of row operand B joins that of each element, as R116 has every source do (DEDUCED, log 29). -/
def execMxrd (x : Args) (s : State) : Host.Outcome State Fault Refusal :=
  if s.noMatrix then finish (fail .noMatrix) s
  else finish (do
    mxSettle (some x.a.tile)
    let (r, tr) := mxRowOf x s
    updLeaf fun L =>
      let row := L.tileRow x.a.tile r
      let (g, gt) := L.vguard x 128
      (L.putV x.d.vreg 32 ((List.range 128).map fun i =>
        if g.testBit i then some (elem 32 i row.val.toNat, row.taint.getLsbD i || tr || gt.testBit i || L.ctlTaint)
        else none)).advance) s

/-- `mxwr` (R279), which waits as `mxrd` does, and whose elements take in the taint of row operand B as there (DEDUCED, log 29). -/
def execMxwr (x : Args) (s : State) : Host.Outcome State Fault Refusal :=
  if s.noMatrix then finish (fail .noMatrix) s
  else finish (do
    mxSettle (some x.d.tile)
    let (r, tr) := mxRowOf x s
    upd fun s => s.occSet (occOctet (coreOctet s.curCore)) s.leaf.ctx
    updLeaf fun L =>
      let row := L.tileRow x.d.tile r
      let (g, gt) := L.vguard x 128
      let src := (L.v[x.a.vreg]).toNat
      let st := L.vT[x.a.vreg]
      let val := packElems 32 ((List.range 128).map fun i => elem 32 i (if g.testBit i then src else row.val.toNat))
      let tn := bitsOf 128 fun i =>
        if g.testBit i then st.getLsbD i || tr || gt.testBit i || L.ctlTaint else row.taint.getLsbD i
      let L := if g = 0 then L else L.setTileRow x.d.tile r ⟨BitVec.ofNat 4096 val, BitVec.ofNat 128 tn⟩
      L.advance) s

/-- Elements of `mxst` with their addresses, numbered r * COLS + c (R280). -/
def mxstEls (base stride rows cols size : Nat) : List (Nat × Nat) :=
  ((List.range rows).map fun r => (List.range cols).map fun c =>
    (r * cols + c, narrow 64 ((base : Int) + r * toS 64 stride + (c * size : Nat)))).flatten

/-- Element (r, c) of a tile with its taint. One outside the 128 rows and columns is a free value of what the tile holds, tainted where any of the tile is, and otherwise as the free value says (R360; log 18). -/
def Leaf.tileElem (L : Leaf) (t r c : Nat) : Nat × Bool :=
  if r < 128 && c < 128 then
    let row := L.tileRow t r
    (elem 32 c row.val.toNat, row.taint.getLsbD c)
  else
    let rows := (List.range 128).map (L.tileRow t)
    let v := (Config.tileOutside (rows.map (·.val.toNat)) r c).toNat
    (v % 2 ^ 32, v.testBit 32 || rows.any (·.taint ≠ 0))

/-- `mxst` (R280). -/
def execMxst (x : Args) (s : State) : Host.Outcome State Fault Refusal :=
  mxStep x (do
    mxSettle (some x.c.tile)
    let (base, ta) := srcOf x s true x.a
    let (stride, tb) := srcOf x s true x.b
    let (shape, te) := srcOf x s true x.e
    let rows := field shape 0 8 + 1
    let cols := field shape 8 8 + 1
    let size := elSize x.ety
    let L := s.leaf
    let t0 := ta || tb || te || L.ctlT x.guard
    let el (k : Nat) : (Nat × Flags) × Bool :=
      let (v, t) := L.tileElem x.c.tile (k / cols) (k % cols)
      (if x.ety = .f32 then (v, 0) else cvtElem .f32 x.ety (modRm x) (modFtz x) false v, t)
    let ts ← checkAll x.hint.toNat (mxstEls base stride rows cols size) size .store
    storeAll ts size (noAlloc x) (fun k => (fun _ => toBytes size (el k).1.1, (el k).2 || t0)) false
    updLeaf fun L => (L.raise ((List.range (rows * cols)).foldl (fun f k => f ||| (el k).1.2) 0)).advance) s

end Sys2Proof.Machine
end

