-- ==== Sys2Proof/Machine/Engine.lean ====
section
/-! DEFINITION. Engine commands: job cards, tickets, the order among jobs, the engines' functions, waiting (R208-R233). -/

namespace Sys2Proof.Machine

/-! ## Cards -/

/-- The n-byte field of a card at an offset. -/
def cardAt (c : Card) (off n : Nat) : Nat := field c.toNat (8 * off) (8 * n)

/-- The field as a signed number. -/
def cardInt (c : Card) (off n : Nat) : Int := toS (8 * n) (cardAt c off n)

/-- FLAGS (Table 7-3): WS, SETEND, ALL, INIT. -/
def cardFlag (c : Card) (i : Nat) : Bool := (cardAt c 1 1).testBit i

/-- A field to which the displacement is added (R210). -/
def cardMoved (c : Card) (delta off : Nat) : Nat := (cardAt c off 8 + delta) % 2 ^ 64

/-- The bytes from an offset to the end of the card are zero. -/
def cardZeroFrom (c : Card) (off : Nat) : Bool := cardAt c off (128 - off) = 0

/-- The destination: DST, or BASE (R210). -/
def cardDst (c : Card) (fn delta : Nat) : Nat := cardMoved c delta (if fn = 5 || fn = 6 then 0x20 else 0x28)

/-- Extent of axis j of `eng.win` (Table 7-7). -/
def winN (c : Card) (j : Nat) : Nat := cardAt c (0x40 + 16 * j) 2

/-- Coordinates of run u of `eng.win`, axis 0 outermost (R223). -/
def winCoord (c : Card) (u j : Nat) : Nat :=
  u / (((List.range 4).filter (j < ·)).map (winN c)).foldl (· * ·) 1 % max 1 (winN c j)

/-- Sum over the axes of the coordinate times a signed field of the axis. -/
def winSum (c : Card) (u off n : Nat) : Int :=
  ((List.range 4).map fun j => (winCoord c u j : Int) * cardInt c (0x40 + 16 * j + off) n).foldl (· + ·) 0

/-- An address plus a signed distance, modulo 2^64. -/
def addrPlus (a : Nat) (d : Int) : Nat := narrow 64 ((a : Int) + d)

/-- Members of a collective (R228). -/
def collMembers (c : Card) : Nat := popcount 32 (cardAt c 0x38 4)

/-- Elements that a collective writes at each member (R228). -/
def collOut (c : Card) : Nat :=
  match cardAt c 0x35 1 with
  | 1 => cardAt c 0x30 4 / collMembers c
  | 2 => cardAt c 0x30 4 * collMembers c
  | _ => cardAt c 0x30 4

/-- Units of a job (R219): the copy is one buffer (R221). -/
def cardUnits (c : Card) (fn : Nat) : Nat :=
  match fn with
  | 1 | 2 => cardAt c 0x38 4
  | 3 => winN c 0 * winN c 1 * winN c 2 * winN c 3
  | 4 => cardAt c 0x40 4 * ceilDiv (cardAt c 0x44 4) 256
  | _ => 1

/-- The bytes of a range that lie in a card's write footprint: no other is written (R216). -/
def footPart (c : Card) (delta a n : Nat) : Nat × Nat :=
  let lo := max a (cardMoved c delta 0x10)
  (lo, min (a + n) (cardMoved c delta 0x10 + cardAt c 0x18 4) - lo)

/-- The first element of the table of `eng.scat`, by its index, that ends above an address in reach of its index bound: its bytes in the write footprint (R222). -/
def scatReach (c : Card) (delta above : Nat) : Nat × Nat :=
  let d := cardDst c 2 delta
  let es := cardAt c 0x3C 2
  let x := if above < d + es then 0 else (above - (d + es)) / cardAt c 0x40 4 + 1
  if x < cardAt c 0x44 4 then footPart c delta (d + x * cardAt c 0x40 4) es else (d, 0)

/-- The planes of `eng.dec` as the largest block makes them, as far as they lie in the write footprint (R224; log 30). -/
def decPlanes (c : Card) (delta : Nat) : Nat × Nat := footPart c delta (cardDst c 4 delta) (cardUnits c 4 * (planesOf 32 * 32))

/-- Where the bytes of a job go, as far as the card says: (address, length) of each row, run or whole destination (R217); of the table of `eng.scat` its first element, and the element that is the first to reach into the scratchpad window; of `eng.dec` the first byte of its planes too. -/
def cardDests (c : Card) (fn delta : Nat) : List (Nat × Nat) :=
  let d := cardDst c fn delta
  match fn with
  | 0 => (List.range (cardAt c 0x34 4)).map fun (r : Nat) => (addrPlus d (r * cardInt c 0x40 8), cardAt c 0x30 4)
  | 1 => [(d, cardAt c 0x38 4 * cardAt c 0x3C 2)]
  | 2 => [(d, if cardAt c 0x44 4 = 0 then 0 else cardAt c 0x3C 2), scatReach c delta (max 0xFFFE00000000 (cardMoved c delta 0x10))]
  | 3 => (List.range (cardUnits c 3)).map fun u => (addrPlus d (winSum c u 8 4), cardAt c 0x30 2)
  | 4 => [(d, 1), decPlanes c delta, (cardMoved c delta 0x30, 16 * cardUnits c 4)]
  | 7 => [(d, 4 * collOut c)]
  | _ => []

/-- A range meets the scratchpad window. -/
def inScratchWindow (a n : Nat) : Bool := n ≠ 0 && a < 2 ^ 48 && 0xFFFE00000000 < a + n

/-- The fields that R217 asks to be multiples of 4 when bytes go to a scratchpad. -/
def scratchFields (c : Card) (fn delta : Nat) : List Nat :=
  let d := cardDst c fn delta
  match fn with
  | 0 => [d, cardAt c 0x30 4, cardAt c 0x40 8]
  | 1 => [d, cardAt c 0x3C 2]
  | 2 => [d, cardAt c 0x40 4, cardAt c 0x3C 2]
  | 3 => [d, cardAt c 0x30 2] ++ (List.range 4).map fun j => cardAt c (0x48 + 16 * j) 4
  | 4 => (if inScratchWindow d 1 || inScratchWindow (decPlanes c delta).1 (decPlanes c delta).2 then [d] else [])
      ++ (if inScratchWindow (cardMoved c delta 0x30) (16 * cardUnits c 4) then [cardMoved c delta 0x30] else [])
  | _ => [d]

/-- Address of the last destination word, for SETEND (R217); of `eng.scat` the table. -/
def cardLast (c : Card) (fn delta : Nat) : Nat :=
  let d := cardDst c fn delta
  match fn with
  | 0 => addrPlus d ((cardAt c 0x34 4 - 1 : Int) * cardInt c 0x40 8 + cardAt c 0x30 4 - 4)
  | 1 => addrPlus d (cardAt c 0x38 4 * cardAt c 0x3C 2 - 4)
  | 3 => addrPlus d (winSum c (cardUnits c 3 - 1) 8 4 + cardAt c 0x30 2 - 4)
  | 4 => addrPlus (cardMoved c delta 0x30) (16 * cardUnits c 4 - 4)
  | 7 => addrPlus d (4 * collOut c - 4)
  | _ => d

/-- Limits of a function's body (Tables 7-5 to 7-10, R225, R226); `pkg` is this package's index. The model's choices (DESIGN CHOICE, log 81): the reserved WBASE of an `eng.ring` card is tested as the card holds it, before the displacement is added, and the bytes 0x40 to 0x7F of an `eng.coll` card, which Table 7-10 does not list, are reserved. -/
def cardBody (c : Card) (fn delta pkg : Nat) : Bool :=
  match fn with
  | 0 => 1 ≤ cardAt c 0x30 4 && 1 ≤ cardAt c 0x34 4 && cardZeroFrom c 0x48
  | 1 | 2 =>
    let es := cardAt c 0x3C 2
    cardAt c 0x30 8 % 4 = 0 && 1 ≤ cardAt c 0x38 4 && cardAt c 0x38 4 ≤ 2 ^ 24 && 1 ≤ es && es ≤ 4096 && 2 ^ ilog2 es = es
      && cardAt c 0x3E 2 = 0 && 1 ≤ cardAt c 0x40 4 && cardZeroFrom c 0x4C
  | 3 =>
    let nax := cardAt c 0x33 1
    1 ≤ cardAt c 0x30 2 && cardAt c 0x30 2 ≤ 4096 && 1 ≤ nax && nax ≤ 4 && cardAt c 0x3C 4 = 0
      && (List.range 4).all fun j =>
        if j < nax then 1 ≤ winN c j && cardAt c (0x4C + 16 * j) 4 = 0 else cardAt c (0x40 + 16 * j) 16 = 1
  | 4 =>
    1 ≤ cardAt c 0x40 4 && cardAt c 0x40 4 ≤ 2 ^ 24 && 1 ≤ cardAt c 0x44 4 && cardAt c 0x44 4 ≤ 2 ^ 24 && cardZeroFrom c 0x48
  | 5 =>
    let b := cardMoved c delta 0x20
    let e := b + cardAt c 0x28 8
    let w := cardMoved c delta 0x10
    b < e && w ≤ b && e ≤ w + cardAt c 0x18 4 && !(b < 2 ^ 48 && 0xFFFE00000000 < e) && !(b < 0xFFF800000000 && 0xFFF000000000 < e)
      && cardZeroFrom c 0x30
  | 6 =>
    let b := cardMoved c delta 0x20
    let role := cardAt c 0x2C 1
    0xFFFE00000000 ≤ b && b < 2 ^ 48 && b % 4 = 0 && 1 ≤ cardAt c 0x28 4 && cardAt c 0x28 4 ≤ 4096 && 1 ≤ role && role ≤ 3
      && cardZeroFrom c 0x2D && cardAt c 4 4 = 0 && cardAt c 8 8 = 0 && cardAt c 0x10 8 = 0 && cardAt c 0x18 4 = 0
  | _ =>
    let group := cardAt c 0x38 4
    let kind := cardAt c 0x35 1
    1 ≤ cardAt c 0x30 4 && cardAt c 0x30 4 ≤ 2 ^ 24 && cardAt c 0x34 1 ≤ 8 && kind ≤ 3 && cardAt c 0x37 1 = 0 && group.testBit pkg
      && (kind ≠ 1 || cardAt c 0x30 4 % collMembers c = 0) && (kind ≠ 3 || group.testBit (cardAt c 0x36 1)) && cardZeroFrom c 0x40

/-- CardValid (R209, R211, R217). -/
def cardValid (c : Card) (fn delta pkg : Nat) : Bool :=
  let flags := match fn with | 5 => 4 | 6 => 8 | _ => 3
  cardAt c 0 1 = fn && cardAt c 1 1 &&& flags = cardAt c 1 1 && cardAt c 2 2 = 0 && cardAt c 0x1C 4 = 0 && cardBody c fn delta pkg
    && (!((cardDests c fn delta).any fun (a, n) => inScratchWindow a n) || (scratchFields c fn delta).all (· % 4 = 0))
    && (!(cardFlag c 1) || inScratchWindow (cardLast c fn delta) 1)

/-! ## Ranges -/

/-- An address with a local-alias scratchpad address in its named form (R51, R215). -/
def namedAddr (core slot ea : Nat) : Nat :=
  if 0xFFFE00000000 ≤ ea && ea < 0xFFFE00040000 && core < 512 then scrNamed core (slot * 0x40000) + (ea - 0xFFFE00000000) else ea

/-- A range with the part of it in the local alias in named form: what lies below the alias, in it, and above it (R51, R215). -/
def namedRange (core slot a n : Nat) : List (Nat × Nat) :=
  let lo := max a 0xFFFE00000000
  let hi := min (a + n) 0xFFFE00040000
  if core < 512 && lo < hi then
    (if a < lo then [(a, lo)] else []) ++ [(namedAddr core slot lo, namedAddr core slot lo + (hi - lo))] ++ (if hi < a + n then [(hi, a + n)] else [])
  else [(a, a + n)]

/-- The read footprint of a card (Table 7-3). -/
def cardReadFoot (c : Card) (core slot : Nat) : List (Nat × Nat) := namedRange core slot (cardAt c 8 8) (cardAt c 4 4)

/-- The write footprint of a card (Table 7-3). -/
def cardWriteFoot (c : Card) (delta core slot : Nat) : List (Nat × Nat) := namedRange core slot (cardMoved c delta 0x10) (cardAt c 0x18 4)

/-- Ranges a job reads: the read footprint, and the index list of `eng.gath` and `eng.scat` (R215, R222). -/
def cardReads (c : Card) (fn core slot : Nat) : List (Nat × Nat) :=
  cardReadFoot c core slot ++ (if fn = 1 || fn = 2 then namedRange core slot (cardAt c 0x30 8) (4 * cardAt c 0x38 4) else [])

/-- Ranges a job writes: the write footprint, the scale rows of `eng.dec`, the words of a ring it declares (R215, R224, R226). -/
def cardWrites (c : Card) (fn delta core slot : Nat) : List (Nat × Nat) :=
  cardWriteFoot c delta core slot
    ++ (match fn with
      | 4 => namedRange core slot (cardMoved c delta 0x30) (16 * cardUnits c 4)
      | 6 => if cardFlag c 3 then namedRange core slot (cardMoved c delta 0x20) (4 * cardAt c 0x28 4) else []
      | _ => [])

/-- What a job may read by its read footprint (R216). -/
def Job.readFoot (j : Job) (core : Nat) : List (Nat × Nat) := cardReadFoot j.card core j.slot

/-- What a job may write by its write footprint (R216). -/
def Job.writeFoot (j : Job) (core : Nat) : List (Nat × Nat) := cardWriteFoot j.card j.delta core j.slot

/-- Two lists of ranges overlap; an empty range overlaps nothing (R215, R216). -/
def rangesOverlap (xs ys : List (Nat × Nat)) : Bool :=
  xs.any fun (a, b) => ys.any fun (c, d) => a < b && c < d && a < d && c < b

/-! ## Accesses of a job -/

/-- A job as an actor: the context and the core that issued it (R220). -/
def State.engActor (s : State) (core : Nat) (j : Job) : Actor :=
  if 1024 ≤ core then ⟨whoDcc (core - 1024), 1024, 0, 0, 4 * j.hint⟩ else ⟨s.whoFor core j.ctx, j.ctx, j.slot, 0, 4 * j.hint⟩

/-- An address in the scratchpad window, for a job of a leaf. -/
def engScratch (core ea : Nat) : Bool := core < 1024 && 0xFFFE00000000 ≤ ea && ea < 2 ^ 48

/-- A word that a job names, and how it is written: its place, which follows the leaf that issued the job (R313, R314); what the leaf left at its end, which nothing writes any more (R425, R426, log 56); and a check of R178 for any other allocation. -/
def engWord (core : Nat) (j : Job) (ea : Nat) (kind : Kind) : M (ScrWord × Option (ScrWord → State → State)) := do
  let s ← get
  let n := namedAddr core j.slot ea
  let lo := scrNamed core (j.slot * 0x40000)
  if lo ≤ n && n < lo + 0x40000 then
    match s.ownPlace j.ctx j.entry with
    | some (p, size) =>
      if size ≤ n - lo then fail .scrAddrBad ea
      else pure (s.ownWord j.ctx p ((n - lo) / 4), some fun w s => s.setOwnWord j.ctx p ((n - lo) / 4) w)
    | none =>
      match j.kept with
      | some (t, size) => if size ≤ n - lo then fail .scrAddrBad ea else pure (tget ⟨0, 0, false⟩ t ((n - lo) / 4), none)
      | none => fail .scrAddrBad ea
  else match ← checkAccess (s.engActor core j) ea 1 kind with
    | .scr c off => pure (s.scrWord c (off / 4), some fun w s => s.setScrWord c (off / 4) w)
    | _ => fail .scrAddrBad ea

/-- Bytes that a job may take at an address in one access, cut at the end of the footprint (R216): 0 outside it. -/
def engFit (core : Nat) (j : Job) (foot : List (Nat × Nat)) (ea n : Nat) : Nat :=
  let a := namedAddr core j.slot ea
  let p := min n (if engScratch core ea then 4 - ea % 4 else 32 - ea % 32)
  match foot.find? fun r => r.1 ≤ a && a < r.2 with
  | some r => min p (r.2 - a)
  | none => 0

/-- A check of a job's access: PORT_KIND in the view aperture, then R178 (R220). -/
def engCheck (core : Nat) (j : Job) (ea size : Nat) (kind : Kind) : M Target := do
  let s ← get
  if core < 1024 && 0xFFF000000000 ≤ ea && ea ≤ 0xFFF7FFFFFFFF then fail .portKind ea
  else checkAccess (s.engActor core j) ea size kind

/-- Reads p bytes within one word or sector, each with the taint of that word or sector (R219). -/
def engPiece (core : Nat) (j : Job) (ea p : Nat) : M (List (Byte × Bool)) := do
  if engScratch core ea then do
    let (w, _) ← engWord core j ea .load
    pure (((toBytes 4 w.val.toNat).drop (ea % 4)).take p |>.map fun b => (b, w.taint))
  else do
    let t ← engCheck core j ea 1 .load
    let s ← get
    let (bs, tn) ← engineLoad (s.engActor core j) t p
    pure (bs.map fun b => (b, tn))

/-- Reads n bytes of the read footprint, up to the first that fails, and the cause of the failure. -/
def engRead (core : Nat) (j : Job) : Nat → Nat → Nat → M (List (Byte × Bool) × Option Cause)
  | 0, _, _ => pure ([], none)
  | fuel + 1, ea, n =>
    if n = 0 then pure ([], none)
    else
      let p := engFit core j (j.readFoot core) ea n
      if p = 0 then pure ([], some .engFootprint)
      else do
        match ← attempt (engPiece core j ea p) with
        | .error t => pure ([], some t.cause)
        | .ok bs => do
          let (rest, c) ← engRead core j fuel ((ea + p) % 2 ^ 64) (n - p)
          pure (bs ++ rest, c)

/-- Reads n bytes of the read footprint, all or the cause. -/
def engReadAll (core : Nat) (j : Job) (ea n : Nat) : M (List (Byte × Bool)) := do
  let (bs, c) ← engRead core j n ea n
  match c with
  | some c => fail c ea
  | none => pure bs

/-- The writes that put data at an address, in increasing address (R217, R219): whole words of a scratchpad, bytes within a sector elsewhere, each adding its bytes to COUNT; `last` says that the last word takes END. A copy whose source read fails inside a word of a scratchpad leaves fewer than 4 bytes at the end: they are neither written nor counted, where R219 counts bytes and R217 writes whole words (DESIGN CHOICE, log 81). -/
def engSplit (core : Nat) (j : Job) (last : Bool) : Nat → Nat → List (Byte × Bool) → List JobWrite
  | 0, _, _ => []
  | fuel + 1, ea, data =>
    if data.isEmpty then []
    else if engScratch core ea then
      if data.length < 4 then (if j.fn = 0 then [] else [.bytes ea data data.length])
      else
        let w := data.take 4
        .word ea (BitVec.ofNat 32 (ofBytes (w.map (·.1)))) (w.any (·.2)) (last && data.length = 4) 4
          :: engSplit core j last fuel ((ea + 4) % 2 ^ 64) (data.drop 4)
    else
      let f := engFit core j (j.writeFoot core) ea data.length
      let p := if f = 0 then min data.length (32 - ea % 32) else f
      .bytes ea (data.take p) p :: engSplit core j last fuel ((ea + p) % 2 ^ 64) (data.drop p)

/-- What a write adds to COUNT. -/
def JobWrite.adds : JobWrite → Nat
  | .bytes _ _ n => n
  | .word _ _ _ _ n => n

/-- A write that adds n to COUNT. -/
def JobWrite.withCount (n : Nat) : JobWrite → JobWrite
  | .bytes a b _ => .bytes a b n
  | .word a v t l _ => .word a v t l n

/-- The writes of a unit: only its last one adds to COUNT, n in all. -/
def unitWrites (n : Nat) : List JobWrite → List JobWrite
  | [] => [.bytes 0 [] n]
  | [w] => [w.withCount n]
  | w :: ws => w.withCount 0 :: unitWrites n ws

/-- n bytes at an address lie in a range that the job writes (R216). -/
def engInside (core : Nat) (j : Job) (ea n : Nat) : Bool :=
  let a := namedAddr core j.slot ea
  j.writes.any fun (lo, hi) => lo ≤ a && a + n ≤ hi

/-- Checks a write before it is made: footprint, R178, and the fill of its granule (R219, R220). -/
def engPrecheck (core : Nat) (j : Job) (w : JobWrite) : M Unit :=
  match w with
  | .bytes _ [] _ => pure ()
  | .bytes a bs _ => do
    if !engInside core j a bs.length then fail .engFootprint a else pure ()
    let t ← engCheck core j a 1 .store
    let s ← get
    fillHome (s.engActor core j) t bs.length
  | .word a _ _ _ _ => do
    if !engInside core j a 4 then fail .engFootprint a else pure ()
    let _ ← engWord core j a .store
    pure ()

/-- With WS a word waits to be EMPTY; POISON and END end the job (R217). -/
def engReady (core : Nat) (j : Job) (w : JobWrite) : M Unit :=
  match w with
  | .bytes _ _ _ => pure ()
  | .word a _ _ _ _ => do
    let (old, put) ← engWord core j a .store
    if cardFlag j.card 0 then
      if old.st = 3 then fail .engWsPoison a
      else if old.st = 2 then fail .engWsEnd a
      else if old.st = 1 && put.isSome then waitHere
      else pure ()
    else pure ()

/-- Performs a write at its home (R217, R219). -/
def engWrite (core : Nat) (j : Job) (w : JobWrite) : M Unit :=
  match w with
  | .bytes _ [] _ => pure ()
  | .bytes a bs _ => do
    if !engInside core j a bs.length then fail .engFootprint a else pure ()
    let t ← engCheck core j a 1 .store
    let s ← get
    engineStore (s.engActor core j) t a (bs.map (·.1)) (bs.any (·.2))
  | .word a v t last _ => do
    if !engInside core j a 4 then fail .engFootprint a else pure ()
    let (_, put) ← engWord core j a .store
    match put with
    | some f => upd (f ⟨v, if last then 2 else 1, t⟩)
    | none => fail .scrAddrBad a

/-! ## Units -/

/-- SETEND holds for unit u, the last of its job. -/
def Job.endsAt (j : Job) (u : Nat) : Bool := cardFlag j.card 1 && u + 1 = cardUnits j.card j.fn

/-- `eng.copy` (R221): the source as far as it can be read, as one buffer; the failure follows the bytes before it. -/
def unitCopy (core : Nat) (j : Job) : M (List JobWrite × Option Cause) := do
  let c := j.card
  let rows := cardAt c 0x34 4
  let mut out : List JobWrite := []
  let mut err : Option Cause := none
  for r in List.range rows do
    match err with
    | some _ => pure ()
    | none => do
      let n := cardAt c 0x30 4
      let (bs, e) ← engRead core j n (addrPlus (cardAt c 0x20 8) (r * cardInt c 0x38 8)) n
      let d := addrPlus (cardDst c 0 j.delta) (r * cardInt c 0x40 8)
      out := out ++ engSplit core j (cardFlag c 1 && e.isNone && r + 1 = rows) bs.length d bs
      err := e
  pure (out, err)

/-- Entry i of an index list and its taint (R222). -/
def idxAt (core : Nat) (j : Job) (i : Nat) : M (Nat × Bool) := do
  let bs ← engPiece core j ((cardAt j.card 0x30 8 + 4 * i) % 2 ^ 64) 4
  pure (ofBytes (bs.map (·.1)), bs.any (·.2))

/-- Bytes that an element moves, tainted by its index as well, which is part of its address (R184). -/
def taintBytes (t : Bool) (bs : List (Byte × Bool)) : List (Byte × Bool) := bs.map fun b => (b.1, b.2 || t)

/-- Element u of `eng.gath` (R222). -/
def unitGath (core : Nat) (j : Job) (u : Nat) : M (List JobWrite) := do
  let c := j.card
  let es := cardAt c 0x3C 2
  let (x, tx) ← idxAt core j u
  let d := (cardDst c 1 j.delta + u * es) % 2 ^ 64
  let bs ← (if x = cardAt c 0x48 4 then pure (List.replicate es (0, false))
    else if cardAt c 0x44 4 ≤ x then fail .engIndexRange
    else engReadAll core j ((cardAt c 0x20 8 + x * cardAt c 0x40 4) % 2 ^ 64) es)
  pure (engSplit core j (j.endsAt u) es d (taintBytes tx bs))

/-- Every entry of the index list from i on is the sentinel. -/
def restSentinel (core : Nat) (j : Job) : Nat → Nat → M Bool
  | 0, _ => pure true
  | n + 1, i => do
    match ← attempt (idxAt core j i) with
    | .error _ => pure false
    | .ok (x, _) => if x = cardAt j.card 0x48 4 then restSentinel core j n (i + 1) else pure false

/-- Element u of `eng.scat` (R222): the last word written is that of the last element that is not a sentinel. -/
def unitScat (core : Nat) (j : Job) (u : Nat) : M (List JobWrite) := do
  let c := j.card
  let es := cardAt c 0x3C 2
  let (x, tx) ← idxAt core j u
  if x = cardAt c 0x48 4 then pure []
  else if cardAt c 0x44 4 ≤ x then fail .engIndexRange
  else do
    let bs ← engReadAll core j ((cardAt c 0x20 8 + u * es) % 2 ^ 64) es
    let last ← (if cardFlag c 1 then restSentinel core j (cardUnits c 2 - (u + 1)) (u + 1) else pure false)
    pure (engSplit core j last es ((cardDst c 2 j.delta + x * cardAt c 0x40 4) % 2 ^ 64) (taintBytes tx bs))

/-- A bounded coordinate of `eng.win` is inside its limit (R223). -/
def winInside (c : Card) (u lim off mul : Nat) : Bool :=
  let y := cardInt c off 2 + winSum c u mul 1
  cardAt c lim 2 = 0 || (0 ≤ y && y < (cardAt c lim 2 : Int))

/-- Run u of `eng.win` (R223). -/
def unitWin (core : Nat) (j : Job) (u : Nat) : M (List JobWrite) := do
  let c := j.card
  let n := cardAt c 0x30 2
  let bs ← (if winInside c u 0x34 0x38 2 && winInside c u 0x36 0x3A 3
    then engReadAll core j (addrPlus (cardAt c 0x20 8) (winSum c u 4 4)) n
    else pure (List.replicate n (BitVec.ofNat 8 (cardAt c 0x32 1), false)))
  pure (engSplit core j (j.endsAt u) n (addrPlus (cardDst c 3 j.delta) (winSum c u 8 4)) bs)

/-- The window that decodes a source row (R224): the lowest-numbered enabled one of the context whose payload range contains the address, as die * 512 + string core * 16 + window. -/
def State.decWindow (s : State) (ctx pa : Nat) : Option Nat :=
  match (s.homeOf pa).place with
  | none => none
  | some (d, sc) => (List.range 16).findSome? fun w =>
      match s.fwinOf d sc w with
      | some f => if f.owner = ctx && f.pbase ≤ pa && pa < f.pbase + f.plen then some (d * 512 + sc * 16 + w) else none
      | none => none

/-- The source row of unit u of `eng.dec`, its physical address and its window, which is chosen when the row is reached (R224). -/
def decRow (core : Nat) (j : Job) (u : Nat) : M (Nat × Nat × Nat) := do
  let r := u / ceilDiv (cardAt j.card 0x44 4) 256
  let va := (cardAt j.card 0x20 8 + r * cardAt j.card 0x38 8) % 2 ^ 64
  match j.row with
  | some (r', pa, w) => if r' = r then pure (r, pa, w) else rowAt r va
  | none => rowAt r va
where
  /-- The row at an address. -/
  rowAt (r va : Nat) : M (Nat × Nat × Nat) := do
    let t ← engCheck core j va 1 .load
    let s ← get
    match t with
    | .mem tr =>
      match s.decWindow j.ctx tr.pa with
      | some w => pure (r, tr.pa, w)
      | none => fail .fwinUndef va
    | _ => fail .fwinUndef va

/-- The scale word of block b of a row of a window's payload, and its taint (R71, R224). -/
def decWord (w : Who) (f : Fwin) (va row b : Nat) : M (Nat × Bool) := do
  let off := 2 * (row * ceilDiv f.k 32 + b)
  if f.sclen < off + 2 then fail .fwinScaleShort va
  else do
    let (bs, tn) ← homeReadN w plainAttr (f.scbase + off) 2
    pure (ofBytes bs, tn)

/-- The payload of block i of a source row, and its taint; the payload of a ZERO block is not read (R69, R224). -/
def decPayload (core : Nat) (j : Job) (f : Fwin) (va i word : Nat) : M (Nat × Bool) := do
  if field word 8 2 = 2 then pure (0, false)
  else do
    let bs ← engReadAll core j ((va + i * f.bud) % 2 ^ 64) f.bud
    pure (ofBytes (bs.map (·.1)), bs.any (·.2))

/-- Chunk u of `eng.dec` (R224): its blocks in the geometry of the row's window, planes and scale row. The payload of a ZERO block is not read (R69). A window whose RSTR is 0 has no row: FWIN_UNDEF (DESIGN CHOICE, log 81). -/
def unitDec (core : Nat) (j : Job) (u : Nat) : M (List JobWrite × Nat) := do
  let c := j.card
  let k := cardAt c 0x44 4
  let per := ceilDiv k 256
  let nb := ceilDiv k 32
  let va := (cardAt c 0x20 8 + u / per * cardAt c 0x38 8) % 2 ^ 64
  let (_, pa, win) ← decRow core j u
  let s ← get
  let w := (s.engActor core j).who
  match s.fwinOf (win / 512) (win / 16 % 32) (win % 16) with
  | none => fail .fwinUndef va
  | some f =>
    let o := (pa - f.pbase) % f.rstr
    let row := (pa - f.pbase) / f.rstr
    let b0 := o / f.bud
    if f.rstr = 0 || o % f.bud ≠ 0 || ceilDiv f.k 32 < b0 + nb then fail .fwinUndef va
    else do
      let first := u % per * 8
      let n := min 8 (nb - first)
      let words ← (List.range n).mapM fun i => decWord w f va row (b0 + first + i)
      match words.findSome? fun (x : Nat × Bool) => scaleFault x.1 with
      | some e => fail e va
      | none => do
        let pays ← words.zipIdx.mapM fun (x : (Nat × Bool) × Nat) => decPayload core j f va (first + x.2) x.1.1
        let (tab, tt) ← fwinTable w f (words.any fun x => field x.1 8 2 = 1)
        match decodeChunk f.bud tab (List.zip (pays.map (·.1)) (words.map (·.1))) (min 256 (k - u % per * 256)) with
        | .error e => fail e va
        | .ok (ps, sw) =>
          let tn := words.any (·.2) || pays.any (·.2) || tt
          let dd := planesOf f.bud
          let put (bs : List Byte) : List (Byte × Bool) := bs.map fun b => (b, tn)
          let pl := put (ps.map (toBytes 32)).flatten
          let sr := put (toBytes 16 (packElems 16 sw))
          pure (engSplit core j false pl.length ((cardDst c 4 j.delta + u * dd * 32) % 2 ^ 64) pl
            ++ engSplit core j (j.endsAt u) 16 ((cardMoved c j.delta 0x30 + 16 * u) % 2 ^ 64) sr, dd * 32 + 16)

/-- The writes of unit u with what they add to COUNT, and a cause that ends the job after them (R219). -/
def engUnit (core : Nat) (j : Job) (u : Nat) : M (List JobWrite × Option Cause) := do
  if j.fn = 0 then unitCopy core j
  else do
    let (ws, n) ← (match j.fn with
      | 1 => do
        let ws ← unitGath core j u
        pure (ws, 1)
      | 2 => do
        let ws ← unitScat core j u
        pure (ws, 1)
      | 3 => do
        let ws ← unitWin core j u
        pure (ws, cardAt j.card 0x30 2)
      | _ => unitDec core j u)
    pure (unitWrites n ws, none)

/-! ## Running -/

/-- A job of a core. -/
def State.job (s : State) (core jid : Nat) : Option Job := tfind (s.core core).jobs jid

/-- Sets a job of a core. -/
def State.setJob (s : State) (core jid : Nat) (j : Job) : State :=
  let c := s.core core
  s.setCore core { c with jobs := tset c.jobs jid j }

/-- Updates a job of a core. -/
def State.updJob (s : State) (core jid : Nat) (f : Job → Job) : State :=
  match s.job core jid with
  | some j => s.setJob core jid (f j)
  | none => s

/-- A job that ends failed. -/
def Job.failed (j : Job) (c : Cause) : Job := { j with fail := some c, pend := [] }

/-- Nothing is left for a started job to do. -/
def Job.over (j : Job) : Bool := j.started && j.pend.isEmpty && (j.fail.isSome || cardUnits j.card j.fn ≤ j.unit)

/-- The writes that are performed together: one word or piece of a copy, whose units are bytes, and the whole unit of any other job, so that a unit that fails leaves nothing written (R219, R228). -/
def Job.together (j : Job) : List JobWrite := if j.fn = 0 then j.pend.take 1 else j.pend

/-- The writes of a unit: each is checked, and with WS each word is EMPTY, before the first is made (R217, R219). -/
def engPutAll (core : Nat) (j : Job) (ws : List JobWrite) : M Unit := do
  for w in ws do
    engPrecheck core j w
    engReady core j w
  for w in ws do
    engWrite core j w

/-- Performs the next writes of a job (R217, R219); a job that waits changes nothing. -/
def State.engPut (s : State) (core jid : Nat) : State :=
  match s.job core jid with
  | none => s
  | some j =>
    let ws := j.together
    if ws.isEmpty then s
    else match attempt (engPutAll core j ws) s with
      | .ok (.ok _) s' => s'.updJob core jid fun j =>
        { j with pend := j.pend.drop ws.length, count := j.count + (ws.map JobWrite.adds).foldl (· + ·) 0 }
      | .ok (.error t) s' => s'.updJob core jid fun j => j.failed t.cause
      | .error _ _ => s

/-- Prepares the next unit of a job whose last one is complete. -/
def State.engNext (s : State) (core jid : Nat) : State :=
  match s.job core jid with
  | none => s
  | some j =>
    if !j.pend.isEmpty || j.over then s
    else
      let run : M (List JobWrite × Option Cause × Option (Nat × Nat × Nat)) := do
        let j ← (if j.fn = 4 then do
            let r ← decRow core j j.unit
            pure { j with row := some r }
          else pure j)
        let (ws, e) ← engUnit core j j.unit
        pure (ws, e, j.row)
      match attempt run s with
      | .ok (.ok (ws, e, r)) s' => s'.updJob core jid fun j => { j with pend := ws, fail := e, unit := j.unit + 1, row := r }
      | .ok (.error t) s' => s'.updJob core jid fun j => j.failed t.cause
      | .error _ s' => s'

/-- Performs every write of the unit in progress. -/
def State.engDrain (s : State) (core jid : Nat) : State :=
  (List.range (((s.job core jid).map fun j => j.pend.length).getD 0)).foldl (fun s _ => s.engPut core jid) s

/-- Runs a job that waits for no word from its first unit to its last. -/
def State.engRun (s : State) (core jid : Nat) : State :=
  (List.range (((s.job core jid).map fun j => cardUnits j.card j.fn).getD 0)).foldl
    (fun s _ => (s.engNext core jid).engDrain core jid) s

/-- The granule of a physical address that `eng.seal` reaches (R225): its size, and whether it was resealed. A granule of another package is resealed there; one that nothing has written since then holds no dirty bytes, and whether another still does this package does not see, so that is a free value (log 31). -/
def sealAt (core : Nat) (j : Job) (a pa : Nat) (attr : Attr) : M (Nat × Bool) := do
  let s ← get
  let who := (s.engActor core j).who
  let g := attr.g512
  let base := granBase pa g
  let all := cardFlag j.card 2
  arriveHome who base false true
  let s ← get
  if (s.homeOf base).place.isNone then
    let units := (List.range (granSize g / 512)).map fun i => base / 512 + i
    upd fun s => { s with podDirty := s.podDirty.filter fun u => !units.contains u }
    pure (granSize g, all || (s.podDirty.any units.contains && Config.remoteDirty base j.card.toNat))
  else if s.l2.any fun e => base / 128 ≤ e.1 && e.1 < (base + granSize g) / 128 && e.2.slot ≠ who.slot then fail .sealTenant a
  else do
    if all && (s.dirtyLines base g).isEmpty then
      match s.checkGranule base who.slot g attr.anchor with
      | .error (c, q) => do
        if q then upd fun s => s.quarantine base g else pure ()
        fail c a
      | .ok _ => pure ()
    else pure ()
    let s ← get
    let (s', o) := s.writeBack base g attr.anchor all
    set s'
    match o with
    | .nothing => pure (granSize g, false)
    | .done => pure (granSize g, true)
    | .failed c => fail c a
    | .frozen => fail .sealExhausted a

/-- One granule of `eng.seal` at an address, whose page is checked as an engine write (R225). -/
def sealStep (core : Nat) (j : Job) (a : Nat) : M (Nat × Bool) := do
  match ← engCheck core j a 1 .store with
  | .mem tr => sealAt core j a tr.pa tr.attr
  | .sv pa _ => do
    let s ← get
    sealAt core j a pa (s.plainAt pa)
  | _ => fail .engFootprint a

/-- `eng.seal` from an address to the end of its range (R225). -/
def State.sealRun (s : State) (core jid stop : Nat) : Nat → Nat → State
  | 0, _ => s.updJob core jid fun j => { j with unit := 1 }
  | fuel + 1, a =>
    match s.job core jid with
    | none => s
    | some j =>
      if stop ≤ a then s.updJob core jid fun j => { j with unit := 1 }
      else match attempt (sealStep core j a) s with
        | .ok (.ok (n, done)) s' =>
          (s'.updJob core jid fun j => { j with count := j.count + done.toNat }).sealRun core jid stop fuel (a - a % n + n)
        | .ok (.error t) s' => s'.updJob core jid fun j => j.failed t.cause
        | .error _ s' => s'

/-- `eng.ring` (R226) by the leaf in a slot; `base` is the named address of the words. -/
def State.ringRun (s : State) (core slot base : Nat) (j : Job) : Except Cause State :=
  let n := cardAt j.card 0x28 4
  let mine : Nat × Nat := (j.entry, cardAt j.card 0x2C 1)
  if cardFlag j.card 3 then
    let lo := scrNamed core (slot * 0x40000)
    let size := (s.ctx j.ctx).scratchOf (s.leafAt core slot).recIdx
    let off := slot * 0x40000 + (base - lo)
    let c := s.core core
    if base < lo || lo + size < base + 4 * n || Config.rings ≤ c.rings.length
        || c.rings.any (fun r => r.base < off + 4 * n && off < r.base + 4 * r.slots) then .error .ringBad
    else
      let s := s.setCore core { c with
        rings := c.rings ++ [⟨off, n, j.ctx, j.entry, [mine]⟩]
        scr := c.scr.filter fun e => e.1 < off / 4 || off / 4 + n ≤ e.1 }
      let s := ((s.msgs.filter fun e => e.2.target = core && off / 4 ≤ e.2.word && e.2.word < off / 4 + n).map fun e => e.2.word).foldl
        (fun s w => s.note (.serve core w)) s
      .ok (s.occSet (occNest (coreDie core)) j.ctx)
  else
    let at' (k : Nat) (r : Ring) : Bool := r.ctx = j.ctx && scrNamed k r.base = base
    match s.cores.find? fun (k, c) => c.rings.any (at' k) with
    | none => .error .ringBad
    | some (k, c) => .ok (s.setCore k { c with
        rings := c.rings.map fun r => if at' k r then { r with ends := (r.ends.filter (·.1 ≠ j.entry)) ++ [mine] } else r })

/-- `eng.ring` with INIT by a leaf that is suspended (R226, R231): its words lie in the saved allocation of its record, which keeps the ring until the leaf resumes (log 30); `off` is where the ring begins in the allocation. -/
def State.ringSaved (s : State) (box size off : Nat) (j : Job) : Except Cause State :=
  let n := cardAt j.card 0x28 4
  match (s.ctx j.ctx).record box with
  | none => .error .ringBad
  | some r =>
    if size < off + 4 * n || Config.rings ≤ (s.core r.core).rings.length + r.rings.length
        || r.rings.any (fun g => g.base < off + 4 * n && off < g.base + 4 * g.slots) then .error .ringBad
    else
      let s := (List.range n).foldl (fun s k =>
        if s.ownWord j.ctx (.saved box) (off / 4 + k) = ⟨0, 0, false⟩ then s else s.setOwnWord j.ctx (.saved box) (off / 4 + k) ⟨0, 0, false⟩) s
      let ring : Ring := ⟨off, n, j.ctx, j.entry, [(j.entry, cardAt j.card 0x2C 1)]⟩
      let x := s.ctx j.ctx
      .ok ((s.setCtx j.ctx { x with recs := tmap (fun k r => if k = box then { r with rings := r.rings ++ [ring] } else r) x.recs }).occSet
        (occNest (coreDie r.core)) j.ctx)

/-- Starts `eng.ring`: the words move with the leaf that issued the job, which runs on while the leaf is suspended (R231). -/
def State.ringStart (s : State) (core jid : Nat) (j : Job) : State :=
  match s.ownPlace j.ctx j.entry with
  | some (.slot c k, _) =>
    let lo := scrNamed core (j.slot * 0x40000)
    let n := namedAddr core j.slot (cardDst j.card 6 j.delta)
    let base := if lo ≤ n && n < lo + 0x40000 then scrNamed c (k * 0x40000) + (n - lo) else n
    match s.ringRun c k base j with
    | .ok s' => s'.updJob core jid fun j => { j with started := true, unit := 1 }
    | .error e => s.updJob core jid fun j => { j with started := true }.failed e
  | some (.saved b, size) =>
    let lo := scrNamed core (j.slot * 0x40000)
    let n := namedAddr core j.slot (cardDst j.card 6 j.delta)
    match (if cardFlag j.card 3 then (if lo ≤ n && n < lo + 0x40000 then s.ringSaved b size (n - lo) j else .error .ringBad)
        else s.ringRun core j.slot n j) with
      | .ok s' => s'.updJob core jid fun j => { j with started := true, unit := 1 }
      | .error e => s.updJob core jid fun j => { j with started := true }.failed e
  | none => s.updJob core jid fun j => { j with started := true }.failed .ringBad

/-- Tenant of a job's context; a die control core's is 0. -/
def State.jobTenant (s : State) (j : Job) : Nat := if j.ctx < 1024 then tget 0 s.pkg.ks.tenants (s.ctx j.ctx).desc.slot else 0

/-- Reads the elements that a member contributes (R228): of a broadcast only ROOT's, and no other member's SRC is read. -/
def collSource (core : Nat) (j : Job) : M (List (BitVec 32 × Bool)) := do
  let s ← get
  if cardAt j.card 0x35 1 = 3 && cardAt j.card 0x36 1 ≠ s.pkg.index then pure []
  else do
  let bs ← engReadAll core j (cardAt j.card 0x20 8) (4 * cardAt j.card 0x30 4)
  pure ((List.range (cardAt j.card 0x30 4)).map fun i =>
    let w := (bs.drop (4 * i)).take 4
    (BitVec.ofNat 32 (ofBytes (w.map (·.1))), w.any (·.2)))

/-- `eng.coll` announces its member (R228). -/
def State.collAnnounce (s : State) (core jid : Nat) (j : Job) : State :=
  match attempt (collSource core j) s with
  | .ok (.ok src) s' =>
    let c := j.card
    let m : CollJoin := {
      job := some (core, jid), pkg := s.pkg.index, tenant := s.jobTenant j, tag := cardAt c 0x3C 4, count := cardAt c 0x30 4
      op := cardAt c 0x34 1, kind := cardAt c 0x35 1, root := cardAt c 0x36 1, group := cardAt c 0x38 4, src := src }
    { s'.updJob core jid fun j => { j with started := true } with colls := s'.colls ++ [m] }
  | .ok (.error t) s' => s'.updJob core jid fun j => { j with started := true }.failed t.cause
  | .error _ s' => s'

/-- The launch of a job's context has been aborted or has failed (R231). -/
def State.jobCancelled (s : State) (j : Job) : Bool :=
  match (s.ctx j.ctx).launch with
  | some l => l.dead
  | none => false

/-- A job starts (R215, R231): when no job it waits for is left; one whose predecessor failed, or that still waits when its context has aborted, ends failed. -/
def State.engStart (s : State) (core jid : Nat) : State :=
  match s.job core jid with
  | none => s
  | some j =>
    if j.started then s
    else if !j.preds.isEmpty then
      (if s.jobCancelled j then s.setJob core jid ({ j with started := true }.failed .engCancelled) else s)
    else if j.predFailed then s.setJob core jid ({ j with started := true }.failed .engPredFail)
    else match j.fn with
      | 5 =>
        let b := cardMoved j.card j.delta 0x20
        let n := cardAt j.card 0x28 8
        (s.setJob core jid { j with started := true }).sealRun core jid (b + n) (n / 512 + 2) b
      | 6 => s.ringStart core jid j
      | 7 => s.collAnnounce core jid j
      | _ =>
        let s := s.setJob core jid { j with started := true }
        if cardFlag j.card 0 then s else s.engRun core jid

/-! ## Completion -/

/-- Ticket id of the n-th job of an entry: 1 to 0xFFFF, then 1 again (R213). -/
def ticketId (n : Nat) : Nat := (n - 1) % 0xFFFF + 1

/-- The reply word of a job that is over (Table 7-4). -/
def Job.reply (j : Job) : Quad :=
  BitVec.ofNat 64 (ticketId j.ticket * 2 ^ 48 + 2 ^ 47 + (if j.fail.isSome then 2 ^ 46 else 0)
    + (match j.fail with | some c => causeCode c * 2 ^ 39 | none => 0) + min j.count (2 ^ 39 - 1))

/-- The DONE bit of a reply word. -/
def replyDone (q : Quad) : Bool := q.toNat.testBit 47

/-- Puts a reply into the leaf that issued a job, its ticket and, for a q-register, the entry reserved (R212). -/
def Leaf.takeReply (L : Leaf) (j : Job) : Leaf :=
  let L := match tfind L.tickets j.ticket with
    | some t => { L with tickets := tset L.tickets j.ticket { t with reply := j.reply } }
    | none => L
  match j.replyQ with
  | none => L
  | some n =>
    let i : Fin 16 := Fin.ofNat 16 n
    let fill (e : QEntry) : QEntry := if e.ticket = j.ticket && e.value.isNone then { e with value := some j.reply } else e
    { L with q := L.q.set i ((L.q[i]).map fill) }

/-- Delivers a reply to the entry of a job where it is: a die control core, a slot, or a context image (R48, R212). -/
def State.deliver (s : State) (core : Nat) (j : Job) : State :=
  if 1024 ≤ core then
    let d := core - 1024
    s.setDcc d { (s.die d).dcc with leaf := (s.die d).dcc.leaf.takeReply j }
  else
    let mine (L : Leaf) : Bool := L.ctx = j.ctx && L.entry = j.entry
    let s := { s with leaves := tmap (fun _ L => if L.mode ≠ Mode.idle && mine L then L.takeReply j else L) s.leaves }
    let x := s.ctx j.ctx
    let held (r : Rec) : Bool := match r.saved with | some L => mine L | none => false
    match x.recs.find? fun e => held e.2 with
    | some (i, r) =>
      let s := s.setCtx j.ctx { x with recs := tset x.recs i { r with saved := r.saved.map fun L => L.takeReply j } }
      match r.saved with
      | some L => runIgnore (nestWrite (s.dieFor j.ctx (coreDie core)) j.ctx (r.resume.toNat + 0x800) (L.takeReply j).imageQueues .image) s
      | none => s
    | none => s

/-- Completion (R212, R214, R215): the reply, the ticket freed, the successors. -/
def State.engEnd (s : State) (core jid : Nat) : State :=
  match s.job core jid with
  | none => s
  | some j =>
    if !j.over then s
    else
      let s := s.deliver core j
      let c := s.core core
      let next (k : Job) : Job :=
        if k.preds.contains jid then { k with preds := k.preds.filter (· ≠ jid), predFailed := k.predFailed || j.fail.isSome } else k
      s.setCore core { c with jobs := tmap (fun _ k => next k) (terase c.jobs jid) }

/-- `eng.job-start`. -/
def execEngJobStart (core jid : Nat) (s : State) : Host.Outcome State Fault Refusal :=
  eventStep (fun s => s.engStart core jid) s

/-- `eng.ws-word-write`: the next write of a job that waits for word states (R217). -/
def execEngWsWordWrite (core jid : Nat) (s : State) : Host.Outcome State Fault Refusal :=
  eventStep (fun s => match s.job core jid with
    | some j => if j.started && j.fn ≠ 7 then (s.engNext core jid).engPut core jid else s.engPut core jid
    | none => s) s

/-- `eng.job-complete`. -/
def execEngJobComplete (core jid : Nat) (s : State) : Host.Outcome State Fault Refusal :=
  eventStep (fun s => s.engEnd core jid) s

/-! ## Collectives -/

/-- Members of one rendezvous. -/
def State.joins (s : State) (tenant tag : Nat) : List CollJoin := s.colls.filter fun m => m.tenant = tenant && m.tag = tag

/-- Members disagree, or a package has two of them (R228), two jobs of one context with one TAG as well, of which R228 does not speak (DESIGN CHOICE, log 75). -/
def collMismatch (ms : List CollJoin) : Bool :=
  match ms with
  | [] => false
  | m :: rest =>
    rest.any (fun n => n.count ≠ m.count || n.op ≠ m.op || n.kind ≠ m.kind || n.root ≠ m.root || n.group ≠ m.group || n.pkg = m.pkg)
      || collMismatch rest

/-- One element over the members in canonical order (R20, R228). -/
def collElem (op : Nat) (xs : List (BitVec 32 × Bool)) : BitVec 32 × Bool :=
  (treeReduce (fun a b => ((((viewMerge op a.1 b.1).1, a.2 || b.2) : BitVec 32 × Bool), (0 : Flags))) (0, false) 6 xs).1

/-- What a collective writes at the member of rank r, from the members' data in increasing package index (R228). -/
def collResult (m : CollJoin) (srcs : List (List (BitVec 32 × Bool))) (r rootRank : Nat) : List (BitVec 32 × Bool) :=
  let elem (e : Nat) : BitVec 32 × Bool := collElem m.op (srcs.map fun s => s.getD e (0, false))
  match m.kind with
  | 0 => (List.range m.count).map elem
  | 1 =>
    let n := m.count / srcs.length
    (List.range n).map fun e => elem (r * n + e)
  | 2 => srcs.flatten
  | _ => srcs.getD rootRank []

/-- Member packages of a group mask. -/
def groupPkgs (g : Nat) : List Nat := (List.range 32).filter g.testBit

/-- A member may take part: its own context is not stopped (R228), and the tenant is resident on this package, where a context of it holds a partition (R409); a die control core's jobs belong to no tenant's partition. -/
def State.collResident (s : State) (j : Job) : Bool :=
  1024 ≤ j.ctx || (s.ctx j.ctx).st = CtxSt.running && s.holders.any fun e => s.jobTenant { j with ctx := e.2 } = s.jobTenant j

/-- Writes the result of a collective for this package's member. What COUNT then holds is not stated: a free value, which the card alone decides, since a reply is not tainted (R212, R360; log 19). -/
def State.collFinish (s : State) (core jid : Nat) (j : Job) (m : CollJoin) (ms : List CollJoin) : State :=
  let order := groupPkgs m.group
  let srcs := order.map fun p => ((ms.find? fun n => n.pkg = p).map (·.src)).getD []
  let rank (p : Nat) : Nat := (order.findIdx? (· = p)).getD 0
  let out := collResult m srcs (rank m.pkg) (rank m.root)
  let data : List (Byte × Bool) := (out.map fun (v, t) => (toBytes 4 v.toNat).map fun b => (b, t)).flatten
  let ws := engSplit core j (cardFlag j.card 1) data.length (cardDst j.card 7 j.delta) data
  let s := s.updJob core jid fun j => { j with pend := unitWrites (Config.collCount j.card.toNat % 2 ^ 39) ws, unit := 1 }
  if cardFlag j.card 0 then s else s.engPut core jid

/-- Ends the members that this package has in some joins, with a cause (R228). -/
def State.collFail (s : State) (ms : List CollJoin) (c : Cause) : State :=
  ms.foldl (fun s m => match m.job with
    | some (k, i) => s.updJob k i fun j => j.failed c
    | none => s) s

/-- `coll.start` (R228). -/
def State.collStart (s : State) (tenant tag : Nat) : State :=
  let ms := s.joins tenant tag
  let clear (s : State) : State := { s with colls := s.colls.filter fun m => !(m.tenant = tenant && m.tag = tag) }
  match ms.findSome? fun m => m.job.map fun j => (m, j) with
  | none => s
  | some (m, core, jid) =>
    if collMismatch ms then clear (s.collFail ms .collMismatch)
    else match s.job core jid with
      | none => s
      | some j =>
        let all := (groupPkgs m.group).all fun p => ms.any (·.pkg = p)
        if (groupPkgs m.group).any fun p => p ≠ m.pkg && !s.podRoute p then clear (s.collFail ms .collAbort)
        else if all && s.collResident j && (groupPkgs m.group).all (fun p => p = m.pkg || s.podResident.contains (p, tenant)) then clear (s.collFinish core jid j m ms) else s

/-- `coll.start`. -/
def execCollStart (tenant tag : Nat) (s : State) : Host.Outcome State Fault Refusal :=
  eventStep (fun s => s.collStart tenant tag) s

/-! ## Issue -/

/-- Lines of a list of virtual ranges that the context may load (R193, R229). -/
def State.linesOf (s : State) (ctx : Nat) (rs : List (Nat × Nat)) : Nat → Bool :=
  fun l => rs.any fun (a, b) => a < b && s.rangeLines ctx a b l

/-- ReleaseFootprints (R211). -/
def State.releaseRanges (s : State) (core ctx : Nat) (rs : List (Nat × Nat)) : State :=
  let p := s.linesOf ctx rs
  (s.sendEntries core fun e => p (e.pa / 128)).cleanWhere core p

/-- AcquireWrites (R229). -/
def State.acquireRanges (s : State) (core ctx : Nat) (rs : List (Nat × Nat)) : State :=
  if 1024 ≤ core then s
  else
    let p := s.linesOf ctx rs
    (s.dropWhere core p).dropRdc (coreDie core) p

/-- Accepts a job (R211, R215): a ticket, the edges from older jobs of the context on the core, the reply entry reserved. -/
def State.engAccept (s : State) (fn delta : Nat) (card : Card) (q : Option Nat) (hint : Nat) : State :=
  let L := { s.leaf with card := none }
  let core := s.curCore
  let (ctx, slot) := match s.cur with
    | .leaf _ k => (L.ctx, k)
    | .dcc _ => (1024, 0)
  let rd := cardReads card fn core slot
  let wr := cardWrites card fn delta core slot
  let c := s.core core
  let older := (c.jobs.filter fun (_, i) => i.ctx = ctx && (rangesOverlap rd i.writes || rangesOverlap wr i.reads || rangesOverlap wr i.writes)).map (·.1)
  let j : Job := { ctx := ctx, entry := L.entry, ticket := L.nextTicket, slot := slot, replyQ := q, fn := fn, card := card, delta := delta
                   reads := rd, writes := wr, preds := older, predFailed := false, started := false, unit := 0, pend := [], count := 0, fail := none, kept := none
                   hint := hint, row := none }
  let j := if s.jobCancelled j && !older.isEmpty then { j with started := true }.failed .engCancelled else j
  let s := (s.setCore core { c with jobs := tset c.jobs c.nextJid j, nextJid := c.nextJid + 1 }).occSet (occJob core) ctx
  let t : Ticket := ⟨BitVec.ofNat 64 (ticketId L.nextTicket * 2 ^ 48), wr⟩
  let L := { L with tickets := tset L.tickets L.nextTicket t, nextTicket := L.nextTicket + 1, noReplay := L.noReplay || fn = 7 }
  match q with
  | none => s.setLeaf { L with committed := some L.nextTicket.pred }
  | some n =>
    let i : Fin 16 := Fin.ofNat 16 n
    s.setLeaf { L with q := L.q.set i ((L.q[i]) ++ [⟨L.nextTicket.pred, none⟩]) }

/-- The wait for the reply of a job into an s-register (R211, R233). The reply is not tainted (R212); the sources of the instruction taint its result (R116). -/
def engReply (x : Args) (n : Nat) : M Unit := do
  let s ← get
  match tfind s.leaf.tickets n with
  | some t =>
    if replyDone t.reply then do
      upd fun s => s.acquireRanges s.curCore s.leaf.ctx t.writes
      updLeaf fun L => ({ L with committed := none }.putS x t.reply ((srcOf x s true x.a).2 || (srcOf x s true x.b).2)).advance
    else waitHere
  | none => updLeaf fun L => { L with committed := none }

/-- The card at an address, read once for an issue (R210, R211). -/
def engCard (a : Nat) : M Card := do
  let s ← get
  match s.leaf.card with
  | some c => pure c
  | none => do
    let t ← mxCheck s.actor a 128
    let (bs, _) ← loadEl s.actor t a 128 false
    pure (BitVec.ofNat 1024 (ofBytes bs))

/-- EngIssue (R211). -/
def engIssue (fn : Nat) (x : Args) : M Unit := do
  let s ← get
  let core := s.curCore
  match s.leaf.committed with
  | some n => engReply x n
  | none => do
    let (a, _) := srcOf x s true x.a
    let (delta, _) := srcOf x s true x.b
    if a % 128 ≠ 0 then fail .engCardAlign a
    else do
      let card ← engCard a
      if !cardValid card fn delta s.pkg.index then fail .engCardBad a
      else do
        let q := match x.d with
          | .q n => some n.val
          | _ => none
        let full := match q with
          | some n => Config.queueDepth ≤ (s.leaf.q[(Fin.ofNat 16 n)]).length
          | none => false
        if full || Config.tickets ≤ (s.core core).jobs.length then do
          updLeaf fun L => { L with card := some card }
          waitHere
        else do
          upd fun s => s.releaseRanges core s.leaf.ctx (cardReads card fn core 0 ++ cardWrites card fn delta core 0)
          upd fun s => s.engAccept fn delta card q (x.hint.toNat / 4)
          let s ← get
          match q with
          | some _ => updLeaf Leaf.advance
          | none => engReply x (s.leaf.nextTicket - 1)

/-- `eng.copy` (R221). -/
def execEngCopy (x : Args) (s : State) : Host.Outcome State Fault Refusal := guardedStep x (engIssue 0 x) s
/-- `eng.gath` (R222). -/
def execEngGath (x : Args) (s : State) : Host.Outcome State Fault Refusal := guardedStep x (engIssue 1 x) s
/-- `eng.scat` (R222). -/
def execEngScat (x : Args) (s : State) : Host.Outcome State Fault Refusal := guardedStep x (engIssue 2 x) s
/-- `eng.win` (R223). -/
def execEngWin (x : Args) (s : State) : Host.Outcome State Fault Refusal := guardedStep x (engIssue 3 x) s
/-- `eng.dec` (R224). -/
def execEngDec (x : Args) (s : State) : Host.Outcome State Fault Refusal := guardedStep x (engIssue 4 x) s
/-- `eng.seal` (R225). -/
def execEngSeal (x : Args) (s : State) : Host.Outcome State Fault Refusal := guardedStep x (engIssue 5 x) s
/-- `eng.ring` (R226). -/
def execEngRing (x : Args) (s : State) : Host.Outcome State Fault Refusal := guardedStep x (engIssue 6 x) s
/-- `eng.coll` (R228). -/
def execEngColl (x : Args) (s : State) : Host.Outcome State Fault Refusal := guardedStep x (engIssue 7 x) s

/-! ## eng.wait and eng.stat -/

/-- The live job of a ticket id: one of the entry's 512 most recent (R213). -/
def Leaf.liveTicket (L : Leaf) (id : Nat) : Option (Nat × Ticket) :=
  L.tickets.find? fun (n, _) => L.nextTicket ≤ n + Config.tickets && ticketId n = id

/-- `eng.wait` (R229). -/
def execEngWait (x : Args) (s : State) : Host.Outcome State Fault Refusal :=
  guardedStep x (do
    let (a, ta) := srcOf x s true x.a
    let id := a % 2 ^ 16
    let L := s.leaf
    let done (r : Quad) (ws : List (Nat × Nat)) : M Unit := do
      upd fun s => s.acquireRanges s.curCore s.leaf.ctx ws
      updLeaf fun L => (L.putS x r ta).advance
    if id = 0 then
      if L.tickets.all fun (_, t) => replyDone t.reply then
        let r := ((L.tickets.find? fun (_, t) => t.reply.toNat.testBit 46).map fun e => e.2.reply).getD (BitVec.ofNat 64 (2 ^ 47))
        done r (L.tickets.map fun e => e.2.writes).flatten
      else waitHere
    else match L.liveTicket id with
      | none => fail .engTicketNone
      | some (_, t) => if replyDone t.reply then done t.reply t.writes else waitHere) s

/-- `eng.stat` (R230). -/
def execEngStat (x : Args) (s : State) : Host.Outcome State Fault Refusal :=
  guardedStep x (do
    let id := (srcOf x s true x.a).1 % 2 ^ 16
    match (if id = 0 then none else s.leaf.liveTicket id) with
    | none => fail .engTicketNone
    | some (_, t) => do
      match s.cur with
      | .leaf _ _ => upd fun s => s.countTaint s.leaf.ctx 1
      | .dcc _ => pure ()
      updLeaf fun L => (L.putS x t.reply true).advance) s

end Sys2Proof.Machine
end

