-- ==== Sys2Proof/Machine/Launch.lean ====
section
/-! DEFINITION. The packet processors (R361-R365), LaunchCheck (R306), completion statuses (R366), and the events of the Nest, the scheduler and the notice queues (R161, R370-R376, R380-R382). -/

namespace Sys2Proof.Machine

/-! ## Packets -/

/-- A launch or marker packet (Tables 13-3, 13-4) as a number of 512 bits. -/
abbrev Packet := BitVec 512

/-- n bytes of a packet from an offset. -/
def Packet.at (p : Packet) (off n : Nat) : Nat := field p.toNat (8 * off) (8 * n)
/-- Bits of HDR. -/
def Packet.hdr (p : Packet) (lo n : Nat) : Nat := field p.toNat lo n
def Packet.type (p : Packet) : Nat := p.hdr 13 3
def Packet.acq (p : Packet) : Nat := p.hdr 8 3
def Packet.rel (p : Packet) : Nat := p.hdr 5 3
def Packet.prio (p : Packet) : Nat := p.hdr 3 2
def Packet.barrier (p : Packet) : Bool := p.hdr 2 1 = 1
def Packet.ctx (p : Packet) : Nat := p.at 2 2 % 1024
def Packet.sig (p : Packet) : Nat := p.at 0x38 8
/-- Bounds of the root box. -/
def Packet.bound (p : Packet) (off : Nat) : Vector (BitVec 32) 4 := Vector.ofFn fun j => BitVec.ofNat 32 (p.at (off + 4 * j.val) 4)

/-- The packet's own checks, before its context is looked at (R365). -/
def Packet.good (p : Packet) : Bool :=
  (p.type = 1 || p.type = 2) && p.hdr 0 2 = 0 && p.at 2 2 < 1024 && (p.type = 1 || p.at 4 0x34 = 0) && p.sig % 32 = 0

/-- Reads the packet at RDIDX (R362): sealed data of the queue's slot, or host memory through its window (R404). -/
def readPacket (die q : Nat) : M Packet := do
  let s ← get
  let x := s.queue die q
  let pa := x.base + 64 * (x.rdidx % x.size)
  if isControl pa then do
    let mut b := 0
    for i in List.range 8 do
      let v ← ctrlRead (whoDcc die) (pa + 8 * i)
      b := b + v.toNat * 2 ^ (64 * i)
    pure (BitVec.ofNat 512 b)
  else do
    let (bs, _) ← homeRead { whoDcc die with slot := field x.ctl.toNat 32 8 } plainAttr pa 64
    pure (BitVec.ofNat 512 (ofBytes bs))

/-- What a queue's head packet is (R365). -/
inductive Head where
  | none
  | halt (c : Cause)
  | waits
  | ready (p : Packet)
  deriving DecidableEq, Repr

/-- Launches that a packet processor has in progress (R364). -/
def State.launchesOf (s : State) (die : Nat) : Nat :=
  (s.ctxs.filter fun e => match e.2.launch with | some l => l.die = die | none => false).length

/-- The head packet of a queue, with the state its read leaves. -/
def State.headOf (s : State) (die q : Nat) : State × Head :=
  let x := s.queue die q
  if !x.live || x.rdidx = x.wridx then (s, .none)
  else if x.badIndex then (s, .halt .launchBadPkt)
  else match attempt (readPacket die q) s with
  | .ok (.error t) s' => (s', .halt t.cause)
  | .error _ s' => (s', .none)
  | .ok (.ok p) s' =>
    let c := s'.ctx p.ctx
    if !p.good then (s', .halt .launchBadPkt)
    else if c.st = CtxSt.free || c.desc.slot ≠ field x.ctl.toNat 32 8 then (s', .halt .launchBadCtx)
    else if p.type = 1 && (p.acq = 6 || p.rel = 6) then (s', .halt .launchBadPkt)
    else if (p.barrier && x.inflight ≠ 0) || c.st ≠ CtxSt.running || c.launch.isSome then (s', .waits)
    else if p.type = 1 && Config.launchSlots ≤ s'.launchesOf die then (s', .waits)
    else (s', .ready p)

/-- The queue whose launch takes the free slot (R364): the highest priority, then the lowest number at or after the level's pointer, wrapping. -/
def State.launchWinner (s : State) (die : Nat) : Option Nat :=
  let heads := (List.range 64).filterMap fun q => match (s.headOf die q).2 with
    | .ready p => if p.type = 1 then some (q, p.prio) else none
    | _ => none
  (heads.foldl (fun (b : Option (Nat × Nat)) (e : Nat × Nat) =>
    let dist (e : Nat × Nat) : Nat := (e.1 + 64 - (s.die die).prio[e.2 % 4]'(Nat.mod_lt _ (by decide))) % 64
    match b with
    | none => some e
    | some d => if d.2 < e.2 || (d.2 = e.2 && dist e < dist d) then some e else b) none).map (·.1)

/-! ## Completion status -/

/-- The 32 bytes of a status (Table 13-6). -/
structure CStatus where
  kind : Nat
  taint : Bool := false
  sticky : Flags := 0
  cause : Option Cause := none
  acode : Nat := 0
  drop : Quad := 0
  deriving DecidableEq, Repr

/-- WORD of a status. -/
def CStatus.word (r : CStatus) : Nat :=
  2 ^ 31 + r.kind * 2 ^ 28 + r.taint.toNat * 2 ^ 27 + r.sticky.toNat * 2 ^ 21 + (match r.cause with | some c => causeCode c | none => 0) * 2 ^ 14

/-- Writes a status at SIG: the quad at 0x10 before the quad at 0x00 (R366). The write has the Nest's rights: a SIG in a page with SV = 1 is written (DESIGN CHOICE, log 73). -/
def writeStatus (die c sig seq : Nat) (r : CStatus) : M Unit := do
  nestWrite die c (sig + 0x10) (toBytes 8 seq ++ toBytes 8 0)
  nestWrite die c sig (toBytes 4 r.word ++ toBytes 2 r.acode ++ toBytes 2 0 ++ toBytes 8 r.drop.toNat)

/-- An ordering with `.all` for a packet (R365, R366): an acquire on every core of the context's partition, a release on every core that holds bytes of the context; scope 7 is none. -/
def State.packetOrder (s : State) (c scope : Nat) (rel : Bool) : State :=
  if scope = 7 then s
  else if rel then (s.ctxHolders c).foldl (fun s k => s.release k c none scope true) s
  else (nodeCores (s.ctx c).node).foldl (fun s k => s.acquire k c none scope true) s

/-- The release at `sys` scope that every completion status of a launch is (R353): its set is the union of the carried sets of all the kernel's rules; the root's port writes are at their homes already. -/
def State.carriedRelease (s : State) (c : Nat) (rules : List Rule) : State :=
  s.performCtx c (lineIn ((rules.map fun r => s.portSet c (some r)).flatten))

/-- Writes a status, after the release at REL; one that faults kills the context (R366, Table 14-8). -/
def State.putStatus (s : State) (die c sig seq rel : Nat) (r : CStatus) : State :=
  let s := s.packetOrder c rel true
  match attempt (writeStatus die c sig seq r) s with
  | .ok (.ok _) s' => s'
  | .ok (.error _) s' => s'.kill c .faultDelivery
  | .error _ s' => s'

/-- The launch slot is free and the queue counts one packet less (R364, R365). -/
def State.endLaunch (s : State) (c : Nat) : State :=
  let x := s.ctx c
  match x.launch with
  | none => s
  | some l =>
    let q := s.queue l.die l.queue
    (s.setQueue l.die l.queue { q with inflight := q.inflight - 1 }).setCtx c { x with
      launch := none, recs := [], imgUsed := [], deques := [], ready := [], joining := [], suspended := [] }

/-- The launch of a context has ended and every ticket of the context has drained (R29, R30, R366, R382). -/
def State.launchOver (s : State) (c : Nat) : Bool :=
  let x := s.ctx c
  x.st ≠ CtxSt.draining && x.faulted.isEmpty && !(s.cores.any fun e => e.2.jobs.any fun j => j.2.ctx = c) &&
    match x.launch with
    | none => false
    | some l => l.ended || (l.dead && s.boxesOver c)

/-- The status of a launch that has ended (R366, R382). -/
def Ctx.finalStatus (x : Ctx) (l : Launch) : CStatus :=
  let base : CStatus := {
    kind := 0, taint := x.portTaint || x.dropTaint, drop := x.drop
    sticky := ((x.record 0).map (·.sticky)).getD 0 }
  match l.abort, l.fail with
  | some a, _ => { base with kind := 1, acode := a }
  | none, some c => { base with kind := 3, cause := some c }
  | none, none => base

/-- LAUNCH_STATUS_WRITE (R366): the status as it is after the release that comes before it. -/
def State.launchStatus (s : State) (c : Nat) : State :=
  let x := s.ctx c
  match x.launch with
  | none => s
  | some l =>
    if !s.launchOver c then s
    else
      let s := (s.packetOrder c l.rel true).carriedRelease c l.rules
      match attempt (writeStatus l.die c l.sig l.seq ((s.ctx c).finalStatus l)) s with
      | .ok (.ok _) s' => s'.endLaunch c
      | .ok (.error _) s' => (s'.endLaunch c).kill c .faultDelivery
      | .error _ s' => s'

/-! ## LaunchCheck -/

/-- A kernel object (Table 10-14). -/
structure Kernel where
  nrule : Nat
  text : Nat
  rules : Nat
  ports : Nat
  views : Nat
  textsz : Nat
  nprec : Nat
  nvrec : Nat
  nbind : Nat
  deriving DecidableEq, Repr

/-- The kernel object in 64 bytes, when it passes its checks (R306). -/
def kernelOf (b : Nat) : Option Kernel :=
  let f (off n : Nat) : Nat := field b (8 * off) (8 * n)
  if f 0 4 ≠ 0x4B584E31 || f 4 2 ≠ 1 || f 0x32 14 ≠ 0 then none
  else some ⟨f 6 2, f 8 8, f 0x10 8, f 0x18 8, f 0x20 8, f 0x28 4, f 0x2C 2, f 0x2E 2, f 0x30 2⟩

/-- Element type of a view operator (Table 10-7). -/
def viewEty (op : Nat) : Nat := if op < 3 then 14 else if op < 6 then 7 else 6

/-- A port record in 16 bytes, without its binding's values, when it passes its checks (R294, R306). Each record is checked by itself: whether the records of one BIND agree in kind, type and size, as R294 asks of the object, is not looked at (DESIGN CHOICE, log 82). -/
def portOf (k : Kernel) (b : Nat) : Option Port :=
  let f (off n : Nat) : Nat := field b (8 * off) (8 * n)
  let kind := f 0 1 % 4
  let op := f 0 1 / 16
  let kindOk := if kind = 2 then op ≤ 8 && f 1 1 = viewEty op && f 2 2 = 4 else op = 0 && 1 ≤ f 2 2 && f 2 2 ≤ 4096
  if f 0 1 / 4 % 4 ≠ 0 || 15 < f 1 1 || 15 < f 4 1 || f 5 1 ≠ 0 || f 0xC 4 ≠ 0 || k.nbind ≤ f 6 2 || !kindOk then none
  else some { kind := kind, op := op, ety := f 1 1, esize := f 2 2, axmask := f 4 1, bind := f 6 2
              base := 0, bytes := 0, str := Vector.replicate 4 0 }

/-- A view record in 8 bytes is consistent with its port record (R298, R306): LaunchCheck asks that of PORT, OP and ETY; it reads neither the reserved byte nor IDENT. -/
def viewRecGood (n : Nat) (p : Port) (b : Nat) : Bool := field b 0 8 = n && field b 8 8 = p.op && field b 16 8 = p.ety

/-- A rule descriptor's own fields (Table 10-4, R306), `none` where a check fails. PORT0, NPORT, VIEW0, NVIEW come beside it. -/
def ruleOf (k : Kernel) (b : Nat) : Option (Rule × Nat × Nat × Nat × Nat) :=
  let f (off n : Nat) : Nat := field b (8 * off) (8 * n)
  let rank := f 0x18 1
  let red := f 0x19 1
  let flags := f 0x1B 1
  let grain (j : Nat) : Nat := f (8 + 4 * j) 4
  let join := f 4 4
  let ok := 1 ≤ rank && rank ≤ 4 && red < 2 ^ rank && popcount 8 red ≤ 1 && flags < 8 && f 0x20 4 < 8 && f 0x31 3 = 0 && f 0x38 8 = 0
    && (List.range 4).all (fun j => if j < rank then 1 ≤ grain j && grain j ≤ 2 ^ 31 else grain j = 1)
    && f 0x1A 1 ≤ 16 && f 0x28 4 + f 0x1A 1 ≤ k.nprec && f 0x2C 4 + f 0x30 1 ≤ k.nvrec
    && f 0 4 % 16 = 0 && f 0 4 < k.textsz && (join = 0xFFFFFFFF || (join % 16 = 0 && join < k.textsz))
    && f 0x1C 4 % 64 = 0 && f 0x1C 4 ≤ 262144 && !(flags.testBit 0 && (f 0x20 4).testBit 0)
  if !ok then none
  else some ({
    entry := f 0 4, join := if join = 0xFFFFFFFF then none else some join
    grain := Vector.ofFn fun j => grain j.val, rank := rank
    red := if red = 0 then none else some (ilog2 red)
    replay := flags.testBit 2, cohort := flags.testBit 1, onString := flags.testBit 0
    scratch := f 0x1C 4, feat := f 0x20 4, budget := f 0x24 4, ports := [] }, f 0x28 4, f 0x1A 1, f 0x2C 4, f 0x30 1)

/-- Bytes of the context as a number, read with the Nest's rights: a KOBJ or ARGS in a page with SV = 1 is read (DESIGN CHOICE, log 73). -/
def nestNum (die c va n : Nat) : M Nat := do
  let bs ← nestRead die c va n
  pure (ofBytes bs)

/-- Reads rule i of a kernel with its port and view records (R306). -/
def readRule (die c : Nat) (k : Kernel) (i : Nat) : M Rule := do
  let b ← nestNum die c (k.rules + 64 * i) 64
  match ruleOf k b with
  | none => fail .ruleDescBad
  | some (r, p0, np, v0, nv) => do
    let ps ← (List.range np).mapM fun n => do
      let b ← nestNum die c (k.ports + 16 * (p0 + n)) 16
      match portOf k b with
      | none => fail .ruleDescBad
      | some p => pure p
    let vs := (ps.zipIdx.filter fun e => e.1.kind = 2)
    if nv ≠ vs.length || (r.replay && ps.any (·.kind = 3)) then fail .ruleDescBad
    else do
      for ((p, n), j) in vs.zipIdx do
        let b ← nestNum die c (k.views + 8 * (v0 + j)) 8
        if viewRecGood n p b then pure () else fail .ruleDescBad
      pure { r with ports := ps }

/-- The root box obeys the rank of its rule (R15, R306). -/
def Packet.boxGood (p : Packet) (rank : Nat) : Bool :=
  p.hdr 11 2 + 1 = rank && (List.range 4).all fun j => j < rank || (p.at (0x10 + 4 * j) 4 = 0 && p.at (0x20 + 4 * j) 4 = 1)

/-- A binding of the argument block (Table 10-15): its base, length and strides (R305). The packet processor reads all of the block; the checks are of the bindings that a port uses (R306). -/
def readBind (die c args b : Nat) (used view : Bool) : M (Nat × Nat × Vector Quad 4) := do
  let x ← nestNum die c (args + 64 * b) 64
  let f (off n : Nat) : Nat := field x (8 * off) (8 * n)
  if used && (f 0x30 16 ≠ 0 || 2 ^ 48 < f 0 8 + f 8 8) then fail .portRange
  else if view && 2 ^ 31 < f 8 8 then fail .portKind
  else pure (f 0 8, f 8 8, Vector.ofFn fun j => BitVec.ofNat 64 (f (0x10 + 8 * j.val) 8))

/-- LaunchCheck (R306): the text base and the rules with their bindings, or the cause of the rejection. The object is read at KOBJ whatever its alignment, which R304 asks of the object and R306 does not list among the checks (DESIGN CHOICE, log 82). -/
def launchCheck (die c : Nat) (p : Packet) : M (Nat × List Rule) := do
  let kb ← nestNum die c (p.at 8 8) 64
  match kernelOf kb with
  | none => fail .ruleDescBad
  | some k =>
    if k.nrule ≤ p.at 4 4 then fail .ruleDescBad
    else do
      let rs ← (List.range k.nrule).mapM fun i => readRule die c k i
      match rs[p.at 4 4]? with
      | none => fail .ruleDescBad
      | some root => do
        let s ← get
        if !p.boxGood root.rank then fail .launchBadBox
        else if !((nodeCores (s.ctx c).node).any fun d => s.qualifies root.onString root.feat d) then fail .noFeatureCore
        else do
          let ports := (rs.map (·.ports)).flatten
          let binds ← (List.range k.nbind).mapM fun b => do
            let r ← readBind die c (p.at 0x30 8) b (ports.any (·.bind = b)) (ports.any fun q => q.bind = b && q.kind = 2)
            pure (b, r)
          let put (q : Port) : Port := match tfind binds q.bind with
            | some (base, bytes, str) => { q with base := base, bytes := bytes, str := str }
            | none => q
          pure (k.text, rs.map fun r => { r with ports := r.ports.map put })

/-! ## Serving a packet -/

/-- Accepts a launch (R306, R307, R365-R367): its copy of what was checked, and the root record READY in the deque of the lowest-numbered qualifying core (R374). -/
def State.acceptLaunch (s : State) (die q k : Nat) (p : Packet) (text : Nat) (rules : List Rule) : State :=
  let c := p.ctx
  let i := p.at 4 4
  match rules[i]? with
  | none => s
  | some ru =>
    let lo := p.bound 0x10
    let hi := p.bound 0x20
    let l : Launch := {
      die := die, queue := q, seq := k, sig := p.sig, rel := p.rel, text := text, rules := rules, rootLo := lo, rootHi := hi
      abort := none, fail := none, ended := false }
    let fits (d : Nat) : Bool := s.qualifies ru.onString ru.feat d
    let core := (((s.ctxCores c).find? fits).or ((nodeCores (s.ctx c).node).find? fits)).getD 0
    let x := s.ctx c
    let s := s.setCtx c { x with
      launch := some l, drop := 0, dropTaint := false, portTaint := false, taintCnt := 0
      deques := tset [] core [0] }
    let y := s.queue die q
    let s := s.setQueue die q { y with inflight := y.inflight + 1 }
    let s := (s.occSet (occNest (coreDie core)) c).occSet (occNest die) c
    s.setRec c 0 (Rec.fresh lo hi i rootParent (ru.rank - 1) ru.feat false ru.replay (x.viewsAddr 0))

/-- Serve (R365) of a packet that is eligible and has won. -/
def State.servePacket (s : State) (die q : Nat) (p : Packet) : State :=
  let x := s.queue die q
  let k := x.rdidx
  let s := s.setQueue die q { x with rdidx := k + 1 }
  if p.type = 2 then (s.packetOrder p.ctx 5 false).putStatus die p.ctx p.sig k 7 { kind := 0 }
  else
    let pr := (s.die die).prio.set (p.prio % 4) ((q + 1) % 64) (Nat.mod_lt _ (by decide))
    let s := s.setDie die { s.die die with prio := pr }
    let s := s.packetOrder p.ctx p.acq false
    match attempt (launchCheck die p.ctx p) s with
    | .ok (.ok (text, rules)) s' => s'.acceptLaunch die q k p text rules
    | .ok (.error t) s' => s'.putStatus die p.ctx p.sig k p.rel { kind := 2, cause := some t.cause }
    | .error _ s' => s'

/-- The packet processor looks at a queue's head packet (R364, R365). One that waits changes nothing. -/
def State.packetServe (s : State) (die q : Nat) : State :=
  match s.headOf die q with
  | (s', .halt c) => s'.haltQueue die q c
  | (s', .ready p) => if p.type = 2 || s'.launchWinner die = some q then s'.servePacket die q p else s
  | (_, _) => s

/-! ## Notices -/

/-- A notice that waited for room enters the queue (R380). -/
def State.noticePost (s : State) (d : Nat) : State :=
  let x := s.die d
  match x.notePend with
  | n :: rest => if x.noteRoom then ({ s with dies := s.dies.set (d % 4) { x with notePend := rest } (Nat.mod_lt _ (by decide)) }).enqueueNotice d n else s
  | [] => s

/-- A notice trap may be taken (R381): at an instruction boundary of a die control core that runs, with a notice queued and NOTE_EN.EN 1. -/
def Die.noteReady (x : Die) : Bool :=
  x.dcc.started && !x.dcc.halted && x.dcc.noteEn && !x.notices.isEmpty && x.dcc.leaf.committed.isNone

/-- The notice trap (R381). Where the fetch at SV_VEC then faults and halts the core, the notice that it has taken does not pass to the next die; those still queued or pending do (R139, R392; DESIGN CHOICE, log 79). -/
def State.noticeTrap (s : State) (d : Nat) : State :=
  let x := s.die d
  if !x.noteReady then s
  else match x.notices with
  | [] => s
  | n :: rest =>
    let c := { x.dcc with noteEn := false, leaf := { x.dcc.leaf with mode := Mode.idle } }
    let s := s.setDie d { x with notices := rest, noteHeld := n.pos :: x.noteHeld, dcc := c }
    s.enterDcc d c.leaf.pc (BitVec.ofNat 64 (field n.word.toNat 57 7)) n.word (BitVec.ofNat 64 n.frec)

/-- The value of an FRESOLVE write (Table 14-4). -/
def fresolveWord (c i : Nat) (isFail : Bool) : Quad := BitVec.ofNat 64 (isFail.toNat * 2 ^ 34 + i % 2 ^ 24 * 2 ^ 10 + c % 1024)

/-! ## The events -/

/-- JIGSAW_MERGE (R161). -/
def execJigsawMerge (ctx rec : Nat) (s : State) : Host.Outcome State Fault Refusal := eventStep (fun s => s.jigsaw ctx rec) s

/-- LAUNCH_STATUS_WRITE (R366). -/
def execLaunchStatusWrite (ctx : Nat) (s : State) : Host.Outcome State Fault Refusal := eventStep (fun s => s.launchStatus ctx) s

/-- RECORD_PICKUP (R35, R374). -/
def execRecordPickup (core slot : Nat) (s : State) : Host.Outcome State Fault Refusal :=
  eventStep (fun s => match s.fillPick core slot with
    | some (c, i) => s.startRec core slot c i
    | none => s) s

/-- SCHED_DECISION (R370). -/
def execSchedDecision (node : Nat) (s : State) : Host.Outcome State Fault Refusal := eventStep (fun s => s.decide node) s

/-- BUDGET_EXHAUSTED (R371): the budget of a holder has reached 0. -/
def execBudgetExhausted (ctx : Nat) (s : State) : Host.Outcome State Fault Refusal :=
  eventStep (fun s =>
    if (s.ctx ctx).budget = 0 && s.holders.any (fun e => e.2 = ctx) && (s.ctx ctx).st = CtxSt.running then s.pendStop ctx Stop.budget else s) s

/-- A stop has been pending for 1,500 cycles (R371), which the throttle lengthens by 16 over its step (R417). -/
def Ctx.stopDue (x : Ctx) : Bool := 16 * 1500 ≤ x.stopAge

/-- STOP_FORCE_SUSPEND (R371): 1,500 cycles after the stop became pending. -/
def execStopForceSuspend (ctx : Nat) (s : State) : Host.Outcome State Fault Refusal :=
  eventStep (fun s => if (s.ctx ctx).stop.isSome && (s.ctx ctx).stopDue then s.forceSuspend ctx else s) s

/-- STOP_COMPLETE (R371, R372, R376). -/
def execStopComplete (ctx : Nat) (s : State) : Host.Outcome State Fault Refusal := eventStep (fun s => s.completeStop ctx) s

/-- Address of a queue's registers (Tables 13-1, 15-1). -/
def queueAddr (die queue : Nat) : Nat := dieCtrl (die % 4) + 0x10000 + 32 * (queue % 64)

/-- QUEUE_WRIDX_WRITE (R362). -/
def execQueueWridxWrite (die queue : Nat) (value : BitVec 64) (s : State) : Host.Outcome State Fault Refusal :=
  eventStep (fun s => s.ctrlBy (queueAddr die queue + 24) value) s

/-- QCTL_ERR_SKIP (Table 13-2): QCTL written with 1 in ERR and its other fields as they are. -/
def execQctlErrSkip (die queue : Nat) (s : State) : Host.Outcome State Fault Refusal :=
  eventStep (fun s => s.ctrlBy (queueAddr die queue + 8) ((s.queue die (queue % 64)).ctl ||| BitVec.ofNat 64 (2 ^ 30))) s

/-- PACKET_SERVE (R365). -/
def execPacketServe (die queue : Nat) (s : State) : Host.Outcome State Fault Refusal := eventStep (fun s => s.packetServe die queue) s

/-- NOTICE_POST (R380). -/
def execNoticePost (die : Nat) (s : State) : Host.Outcome State Fault Refusal := eventStep (fun s => s.noticePost die) s

/-- NOTICE_TRAP (R381). -/
def execNoticeTrap (die : Nat) (s : State) : Host.Outcome State Fault Refusal := eventStep (fun s => s.noticeTrap die) s

/-- FRESOLVE_RETRY (R382). -/
def execFresolveRetry (die ctx rec : Nat) (s : State) : Host.Outcome State Fault Refusal :=
  eventStep (fun s => s.writeFresolve die (fresolveWord ctx rec false)) s

/-- FRESOLVE_FAIL (R382). -/
def execFresolveFail (die ctx rec : Nat) (s : State) : Host.Outcome State Fault Refusal :=
  eventStep (fun s => s.writeFresolve die (fresolveWord ctx rec true)) s

end Sys2Proof.Machine
end

