-- ==== Sys2Proof/Machine/Contain.lean ====
section
/-! DEFINITION. Containment of uncorrectable errors (R391, R392), the drain of a killed context (R394), replay (R395-R397) and the loss of a die-to-die link (R398). -/

namespace Sys2Proof.Machine

/-! ## Uncorrectable errors -/

/-- Contexts of an occupancy bitmap (R390). -/
def State.occupants (s : State) (inst : Nat) : List Nat :=
  let b := (tget 0 s.occ inst).toNat
  (List.range 1024).filter b.testBit

/-- Kills every context of a list that is not FREE; `core` is the core that found the error, 0 where it was no core. -/
def State.killAll (s : State) (cs : List Nat) (cause : Cause) (core : Nat := 0) : State := cs.foldl (fun s c => s.kill c cause core) s

/-- ContainUE (R391) of an entry whose state is nowhere else: its owner where that is trusted, else the contexts of its instance's bitmap. -/
def State.containUe (s : State) (owner : Option Nat) (inst : Nat) (isL2 : Bool) (core : Nat := 0) : State :=
  match owner with
  | some c => s.killAll [c] .ueDomain core
  | none => s.killAll (s.occupants inst) (if isL2 then .uePartition else .ueOccupancy) core

/-- An error in an L1 line (R391): a clean one is dropped. -/
def State.ueL1 (s : State) (core line : Nat) (owner dirtyOk : Bool) : State :=
  let c := s.core core
  match tfind c.l1 line with
  | none => s
  | some l =>
    let s := s.setCore core { c with l1 := terase c.l1 line }
    if l.dirty = 0 && dirtyOk then s else s.containUe (if owner then some l.owner else none) (occL1 core) false core

/-- An error in an L2 line (R391): the granule of one that is not clean is quarantined where the address is trusted. -/
def State.ueL2 (s : State) (line : Nat) (owner addr dirtyOk : Bool) : State :=
  match tfind s.l2 line with
  | none => s
  | some l =>
    if l.dirty = 0 && dirtyOk then { s with l2 := terase s.l2 line }
    else
      let inst := occL2 (s.sliceOf (line * 128)) l.attr.part
      let who := if owner then [l.owner] else s.occupants inst
      let s := if addr then s.quarantine (granBase (line * 128) l.attr.g512) l.attr.g512 else { s with l2 := terase s.l2 line }
      s.killAll who (if owner then .ueDomain else .uePartition)

/-- An error in a scratchpad word, whose slot owner is triplicated (R389). -/
def State.ueScratch (s : State) (core word : Nat) : State :=
  let s' := s.setScrWord core word ⟨0, 0, false⟩
  match s.allocOf core (word / 0x10000) with
  | some (c, _) => s'.containUe (some c) 0 false core
  | none => s'

/-- The key of a chunk among all that a record keeps: numbers from 2^22 name the chunks of its prefix views, those from 2^23 its snapshot's. -/
def ueChunk (port chunk : Nat) : Nat :=
  (match chunk / 2 ^ 22 with | 0 => 0 | 1 => 2 ^ 40 | _ => 2 ^ 41) + port * 2 ^ 22 + chunk % 2 ^ 22

/-- An error in a view chunk that is on chip (R320, R391), one of the record's views, its prefix views or its snapshot: the chunk is dropped, and its owner, or the contexts of its slice and partition, killed. -/
def State.ueView (s : State) (c box k : Nat) (owner : Bool) : State :=
  let x := s.ctx c
  match x.record box with
  | none => s
  | some r =>
    match tfind r.allChunks k with
    | none => s
    | some ch =>
      if ch.spill.isSome then s
      else (s.setCtx c { x with recs := tset x.recs box (r.putChunk k none) }).containUe
        (if owner then some c else none) (occL2 ch.slice ch.part) true

/-- A unit of a job has committed, or the job has failed, and its reply or its next unit is due: what the job's state holds, its count and its place, stands nowhere else (Table 14-9). -/
def Job.committed (j : Job) : Bool := j.pend.isEmpty && (j.unit ≠ 0 || j.fail.isSome)

/-- An error in an engine job (R391, Table 14-9): before the commit of its unit the unit runs again from its inputs and no context is affected (R395). -/
def State.ueJob (s : State) (core jid : Nat) (owner : Bool) : State :=
  match s.job core jid with
  | none => s
  | some j =>
    if !j.committed then s
    else
      let c := s.core core
      (s.setCore core { c with jobs := terase c.jobs jid }).containUe (if owner then some j.ctx else none) (occJob core) false (if core < 1024 then core else 0)

/-- A granule whose next check fails (R335, Table 14-8). -/
def State.markUe (s : State) (pa mark : Nat) : State := { s with ueMarks := tset s.ueMarks (granBase pa (s.gran512 pa) / 512) mark }

/-- Structure class of Table 14-9, its rows numbered from 0, and the die, of an entry with an error; what Table 14-9 does not list has no class. -/
def State.ueClass (s : State) : UeSite → Option (Nat × Nat)
  | .l1 core _ _ _ => some (0, coreDie core)
  | .l2 line _ _ _ => some (1, s.homeDie (line * 128))
  | .view ctx box port chunk _ => some (1, ((((s.ctx ctx).record box).bind fun r => tfind r.allChunks (ueChunk port chunk)).map fun c => c.slice / 32).getD 0)
  | .rdc die _ => some (2, die)
  | .tlb unit _ _ => some (3, coreDie unit)
  | .image core _ _ _ => some (4, coreDie core)
  | .tileRow core _ _ _ _ => some (5, coreDie core)
  | .scratch core _ => some (6, coreDie core)
  | .combining core _ _ | .mxEntry core _ _ => some (7, coreDie core)
  | .job core _ _ => some (8, coreDie core)
  | .nest die _ _ => some (9, die)
  | .dcc _ | .sealRecord _ | .anchor _ | .keySlot _ | .data _ | .sealEngine _ => none

/-- The telemetry of a die changes (R415). -/
def State.updTele (s : State) (d : Nat) (f : Telemetry → Telemetry) : State := s.setDie d { s.die d with tele := f (s.die d).tele }

/-- An uncorrectable error is counted (R415). -/
def State.ueCount (s : State) (site : UeSite) : State :=
  match s.ueClass site with
  | some (k, d) => s.updTele d fun t => { t with uncorrected := tset t.uncorrected k (tget 0 t.uncorrected k + 1) }
  | none => s

/-- Contains an uncorrectable error (R391, R392, Table 14-8). -/
def State.ue (s : State) (site : UeSite) : State :=
  match site with
  | .l1 core line owner dirtyOk => s.ueL1 core line owner dirtyOk
  | .l2 line owner addr dirtyOk => s.ueL2 line owner addr dirtyOk
  | .rdc die line => s.dropRdc die (· == line)
  | .tlb unit ctx page => { s with tlb := tset s.tlb unit (terase (tget [] s.tlb unit) (ctx * 2 ^ 32 + page)) }
  | .image core ctx _ owner => s.containUe (if owner then some ctx else none) (occImg core) false core
  | .tileRow core slot tile row owner =>
    let L := s.leafAt core slot
    let s := if L.mode = Mode.idle then s else s.setLeafAt core slot { L with tiles := terase L.tiles (tile * 128 + row) }
    s.containUe (if owner then (if L.mode = Mode.idle then some 1024 else some L.ctx) else none) (occOctet (coreOctet core)) false core
  | .scratch core word => s.ueScratch core word
  | .combining core pa owner =>
    let k := s.core core
    match k.cbuf.find? fun e => e.pa = pa with
    | some e => (s.setCore core { k with cbuf := k.cbuf.erase e }).containUe (if owner then some e.ctx else none) (occBuf core) false core
    | none => s
  | .mxEntry core n owner =>
    let k := s.core core
    match k.mxq[n]? with
    | some j => (s.setCore core { k with mxq := k.mxq.eraseIdx n }).containUe (if owner then some j.ctx else none) (occBuf core) false core
    | none => s
  | .job core jid owner => s.ueJob core jid owner
  | .nest die ctx owner => s.containUe (if owner then some ctx else none) (occNest die) false
  | .view ctx box port chunk owner => s.ueView ctx box (ueChunk port chunk) owner
  | .dcc die => s.haltDcc die
  | .sealRecord pa => s.markUe pa 2
  | .anchor pa => s.markUe pa 3
  | .keySlot slot => (s.loseKey slot).postEvent 0 .keySlotUe 0 0
  | .data pa => s.markUe pa 1
  | .sealEngine pa => s.markUe pa 4

/-- UE_DETECTED (R391). -/
def execUeDetected (site : UeSite) (s : State) : Host.Outcome State Fault Refusal := eventStep (fun s => (s.ueCount site).ue site) s

/-! ## Draining -/

/-- What the structures of the cores and dies hold of a context is dropped: L1 lines without a clean, combining-buffer entries, translations (R394, step 1). -/
def State.dropDomain (s : State) (c : Nat) : State :=
  { s with
    cores := tmap (fun _ k => { k with
      l1 := k.l1.filter fun e => e.2.owner ≠ c
      cbuf := k.cbuf.filter fun e => e.ctx ≠ c }) s.cores
    tlb := tmap (fun _ t => t.filter fun e => e.1 / 2 ^ 32 ≠ c) s.tlb }

/-- Dirty L2 lines that bear the tag of a context are written back (R394, step 3). -/
def State.writeBackDomain (s : State) (c : Nat) : State :=
  (s.l2.filter fun e => e.2.owner = c && e.2.dirty ≠ 0).foldl (fun s (line, l) =>
    (s.writeBack (granBase (line * 128) l.attr.g512) l.attr.g512 l.attr.anchor false).1) s

/-- The status of a killed launch (R393). -/
def State.killedStatus (s : State) (c : Nat) : State :=
  let x := s.ctx c
  match x.launch with
  | some l => if x.killStatus then runIgnore (writeStatus l.die c l.sig l.seq { kind := 4, cause := x.killCause }) s else s
  | none => s

/-- The drain of a context is complete (R394): steps 1, 3 and 4; nothing of it is in flight, a kill has dropped its jobs and messages. -/
def State.drain (s : State) (c : Nat) : State :=
  if (s.ctx c).st ≠ CtxSt.draining then s
  else
    let s := (((s.dropDomain c).writeBackDomain c).killedStatus c).endLaunch c
    let s := s.dropDomain c
    { s with
      ctxs := terase s.ctxs c
      occ := tmap (fun _ b => b &&& ~~~BitVec.ofNat 1024 (2 ^ c)) s.occ }

/-- DRAIN_COMPLETE (R394). -/
def execDrainComplete (ctx : Nat) (s : State) : Host.Outcome State Fault Refusal := eventStep (fun s => s.drain ctx) s

/-! ## Replay -/

/-- The record as its snapshot, whose bytes are the number b, holds it, READY for a clean entry: every field of Table 1-4, and its views (R396). -/
def Rec.replayed (r : Rec) (sn : Snapshot) (b : Nat) : Rec :=
  { r.ofBits b with
    chunks := sn.chunks
    st := RecSt.ready, resume := 0, saved := none, savedScr := [], held := false, snap := some sn, rings := [] }

/-- Cancels the engine jobs that write a leaf's scratch allocation: no reply, no further write; a job that waited for one waits no longer (R396). -/
def State.cancelScratchJobs (s : State) (core slot : Nat) (L : Leaf) : State :=
  let one (k : Nat) (x : Core) : Core :=
    let gone := (x.jobs.filter fun e => e.2.hitsScratch k core slot L.ctx L.entry).map (·.1)
    let rest := x.jobs.filter fun e => !gone.contains e.1
    { x with jobs := tmap (fun _ j => { j with preds := j.preds.filter fun i => !gone.contains i }) rest }
  { s with cores := tmap one s.cores }

/-- Puts a READY record on the newest end of a core's deque (R374). -/
def State.pushReady (s : State) (c core i : Nat) : State :=
  let x := s.ctx c
  (s.setCtx c { x with deques := tset x.deques core (i :: tget [] x.deques core) }).occSet (occNest (coreDie core)) c

/-- The core a replayed record goes to: the lowest-numbered qualifying one other than the core that reported, which takes it itself where there is no other. -/
def State.replayCore (s : State) (c i core : Nat) : Nat :=
  ((s.ctxCores c).find? fun k => k ≠ core && s.fits c i k).getD core

/-- A leaf may be replayed (R396). -/
def Rec.replayable (r : Rec) (L : Leaf) : Bool := r.replay && !L.noReplay && r.snap.isSome

/-- The snapshot of a clean entry as the 256 bytes in the image slot hold it (R396), read by the core that takes the record, with the number that the bytes make. -/
def readSnapshot (die c img : Nat) (sn : Snapshot) : M (Snapshot × Nat) := do
  let s ← get
  let bs ← nestRead die c ((s.ctx c).imgAddr img + 0xC080) 256 .image
  pure (sn.ofBytes bs, ofBytes bs)

/-- Replays the leaf of a box on a core and slot, running there or held there (R396). A snapshot that cannot be read leaves nothing to restore, so the context is killed as R397 says of a leaf that cannot be replayed (log 5). Of a launch that has been aborted the record, READY again, is discarded (R29). -/
def State.replayLeaf (s : State) (core slot : Nat) (L : Leaf) (cause : Cause) : State :=
  let c := L.ctx
  match (s.ctx c).record L.recIdx with
  | none => s
  | some r =>
    match r.snap.map fun sn => attempt (readSnapshot (coreDie (s.replayCore c L.recIdx core)) c L.img sn) s with
    | none => s
    | some (.ok (.error _) s) | some (.error _ s) => s.kill c cause (if cause = .replayRefused then core else 0)
    | some (.ok (.ok (sn, b)) s) =>
      let s := s.suspendOrder core c
      let s := (s.parkJobs core L).1
      let s := { s with msgs := s.msgs.filter fun e => !(e.2.ctx = c && e.2.entry = L.entry) }
      let s := ((s.keepOwn c L.entry).cancelScratchJobs core slot L).detachRings c L.entry true
      let s := { s with cores := tmap (fun _ k => { k with rings := k.rings.filter fun g => !(g.ctx = c && g.declarer = L.entry) }) s.cores }
      let s := s.clearScratch core slot
      let s := if (s.leafAt core slot).mode ≠ Mode.idle then s.setLeafAt core slot Leaf.idle else s
      let x := s.ctx c
      let s := s.setCtx c { x.unlist L.recIdx with
        imgUsed := x.imgUsed.filter (· ≠ L.img), faulted := terase x.faulted L.recIdx }
      let s := s.setRec c L.recIdx (r.replayed sn b)
      if (s.ctx c).dead then s.dropRec c L.recIdx
      else s.pushReady c (s.replayCore c L.recIdx core) L.recIdx

/-- Replays a leaf, or kills its context (R396, R397); of REPLAY_REFUSED the notice names the core that reported. -/
def State.replayOrKill (s : State) (core slot : Nat) (L : Leaf) (cause : Cause) : State :=
  match (s.ctx L.ctx).record L.recIdx with
  | none => s
  | some r =>
    if r.replayable L then s.replayLeaf core slot L cause else s.kill L.ctx cause (if cause = .replayRefused then core else 0)

/-- CORE_LOGIC_ERROR (R396, R397): a failed result check of the leaf in a slot; a merge in progress there restarts by itself. Telemetry names the core (R396). -/
def execCoreLogicError (core slot : Nat) (s : State) : Host.Outcome State Fault Refusal :=
  eventStep (fun s =>
    let L := s.leafAt core slot
    let s := s.updTele (coreDie core) fun t => { t with errCore := some core }
    if L.mode = Mode.idle || L.mode = Mode.merging then s else s.replayOrKill core slot L .replayRefused) s

/-- STRING_SOFT_ERROR (R395): the unit is executed again from its inputs, which changes nothing; telemetry counts the error (R415). -/
def execStringSoftError (core : Nat) (s : State) : Host.Outcome State Fault Refusal :=
  eventStep (fun s => s.updTele (coreDie core) fun t => { t with corrected := tset t.corrected 8 (tget 0 t.corrected 8 + 1) }) s

/-- LINK_CRC_REPLAY (R395, Table 15-5): links 0 to 17 are the KiteLink ports, whose registers count their replays; the others, numbered from 18 with the die in the low two bits of the rest, are counted in the die's telemetry (R415; log 26). -/
def execLinkCrcReplay (link : Nat) (s : State) : Host.Outcome State Fault Refusal :=
  eventStep (fun s =>
    if link < 18 then
      let p := s.pkg.port link
      s.setPort link { p with replays := (p.replays + 1) % 2 ^ 32 }
    else s.updTele (link - 18) fun t => { t with replays := t.replays + 1 }) s

/-! ## Losing a die link -/

/-- S(c) of R398: the dies of the partition from which every die that holds a line of the context is reached. -/
def State.survivors (s : State) (c : Nat) : List Nat :=
  let ds := (nodeCores (s.ctx c).node).map coreDie
  (s.reachDies c).filter ds.contains

/-- Leaves of a context that run, or are held, on a die outside S(c) (R398): (core, slot, leaf). -/
def State.strandedLeaves (s : State) (c : Nat) (ok : List Nat) : List (Nat × Nat × Leaf) :=
  let out (core : Nat) : Bool := !ok.contains (coreDie core)
  (s.leaves.filterMap fun (k, L) =>
    if L.ctx = c && (L.mode = Mode.running || L.mode = Mode.waiting) && out (k / 4) then some (k / 4, k % 4, L) else none)
  ++ ((s.ctx c).recs.filterMap fun (_, r) => match r.saved with
    | some L => if r.held && out r.core then some (r.core, r.slot, L) else none
    | none => none)

/-- READY records on deques outside S(c) are dealt to qualifying cores of S(c) in increasing record index, one per core in turn (R398). -/
def State.dealStranded (s : State) (c : Nat) (ok : List Nat) : State :=
  let x := s.ctx c
  let (inside, outside) := x.deques.partition fun e => ok.contains (coreDie e.1)
  let idx := (outside.map (·.2)).flatten
  let sorted := (x.recs.map (·.1)).filter idx.contains
  let s := s.setCtx c { x with deques := inside }
  sorted.zipIdx.foldl (fun s (i, n) =>
    let cs := (s.ctxCores c).filter fun k => s.fits c i k
    s.pushReady c (cs.getD (n % cs.length) 0) i) s

/-- What the loss of a link does to one context (R398); a merge on a die outside S(c) restarts on S(c), without its leaf (R385). -/
def State.linkLostCtx (s : State) (c : Nat) : State :=
  let ok := s.survivors c
  if ok.isEmpty then s.kill c .dieLinkLost
  else
    let s := s.setCtx c { s.ctx c with alive := some ok }
    let s := { s with leaves := tmap (fun k L =>
      if L.ctx = c && L.mode = Mode.merging && !ok.contains (coreDie (k / 4)) then Leaf.idle else L) s.leaves }
    let s := s.setCtx c (let x := s.ctx c; { x with recs := tmap (fun _ r =>
      if r.st = RecSt.joining && !r.mergeDone && !ok.contains (coreDie r.core) then { r with core := (s.ctxCores c).headD r.core, slot := 0 } else r) x.recs })
    let s := (s.strandedLeaves c ok).foldl (fun s (core, slot, L) => s.replayOrKill core slot L .dieLinkLost) s
    if (s.ctx c).st = CtxSt.draining then s else
      let s := s.dealStranded c ok
      if s.holders.any fun e => e.2 = c then s.featureCheck c else s

/-- A link between two dies is lost (R398). -/
def State.loseLink (s : State) (a b : Nat) : State :=
  if a = b || 4 ≤ a || 4 ≤ b || s.pkg.linksLost.contains (min a b, max a b) then s
  else
    let s := { s with pkg := { s.pkg with linksLost := (min a b, max a b) :: s.pkg.linksLost } }
    let s := (s.postEvent a .dieLinkLost 0 0).postEvent b .dieLinkLost 0 0
    ((s.ctxs.filter fun e => e.2.st ≠ CtxSt.free).map (·.1)).foldl (fun s c => s.linkLostCtx c) s

end Sys2Proof.Machine
end

