-- ==== Sys2Proof/Machine/Package.lean ====
section
/-! DEFINITION. The events of the memory system, the host link, the key store, KiteLink, bring-up and power (R325, R328-R333, R357, R399-R418, R428, R429). A row that writes a register of the control space is a write by `State.master`: a host function, whose request the access table of the target checks, or the board management controller. -/

namespace Sys2Proof.Machine

/-! ## Remote copies and granules -/

/-- A stale notice arrives (R357): the die's copy of the line becomes STALE. -/
def State.staleArrive (s : State) (die line : Nat) : State :=
  if !s.staleNotices.contains (die, line) then s
  else
    let s := { s with staleNotices := s.staleNotices.erase (die, line) }
    let d := s.die die
    match tfind d.rdc line with
    | some r => s.setDie die { d with rdc := tset d.rdc line { r with stale := true } }
    | none => s

/-- STALE_NOTICE (R357). -/
def execStaleNotice (die line : Nat) (s : State) : Host.Outcome State Fault Refusal := eventStep (fun s => s.staleArrive die line) s

/-- An address whose home keeps sealed granules. -/
def State.isSealed (s : State) (pa : Nat) : Bool :=
  match s.homeOf pa with
  | .lpddr _ _ _ | .cxl _ _ _ => true
  | _ => false

/-- A fill of a granule of which no line is present (R331). -/
def State.fillEvent (s : State) (pa slot : Nat) (g512 anchor : Bool) : State :=
  let base := granBase pa g512
  if !s.isSealed pa || s.l2.any (fun e => base / 128 ≤ e.1 && e.1 < (base + granSize g512) / 128) then s
  else
    let attr := { s.plainAt pa with g512 := g512, anchor := anchor }
    (runIgnore (fillGranule { whoDcc (s.homeDie pa) with slot := slot } pa attr) s).settleAlloc s pa attr

/-- GRANULE_FILL (R331). -/
def execGranuleFill (pa slot : Nat) (g512 anchor : Bool) (s : State) : Host.Outcome State Fault Refusal :=
  eventStep (fun s => s.fillEvent pa slot g512 anchor) s

/-- GRANULE_WRITEBACK (R332): of the granule of a line that the home holds. -/
def execGranuleWriteback (pa : Nat) (s : State) : Host.Outcome State Fault Refusal :=
  eventStep (fun s => match tfind s.l2 (pa / 128) with
    | some l => (s.writeBack (granBase pa l.attr.g512) l.attr.g512 l.attr.anchor false).1
    | none => s) s

/-- Patrol scrub of a granule (R414): an uncorrectable error in its ciphertext or record quarantines it. -/
def State.scrub (s : State) (pa : Nat) (uncorrectable : Bool) : State :=
  let g := s.gran512 pa
  let mark := tget 0 s.ueMarks (granBase pa g / 512)
  if !s.isSealed pa || !(uncorrectable || mark = 1 || mark = 2) then s
  else (s.quarantine (granBase pa g) g).postEvent (s.homeDie pa) .sealScrubUe (granBase pa g) 0

/-- PATROL_SCRUB (R414). -/
def execPatrolScrub (pa : Nat) (uncorrectable : Bool) (s : State) : Host.Outcome State Fault Refusal :=
  eventStep (fun s => s.scrub pa uncorrectable) s

/-- CHANNEL_RETRAIN (R413): accesses to the channel wait; nothing else changes. -/
def execChannelRetrain (_channel : Nat) (s : State) : Host.Outcome State Fault Refusal := eventStep (fun s => s) s

/-! ## CXL ports and the host link -/

/-- CXL_LINK_DOWN (R406): status bit [0] clears until system software has retrained the port and set it again. -/
def execCxlLinkDown (die : Nat) (s : State) : Host.Outcome State Fault Refusal :=
  eventStep (fun s => s.setDie die { s.die die with cxl := (s.die die).cxl &&& ~~~1#64, cxlTrained := false }) s

/-- System software retrains a CXL port, which enumerates the expander that is attached, of at most 2 TiB (R406): its link bit is 0 until software sets it; an expander that is refused, or not found, leaves the port down, its range as it was. The spec names no register for the retraining (log 63). -/
def State.cxlTrain (s : State) (die gib : Nat) (good : Bool) : State :=
  s.setDie die { s.die die with cxl := if good then BitVec.ofNat 64 (2 + min gib 2048 * 2 ^ 32) else (s.die die).cxl &&& ~~~3#64, cxlTrained := good }

/-- Accesses of a host function at a home (R400, R404): class 3, no domain, the key slot of the function's window register. -/
def State.whoHost (s : State) (fn pa : Nat) : Who :=
  let die := s.homeDie pa
  ⟨none, 1024 + die, die, field (s.pkg.hostWin[fn % 16]'(Nat.mod_lt _ (by decide))).toNat 0 8, 3 * 512 + fn % 16, false⟩

/-- The host reaches the address: a module of the link is up, and the HDM decoder maps it (R403, R404). -/
def State.hostReaches (s : State) (pa : Nat) : Bool := s.pkg.hostMods ≠ 0 && pa < 0xF800000000 && pa % 8 = 0

/-- A host access (R404): a slot mismatch is refused as by the access table, and posted. -/
def State.hostAccess (s : State) (w : Who) (pa : Nat) (m : M Unit) : State :=
  match attempt m s with
  | .ok (.error t) s' =>
    if t.cause = .sealTenant then (s'.refuse (s'.sliceOf pa) w.id).postEvent (s'.homeDie pa) .sealTenant pa 0 else s'
  | .ok (.ok _) s' => s'
  | .error _ s' => s'

/-- A host read of a quad: the line enters the snoop filter (R404). -/
def hostRead (w : Who) (pa : Nat) : M Unit := do
  let _ ← homeRead w plainAttr pa 8
  upd fun s => { s with pkg := { s.pkg with hostHeld := (pa / 128) :: s.pkg.hostHeld.filter (· ≠ pa / 128) } }

/-- HOST_CXLMEM_READ (R404). -/
def execHostCxlmemRead (fn pa : Nat) (s : State) : Host.Outcome State Fault Refusal :=
  eventStep (fun s => if s.hostReaches pa then s.hostAccess (s.whoHost fn pa) pa (hostRead (s.whoHost fn pa) pa) else s) s

/-- HOST_CXLMEM_WRITE (R404, R405). -/
def execHostCxlmemWrite (fn pa : Nat) (value : BitVec 64) (s : State) : Host.Outcome State Fault Refusal :=
  eventStep (fun s =>
    if s.hostReaches pa then
      s.hostAccess (s.whoHost fn pa) pa (homeStore (s.whoHost fn pa) plainAttr pa (toBytes 8 value.toNat) false)
    else s) s

/-- HOST_MODULE_DEGRADE (R403): the module is removed. -/
def execHostModuleDegrade (module : Nat) (s : State) : Host.Outcome State Fault Refusal :=
  eventStep (fun s => { s with pkg := { s.pkg with hostMods := s.pkg.hostMods &&& ~~~BitVec.ofNat 4 (2 ^ module) } }) s

/-! ## Registers of the dies -/

/-- TLB_INVAL_RANGE (R325). -/
def execTlbInvalRange (die ctx va : Nat) (s : State) : Host.Outcome State Fault Refusal :=
  eventStep (fun s => s.ctrlBy (dieCtrl (die % 4) + 0x100) (BitVec.ofNat 64 (ctx % 1024 + va % 2 ^ 32 * 2 ^ 16))) s

/-- TLB_INVAL_CONTEXT (R325). -/
def execTlbInvalContext (die ctx : Nat) (s : State) : Host.Outcome State Fault Refusal :=
  eventStep (fun s => s.ctrlBy (dieCtrl (die % 4) + 0x100) (BitVec.ofNat 64 (ctx % 1024 + 2 ^ 10))) s

/-- TLB_INVAL_ALL (R325). -/
def execTlbInvalAll (die : Nat) (s : State) : Host.Outcome State Fault Refusal :=
  eventStep (fun s => s.ctrlBy (dieCtrl (die % 4) + 0x100) (BitVec.ofNat 64 (2 ^ 11))) s

/-- Address of a format-window register (Tables 11-9, 15-1). -/
def fwinAddr (die sc win reg : Nat) : Nat := dieCtrl (die % 4) + 0x20000 + 0x1000 * (sc % 32) + 64 * (win % 16) + 8 * (reg % 8)

/-- FWIN_REG_WRITE (R342). -/
def execFwinRegWrite (die sc win reg : Nat) (value : BitVec 64) (s : State) : Host.Outcome State Fault Refusal :=
  eventStep (fun s => s.ctrlBy (fwinAddr die sc win reg) value) s

/-- ATCTL_WRITE (R402). -/
def execAtctlWrite (target : Nat) (value : BitVec 64) (s : State) : Host.Outcome State Fault Refusal :=
  eventStep (fun s => s.ctrlBy (tableAddr target) value) s

/-! ## The key store -/

/-- KS_LOAD (R407). -/
def execKsLoad (s : State) : Host.Outcome State Fault Refusal := eventStep (fun s => s.ksRun 1 State.ksLoad) s
/-- KS_CLEAR (R407). -/
def execKsClear (s : State) : Host.Outcome State Fault Refusal := eventStep (fun s => s.ksRun 2 State.ksClear) s
/-- KS_RESEAL (R407). -/
def execKsReseal (s : State) : Host.Outcome State Fault Refusal := eventStep (fun s => s.ksRun 3 State.ksReseal) s
/-- KS_RDATA_WRITE (Table 15-3): both quads of the register, each checked as it arrives. -/
def execKsRdataWrite (value : BitVec 128) (s : State) : Host.Outcome State Fault Refusal :=
  eventStep (fun s => (s.ctrlBy (pkgCtrl + 0x1060) (value.extractLsb' 0 64)).ctrlBy (pkgCtrl + 0x1068) (value.extractLsb' 64 64)) s
/-- KS_TAMPER (R428, R429). -/
def execKsTamper (value : BitVec 64) (s : State) : Host.Outcome State Fault Refusal :=
  eventStep (fun s => s.ctrlBy (pkgCtrl + 0x1070) value) s

/-! ## KiteLink -/

/-- Collectives of this package over a package with no route left end with COLL_ABORT (R228, R408). -/
def State.abortUnrouted (s : State) : State :=
  let lost (m : CollJoin) : Bool := m.job.isSome && (groupPkgs m.group).any fun p => p ≠ m.pkg && !s.podRoute p
  let s' := s.collFail (s.colls.filter lost) .collAbort
  { s' with colls := s'.colls.filter fun m => !lost m }

/-- A port drops out of routing (R408). -/
def State.portDown (s : State) (port : Nat) : State :=
  (s.setPort port { s.pkg.port port with up := false }).abortUnrouted

/-- A port has retrained (R408): the peer's index, and a conflict where it is the package's own. -/
def State.portTrained (s : State) (port peer : Nat) (trained : Bool) : State :=
  if 18 ≤ port then s
  else if !trained then s.portDown port
  else s.setPort port { s.pkg.port port with up := true, conflict := (peer % 32 == s.pkg.index), peer := peer % 32 }

/-- KL_RETRAIN (R408). -/
def execKlRetrain (port peer : Nat) (trained : Bool) (s : State) : Host.Outcome State Fault Refusal :=
  eventStep (fun s => s.portTrained port peer trained) s

/-- KL_PORT_DOWN (R408). -/
def execKlPortDown (port : Nat) (s : State) : Host.Outcome State Fault Refusal :=
  eventStep (fun s => if port < 18 then s.portDown port else s) s

/-- Some port carries traffic (R408). -/
def State.kiteUp (s : State) : Bool := s.pkg.kl.any fun p => p.up && p.enabled && !p.conflict

/-- Accesses of another package at a home (R400, R401, R409): class 4, no domain, the key slot whose tenant is the request's. -/
def State.whoPod (s : State) (pkg tenant pa : Nat) : Who :=
  let die := s.homeDie pa
  ⟨none, 1024 + die, die, ((s.pkg.ks.tenants.find? fun e => e.2 = tenant).map (·.1)).getD 0, 4 * 512 + pkg % 32, false⟩

/-- Notes that a package holds a copy of a line (R357). -/
def State.podCopy (s : State) (line pkg : Nat) : State :=
  { s with podHeld := tset s.podHeld line (tget 0 s.podHeld line ||| BitVec.ofNat 32 (2 ^ (pkg % 32))) }

/-- A request from another package is served or refused (R401, R408); an atom waits for its home's handler thread, a member of a collective for the others; a member whose context has died ends its collective (R228), and a package reports which tenants are resident there (R409). -/
def State.ingress (s : State) (pkg : Nat) (req : IngressReq) : State :=
  if !s.kiteUp then s
  else match req with
  | .read pa tenant =>
    (match attempt (homeRead (s.whoPod pkg tenant pa) plainAttr (pa - pa % 8) 8) s with
     | .ok (.ok _) s' => s'.podCopy (pa / 128) pkg
     | .ok (.error _) s' => s'
     | .error _ s' => s')
  | .write pa tenant value => runIgnore (homeStore (s.whoPod pkg tenant pa) plainAttr (pa - pa % 8) (toBytes 8 value.toNat) false) s
  | .atomAdd pa tenant value =>
    (match (s.homeOf pa).place with
     | some (d, sc) =>
       let k := d * 32 + sc
       { s with atomQ := tset s.atomQ k ((tget [] s.atomQ k) ++ [⟨pkg, tenant, pa - pa % 8, value⟩]) }
     | none => s)
  | .collJoin tenant tag idx count op kind root group src =>
    { s with colls := s.colls ++ [⟨none, idx % 32, tenant, tag, count, op, kind, root, group, src⟩] }
  | .collLeave tenant tag =>
    let ms := s.joins tenant tag
    if ms.any fun m => m.group.testBit (pkg % 32) then
      let s' := s.collFail ms .collAbort
      { s' with colls := s'.colls.filter fun m => !(m.tenant = tenant && m.tag = tag) }
    else s
  | .residence tenant resident =>
    let rest := s.podResident.filter (· ≠ (pkg % 32, tenant))
    { s with podResident := if resident then (pkg % 32, tenant) :: rest else rest }

/-- KITELINK_INGRESS_REQUEST (R401, R408). -/
def execKitelinkIngressRequest (pkg : Nat) (req : IngressReq) (s : State) : Host.Outcome State Fault Refusal :=
  eventStep (fun s => s.ingress pkg req) s

/-! ## Bring-up, power, control registers -/

/-- Stage 0 is complete (R407, R411, Table 4-8): the key store's table is locked, and the boot ROM starts the firmware at the entry address of its image. -/
def State.bootFirmware (s : State) (die : Nat) : State :=
  let c := (s.die die).dcc
  let entry := Config.firmwareEntry die &&& ~~~15#64
  let s := s.atctl tgtKey (BitVec.ofNat 64 (2 ^ 63))
  s.setDcc die { c with vec := entry, started := true, leaf := { c.leaf with pc := entry } }

/-- Capacity of an expander that trains, in GiB: what is attached is not the spec's to say, so it is a free value of at most 2 TiB (R406). -/
def State.trainCxl (s : State) (die : Nat) : State :=
  let cap := (Config.freeValue s.free).toNat % 2049
  let s := { s with free := s.free + 1 }
  s.setDie die { s.die die with cxl := BitVec.ofNat 64 (3 + cap * 2 ^ 32), cxlTrained := true }

/-- A boot failure goes to the telemetry block and out over I3C (R411, R415): its code is held as the stage that failed (log 26). -/
def State.bootFailed (s : State) (die : Nat) : State :=
  let x := s.die die
  let s := s.setDie die { x with tele := { x.tele with bootFail := some x.boot } }
  { s with pkg := { s.pkg with reports := s.pkg.reports ++ [.bootFailed die x.boot] } }

/-- Memory initialisation of what a die is home to (R412): every seal record and every anchor entry at its reset value. -/
def State.memInit (s : State) (die : Nat) : State :=
  let mine (k : Nat) : Bool := s.homeDie (k * 512) = die
  { s with
    seals := s.seals.filter fun e => !mine e.1
    anchors := tmap (fun k a => if mine k then recInit else a) s.anchors
    ueMarks := s.ueMarks.filter fun e => !(mine e.1 && (e.2 = 2 || e.2 = 3)) }

/-- A die halts at stage 0: its links are treated as lost by the others, with their notices (R398, R411). -/
def State.bootHalt (s : State) (die : Nat) : State :=
  let s := s.setDie die { s.die die with bootHalted := true }
  let s := ((List.range 4).filter (· ≠ die)).foldl (fun s d => s.postEvent d .dieLinkLost 0 0) s
  ((s.ctxs.filter fun e => e.2.st ≠ CtxSt.free).map (·.1)).foldl (fun s c => s.linkLostCtx c) s

/-- A die link fails to train at stage 1 and is lost (R398, Table 15-4); which of the die's is a free value (log 52). -/
def State.bootLink (s : State) (die : Nat) : State :=
  let ds := (List.range 4).filter fun d => d ≠ die && !s.pkg.linksLost.contains (min d die, max d die)
  match ds[s.freePick ds.length]? with
  | some d => ({ s with free := s.free + 1 } : State).loseLink die d
  | none => s

/-- DIE_LINK_LOST (R398): for a die that is at stage 1 the loss is that stage's failure, which is reported (R411). -/
def execDieLinkLost (a b : Nat) (s : State) : Host.Outcome State Fault Refusal :=
  eventStep (fun s =>
    if a = b || 4 ≤ a || 4 ≤ b || s.pkg.linksLost.contains (min a b, max a b) then s
    else ([a, b].foldl (fun s d => if (s.die d).boot = 1 && !(s.die d).bootHalted then s.bootFailed d else s) s).loseLink a b) s

/-- The work of a boot stage ends (R411, Table 15-4). A die that has lost a link goes on; a host link with no module keeps it at stage 1. -/
def State.boot (s : State) (die : Nat) (good : Bool) : State :=
  let x := s.die die
  let up (s : State) : State := s.setDie die { s.die die with boot := x.boot + 1 }
  let bad := s.bootFailed die
  if x.bootHalted || 5 ≤ x.boot then s
  else match x.boot with
  | 0 => if good then up (s.bootFirmware die) else bad.bootHalt die
  | 1 =>
    if s.pkg.hostMods ≠ 0 then up (if good then s else bad.bootLink die)
    else if good then bad else bad.bootLink die
  | 2 => if good then up ((s.setKs { s.pkg.ks with keys := tset s.pkg.ks.keys 0 Config.slot0Key }).memInit die) else bad
  | 3 => up (if good then s.trainCxl die else bad)
  | _ => up (if good then s else bad)

/-- BOOT_STAGE (R411). -/
def execBootStage (die : Nat) (good : Bool) (s : State) : Host.Outcome State Fault Refusal :=
  eventStep (fun s => s.boot (die % 4) good) s

/-- Package reset (R411): every register at its reset value. What lies outside the package's own state stays: the bytes behind its channels, other memories, the fuses and what is fused off, the turns to come and the count of free values. Where the package had removed its power, this is its next power-up, which reports the event over I3C (R418). -/
def State.packageReset (s : State) : State :=
  let r := State.reset
  { r with
    turns := s.turns, free := s.free, dram := s.dram, podMem := s.podMem, podDirty := s.podDirty, hostMem := s.hostMem, slowVec := s.slowVec
    pkg := { r.pkg with
      ks := { r.pkg.ks with testMode := s.pkg.ks.testMode }
      reports := if s.pkg.off then [.powerEvent] else [] } }

/-- PACKAGE_RESET (R411), a power-up too (R418). -/
def execPackageReset (s : State) : Host.Outcome State Fault Refusal := .next s.packageReset

/-- POWER_THROTTLE (R416): the clock step, 8 to 16 sixteenths. -/
def execPowerThrottle (step : Nat) (s : State) : Host.Outcome State Fault Refusal :=
  eventStep (fun s =>
    if 8 ≤ step && step ≤ 16 then { s with pkg := { s.pkg with thrStep := step, thrPower := decide (step < 16) } } else s) s

/-- THERMAL_THROTTLE (R418). -/
def execThermalThrottle (_die step : Nat) (s : State) : Host.Outcome State Fault Refusal :=
  eventStep (fun s =>
    if 8 ≤ step && step ≤ 16 then { s with pkg := { s.pkg with thrStep := step, thrTemp := decide (step < 16) } } else s) s

/-- THERMAL_CRITICAL (R418): the package removes its own power; every context is lost without status. -/
def execThermalCritical (_die : Nat) (s : State) : Host.Outcome State Fault Refusal :=
  eventStep (fun s => { s with pkg := { s.pkg with off := true }, ctxs := [], leaves := [], holders := [] }) s

/-- CTRL_REG_WRITE (R399): an aligned quad of the control space. -/
def execCtrlRegWrite (addr : Nat) (value : BitVec 64) (s : State) : Host.Outcome State Fault Refusal :=
  eventStep (fun s => s.ctrlBy addr value) s

end Sys2Proof.Machine
end

