-- ==== Sys2Proof/Machine/Pred.lean ====
section
/-! DEFINITION. The predicate instructions (R129, R130). -/

namespace Sys2Proof.Machine

/-- Writes the bits of pD that a guard of 1024 elements makes active; taint is that of the sources, the guard bits and the control-taint bit (R116, R129). -/
def putPred (x : Args) (L : Leaf) (v t : PWord) : Leaf :=
  let m := BitVec.ofNat 1024 (L.guardMask x.guard 1024)
  let t := if L.ctlTaint then BitVec.allOnes 1024 else t ||| BitVec.ofNat 1024 (L.guardTaint x.guard)
  let d := x.d.preg
  L.writeP d ((L.readP d &&& ~~~m) ||| (v &&& m)) ((L.taintP d &&& ~~~m) ||| (t &&& m))

/-- A bitwise instruction of two predicates (R129). -/
def predStep (x : Args) (f : PWord → PWord → PWord) (s : State) : Host.Outcome State Fault Refusal :=
  regStep (fun L =>
    (putPred x L (f (L.readP x.a.preg) (L.readP x.b.preg)) (L.taintP x.a.preg ||| L.taintP x.b.preg)).advance) s

/-- `pand` (R129). -/
def execPand (x : Args) (s : State) : Host.Outcome State Fault Refusal := predStep x (fun a b => a &&& b) s

/-- `por` (R129). -/
def execPor (x : Args) (s : State) : Host.Outcome State Fault Refusal := predStep x (fun a b => a ||| b) s

/-- `pxor` (R129). -/
def execPxor (x : Args) (s : State) : Host.Outcome State Fault Refusal := predStep x (fun a b => a ^^^ b) s

/-- `pandn` (R129): pA AND NOT pB. -/
def execPandn (x : Args) (s : State) : Host.Outcome State Fault Refusal := predStep x (fun a b => a &&& ~~~b) s

/-- `pnot` (R129): B is unused. -/
def execPnot (x : Args) (s : State) : Host.Outcome State Fault Refusal :=
  regStep (fun L => (putPred x L (~~~L.readP x.a.preg) (L.taintP x.a.preg)).advance) s

/-- `prd` (R130): the 64-bit group of pA that B names. -/
def execPrd (x : Args) (s : State) : Host.Outcome State Fault Refusal :=
  scalarStep x (fun s L =>
    let b := srcOf x s false x.b
    let lo := 64 * (b.1 % 16)
    let t := (L.taintP x.a.preg).extractLsb' lo 64
    L.putS x ((L.readP x.a.preg).extractLsb' lo 64) (b.2 || t ≠ 0)) s

/-- `pwr` (R130): sA into the group of pD that B names. -/
def execPwr (x : Args) (s : State) : Host.Outcome State Fault Refusal :=
  scalarStep x (fun s L =>
    let a := srcOf x s false x.a
    let b := srcOf x s false x.b
    let lo := 64 * (b.1 % 16)
    let m := BitVec.ofNat 1024 (ones lo 64)
    let d := x.d.preg
    let t := if a.2 || b.2 || L.ctlT x.guard then m else 0
    L.writeP d ((L.readP d &&& ~~~m) ||| BitVec.ofNat 1024 (a.1 <<< lo)) ((L.taintP d &&& ~~~m) ||| t)) s

end Sys2Proof.Machine
end

