-- ==== Sys2Proof/Machine/Scalar.lean ====
section
/-! DEFINITION. The scalar integer and float instructions (R114-R128): one definition per instruction over the operand reads of Operands and the arithmetic of Flags. -/

namespace Sys2Proof.Machine

/-- Writes the k-bit result of two typed sources by the element type, with its flags and taint (R114-R117). -/
def putInt (x : Args) (s : State) (L : Leaf) (f : Nat → Bool → Int → Int → Nat × Flags) : Leaf :=
  let a := srcOf x s false x.a
  let b := srcOf x s false x.b
  let r := f (etyBits x.ety) (etySigned x.ety) (etyVal x.ety a.1) (etyVal x.ety b.1)
  (L.raise r.2).putS x (etyExt x.ety r.1) (a.2 || b.2)

/-- Writes the result of the k-bit pattern of A and the untyped value of B (R121, R122). -/
def putBits (x : Args) (s : State) (L : Leaf) (f : Nat → Nat → Nat → Nat) : Leaf :=
  let a := srcOf x s false x.a
  let b := srcOf x s false x.b
  let k := etyBits x.ety
  L.putS x (etyExt x.ety (f k (a.1 % 2 ^ k) b.1)) (a.2 || b.2)

/-- Writes a count of the k-bit pattern of A, zero-extended (R119). -/
def putCount (x : Args) (s : State) (L : Leaf) (f : Nat → Nat → Nat) : Leaf :=
  let a := srcOf x s false x.a
  let k := etyBits x.ety
  L.putS x (BitVec.ofNat 64 (f k (a.1 % 2 ^ k))) a.2

/-- Writes an f32 result of two sources, bits [63:32] cleared (R125). -/
def putF32 (x : Args) (s : State) (L : Leaf) (f : Bool → Fv → Fv → Nat × Flags) : Leaf :=
  let a := srcOf x s true x.a
  let b := srcOf x s true x.b
  let ftz := modFtz x
  let r := f ftz (fdecodeFtz fmtF32 ftz (a.1 % 2 ^ 32)) (fdecodeFtz fmtF32 ftz (b.1 % 2 ^ 32))
  (L.raise r.2).putS x (BitVec.ofNat 64 r.1) (a.2 || b.2)

/-- Writes a fused f32 result of three sources (R126). -/
def putFma (x : Args) (s : State) (L : Leaf) (neg : Bool) : Leaf :=
  let a := srcOf x s true x.a
  let b := srcOf x s true x.b
  let c := srcOf x s true x.c
  let ftz := modFtz x
  let v (y : Nat) : Fv := fdecodeFtz fmtF32 ftz (y % 2 ^ 32)
  let r := ffma fmtF32 .rne ftz neg (v a.1) (v b.1) (v c.1)
  (L.raise r.2).putS x (BitVec.ofNat 64 r.1) (a.2 || b.2 || c.2)

/-- `add` (R119): a + b, wrapped. -/
def execAdd (x : Args) (s : State) : Host.Outcome State Fault Refusal :=
  scalarStep x (fun s L => putInt x s L (fun k _ a b => (narrow k (a + b), 0))) s

/-- `add.sat` (R54, R119): a + b clamped, SAT when it was. -/
def execAddSat (x : Args) (s : State) : Host.Outcome State Fault Refusal :=
  scalarStep x (fun s L => putInt x s L (fun k sg a b => satInt k sg (a + b))) s

/-- `sub` (R119): a - b, wrapped. -/
def execSub (x : Args) (s : State) : Host.Outcome State Fault Refusal :=
  scalarStep x (fun s L => putInt x s L (fun k _ a b => (narrow k (a - b), 0))) s

/-- `sub.sat` (R54, R119): a - b clamped, SAT when it was. -/
def execSubSat (x : Args) (s : State) : Host.Outcome State Fault Refusal :=
  scalarStep x (fun s L => putInt x s L (fun k sg a b => satInt k sg (a - b))) s

/-- `mul` (R119): the low k bits of a * b. -/
def execMul (x : Args) (s : State) : Host.Outcome State Fault Refusal :=
  scalarStep x (fun s L => putInt x s L (fun k _ a b => (narrow k (a * b), 0))) s

/-- `mul.hi` (R119): the high half of the exact product. -/
def execMulHi (x : Args) (s : State) : Host.Outcome State Fault Refusal :=
  scalarStep x (fun s L => putInt x s L (fun k _ a b => (mulHighInt k a b, 0))) s

/-- `div` (R120): the quotient truncated toward zero; DZ, OF. -/
def execDiv (x : Args) (s : State) : Host.Outcome State Fault Refusal :=
  scalarStep x (fun s L => putInt x s L divInt) s

/-- `rem` (R120): the remainder with the sign of the dividend; DZ. -/
def execRem (x : Args) (s : State) : Host.Outcome State Fault Refusal :=
  scalarStep x (fun s L => putInt x s L remInt) s

/-- `and` (R119). -/
def execAnd (x : Args) (s : State) : Host.Outcome State Fault Refusal :=
  scalarStep x (fun s L => putBits x s L (fun k a b => a &&& b % 2 ^ k)) s

/-- `or` (R119). -/
def execOr (x : Args) (s : State) : Host.Outcome State Fault Refusal :=
  scalarStep x (fun s L => putBits x s L (fun k a b => a ||| b % 2 ^ k)) s

/-- `xor` (R119). -/
def execXor (x : Args) (s : State) : Host.Outcome State Fault Refusal :=
  scalarStep x (fun s L => putBits x s L (fun k a b => a ^^^ b % 2 ^ k)) s

/-- `andn` (R119): a AND NOT b. -/
def execAndn (x : Args) (s : State) : Host.Outcome State Fault Refusal :=
  scalarStep x (fun s L => putBits x s L (fun k a b => a &&& notBits k b)) s

/-- `orn` (R119): a OR NOT b. -/
def execOrn (x : Args) (s : State) : Host.Outcome State Fault Refusal :=
  scalarStep x (fun s L => putBits x s L (fun k a b => a ||| notBits k b)) s

/-- `xnor` (R119): NOT (a XOR b). -/
def execXnor (x : Args) (s : State) : Host.Outcome State Fault Refusal :=
  scalarStep x (fun s L => putBits x s L (fun k a b => notBits k (a ^^^ b % 2 ^ k))) s

/-- `shl` (R121). -/
def execShl (x : Args) (s : State) : Host.Outcome State Fault Refusal :=
  scalarStep x (fun s L => putBits x s L shlBits) s

/-- `shr` (R121). -/
def execShr (x : Args) (s : State) : Host.Outcome State Fault Refusal :=
  scalarStep x (fun s L => putBits x s L shrBits) s

/-- `sra` (R121). -/
def execSra (x : Args) (s : State) : Host.Outcome State Fault Refusal :=
  scalarStep x (fun s L => putBits x s L sraBits) s

/-- `rol` (R121). -/
def execRol (x : Args) (s : State) : Host.Outcome State Fault Refusal :=
  scalarStep x (fun s L => putBits x s L rolBits) s

/-- `ror` (R121). -/
def execRor (x : Args) (s : State) : Host.Outcome State Fault Refusal :=
  scalarStep x (fun s L => putBits x s L rorBits) s

/-- `min` (R119): the smaller by signedness. -/
def execMin (x : Args) (s : State) : Host.Outcome State Fault Refusal :=
  scalarStep x (fun s L => putInt x s L (fun k _ a b => (narrow k (if b < a then b else a), 0))) s

/-- `max` (R119): the larger by signedness. -/
def execMax (x : Args) (s : State) : Host.Outcome State Fault Refusal :=
  scalarStep x (fun s L => putInt x s L (fun k _ a b => (narrow k (if a < b then b else a), 0))) s

/-- `clz` (R119): leading zeros, k for 0. -/
def execClz (x : Args) (s : State) : Host.Outcome State Fault Refusal :=
  scalarStep x (fun s L => putCount x s L clzBits) s

/-- `ctz` (R119): trailing zeros, k for 0. -/
def execCtz (x : Args) (s : State) : Host.Outcome State Fault Refusal :=
  scalarStep x (fun s L => putCount x s L ctzBits) s

/-- `popc` (R119): one bits. -/
def execPopc (x : Args) (s : State) : Host.Outcome State Fault Refusal :=
  scalarStep x (fun s L => putCount x s L popcount) s

/-- `bswap` (R119): the bytes reversed, written by the type. -/
def execBswap (x : Args) (s : State) : Host.Outcome State Fault Refusal :=
  scalarStep x (fun s L => putBits x s L (fun k a _ => bswapBits k a)) s

/-- `bfx` (R122): the field of A, extended to 128 bits by its type, that the control names. -/
def execBfx (x : Args) (s : State) : Host.Outcome State Fault Refusal :=
  scalarStep x (fun s L =>
    let a := srcOf x s false x.a
    let b := srcOf x s false x.b
    L.putS x (etyExt x.ety (bfxBits (etyBits x.ety) (etySigned x.ety) (etyVal x.ety a.1) b.1)) (a.2 || b.2)) s

/-- `bfi` (R122): A inserted into D, which is a source too. -/
def execBfi (x : Args) (s : State) : Host.Outcome State Fault Refusal :=
  scalarStep x (fun s L =>
    let a := srcOf x s false x.a
    let b := srcOf x s false x.b
    let k := etyBits x.ety
    let d := (L.readS x.d.sreg).toNat % 2 ^ k
    L.putS x (etyExt x.ety (bfiBits k (a.1 % 2 ^ k) d b.1)) (a.2 || b.2 || L.taintS x.d.sreg)) s

/-- `sel` (R123): B where bit 0 of pA is 1, else C; only the operand written adds its taint. -/
def execSel (x : Args) (s : State) : Host.Outcome State Fault Refusal :=
  scalarStep x (fun s L =>
    let p := x.a.preg
    let v := srcOf x s false (if (L.readP p).getLsbD 0 then x.b else x.c)
    L.putS x (etyExt x.ety (v.1 % 2 ^ etyBits x.ety)) (v.2 || (L.taintP p).getLsbD 0)) s

/-- `mov` (R123, R42): A as its type reads it; from a reply queue the oldest reservation, an R110 wait while it is unfilled, Q_UNDERRUN where there is none. -/
def execMov (x : Args) (s : State) : Host.Outcome State Fault Refusal :=
  match x.a with
  | .q n =>
    guardedStep x (do
      let s ← get
      match s.leaf.q[n] with
      | [] => fail .qUnderrun
      | e :: rest =>
        match e.value with
        | none => waitHere
        | some v =>
          updLeaf fun L =>
            ({ L with q := L.q.set n rest }.putS x (etyExt x.ety (v.toNat % 2 ^ etyBits x.ety)) false).advance) s
  | o =>
    scalarStep x (fun s L =>
      let a := srcOf x s false o
      L.putS x (etyExt x.ety (a.1 % 2 ^ etyBits x.ety)) a.2) s

/-- `lea` (R123): A + (Ext(B) << n) + C modulo 2^64. -/
def execLea (x : Args) (s : State) : Host.Outcome State Fault Refusal :=
  scalarStep x (fun s L =>
    let a := srcOf x s true x.a
    let b := srcOf x s true x.b
    let c := srcOf x s true x.c
    let e := (etyExt x.ety b.1).toNat
    L.putS x (BitVec.ofNat 64 (a.1 + (e <<< field x.imm.toNat 40 3) + c.1)) (a.2 || b.2 || c.2)) s

/-- `cmp` (R124): bit 0 of pD by the condition and the signedness of the type. -/
def execCmp (c : Cond) (x : Args) (s : State) : Host.Outcome State Fault Refusal :=
  scalarStep x (fun s L =>
    let a := srcOf x s false x.a
    let b := srcOf x s false x.b
    L.putBit x (intCompare c (etyVal x.ety a.1) (etyVal x.ety b.1)) (a.2 || b.2)) s

/-- `fadd` (R126): A + B. -/
def execFadd (x : Args) (s : State) : Host.Outcome State Fault Refusal :=
  scalarStep x (fun s L => putF32 x s L (fadd fmtF32 .rne)) s

/-- `fsub` (R126): A - B. -/
def execFsub (x : Args) (s : State) : Host.Outcome State Fault Refusal :=
  scalarStep x (fun s L => putF32 x s L (fun ftz a b => fadd fmtF32 .rne ftz a (fneg b))) s

/-- `fmul` (R126): A * B. -/
def execFmul (x : Args) (s : State) : Host.Outcome State Fault Refusal :=
  scalarStep x (fun s L => putF32 x s L (fmul fmtF32 .rne)) s

/-- `ffma` (R126): A * B + C, one rounding. -/
def execFfma (x : Args) (s : State) : Host.Outcome State Fault Refusal :=
  scalarStep x (fun s L => putFma x s L false) s

/-- `ffnma` (R126): C - A * B, one rounding. -/
def execFfnma (x : Args) (s : State) : Host.Outcome State Fault Refusal :=
  scalarStep x (fun s L => putFma x s L true) s

/-- `fcvt.to` (R127): the f32 in A converted to the element type. -/
def execFcvtTo (x : Args) (s : State) : Host.Outcome State Fault Refusal :=
  scalarStep x (fun s L =>
    let a := srcOf x s true x.a
    let r := cvtElem .f32 x.ety (modRm x) (modFtz x) false (a.1 % 2 ^ 32)
    (L.raise r.2).putS x (etyExt x.ety r.1) a.2) s

/-- `fcvt.from` (R127): the value of the element type in A converted to f32. -/
def execFcvtFrom (x : Args) (s : State) : Host.Outcome State Fault Refusal :=
  scalarStep x (fun s L =>
    let a := srcOf x s true x.a
    let r := cvtElem x.ety .f32 (modRm x) (modFtz x) false (a.1 % 2 ^ etyBits x.ety)
    (L.raise r.2).putS x (BitVec.ofNat 64 r.1) a.2) s

/-- `fcmp` (R128): bit 0 of pD by Table 4-5, IV for NaN operands. -/
def execFcmp (c : Cond) (x : Args) (s : State) : Host.Outcome State Fault Refusal :=
  scalarStep x (fun s L =>
    let a := srcOf x s true x.a
    let b := srcOf x s true x.b
    let ftz := modFtz x
    let r := fcompare c (fdecodeFtz fmtF32 ftz (a.1 % 2 ^ 32)) (fdecodeFtz fmtF32 ftz (b.1 % 2 ^ 32))
    (L.raise r.2).putBit x r.1 (a.2 || b.2)) s

end Sys2Proof.Machine
end

