-- ==== Sys2Proof/Machine/Dispatch.lean ====
section
/-! DEFINITION. The meaning of every instruction and event: one arm per constructor (Table 3-7 and the events of files 06 to 15). -/

namespace Sys2Proof.Machine

/-- Executes an instruction for the agent `State.cur`, or lets an event happen. -/
def exec (i : Instr) (s : State) : Host.Outcome State Fault Refusal :=
  match i with
  | .add x => Sys2Proof.Machine.execAdd x s
  | .addSat x => Sys2Proof.Machine.execAddSat x s
  | .sub x => Sys2Proof.Machine.execSub x s
  | .subSat x => Sys2Proof.Machine.execSubSat x s
  | .mul x => Sys2Proof.Machine.execMul x s
  | .mulHi x => Sys2Proof.Machine.execMulHi x s
  | .div x => Sys2Proof.Machine.execDiv x s
  | .rem x => Sys2Proof.Machine.execRem x s
  | .and x => Sys2Proof.Machine.execAnd x s
  | .or x => Sys2Proof.Machine.execOr x s
  | .xor x => Sys2Proof.Machine.execXor x s
  | .andn x => Sys2Proof.Machine.execAndn x s
  | .orn x => Sys2Proof.Machine.execOrn x s
  | .xnor x => Sys2Proof.Machine.execXnor x s
  | .shl x => Sys2Proof.Machine.execShl x s
  | .shr x => Sys2Proof.Machine.execShr x s
  | .sra x => Sys2Proof.Machine.execSra x s
  | .rol x => Sys2Proof.Machine.execRol x s
  | .ror x => Sys2Proof.Machine.execRor x s
  | .min x => Sys2Proof.Machine.execMin x s
  | .max x => Sys2Proof.Machine.execMax x s
  | .clz x => Sys2Proof.Machine.execClz x s
  | .ctz x => Sys2Proof.Machine.execCtz x s
  | .popc x => Sys2Proof.Machine.execPopc x s
  | .bswap x => Sys2Proof.Machine.execBswap x s
  | .bfx x => Sys2Proof.Machine.execBfx x s
  | .bfi x => Sys2Proof.Machine.execBfi x s
  | .sel x => Sys2Proof.Machine.execSel x s
  | .mov x => Sys2Proof.Machine.execMov x s
  | .lea x => Sys2Proof.Machine.execLea x s
  | .cmp c x => Sys2Proof.Machine.execCmp c x s
  | .fadd x => Sys2Proof.Machine.execFadd x s
  | .fsub x => Sys2Proof.Machine.execFsub x s
  | .fmul x => Sys2Proof.Machine.execFmul x s
  | .ffma x => Sys2Proof.Machine.execFfma x s
  | .ffnma x => Sys2Proof.Machine.execFfnma x s
  | .fcvtTo x => Sys2Proof.Machine.execFcvtTo x s
  | .fcvtFrom x => Sys2Proof.Machine.execFcvtFrom x s
  | .fcmp c x => Sys2Proof.Machine.execFcmp c x s
  | .pand x => Sys2Proof.Machine.execPand x s
  | .por x => Sys2Proof.Machine.execPor x s
  | .pxor x => Sys2Proof.Machine.execPxor x s
  | .pandn x => Sys2Proof.Machine.execPandn x s
  | .pnot x => Sys2Proof.Machine.execPnot x s
  | .prd x => Sys2Proof.Machine.execPrd x s
  | .pwr x => Sys2Proof.Machine.execPwr x s
  | .br x => Sys2Proof.Machine.execBr x s
  | .call x => Sys2Proof.Machine.execCall x s
  | .ret x => Sys2Proof.Machine.execRet x s
  | .yield x => Sys2Proof.Machine.execYield x s
  | .csrrd x => Sys2Proof.Machine.execCsrrd x s
  | .csrwr x => Sys2Proof.Machine.execCsrwr x s
  | .csrset x => Sys2Proof.Machine.execCsrset x s
  | .csrclr x => Sys2Proof.Machine.execCsrclr x s
  | .tfence x => Sys2Proof.Machine.execTfence x s
  | .trap x => Sys2Proof.Machine.execTrap x s
  | .eret x => Sys2Proof.Machine.execEret x s
  | .ctxstop x => Sys2Proof.Machine.execCtxstop x s
  | .ctxstart x => Sys2Proof.Machine.execCtxstart x s
  | .ctxkill x => Sys2Proof.Machine.execCtxkill x s
  | .ctxevict x => Sys2Proof.Machine.execCtxevict x s
  | .partsplit x => Sys2Proof.Machine.execPartsplit x s
  | .partmerge x => Sys2Proof.Machine.execPartmerge x s
  | .partbind x => Sys2Proof.Machine.execPartbind x s
  | .sliceset x => Sys2Proof.Machine.execSliceset x s
  | .split x => Sys2Proof.Machine.execSplit x s
  | .fit x => Sys2Proof.Machine.execFit x s
  | .walk x => Sys2Proof.Machine.execWalk x s
  | .prune x => Sys2Proof.Machine.execPrune x s
  | .pruneMag x => Sys2Proof.Machine.execPruneMag x s
  | .done x => Sys2Proof.Machine.execDone x s
  | .abort x => Sys2Proof.Machine.execAbort x s
  | .port x => Sys2Proof.Machine.execPort x s
  | .vwaddr x => Sys2Proof.Machine.execVwaddr x s
  | .capgive x => Sys2Proof.Machine.execCapgive x s
  | .captake x => Sys2Proof.Machine.execCaptake x s
  | .ld x => Sys2Proof.Machine.execLd x s
  | .st x => Sys2Proof.Machine.execSt x s
  | .vld x => Sys2Proof.Machine.execVld x s
  | .vldStr x => Sys2Proof.Machine.execVldStr x s
  | .vst x => Sys2Proof.Machine.execVst x s
  | .vstStr x => Sys2Proof.Machine.execVstStr x s
  | .vgath x => Sys2Proof.Machine.execVgath x s
  | .vscat x => Sys2Proof.Machine.execVscat x s
  | .pref x => Sys2Proof.Machine.execPref x s
  | .clean x => Sys2Proof.Machine.execClean x s
  | .inval x => Sys2Proof.Machine.execInval x s
  | .ldw x => Sys2Proof.Machine.execLdw x s
  | .ldc x => Sys2Proof.Machine.execLdc x s
  | .stf x => Sys2Proof.Machine.execStf x s
  | .ste x => Sys2Proof.Machine.execSte x s
  | .feSet x => Sys2Proof.Machine.execFeSet x s
  | .feRd x => Sys2Proof.Machine.execFeRd x s
  | .atomAdd x => Sys2Proof.Machine.execAtomAdd x s
  | .atomMin x => Sys2Proof.Machine.execAtomMin x s
  | .atomMax x => Sys2Proof.Machine.execAtomMax x s
  | .atomAnd x => Sys2Proof.Machine.execAtomAnd x s
  | .atomOr x => Sys2Proof.Machine.execAtomOr x s
  | .atomXor x => Sys2Proof.Machine.execAtomXor x s
  | .atomSwap x => Sys2Proof.Machine.execAtomSwap x s
  | .atomCas x => Sys2Proof.Machine.execAtomCas x s
  | .redAdd x => Sys2Proof.Machine.execRedAdd x s
  | .redMin x => Sys2Proof.Machine.execRedMin x s
  | .redMax x => Sys2Proof.Machine.execRedMax x s
  | .redAnd x => Sys2Proof.Machine.execRedAnd x s
  | .redOr x => Sys2Proof.Machine.execRedOr x s
  | .redXor x => Sys2Proof.Machine.execRedXor x s
  | .fence x => Sys2Proof.Machine.execFence x s
  | .vadd x => Sys2Proof.Machine.execVadd x s
  | .vaddSat x => Sys2Proof.Machine.execVaddSat x s
  | .vsub x => Sys2Proof.Machine.execVsub x s
  | .vsubSat x => Sys2Proof.Machine.execVsubSat x s
  | .vmul x => Sys2Proof.Machine.execVmul x s
  | .vmulHi x => Sys2Proof.Machine.execVmulHi x s
  | .vfma x => Sys2Proof.Machine.execVfma x s
  | .vfnma x => Sys2Proof.Machine.execVfnma x s
  | .vmin x => Sys2Proof.Machine.execVmin x s
  | .vmax x => Sys2Proof.Machine.execVmax x s
  | .vabs x => Sys2Proof.Machine.execVabs x s
  | .vneg x => Sys2Proof.Machine.execVneg x s
  | .vand x => Sys2Proof.Machine.execVand x s
  | .vor x => Sys2Proof.Machine.execVor x s
  | .vxor x => Sys2Proof.Machine.execVxor x s
  | .vandn x => Sys2Proof.Machine.execVandn x s
  | .vshl x => Sys2Proof.Machine.execVshl x s
  | .vshr x => Sys2Proof.Machine.execVshr x s
  | .vsra x => Sys2Proof.Machine.execVsra x s
  | .vcmp c x => Sys2Proof.Machine.execVcmp c x s
  | .vsel x => Sys2Proof.Machine.execVsel x s
  | .vcvt x => Sys2Proof.Machine.execVcvt x s
  | .vwid k x => Sys2Proof.Machine.execVwid k x s
  | .vnar k x => Sys2Proof.Machine.execVnar k x s
  | .vredAdd x => Sys2Proof.Machine.execVredAdd x s
  | .vredMin x => Sys2Proof.Machine.execVredMin x s
  | .vredMax x => Sys2Proof.Machine.execVredMax x s
  | .vredAnd x => Sys2Proof.Machine.execVredAnd x s
  | .vredOr x => Sys2Proof.Machine.execVredOr x s
  | .vredXor x => Sys2Proof.Machine.execVredXor x s
  | .vperm x => Sys2Proof.Machine.execVperm x s
  | .vshuf x => Sys2Proof.Machine.execVshuf x s
  | .vcompress x => Sys2Proof.Machine.execVcompress x s
  | .vexpand x => Sys2Proof.Machine.execVexpand x s
  | .vbcast x => Sys2Proof.Machine.execVbcast x s
  | .vbmm8 x => Sys2Proof.Machine.execVbmm8 x s
  | .vpdep x => Sys2Proof.Machine.execVpdep x s
  | .vpext x => Sys2Proof.Machine.execVpext x s
  | .vbperm x => Sys2Proof.Machine.execVbperm x s
  | .vthz x => Sys2Proof.Machine.execVthz x s
  | .vqblk x => Sys2Proof.Machine.execVqblk x s
  | .vdqblk x => Sys2Proof.Machine.execVdqblk x s
  | .vstp x => Sys2Proof.Machine.execVstp x s
  | .vldp x => Sys2Proof.Machine.execVldp x s
  | .vexp2 x => Sys2Proof.Machine.execVexp2 x s
  | .vlog2 x => Sys2Proof.Machine.execVlog2 x s
  | .vrcp x => Sys2Proof.Machine.execVrcp x s
  | .vrsq x => Sys2Proof.Machine.execVrsq x s
  | .vtanh x => Sys2Proof.Machine.execVtanh x s
  | .vget x => Sys2Proof.Machine.execVget x s
  | .vset x => Sys2Proof.Machine.execVset x s
  | .mxmul x => Sys2Proof.Machine.execMxmul x s
  | .mxrd x => Sys2Proof.Machine.execMxrd x s
  | .mxwr x => Sys2Proof.Machine.execMxwr x s
  | .mxst x => Sys2Proof.Machine.execMxst x s
  | .mxwait x => Sys2Proof.Machine.execMxwait x s
  | .engCopy x => Sys2Proof.Machine.execEngCopy x s
  | .engGath x => Sys2Proof.Machine.execEngGath x s
  | .engScat x => Sys2Proof.Machine.execEngScat x s
  | .engWin x => Sys2Proof.Machine.execEngWin x s
  | .engDec x => Sys2Proof.Machine.execEngDec x s
  | .engSeal x => Sys2Proof.Machine.execEngSeal x s
  | .engRing x => Sys2Proof.Machine.execEngRing x s
  | .engColl x => Sys2Proof.Machine.execEngColl x s
  | .engWait x => Sys2Proof.Machine.execEngWait x s
  | .engStat x => Sys2Proof.Machine.execEngStat x s
  | .engJobStart core jid => Sys2Proof.Machine.execEngJobStart core jid s
  | .engWsWordWrite core jid => Sys2Proof.Machine.execEngWsWordWrite core jid s
  | .engJobComplete core jid => Sys2Proof.Machine.execEngJobComplete core jid s
  | .collStart tenant tag => Sys2Proof.Machine.execCollStart tenant tag s
  | .mxTileStep octet => Sys2Proof.Machine.execMxTileStep octet s
  | .mxJobPark core => Sys2Proof.Machine.execMxJobPark core s
  | .atomHomeStep home => Sys2Proof.Machine.execAtomHomeStep home s
  | .redHomeStep core pa => Sys2Proof.Machine.execRedHomeStep core pa s
  | .remoteWsOp msg => Sys2Proof.Machine.execRemoteWsOp msg s
  | .remoteWsCancel msg => Sys2Proof.Machine.execRemoteWsCancel msg s
  | .staleNotice die line => Sys2Proof.Machine.execStaleNotice die line s
  | .jigsawMerge ctx rec => Sys2Proof.Machine.execJigsawMerge ctx rec s
  | .launchStatusWrite ctx => Sys2Proof.Machine.execLaunchStatusWrite ctx s
  | .recordPickup core slot => Sys2Proof.Machine.execRecordPickup core slot s
  | .schedDecision node => Sys2Proof.Machine.execSchedDecision node s
  | .budgetExhausted ctx => Sys2Proof.Machine.execBudgetExhausted ctx s
  | .stopForceSuspend ctx => Sys2Proof.Machine.execStopForceSuspend ctx s
  | .stopComplete ctx => Sys2Proof.Machine.execStopComplete ctx s
  | .queueWridxWrite die queue value => Sys2Proof.Machine.execQueueWridxWrite die queue value s
  | .qctlErrSkip die queue => Sys2Proof.Machine.execQctlErrSkip die queue s
  | .packetServe die queue => Sys2Proof.Machine.execPacketServe die queue s
  | .noticePost die => Sys2Proof.Machine.execNoticePost die s
  | .noticeTrap die => Sys2Proof.Machine.execNoticeTrap die s
  | .fresolveRetry die ctx rec => Sys2Proof.Machine.execFresolveRetry die ctx rec s
  | .fresolveFail die ctx rec => Sys2Proof.Machine.execFresolveFail die ctx rec s
  | .ueDetected site => Sys2Proof.Machine.execUeDetected site s
  | .drainComplete ctx => Sys2Proof.Machine.execDrainComplete ctx s
  | .coreLogicError core slot => Sys2Proof.Machine.execCoreLogicError core slot s
  | .stringSoftError core => Sys2Proof.Machine.execStringSoftError core s
  | .linkCrcReplay link => Sys2Proof.Machine.execLinkCrcReplay link s
  | .dieLinkLost a b => Sys2Proof.Machine.execDieLinkLost a b s
  | .granuleFill pa slot g512 anchor => Sys2Proof.Machine.execGranuleFill pa slot g512 anchor s
  | .granuleWriteback pa => Sys2Proof.Machine.execGranuleWriteback pa s
  | .patrolScrub pa uncorrectable => Sys2Proof.Machine.execPatrolScrub pa uncorrectable s
  | .channelRetrain channel => Sys2Proof.Machine.execChannelRetrain channel s
  | .cxlLinkDown die => Sys2Proof.Machine.execCxlLinkDown die s
  | .hostCxlmemRead fn pa => Sys2Proof.Machine.execHostCxlmemRead fn pa s
  | .hostCxlmemWrite fn pa value => Sys2Proof.Machine.execHostCxlmemWrite fn pa value s
  | .hostModuleDegrade module => Sys2Proof.Machine.execHostModuleDegrade module s
  | .tlbInvalRange die ctx va => Sys2Proof.Machine.execTlbInvalRange die ctx va s
  | .tlbInvalContext die ctx => Sys2Proof.Machine.execTlbInvalContext die ctx s
  | .tlbInvalAll die => Sys2Proof.Machine.execTlbInvalAll die s
  | .fwinRegWrite die sc win reg value => Sys2Proof.Machine.execFwinRegWrite die sc win reg value s
  | .atctlWrite target value => Sys2Proof.Machine.execAtctlWrite target value s
  | .ksLoad => Sys2Proof.Machine.execKsLoad s
  | .ksClear => Sys2Proof.Machine.execKsClear s
  | .ksReseal => Sys2Proof.Machine.execKsReseal s
  | .ksRdataWrite value => Sys2Proof.Machine.execKsRdataWrite value s
  | .ksTamper value => Sys2Proof.Machine.execKsTamper value s
  | .klRetrain port peer trained => Sys2Proof.Machine.execKlRetrain port peer trained s
  | .klPortDown port => Sys2Proof.Machine.execKlPortDown port s
  | .bootStage die good => Sys2Proof.Machine.execBootStage die good s
  | .packageReset => Sys2Proof.Machine.execPackageReset s
  | .powerThrottle step => Sys2Proof.Machine.execPowerThrottle step s
  | .thermalThrottle die step => Sys2Proof.Machine.execThermalThrottle die step s
  | .thermalCritical die => Sys2Proof.Machine.execThermalCritical die s
  | .ctrlRegWrite addr value => Sys2Proof.Machine.execCtrlRegWrite addr value s
  | .kitelinkIngressRequest pkg req => Sys2Proof.Machine.execKitelinkIngressRequest pkg req s

end Sys2Proof.Machine
end

