-- ==== Sys2Proof/Machine/Schedule.lean ====
section
/-! DEFINITION. Who moves next when State names nobody (log 2): the passing of time (R370, R371, Table 1-10), agents that can issue (R38), events whose condition holds. -/

namespace Sys2Proof.Machine

/-- Time passes by n cycles: CYCLE, the time below 1.25 GHz (Table 15-6), the budget of every holder of a partition (R370), the age of pending stops, in sixteenths of a cycle at full speed (R371, R417). -/
def State.passTime (s : State) (n : Nat) : State :=
  let held (c : Nat) : Bool := s.holders.any fun e => e.2 = c
  { s with
    cycle := s.cycle + BitVec.ofNat 64 n
    pkg := if s.pkg.thrStep < 16 then { s.pkg with thrCnt := s.pkg.thrCnt + n } else s.pkg
    ctxs := tmap (fun c x => { x with
      budget := if held c then x.budget - n else x.budget
      stopAge := if x.stop.isSome then x.stopAge + n * s.pkg.thrStep else x.stopAge }) s.ctxs }

/-- Waits are tried again (R38, R110). -/
def State.wakeAll (s : State) : State :=
  { s with
    leaves := tmap (fun _ L => if L.mode = Mode.waiting then { L with mode := Mode.running } else L) s.leaves
    dies := s.dies.map fun d =>
      if d.dcc.leaf.mode = Mode.waiting then
        { d with dcc := { d.dcc with leaf := { d.dcc.leaf with mode := Mode.idle } } } else d }

/-- Replacement of an L2 line at a time the spec leaves open (R319): one that may be the next of its set and partition. -/
def State.evictLine (s : State) (line : Nat) : State :=
  match tfind s.l2 line with
  | none => s
  | some l =>
    if (tfind (s.replaceable (tset (s.peers line l.attr.part) line l)) line).isSome then s.replaceLine line else s

/-- Another package stores a byte of its own memory, at its own local address (R308, R357): copies of the line become stale by notices. -/
def State.podPut (s : State) (pa : Nat) (b : Byte) : State :=
  { s.tellCopies (pa / 128) none with podMem := writeBytes s.podMem pa [b], podDirty := insertNew s.podDirty (pa / 512) }

/-- System software assigns an anchor entry to the granule at an address, while the home die's store has room (R339): the record is the one that memory initialisation writes (log 23). -/
def State.anchorAssign (s : State) (pa : Nat) : State :=
  let die := s.homeDie pa
  if (s.anchors.filter fun e => s.homeDie (e.1 * 512) = die).length < Config.anchorRecords && (tfind s.anchors (pa / 512)).isNone then
    { s with anchors := tset s.anchors (pa / 512) recInit }
  else s

/-- An agent can issue: a leaf that runs, a started die control core that is neither halted nor waiting (R38, R392, R411). -/
def State.canIssue (s : State) : Agent → Bool
  | .leaf c k => (s.leafAt c k).mode == Mode.running
  | .dcc d =>
    let c := (s.die d).dcc
    c.started && !c.halted && c.leaf.mode != Mode.waiting

/-- The ready leaf that a core issues from next: the first at or after the one that follows the last it issued from, wrapping (R38). -/
def State.nextLeaf (s : State) (core : Nat) : Option Agent :=
  let n := coreSlots core
  ((List.range n).map fun d => Agent.leaf core ((tget 3 s.lastSlot core + 1 + d) % n)).find? s.canIssue

/-- The agent that goes on when no turn is named: the die control core that issued last, or the core that did, with its next ready leaf. -/
def State.nextAgent (s : State) : Agent :=
  match s.cur with
  | .leaf core _ => (s.nextLeaf core).getD s.cur
  | .dcc _ => s.cur

/-- The first agent that can issue, the leaves before the die control cores. -/
def State.firstReady (s : State) : Option Agent :=
  match s.leaves.find? fun e => e.2.mode == Mode.running with
  | some (k, _) => s.nextLeaf (k / 4)
  | none => ((List.range 4).find? fun d => s.canIssue (.dcc d)).map Agent.dcc

/-! ## Events -/

/-- An event with what it does. -/
abbrev Event := Instr × (State → State)

/-- Events of the memory system and of the messages under way. -/
def State.memEvents (s : State) : List Event :=
  (s.staleNotices.map fun (d, l) => ((.staleNotice d l, fun s => s.staleArrive d l) : Event))
  ++ (s.msgs.map fun (m, w) =>
    ((if w.cancel then (.remoteWsCancel m, fun s => s.wsCancel m) else (.remoteWsOp m, fun s => s.wsArrive m)) : Event))
  ++ (s.atomQ.map fun (h, _) => ((.atomHomeStep h, fun s => s.atomServe h) : Event))

/-- Events of the engines and the matrix units. -/
def State.unitEvents (s : State) : List Event :=
  (s.cores.map fun (k, c) =>
    (c.jobs.map fun (j, x) =>
      ((if !x.started then (.engJobStart k j, fun s => s.engStart k j)
        else if x.over then (.engJobComplete k j, fun s => s.engEnd k j)
        else (.engWsWordWrite k j, fun s => if x.fn ≠ 7 then (s.engNext k j).engPut k j else s.engPut k j)) : Event))
    ++ (if c.mxq.isEmpty && !(List.range 4).any (fun i => !(s.leafAt k i).parked.isEmpty) then [] else [((.mxTileStep (coreOctet k), fun s => s.mxArbiter (coreOctet k)) : Event)])).flatten
  ++ (s.colls.map fun m => ((.collStart m.tenant m.tag, fun s => s.collStart m.tenant m.tag) : Event))

/-- Events of the contexts: merges, statuses, stops, drains. -/
def State.ctxEvents (s : State) : List Event :=
  (s.ctxs.map fun (c, x) =>
    (x.recs.filterMap fun (i, r) =>
      if r.st = RecSt.joining && !r.mergeDone then some ((.jigsawMerge c i, fun s => s.jigsaw c i) : Event) else none)
    ++ (if s.launchOver c then [((.launchStatusWrite c, fun s => s.launchStatus c) : Event)] else [])
    ++ (if x.budget = 0 && s.holders.any (fun e => e.2 = c) && x.st = CtxSt.running then
        [((.budgetExhausted c, fun s => s.pendStop c Stop.budget) : Event)] else [])
    ++ (if x.stop.isSome then
        [((.stopForceSuspend c, fun s => if x.stopDue then s.forceSuspend c else s) : Event), (.stopComplete c, fun s => s.completeStop c)]
        else [])
    ++ (if x.st = CtxSt.draining then [((.drainComplete c, fun s => s.drain c) : Event)] else [])).flatten

/-- Events of the scheduler, the Nest, the packet processors and the notice queues. -/
def State.nestEvents (s : State) : List Event :=
  ((List.range 4).map fun d =>
    (if (s.die d).notePend.isEmpty then [] else [((.noticePost d, fun s => s.noticePost d) : Event)])
    ++ (if (s.die d).noteReady then [((.noticeTrap d, fun s => s.noticeTrap d) : Event)] else [])).flatten
  ++ (match s.pkg.ks.busy with
      | 1 => [((.ksLoad, fun s => s.ksRun 1 State.ksLoad) : Event)]
      | 2 => [(.ksClear, fun s => s.ksRun 2 State.ksClear)]
      | 3 => [(.ksReseal, fun s => s.ksRun 3 State.ksReseal)]
      | _ => [])
  ++ (s.parts.map fun n => ((.schedDecision n, fun s => s.decide n) : Event))
  ++ (s.holders.map fun (n, _) => ((nodeCores n).map fun k => (List.range (coreSlots k)).filterMap fun i =>
    (s.fillPick k i).map fun (c, r) => ((.recordPickup k i, fun s => s.startRec k i c r) : Event)).flatten).flatten
  ++ ((List.range 4).map fun d => (s.die d).queues.filterMap fun (q, x) =>
    if x.live && x.rdidx ≠ x.wridx then some ((.packetServe d q, fun s => s.packetServe d q) : Event) else none).flatten

/-- The first event that would change something: what happens when no agent's turn is named. -/
def State.nextEvent (s : State) : Option Instr :=
  ((s.memEvents ++ s.unitEvents ++ s.ctxEvents ++ s.nestEvents).find? fun e => e.2 s ≠ s).map (·.1)

end Sys2Proof.Machine
end

