-- ==== Sys2Proof/Machine/Issue.lean ====
section
/-! DEFINITION. An agent's issue (R88, R107, R381), what a turn does (log 2), and how an instruction is placed where the next step fetches it (log 7). -/

namespace Sys2Proof.Machine

/-- One instruction of the executing agent: fetch, decode, execute; what the fetch or the decoding finds wrong is taken as an exception (R107, R108). -/
def runWord (s : State) : Host.Outcome State Fault Refusal :=
  match fetchWord s with
  | .error (.trap t) s' => .next (s'.takeTrap t).settle
  | .error .wait s' => .next s'.settle
  | .ok w s' =>
    match decode s.priv s.noMatrix w with
    | .error c => .next (s'.takeTrap { cause := c }).settle
    | .ok i => exec i s'

/-- An agent's next issue: a leaf's core notes the slot (R38); a die control core takes a notice trap at the instruction boundary where one is due (R381). -/
def issue (a : Agent) (s : State) : Host.Outcome State Fault Refusal :=
  match a with
  | .dcc d => if (s.die d).noteReady then exec (.noticeTrap d) s else runWord { s with cur := a }
  | .leaf core slot => runWord { s with cur := a, lastSlot := tset s.lastSlot core slot }

/-- What a turn does. An agent that cannot issue, and an instruction offered as an event, do nothing. -/
def turnStep (t : Turn) (s : State) : Host.Outcome State Fault Refusal :=
  match t with
  | .act i => if (instrCode i).isNone then exec i s else .next s
  | .issue a => if s.canIssue a then issue a s else .next s
  | .tick n => .next (s.passTime n).wakeAll.settle
  | .evictL1 core line => .next (s.dropL1 core line).settle
  | .evictL2 line => .next (s.evictLine line).settle
  | .spillChunk ctx box key => .next (match s.ctx ctx |>.record box with
    | some r => runIgnore (spillChunk (coreDie r.core) ctx box key) s
    | none => s).settle
  | .master m => .next { s with master := m }
  | .hostIoRead fn addr => .next (s.hostIoRead fn addr)
  | .cxlTrain die gib good => .next (s.cxlTrain die gib good)
  | .evictRdc die line => .next (s.dropRdc die (· == line)).settle
  | .evictTlb unit key => .next { s with tlb := tset s.tlb unit (terase (tget [] s.tlb unit) key) }
  | .anchorAssign pa => .next (s.anchorAssign pa)
  | .podStore pa b => .next (s.podPut pa b)
  | .hostStore a b => .next { s with hostMem := writeBytes s.hostMem a [b] }
  | .podDeny lo hi on =>
    .next { s with podDenied := if on then (lo, hi) :: s.podDenied else s.podDenied.filter (· ≠ (lo, hi)) }
  | .temperature die sensor value =>
    .next (s.updTele die fun t => { t with temps := t.temps.set (sensor % 8) value (Nat.mod_lt _ (by decide)) })
  | .power die value => .next (s.updTele die fun t => { t with power := value })
  | .corrected die cls => .next (s.updTele die fun t => { t with corrected := tset t.corrected (cls % 10) (tget 0 t.corrected (cls % 10) + 1) })
  | .mapSv va pa len r w x => .next { s with svMap := ⟨va, pa, len, r, w, x⟩ :: s.svMap }

/-- Where `withFetchWord` places a user word: its virtual and physical address, and its region table's. -/
def fetchVa : Nat := 0x10000
def fetchPa : Nat := 0x10000
def fetchTab : Nat := 0x12000

/-- A line of the home L2 that holds bytes for key slot 0. -/
def presentLine : L2Line :=
  { present := BitVec.allOnes 128, dirty := 0, taint := 0, slot := 0, owner := 1024, attr := plainAttr, frozen := false
    prio := 2, used := 0 }

/-- An access-table entry that admits every request (Table 15-2). -/
def admitAll : Quad := BitVec.ofNat 64 (2 ^ 63 + 2 ^ 51 + 2 ^ 40 + 2 ^ 39 + 0xFFF * 2 ^ 12)

/-- The word's OP and CSR number say that it needs supervisor level (R106). -/
def wordPriv (w : Nat) : Bool :=
  let op := field w 0 7
  op = 0x7E || op = 0x7F || (op = 0x1B && 0x800 ≤ field w 80 16)

/-- The state with an instruction stored where the next step fetches it (log 7 says how a program comes to run): a privileged word for die control core 0, started, with one page of supervisor translation; any other for slot 0 of core 0, running box 0 of context 1, with the translation, the region entry and the access-table entries that a fetch needs. -/
def State.placeWord (s : State) (nbits w : Nat) : State :=
  let bits := w % 2 ^ nbits
  let s := { s with
    turns := []
    mem := writeBytes (writeBytes s.mem fetchPa (toBytes 16 bits)) fetchTab (toBytes 8 0x8100)
    l2 := tset (tset s.l2 (fetchPa / 128) presentLine) (fetchTab / 128) presentLine
    atab := tset (tset s.atab (tgtL2 0 0x10 * 64) admitAll) (tgtL2 0 0x12 * 64) admitAll }
  let s := s.setDie 0 { s.die 0 with wayMask := (s.die 0).wayMask.set 0 0xFFFF }
  if wordPriv bits then
    let c := (s.die 0).dcc
    { s.setDcc 0 { c with started := true, halted := false, sv := true, noteEn := false, leaf := { c.leaf with pc := BitVec.ofNat 64 fetchVa, mode := Mode.idle } } with
      cur := .dcc 0
      svMap := ⟨fetchVa, fetchPa, 4096, true, true, true⟩ :: s.svMap }
  else
    let x := s.ctx 1
    let L := { s.leafAt 0 0 with pc := BitVec.ofNat 64 fetchVa, ctx := 1, recIdx := 0, mode := Mode.running }
    let s := (s.setCtx 1 { x with st := CtxSt.running, node := 1, desc := { x.desc with regtab := fetchTab, slot := 0 } }).setLeafAt 0 0 L
    { s with
      cur := .leaf 0 0
      holders := tset s.holders 1 1
      lastSlot := tset s.lastSlot 0 3
      tlb := tset s.tlb 0 (tset (tget [] s.tlb 0) (tlbKey 1 fetchVa) ⟨BitVec.ofNat 64 (fetchPa + 0x23), 3⟩) }

end Sys2Proof.Machine
end

