-- ==== Sys2Proof/Machine/Step.lean ====
section
/-! DEFINITION. One step of the package: who moves next (log 2); and the placing of an instruction for the host. -/

namespace Sys2Proof.Machine

/-- Without power only the reset of the next power-up happens (R418). One step otherwise: the next turn; with none named, the core or control core that issued last, an event whose condition holds, another agent that can issue, or time (log 2). -/
def step (s : State) : Host.Outcome State Fault Refusal :=
  if s.pkg.off then
    match s.turns with
    | .act .packageReset :: ts => turnStep (.act .packageReset) { s with turns := ts }
    | _ => .fault .powerRemoved
  else
    let s := s.passTime 1
    match s.turns with
    | t :: ts => turnStep t { s with turns := ts }
    | [] =>
      if s.canIssue s.nextAgent then issue s.nextAgent s
      else match s.nextEvent with
      | some i => exec i s
      | none =>
        match s.firstReady with
        | some a => issue a s
        | none => .next s.wakeAll

/-- The state with an instruction stored where the next step fetches it (log 7). -/
def State.withFetchWord (s : State) (nbits w : Nat) : State := s.placeWord nbits w

end Sys2Proof.Machine
end

