-- ==== Sys2Proof/Safety.lean ====
section
/-! DEFINITION. What the claims call a sound state and a frame: the memories in canonical form (R5, log 2), and what an instruction leaves unchanged. -/

namespace Sys2Proof.Machine

/-! ## Invariants -/

/-- Every memory of the package is in canonical form. -/
abbrev State.memInv (s : State) : Prop :=
  Memory.wf s.mem ∧ Memory.wf s.dram ∧ Memory.wf s.podMem ∧ Memory.wf s.hostMem

/-! ## Frames -/

/-- Every byte of every memory reads as before: at the homes, behind them, of the other packages and of the host. -/
def sameBytes (s t : State) : Prop :=
  ∀ a, readByte t.mem a = readByte s.mem a ∧ readByte t.dram a = readByte s.dram a
    ∧ readByte t.podMem a = readByte s.podMem a ∧ readByte t.hostMem a = readByte s.hostMem a

/-- Only the executing agent's registers differ: every memory, cache, scratchpad, context, other leaf and register of the package is as before. -/
def onlyLeaf (s t : State) : Prop := t = s.setLeaf t.leaf ∧ sameBytes s t

/-- A leaf's registers before and after an instruction whose only destination is s-register d: the PC is at the next word, the flags are ORed with `raised`, every other register is as before (R60, R88, R115). -/
def sFrame (L L' : Leaf) (d : Fin 64) (raised : Flags) : Prop :=
  L' = { L with s := L'.s, sT := L'.sT, flags := L.flags ||| raised, pc := L.pc + 16 }
    ∧ ∀ n, n ≠ d → L'.readS n = L.readS n ∧ L'.taintS n = L.taintS n

/-- As `sFrame`, with a predicate as the only destination. -/
def pFrame (L L' : Leaf) (d : Fin 8) (raised : Flags) : Prop :=
  L' = { L with p := L'.p, pT := L'.pT, flags := L.flags ||| raised, pc := L.pc + 16 }
    ∧ ∀ n, n ≠ d → L'.readP n = L.readP n ∧ L'.taintP n = L.taintP n

/-- As `sFrame`, with vector registers that satisfy `dst` as the only destinations. -/
def vFrame (L L' : Leaf) (dst : Fin 32 → Prop) (raised : Flags) : Prop :=
  L' = { L with v := L'.v, vT := L'.vT, flags := L.flags ||| raised, pc := L.pc + 16 }
    ∧ ∀ n, ¬ dst n → L'.v[n] = L.v[n] ∧ L'.vT[n] = L.vT[n]

/-- The s-register operand D takes a value and a taint; s0 takes nothing (Table 1-9), nor a taint (the model's reading, log 58); nothing else changes but the flags raised and the PC. -/
def putsS (s t : State) (x : Args) (value : Quad) (taint : Bool) (raised : Flags) : Prop :=
  onlyLeaf s t ∧ sFrame s.leaf t.leaf x.d.sreg raised
    ∧ (x.d.sreg ≠ 0 → t.leaf.readS x.d.sreg = value ∧ t.leaf.taintS x.d.sreg = (taint || s.leaf.ctlT x.guard))
    ∧ (x.d.sreg = 0 → t.leaf.readS 0 = 0 ∧ t.leaf.taintS 0 = false)

/-- Bit 0 of the predicate D takes a value, its other bits are cleared; p0 takes nothing (R41, Table 1-9). -/
def putsBit (s t : State) (x : Args) (value taint : Bool) (raised : Flags) : Prop :=
  onlyLeaf s t ∧ pFrame s.leaf t.leaf x.d.preg raised
    ∧ (x.d.preg ≠ 0 → t.leaf.readP x.d.preg = BitVec.ofNat 1024 value.toNat
        ∧ t.leaf.taintP x.d.preg = BitVec.ofNat 1024 (taint || s.leaf.ctlT x.guard).toNat)
    ∧ (x.d.preg = 0 → t.leaf.readP 0 = BitVec.allOnes 1024 ∧ t.leaf.taintP 0 = 0)

/-- Of the E elements of width w of vector register d, the active ones take `value`; an inactive one, and one from E on, keeps its own (R91, R236). -/
def putsV (s t : State) (x : Args) (w E : Nat) (value : Nat → Nat) (raised : Flags) : Prop :=
  onlyLeaf s t ∧ vFrame s.leaf t.leaf (· = x.d.vreg) raised
    ∧ ∀ i, i < 4096 / w → elem w i (t.leaf.v[x.d.vreg]).toNat =
        if i < E ∧ (s.leaf.guardMask x.guard E).testBit i = true then value i % 2 ^ w
        else elem w i (s.leaf.v[x.d.vreg]).toNat

/-- The instruction has no effect but to move the PC to the next word (R91). -/
def onlyAdvances (s t : State) : Prop := t = s.setLeaf s.leaf.advance ∧ sameBytes s t

/-- The package has power: without it nothing runs but the reset of its next power-up (R418). -/
abbrev State.on (s : State) : Prop := s.pkg.off = false

end Sys2Proof.Machine
end

