-- ==== Sys2Proof/Certificates/Slice0/Obligations.lean ====
section
/-! DEFINITION. The statements for the provers. A title or docstring names the rule of spec/ it formalises. -/

open Sys2Proof Sys2Proof.Machine

/-! ## Decoding and the step -/

/-- The word at the PC is what a step runs (R88, R107): with no turn named, the agent that goes on being able to issue, and no notice trap due, step is exec of the decoded instruction in the state after the fetch; a word that fails a check of R107 is not executed, and the step takes the exception of the first cause found. One step is one cycle (log 6). -/
def Obligations.StepRunsTheDecodedInstruction : Prop :=
  ∀ (s u s' : State) (w : InsnWord),
    let v := s.passTime 1
    s.on → s.turns = [] → v.canIssue v.nextAgent = true →
    (∀ d, v.nextAgent = .dcc d → (v.die d).noteReady = false ∧ u = { v with cur := .dcc d }) →
    (∀ core slot, v.nextAgent = .leaf core slot → u = { v with cur := .leaf core slot, lastSlot := tset v.lastSlot core slot }) →
    fetchWord u = .ok w s' →
    (∀ i, decode s'.priv s'.noMatrix w = .ok i → step s = exec i s')
    ∧ ∀ c, decode s'.priv s'.noMatrix w = .error c → step s = .next (s'.takeTrap { cause := c }).settle

/-- Decoding gives back every well-formed instruction from the word that encodes it, with every operand. -/
def Obligations.DecodeOfEncode : Prop :=
  ∀ (i : Instr) (w : InsnWord), WellFormed i → encode i = some w → decode true false w = .ok i

/-- Every bit of a word that decodes is a bit of the instruction read: encoding it gives the word back. -/
def Obligations.EncodeOfDecode : Prop :=
  ∀ (priv isString : Bool) (w : InsnWord) (i : Instr), decode priv isString w = .ok i → encode i = some w ∧ WellFormed i

/-! ## Registers, reset, the invariant -/

/-- s0 reads 0 and p0 reads all ones, and what is written to them is discarded (Table 1-9). That s0 keeps no taint, whatever is written to it, is the model's reading of R41 and R115 (log 58). -/
def Obligations.ZeroAndAllOnesRegisters : Prop :=
  ∀ (L : Leaf) (n : Fin 64) (m : Fin 8) (x : Quad) (y t : PWord) (b : Bool),
    L.readS 0 = 0 ∧ L.taintS 0 = false ∧ L.readP 0 = BitVec.allOnes 1024 ∧ L.taintP 0 = 0
      ∧ L.writeS 0 x b = L ∧ L.writeP 0 y t = L
      ∧ (L.writeS n x b).readS 0 = 0 ∧ (L.writeP m y t).readP 0 = BitVec.allOnes 1024
      ∧ (n ≠ 0 → (L.writeS n x b).readS n = x ∧ (L.writeS n x b).taintS n = b)
      ∧ (m ≠ 0 → (L.writeP m y t).readP m = y ∧ (L.writeP m y t).taintP m = t)

/-- A step keeps every memory of the package in canonical form, from every state in which they are. -/
def Obligations.StepKeepsMemoriesCanonical : Prop :=
  ∀ s t : State, s.memInv → step s = .next t → t.memInv

/-- The memories are in canonical form right after reset. -/
def Obligations.ResetMemoriesCanonical : Prop := State.reset.memInv

/-- A write to a memory changes the bytes written and no other (R5), and keeps the canonical form, which is the model's own representation of a memory (log 2). -/
def Obligations.WriteChangesItsBytesOnly : Prop :=
  ∀ (m : List Host.Cell) (a : Nat) (bs : List Byte), Memory.wf m →
    Memory.wf (writeBytes m a bs) ∧ readBytes (writeBytes m a bs) a bs.length = bs
      ∧ ∀ b, b < a ∨ a + bs.length ≤ b → readByte (writeBytes m a bs) b = readByte m b

/-! ## Guards -/

/-- Instructions on one element, by the constructor and its arguments. -/
def oneElementInstrs (x : Args) (c : Cond) : List Instr :=
  [.add x, .addSat x, .sub x, .subSat x, .mul x, .mulHi x, .div x, .rem x, .and x, .or x, .xor x, .andn x, .orn x, .xnor x,
   .shl x, .shr x, .sra x, .rol x, .ror x, .min x, .max x, .clz x, .ctz x, .popc x, .bswap x, .bfx x, .bfi x, .sel x, .mov x,
   .lea x, .cmp c x, .fadd x, .fsub x, .fmul x, .ffma x, .ffnma x, .fcvtTo x, .fcvtFrom x, .fcmp c x, .prd x, .pwr x,
   .yield x, .tfence x, .trap x, .split x, .fit x, .walk x, .prune x, .pruneMag x, .done x, .abort x, .port x, .vwaddr x,
   .capgive x, .captake x, .ld x, .st x, .pref x, .clean x, .inval x, .ldw x, .ldc x, .stf x, .ste x, .feSet x, .feRd x,
   .atomAdd x, .atomMin x, .atomMax x, .atomAnd x, .atomOr x, .atomXor x, .atomSwap x, .atomCas x, .redAdd x, .redMin x,
   .redMax x, .redAnd x, .redOr x, .redXor x, .fence x, .vget x, .vset x, .vstp x, .vldp x, .engCopy x, .engGath x,
   .engScat x, .engWin x, .engDec x, .engSeal x, .engRing x, .engColl x, .engWait x, .engStat x]

/-- An instruction on one element whose guard is false does nothing but move the PC to the next word (R91): so do the CSR instructions where the level admits the number, the privileged instructions at supervisor level, and mxmul, mxst and mxwait where there is a matrix unit; the checks of R107 precede the guard. -/
def Obligations.FalseGuardOnlyAdvances : Prop :=
  ∀ (x : Args) (c : Cond) (s : State) (i : Instr), s.on → s.leaf.active x.guard = false →
    (i ∈ oneElementInstrs x c
      ∨ ((field x.imm.toNat 0 16 < 0x800 ∨ s.priv = true) ∧ i ∈ [Instr.csrrd x, .csrwr x, .csrset x, .csrclr x])
      ∨ (s.priv = true ∧ i ∈ [Instr.eret x, .ctxstop x, .ctxstart x, .ctxkill x, .ctxevict x, .partsplit x, .partmerge x, .partbind x, .sliceset x])
      ∨ (s.noMatrix = false ∧ i ∈ [Instr.mxmul x, .mxst x, .mxwait x])) →
    ∃ t, exec i s = .next t ∧ onlyAdvances s t

/-! ## Scalar integers -/

/-- add, sub and mul wrap to the k bits of the element type, whatever the forms of their operands; add.sat and sub.sat clamp the exact result to the type's range and set SAT when they do (R54, R119). -/
def Obligations.IntegerSums : Prop :=
  (∀ (x : Args) (s : State), s.on → s.leaf.active x.guard = true →
    let a := srcOf x s false x.a
    let b := srcOf x s false x.b
    let k := etyBits x.ety
    ∀ p ∈ [(Instr.add x, (a.1 + b.1) % 2 ^ k), (.sub x, (a.1 % 2 ^ k + 2 ^ k - b.1 % 2 ^ k) % 2 ^ k), (.mul x, a.1 * b.1 % 2 ^ k)],
      ∃ t, exec p.1 s = .next t ∧ putsS s t x (etyExt x.ety p.2) (a.2 || b.2) 0)
  ∧ (∀ (x : Args) (s : State), s.on → s.leaf.active x.guard = true →
    let a := srcOf x s false x.a
    let b := srcOf x s false x.b
    let k := etyBits x.ety
    let lo : Int := if etySigned x.ety then -(2 ^ (k - 1)) else 0
    let hi : Int := if etySigned x.ety then 2 ^ (k - 1) - 1 else 2 ^ k - 1
    ∀ p ∈ [(Instr.addSat x, etyVal x.ety a.1 + etyVal x.ety b.1), (.subSat x, etyVal x.ety a.1 - etyVal x.ety b.1)],
      ∃ t, exec p.1 s = .next t
        ∧ putsS s t x (etyExt x.ety ((max lo (min hi p.2)) % 2 ^ k).toNat) (a.2 || b.2)
            (if lo ≤ p.2 ∧ p.2 ≤ hi then 0 else flagSAT))

/-- div and rem: truncation toward zero with the remainder of the dividend's sign; by zero, DZ with all ones and the dividend; the most negative over -1, OF with the dividend for div and 0 for rem (R120). -/
def Obligations.DivideAndRemainder : Prop :=
  ∀ (x : Args) (s : State), s.on → s.leaf.active x.guard = true →
    let a := srcOf x s false x.a
    let b := srcOf x s false x.b
    let k := etyBits x.ety
    let va := etyVal x.ety a.1
    let vb := etyVal x.ety b.1
    let wraps : Bool := etySigned x.ety && va == -(2 ^ (k - 1)) && vb == -1
    (∃ t, exec (.div x) s = .next t ∧ putsS s t x
        (if vb = 0 then etyExt x.ety (2 ^ k - 1) else if wraps then etyExt x.ety (va % 2 ^ k).toNat
         else etyExt x.ety (Int.tdiv va vb % 2 ^ k).toNat) (a.2 || b.2)
        (if vb = 0 then flagDZ else if wraps then flagOF else 0))
    ∧ ∃ t, exec (.rem x) s = .next t ∧ putsS s t x
        (if vb = 0 then etyExt x.ety (va % 2 ^ k).toNat else if wraps then 0
         else etyExt x.ety (Int.tmod va vb % 2 ^ k).toNat) (a.2 || b.2) (if vb = 0 then flagDZ else 0)

/-- The logical instructions act bit by bit on the k-bit patterns (R119). Shifts and rotations act on the k-bit pattern of A by the natural value of B: a count of k or more gives 0, for sra the sign in every bit; rotations take the count modulo k (R121). -/
def Obligations.LogicalsAndShifts : Prop :=
  (∀ (x : Args) (s : State), s.on → s.leaf.active x.guard = true →
    let a := srcOf x s false x.a
    let b := srcOf x s false x.b
    let k := etyBits x.ety
    ∀ p ∈ ([(Instr.and x, fun u v => u && v), (.or x, fun u v => u || v), (.xor x, fun u v => xor u v), (.andn x, fun u v => u && !v),
            (.orn x, fun u v => u || !v), (.xnor x, fun u v => !(xor u v))] : List (Instr × (Bool → Bool → Bool))),
      ∃ t r, exec p.1 s = .next t ∧ putsS s t x (etyExt x.ety r) (a.2 || b.2) 0 ∧ r < 2 ^ k
        ∧ ∀ j, j < k → r.testBit j = p.2 (a.1.testBit j) (b.1.testBit j))
  ∧ (∀ (x : Args) (s : State), s.on → s.leaf.active x.guard = true →
    let a := srcOf x s false x.a
    let c := srcOf x s false x.b
    let k := etyBits x.ety
    let sign := a.1.testBit (k - 1)
    ∀ p ∈ ([(Instr.shl x, fun j => decide (c.1 ≤ j) && a.1.testBit (j - c.1)),
            (.shr x, fun j => decide (j + c.1 < k) && a.1.testBit (j + c.1)),
            (.sra x, fun j => if j + c.1 < k then a.1.testBit (j + c.1) else sign),
            (.rol x, fun j => a.1.testBit ((j + k - c.1 % k) % k)),
            (.ror x, fun j => a.1.testBit ((j + c.1) % k))] : List (Instr × (Nat → Bool))),
      ∃ t r, exec p.1 s = .next t ∧ putsS s t x (etyExt x.ety r) (a.2 || c.2) 0 ∧ r < 2 ^ k
        ∧ ∀ j, j < k → r.testBit j = p.2 j)

/-- mul.hi takes the high k bits of the exact product; min and max the smaller and the larger by signedness; clz, ctz and popc count in the k-bit pattern of A, both zero counts giving k for 0; bswap reverses its bytes (R119). -/
def Obligations.ExtremesCountsAndBytes : Prop :=
  (∀ (x : Args) (s : State), s.on → s.leaf.active x.guard = true →
    let a := srcOf x s false x.a
    let b := srcOf x s false x.b
    let k := etyBits x.ety
    let va := etyVal x.ety a.1
    let vb := etyVal x.ety b.1
    ∀ p ∈ [(Instr.mulHi x, va * vb / 2 ^ k), (.min x, min va vb), (.max x, max va vb)],
      ∃ t, exec p.1 s = .next t ∧ putsS s t x (etyExt x.ety (p.2 % 2 ^ k).toNat) (a.2 || b.2) 0)
  ∧ (∀ (x : Args) (s : State), s.on → s.leaf.active x.guard = true →
    let a := srcOf x s false x.a
    let k := etyBits x.ety
    let v := a.1 % 2 ^ k
    (∃ t n, exec (.clz x) s = .next t ∧ putsS s t x (BitVec.ofNat 64 n) a.2 0 ∧ n ≤ k ∧ v < 2 ^ (k - n) ∧ (n < k → v.testBit (k - 1 - n)))
    ∧ (∃ t n, exec (.ctz x) s = .next t ∧ putsS s t x (BitVec.ofNat 64 n) a.2 0 ∧ n ≤ k ∧ v % 2 ^ n = 0 ∧ (n < k → v.testBit n))
    ∧ (∃ t, exec (.popc x) s = .next t ∧ putsS s t x (BitVec.ofNat 64 ((List.range k).countP fun j => v.testBit j)) a.2 0)
    ∧ (8 ∣ k → ∃ t r, exec (.bswap x) s = .next t ∧ putsS s t x (etyExt x.ety r) (a.2 || (srcOf x s false x.b).2) 0 ∧ r < 2 ^ k
        ∧ ∀ i, i < k / 8 → elem 8 i r = elem 8 (k / 8 - 1 - i) v))

/-- bfx takes WID bits of A, extended to 128 bits by its type, from POS, and extends them by the type's signedness; bfi replaces WID bits of D from POS; POS is bits [6:0] of B and WID its bits [14:8], at most k (R122). That bfx takes zeros where the field reaches past bit 127, for signed types too, is the model's choice (log 68). -/
def Obligations.BitFields : Prop :=
  ∀ (x : Args) (s : State), s.on → s.leaf.active x.guard = true →
    let a := srcOf x s false x.a
    let c := srcOf x s false x.b
    let k := etyBits x.ety
    let pos := c.1 % 2 ^ 7
    let wid := min (c.1 / 2 ^ 8 % 2 ^ 7) k
    let ext (i : Nat) : Bool := decide (i < 128) && (if i < k then a.1.testBit i else etySigned x.ety && a.1.testBit (k - 1))
    let d := (s.leaf.readS x.d.sreg).toNat
    (∃ t r, exec (.bfx x) s = .next t ∧ putsS s t x (etyExt x.ety r) (a.2 || c.2) 0 ∧ r < 2 ^ k
      ∧ ∀ j, j < k → r.testBit j =
          if wid = 0 then false else if j < wid then ext (pos + j) else etySigned x.ety && ext (pos + wid - 1))
    ∧ ∃ t r, exec (.bfi x) s = .next t ∧ putsS s t x (etyExt x.ety r) (a.2 || c.2 || s.leaf.taintS x.d.sreg) 0 ∧ r < 2 ^ k
      ∧ ∀ j, j < k → r.testBit j = if pos ≤ j ∧ j < pos + wid then a.1.testBit (j - pos) else d.testBit j

/-- sel takes B where bit 0 of pA is 1, else C, with the taint of the operand taken and of that bit; mov takes A by its type; lea adds A, the extended B shifted by n, and C modulo 2^64; mov from a reply queue takes the oldest reservation, untainted: filled, it is popped into sD; unfilled, the leaf waits; with none, Q_UNDERRUN (R42, R123). -/
def Obligations.SelectMoveAndAddress : Prop :=
  (∀ (x : Args) (s : State), s.on → s.leaf.active x.guard = true →
    let a := srcOf x s true x.a
    let b := srcOf x s true x.b
    let c := srcOf x s true x.c
    let chosen := srcOf x s false (if (s.leaf.readP x.a.preg).getLsbD 0 then x.b else x.c)
    (∃ t, exec (.sel x) s = .next t ∧ putsS s t x (etyExt x.ety chosen.1) (chosen.2 || (s.leaf.taintP x.a.preg).getLsbD 0) 0)
    ∧ ((∀ n, x.a ≠ .q n) → ∃ t, exec (.mov x) s = .next t
        ∧ putsS s t x (etyExt x.ety (srcOf x s false x.a).1) (srcOf x s false x.a).2 0)
    ∧ ∃ t, exec (.lea x) s = .next t
        ∧ putsS s t x (BitVec.ofNat 64 a.1 + (etyExt x.ety b.1 <<< field x.imm.toNat 40 3) + BitVec.ofNat 64 c.1)
            (a.2 || b.2 || c.2) 0)
  ∧ (∀ (x : Args) (n : Fin 16) (s : State), s.on → s.leaf.active x.guard = true → x.a = .q n →
    (∀ tk v rest, s.leaf.q[n] = ⟨tk, some v⟩ :: rest →
      exec (.mov x) s = .next (s.setLeaf (({ s.leaf with q := s.leaf.q.set n rest }.writeS x.d.sreg
        (etyExt x.ety (v.toNat % 2 ^ etyBits x.ety)) (s.leaf.ctlT x.guard)).advance)).settle)
    ∧ (∀ tk rest, s.leaf.q[n] = ⟨tk, none⟩ :: rest → exec (.mov x) s = .next s.markWaiting.settle)
    ∧ (s.leaf.q[n] = [] → exec (.mov x) s = .next (s.takeTrap { cause := .qUnderrun }).settle))

/-- cmp compares the typed sources by the signedness of the type into bit 0 of pD and sets no flag (R124). -/
def Obligations.IntegerCompare : Prop :=
  ∀ (x : Args) (s : State), s.on → s.leaf.active x.guard = true →
    let a := srcOf x s false x.a
    let b := srcOf x s false x.b
    let va := etyVal x.ety a.1
    let vb := etyVal x.ety b.1
    ∀ p ∈ [(Cond.eq, decide (va = vb)), (.ne, decide (va ≠ vb)), (.lt, decide (va < vb)), (.le, decide (va ≤ vb)),
           (.gt, decide (vb < va)), (.ge, decide (vb ≤ va))],
      ∃ t, exec (.cmp p.1 x) s = .next t ∧ putsBit s t x p.2 (a.2 || b.2) 0

/-! ## Scalar floats -/

/-- An f32 pattern that is a NaN; a signalling one. -/
def isNaN32 (y : Nat) : Bool := field y 23 8 = 0xFF && field y 0 23 ≠ 0

def isSNaN32 (y : Nat) : Bool := isNaN32 y && !y.testBit 22

/-- An f32 sum, difference or product with a NaN operand is the canonical NaN 0x7FC0_0000, with IV for a signalling one and no other flag; unlike infinities added and 0 times an infinity give the canonical NaN with IV (R57, Table 2-3). -/
def Obligations.FloatNaNsAndInvalid : Prop :=
  (∀ (x : Args) (s : State), s.on → s.leaf.active x.guard = true →
    let a := srcOf x s true x.a
    let b := srcOf x s true x.b
    isNaN32 a.1 ∨ isNaN32 b.1 →
    ∀ i ∈ [Instr.fadd x, .fsub x, .fmul x],
      ∃ t, exec i s = .next t ∧ putsS s t x 0x7FC00000#64 (a.2 || b.2) (if isSNaN32 a.1 || isSNaN32 b.1 then flagIV else 0))
  ∧ (∀ (x : Args) (s : State), s.on → s.leaf.active x.guard = true →
    let a := (srcOf x s true x.a).1 % 2 ^ 32
    let b := (srcOf x s true x.b).1 % 2 ^ 32
    let t0 := (srcOf x s true x.a).2 || (srcOf x s true x.b).2
    let inf (y : Nat) : Prop := y = 0x7F800000 ∨ y = 0xFF800000
    let zero (y : Nat) : Prop := y = 0 ∨ y = 0x80000000
    (inf a ∧ inf b ∧ a ≠ b → ∃ t, exec (.fadd x) s = .next t ∧ putsS s t x 0x7FC00000#64 t0 flagIV)
    ∧ (inf a ∧ inf b ∧ a = b → ∃ t, exec (.fsub x) s = .next t ∧ putsS s t x 0x7FC00000#64 t0 flagIV)
    ∧ ((inf a ∧ zero b) ∨ (zero a ∧ inf b) → ∃ t, exec (.fmul x) s = .next t ∧ putsS s t x 0x7FC00000#64 t0 flagIV))

/-- The exact value of a finite float. -/
def fvRat : Fv → Rat
  | .fin n m e => (if n then -(m : Rat) else (m : Rat)) * (2 : Rat) ^ e
  | _ => 0

/-- The magnitude of a rational. -/
def ratAbs (z : Rat) : Rat := if z < 0 then -z else z

/-- The value that a pattern with a clear sign bit stands for. -/
def fmtValue (f : Fmt) (p : Nat) : Rat := fvRat (fdecode f p)

/-- A value other than zero rounds to a pattern with flags (R58, R59, R61, Table 2-3), to nearest even: past the greatest finite value and half its quantum it is an infinity with OF and NX, or, in the format without one, the greatest finite value with SAT and NX; else the nearest finite value of the format, the even pattern of two, with NX where it is not exact, and UF where it is not exact and less than the least normal value after a rounding with no bound on the exponent. -/
def roundsTo (f : Fmt) (z : Rat) (r : Nat × Flags) : Prop :=
  let a := ratAbs z
  let half := (fmtValue f f.maxFin - fmtValue f (f.maxFin - 1)) / 2
  let least : Rat := (2 : Rat) ^ (1 - (f.bias : Int))
  if fmtValue f f.maxFin + half < a ∨ (f.hasInf = true ∧ a = fmtValue f f.maxFin + half) then
    r = if f.hasInf then (finf f (decide (z < 0)), flagOF ||| flagNX) else (signBit f (decide (z < 0)) + f.maxFin, flagSAT ||| flagNX)
  else ∃ p, p ≤ f.maxFin ∧ r.1 = signBit f (decide (z < 0)) + p
    ∧ (∀ q, q ≤ f.maxFin → ratAbs (fmtValue f p - a) ≤ ratAbs (fmtValue f q - a)
        ∧ (q ≠ p → ratAbs (fmtValue f p - a) = ratAbs (fmtValue f q - a) → p % 2 = 0))
    ∧ r.2 = if fmtValue f p = a then 0
        else flagNX ||| (if a < least - (2 : Rat) ^ (-1 - (f.bias : Int) - (f.frac : Int)) then flagUF else 0)

/-- A value other than zero is subnormal, or less than the least normal value after a rounding with no bound on the exponent (R59, Table 2-3). -/
def tinyIn (f : Fmt) (rm : Rm) (z : Rat) : Bool :=
  let a := ratAbs z
  let least : Rat := (2 : Rat) ^ (1 - (f.bias : Int))
  let quantum : Rat := (2 : Rat) ^ (-(f.bias : Int) - (f.frac : Int))
  match rm with
  | .rne => decide (a < least - quantum / 2)
  | .rtz => decide (a < least)
  | .rup => if z < 0 then decide (a < least) else decide (a ≤ least - quantum)
  | .rdn => if z < 0 then decide (a ≤ least - quantum) else decide (a < least)

/-- A value other than zero rounds to a pattern with flags in a mode of Table 2-2 (R58, R61, Tables 2-3, 2-4). In a directed mode: past the greatest finite value, where the mode rounds away from zero, or past it by its quantum, where it rounds toward zero, the result is what Table 2-4 gives, with OF and NX, or, in the format without infinity, the greatest finite value with SAT and NX; else the neighbour on the mode's side, with NX where it is not exact, and UF where it is tiny too. -/
def roundsIn (f : Fmt) (rm : Rm) (z : Rat) (r : Nat × Flags) : Prop :=
  let a := ratAbs z
  let neg := decide (z < 0)
  let top := fmtValue f f.maxFin
  let away : Bool := match rm with | .rup => !neg | .rdn => neg | _ => false
  if rm = .rne then roundsTo f z r
  else if (if away then top < a else top + (top - fmtValue f (f.maxFin - 1)) ≤ a) then
    r = if f.hasInf then (if away then finf f neg else signBit f neg + f.maxFin, flagOF ||| flagNX)
      else (signBit f neg + f.maxFin, flagSAT ||| flagNX)
  else ∃ p, p ≤ f.maxFin ∧ r.1 = signBit f neg + p
    ∧ (if away then a ≤ fmtValue f p ∧ ∀ q, q ≤ f.maxFin → a ≤ fmtValue f q → fmtValue f p ≤ fmtValue f q
       else fmtValue f p ≤ a ∧ ∀ q, q ≤ f.maxFin → fmtValue f q ≤ a → fmtValue f q ≤ fmtValue f p)
    ∧ r.2 = if fmtValue f p = a then 0 else flagNX ||| (if tinyIn f rm z then flagUF else 0)

/-- A value rounds to an integer in a mode of Table 2-2. -/
def roundsToInt (rm : Rm) (z : Rat) (i : Int) : Prop :=
  match rm with
  | .rne => ratAbs (z - (i : Rat)) ≤ 1 / 2 ∧ (ratAbs (z - (i : Rat)) = 1 / 2 → i % 2 = 0)
  | .rtz => if z < 0 then z ≤ (i : Rat) ∧ (i : Rat) < z + 1 else (i : Rat) ≤ z ∧ z < (i : Rat) + 1
  | .rup => z ≤ (i : Rat) ∧ (i : Rat) < z + 1
  | .rdn => (i : Rat) ≤ z ∧ z < (i : Rat) + 1

/-- An integer clamped to k bits, with SAT, or the result with the flags given (R54, R62). -/
def clampTo (k : Nat) (signed : Bool) (i : Int) (fl : Flags) : Nat × Flags :=
  let lo : Int := if signed then -(2 ^ (k - 1)) else 0
  let hi : Int := if signed then 2 ^ (k - 1) - 1 else 2 ^ k - 1
  if hi < i then ((hi % 2 ^ k).toNat, flagSAT) else if i < lo then ((lo % 2 ^ k).toNat, flagSAT) else ((i % 2 ^ k).toNat, fl)

/-- What a pattern of a float format stands for, and what .ftz makes of a subnormal one (R55, R56, R59). -/
def patternsDecode : Prop :=
  ∀ f ∈ [fmtE4m3, fmtE5m2, fmtF16, fmtBf16, fmtF32], ∀ y, y < 2 ^ f.bits →
    let neg := y.testBit (f.bits - 1)
    let E := field y f.frac (f.bits - 1 - f.frac)
    let fr := field y 0 f.frac
    let last := E = 2 ^ (f.bits - 1 - f.frac) - 1
    let special := last ∧ (f.hasInf = true ∨ fr = 2 ^ f.frac - 1)
    let sign : Rat := if neg then -1 else 1
    (special → f.hasInf = true → fdecode f y = if fr = 0 then .inf neg else .nan (!fr.testBit (f.frac - 1)))
    ∧ (special → f.hasInf = false → fdecode f y = .nan false)
    ∧ (¬ special → E ≠ 0 → ∃ m e, fdecode f y = .fin neg m e ∧ m ≠ 0
        ∧ fvRat (.fin neg m e) = sign * (2 : Rat) ^ ((E : Int) - (f.bias : Int)) * (1 + (fr : Rat) / (2 : Rat) ^ f.frac))
    ∧ (¬ special → E = 0 → ∃ m e, fdecode f y = .fin neg m e
        ∧ fvRat (.fin neg m e) = sign * (2 : Rat) ^ (1 - (f.bias : Int)) * ((fr : Rat) / (2 : Rat) ^ f.frac))
    ∧ fdecodeFtz f false y = fdecode f y
    ∧ (E = 0 → fr ≠ 0 → ∃ e, fdecodeFtz f true y = .fin neg 0 e)
    ∧ (E ≠ 0 ∨ fr = 0 → fdecodeFtz f true y = fdecode f y)

/-- The conversions (R57 to R62, R127, R247). A rounding obeys its mode, and .ftz makes a tiny result a zero of its sign with UF and NX. From a float to a float: a NaN is the canonical one, with IV for a signalling one; an infinity stays, or saturates with SAT and NX where there is none; a zero keeps its sign; else the value is rounded. From a float to an integer: a NaN is 0 with IV, an infinity and what is out of range after rounding clamp with SAT, else NX where it is not exact. From an integer to a float the value is rounded, 0 is +0; to an integer it clamps with SAT, or wraps with no flag. An e8m0 pattern E is 2^(E-127), exact in f32 without .ftz, which makes the subnormal 2^-127 of E = 0 a zero with UF and NX; 0xFF is the canonical NaN with IV. -/
def conversionsDo : Prop :=
  patternsDecode
  ∧ (∀ f ∈ [fmtE4m3, fmtE5m2, fmtF16, fmtBf16, fmtF32], ∀ (rm : Rm) (n : Bool) (m : Nat) (e : Int), m ≠ 0 →
    let z := fvRat (.fin n m e)
    roundsIn f rm z (fround f rm false n m e false)
    ∧ fround f rm true n m e false = if tinyIn f rm z then (fzero f n, flagUF ||| flagNX) else fround f rm false n m e false)
  ∧ (∀ (src dst : Ety) (rm : Rm) (ftz wrap : Bool) (y : Nat),
    let r := cvtElem src dst rm ftz wrap y
    let k := etyBits dst
    let clamp (i : Int) (fl : Flags) : Nat × Flags := clampTo k (etySigned dst) i fl
    let z := etyVal src y
    (∀ f g, etyFmt src = some f → etyFmt dst = some g →
      match fdecodeFtz f ftz y with
      | .nan sig => r = (g.nan, if sig then flagIV else 0)
      | .inf n => r = if g.hasInf then (finf g n, 0) else (signBit g n + g.maxFin, flagSAT ||| flagNX)
      | .fin n m e => r = if m = 0 then (fzero g n, 0) else fround g rm ftz n m e false)
    ∧ (∀ f, etyFmt src = some f → etyFmt dst = none →
      match fdecodeFtz f ftz y with
      | .nan _ => r = (0, flagIV)
      | .inf n => r = clamp (if n then -(2 ^ k) else 2 ^ k) 0
      | .fin n m e => ∃ i : Int, roundsToInt rm (fvRat (.fin n m e)) i ∧ r = clamp i (if (i : Rat) = fvRat (.fin n m e) then 0 else flagNX))
    ∧ (∀ g, etyFmt src = none → src ≠ .e8m0 → etyFmt dst = some g →
        r = if z = 0 then (0, 0) else fround g rm ftz (decide (z < 0)) z.natAbs 0 false)
    ∧ (etyFmt src = none → src ≠ .e8m0 → etyFmt dst = none → r = if wrap then ((z % 2 ^ k).toNat, 0) else clamp z 0)
    ∧ (∀ g, etyFmt dst = some g →
        (cvtElem .e8m0 dst rm ftz wrap 0xFF = (g.nan, flagIV))
        ∧ (y < 0xFF → cvtElem .e8m0 dst rm ftz wrap y = fround g rm ftz false 1 ((y : Int) - 127) false))
    ∧ cvtElem .e8m0 .f32 rm true wrap 0 = (0, flagUF ||| flagNX)
    ∧ (y < 0xFF → y ≠ 0 ∨ ftz = false → ∃ p, cvtElem .e8m0 .f32 rm ftz wrap y = (p, 0) ∧ fmtValue fmtF32 p = (2 : Rat) ^ ((y : Int) - 127)))

/-- The float instructions read the low 32 bits of their operands, flush subnormal inputs with .ftz, round once to nearest even, write bits [31:0] with [63:32] clear and raise the flags of the operation (R125, R126); fcvt.to converts the f32 in A to the element type, written by R115, and fcvt.from the element in A to f32 (R127); the operations are those of file 02 on decoded values, and the conversions those of R59 to R62. -/
def Obligations.FloatArithmeticCompletes : Prop :=
  (∀ (x : Args) (s : State), s.on → s.leaf.active x.guard = true →
    let a := srcOf x s true x.a
    let b := srcOf x s true x.b
    let c := srcOf x s true x.c
    let ftz := modFtz x
    let v (y : Nat) : Fv := fdecodeFtz fmtF32 ftz (y % 2 ^ 32)
    (∀ p ∈ [(Instr.fadd x, fadd fmtF32 .rne ftz (v a.1) (v b.1)), (.fsub x, fadd fmtF32 .rne ftz (v a.1) (fneg (v b.1))),
            (.fmul x, fmul fmtF32 .rne ftz (v a.1) (v b.1))],
      ∃ t, exec p.1 s = .next t ∧ putsS s t x (BitVec.ofNat 64 p.2.1) (a.2 || b.2) p.2.2)
    ∧ ∀ p ∈ [(Instr.ffma x, ffma fmtF32 .rne ftz false (v a.1) (v b.1) (v c.1)), (.ffnma x, ffma fmtF32 .rne ftz true (v a.1) (v b.1) (v c.1))],
      ∃ t, exec p.1 s = .next t ∧ putsS s t x (BitVec.ofNat 64 p.2.1) (a.2 || b.2 || c.2) p.2.2)
  ∧ (∀ (x : Args) (s : State), s.on → s.leaf.active x.guard = true →
    let a := srcOf x s true x.a
    let into := cvtElem .f32 x.ety (modRm x) (modFtz x) false (a.1 % 2 ^ 32)
    let fr := cvtElem x.ety .f32 (modRm x) (modFtz x) false (a.1 % 2 ^ etyBits x.ety)
    (∃ t, exec (.fcvtTo x) s = .next t ∧ putsS s t x (etyExt x.ety into.1) a.2 into.2)
    ∧ ∃ t, exec (.fcvtFrom x) s = .next t ∧ putsS s t x (BitVec.ofNat 64 fr.1) a.2 fr.2)
  ∧ conversionsDo

/-- The rounding of every float format (R58 to R61, R63): a sum, a difference by the sign of its operand, a product and a fused multiply-add of finite values with an exact result other than zero are that result rounded once to nearest even; an exact zero has the sign that both terms have, else +; a group of blocks whose sums align without loss adds their exact sum to the accumulator and rounds once (R79, R80). -/
def Obligations.RoundingToNearestEven : Prop :=
  (∀ f ∈ [fmtE4m3, fmtE5m2, fmtF16, fmtBf16, fmtF32],
    (∀ (n : Bool) (m : Nat) (e : Int), m ≠ 0 → roundsTo f (fvRat (.fin n m e)) (fround f .rne false n m e false))
    ∧ ∀ (n1 n2 n3 : Bool) (m1 m2 m3 : Nat) (e1 e2 e3 : Int),
      let x : Fv := .fin n1 m1 e1
      let y : Fv := .fin n2 m2 e2
      let z : Fv := .fin n3 m3 e3
      (fvRat x + fvRat y ≠ 0 → roundsTo f (fvRat x + fvRat y) (fadd f .rne false x y))
      ∧ (fvRat x + fvRat y = 0 → fadd f .rne false x y = (fzero f (n1 && n2), 0))
      ∧ (fvRat x * fvRat y ≠ 0 → roundsTo f (fvRat x * fvRat y) (fmul f .rne false x y))
      ∧ (fvRat x * fvRat y = 0 → fmul f .rne false x y = (fzero f (n1 != n2), 0))
      ∧ ∀ neg : Bool, let w := (if neg then -(fvRat x * fvRat y) else fvRat x * fvRat y) + fvRat z
        (w ≠ 0 → roundsTo f w (ffma f .rne false neg x y z))
        ∧ (w = 0 → ffma f .rne false neg x y z = (fzero f (((n1 != n2) != neg) && n3), 0)))
  ∧ (∀ (c : Nat) (n : Bool) (m : Nat) (e : Int) (bs : List (Int × Int × Bool)), fdecode fmtF32 c = .fin n m e →
    (∀ b ∈ bs, b.2.2 = false ∧ ∀ d ∈ bs, d.2.1 ≤ b.2.1 + 16) →
    let sum : Rat := (bs.map fun b => (b.1 : Rat) * (2 : Rat) ^ b.2.1).sum
    let w := fvRat (.fin n m e) + sum
    (sum ≠ 0 → w ≠ 0 → roundsTo fmtF32 w (promoteGroup c bs)) ∧ (sum = 0 → promoteGroup c bs = (c, 0)))

/-- The place of a non-NaN f32 pattern in the order of values, both zeros at 0; with .ftz subnormals are zero. -/
def orderKey32 (ftz : Bool) (y : Nat) : Int :=
  let m := if ftz && field y 0 31 < 2 ^ 23 then 0 else field y 0 31
  if y.testBit 31 then -(m : Int) else m

/-- fcmp writes bit 0 of pD by Table 4-5: with a NaN only ne and unord hold, IV for a signalling NaN and, for the order relations, for any; without one the values are compared and no flag is set (R128). -/
def Obligations.FloatCompare : Prop :=
  ∀ (x : Args) (s : State) (c : Cond), s.on → s.leaf.active x.guard = true →
    let a := srcOf x s true x.a
    let b := srcOf x s true x.b
    let ka := orderKey32 (modFtz x) a.1
    let kb := orderKey32 (modFtz x) b.1
    let order : Bool := c = .lt || c = .le || c = .gt || c = .ge
    ∃ t, exec (.fcmp c x) s = .next t ∧
      if isNaN32 a.1 || isNaN32 b.1 then
        putsBit s t x (c = .ne || c = .unord) (a.2 || b.2) (if isSNaN32 a.1 || isSNaN32 b.1 || order then flagIV else 0)
      else putsBit s t x (match c with
        | .eq => ka = kb | .ne => ka ≠ kb | .lt => ka < kb | .le => ka ≤ kb | .gt => kb < ka | .ge => kb ≤ ka | .unord => false)
        (a.2 || b.2) 0

/-! ## Predicates -/

/-- pand, por, pxor, pandn and pnot act on all 1,024 bits, each guarded by its own mask bit; an inactive bit keeps its value (R129, R91). prd reads the 64-bit group of pA that the low 4 bits of B name into sD; pwr writes sA, with its taint, into that group of pD and leaves the other groups (R130). -/
def Obligations.PredicateInstructions : Prop :=
  (∀ (x : Args) (s : State), s.on →
    ∀ p ∈ ([(Instr.pand x, fun u v => u && v), (.por x, fun u v => u || v), (.pxor x, fun u v => xor u v),
            (.pandn x, fun u v => u && !v), (.pnot x, fun u _ => !u)] : List (Instr × (Bool → Bool → Bool))),
      ∃ t, exec p.1 s = .next t ∧ onlyLeaf s t ∧ pFrame s.leaf t.leaf x.d.preg 0
        ∧ (x.d.preg ≠ 0 → ∀ j, j < 1024 → (t.leaf.readP x.d.preg).getLsbD j =
            if (s.leaf.guardMask x.guard 1024).testBit j then
              p.2 ((s.leaf.readP x.a.preg).getLsbD j) ((s.leaf.readP x.b.preg).getLsbD j)
            else (s.leaf.readP x.d.preg).getLsbD j))
  ∧ (∀ (x : Args) (s : State), s.on → s.leaf.active x.guard = true →
    let a := srcOf x s false x.a
    let b := srcOf x s false x.b
    let n := b.1 % 16
    (∃ t v, exec (.prd x) s = .next t
      ∧ putsS s t x v (b.2 || (List.range 64).any fun j => (s.leaf.taintP x.a.preg).getLsbD (64 * n + j)) 0
      ∧ ∀ j, j < 64 → v.getLsbD j = (s.leaf.readP x.a.preg).getLsbD (64 * n + j))
    ∧ ∃ t, exec (.pwr x) s = .next t ∧ onlyLeaf s t ∧ pFrame s.leaf t.leaf x.d.preg 0
      ∧ (∀ m, x.d.preg ≠ 0 → x.a = .s m → ∀ j, j < 1024 →
          (t.leaf.readP x.d.preg).getLsbD j = (if j / 64 = n then a.1.testBit (j % 64) else (s.leaf.readP x.d.preg).getLsbD j)
          ∧ (t.leaf.taintP x.d.preg).getLsbD j = (if j / 64 = n then a.2 || b.2 || s.leaf.ctlT x.guard else (s.leaf.taintP x.d.preg).getLsbD j)))

/-! ## Control transfer, traps -/

/-- br, call and ret: an active transfer goes OFF words ahead or to the top of the call stack, call pushes PC + 16 and ret pops; an inactive one advances; a tainted guard bit sets control taint either way; nothing else changes; an active call at depth 8 and an active ret at depth 0 trap CALL_DEPTH with no change of their own (R131, R132, R116). -/
def Obligations.ControlTransfer : Prop :=
  (∀ (x : Args) (s : State), s.on →
    let L := s.leaf
    let T : Leaf := { L with ctlTaint := L.ctlTaint || (L.guardTaint x.guard).testBit 0 }
    let target := L.pc + BitVec.ofNat 64 (16 * x.imm.toNat)
    (exec (.br x) s = .next (s.setLeaf { T with pc := if L.active x.guard then target else L.pc + 16 }))
    ∧ (L.active x.guard = true → L.calls.length < 8 →
        exec (.call x) s = .next (s.setLeaf { T with pc := target, calls := (L.pc + 16) :: L.calls }))
    ∧ (∀ r rest, L.active x.guard = true → L.calls = r :: rest →
        exec (.ret x) s = .next (s.setLeaf { T with pc := r, calls := rest }))
    ∧ (L.active x.guard = false → ∀ i ∈ [Instr.call x, .ret x], exec i s = .next (s.setLeaf { T with pc := L.pc + 16 })))
  ∧ (∀ (x : Args) (s : State), s.on → s.leaf.active x.guard = true →
    (8 ≤ s.leaf.calls.length → exec (.call x) s = .next (s.takeTrap { cause := .callDepth }).settle)
    ∧ (s.leaf.calls = [] → exec (.ret x) s = .next (s.takeTrap { cause := .callDepth }).settle))

/-- yield without a pending stop only advances; with one, a leaf that has no message under way is suspended with its saved PC at the following word (R133). tfence with no matrix job of the leaf outstanding: no enabled flag set, it only advances; otherwise it traps ARITH_TRAP, the flags left as they are (R137). An active trap takes USER_TRAP with its code; the saved PC is the next word's (R138). -/
def Obligations.YieldFenceAndTrap : Prop :=
  (∀ (x : Args) (s : State), s.on →
    (s.myCtx.stop = none → ∃ t, exec (.yield x) s = .next t ∧ onlyAdvances s t)
    ∧ (∀ core slot, s.cur = .leaf core slot → s.myCtx.stop.isSome = true → s.leaf.active x.guard = true →
        s.canSuspend core slot = true → exec (.yield x) s = .next (s.stopLeaf core slot (s.leaf.pc + 16)).settle))
  ∧ (∀ (x : Args) (s : State), s.on → s.leaf.active x.guard = true → s.leaf.mxFault = [] → s.mxBusy none = false →
    let L := s.leaf
    (L.flags &&& L.trapEn = 0 → exec (.tfence x) s = .next (s.setLeaf L.advance).settle)
    ∧ (L.flags &&& L.trapEn ≠ 0 →
        exec (.tfence x) s = .next (s.takeTrap { cause := .arithTrap, info := L.flags.setWidth 64 ||| (L.trapEn.setWidth 64 <<< 8) }).settle))
  ∧ (∀ (x : Args) (s : State), s.on → s.leaf.active x.guard = true →
    exec (.trap x) s = .next (s.takeTrap { cause := .userTrap, next := true, info := BitVec.ofNat 64 (x.imm.toNat % 256) }).settle)

/-- eret at supervisor level sets the PC to SV_EPC and the level to PREV_SV, leaves PREV_SV and every other register, and touches nothing else; an SV_EPC that is not a multiple of 16 faults PC_ALIGN at the fetch that follows (R140). -/
def Obligations.ReturnFromTrap : Prop :=
  ∀ (x : Args) (s : State) (d : Nat), s.on → s.cur = .dcc d → (s.die d).dcc.sv = true → s.leaf.active x.guard = true →
    let c := (s.die d).dcc
    let t := s.setDcc d { c with sv := c.prevSv, leaf := { c.leaf with pc := c.epc } }
    exec (.eret x) s = .next t.settle ∧ (c.epc.toNat % 16 ≠ 0 → fetchWord t = .error (.trap { cause := .pcAlign, addr := c.epc.toNat }) t)

/-- User code reaches no privileged instruction: at user level OPs 0x7E and 0x7F with a defined SUB, and a CSR number from 0x800 to 0xFFF, decode to PRIV_INSN whatever the other fields hold, and the instructions themselves, reached in user code, trap PRIV_INSN and do nothing of their own (R106, R107). String cores have no matrix unit: the matrix instructions decode to NO_MATRIX there (R13, R107). -/
def Obligations.PrivilegeAndMatrixRefusals : Prop :=
  (∀ (isString : Bool) (w : InsnWord),
    (field w.toNat 0 7 = 0x7E ∧ field w.toNat 7 4 = 0) ∨ (field w.toNat 0 7 = 0x7F ∧ field w.toNat 7 4 < 8)
      ∨ (field w.toNat 0 7 = 0x1B ∧ field w.toNat 7 4 < 4 ∧ 0x800 ≤ field w.toNat 80 16 ∧ field w.toNat 80 16 ≤ 0xFFF) →
    decode false isString w = .error .privInsn)
  ∧ (∀ (priv : Bool) (w : InsnWord),
    0x70 ≤ field w.toNat 0 7 ∧ field w.toNat 0 7 ≤ 0x74 ∧ field w.toNat 7 4 = 0 →
    decode priv true w = .error .noMatrix)
  ∧ (∀ (x : Args) (s : State), s.on → s.priv = false →
    (∀ i ∈ [Instr.eret x, .ctxstop x, .ctxstart x, .ctxkill x, .ctxevict x, .partsplit x, .partmerge x, .partbind x, .sliceset x],
      exec i s = .next (s.takeTrap { cause := .privInsn }).settle)
    ∧ (0x800 ≤ field x.imm.toNat 0 16 → ∀ i ∈ [Instr.csrrd x, .csrwr x, .csrset x, .csrclr x],
      exec i s = .next (s.takeTrap { cause := .privInsn }).settle))

/-! ## Words of the spec -/

/-- The fields of a word with a plain first guard predicate, no hint and no scheduling control. -/
def plainArgs (p1 : Fin 8) (ety : Ety) (d a b c e : Opnd) (imm : BitVec 48) : Args := ⟨⟨p1, false, 0, false, false⟩, ety, d, a, b, c, e, imm, 0, ⟨0, 0, false⟩⟩

/-- Words that the spec writes out, one of each family (files 03 to 09, 18, 19), decode to the instructions they stand for. -/
def Obligations.DecodeSpecWords : Prop :=
  ∀ p ∈ ([(0, 0x4000, .add (plainArgs 0 .n64 (.s 0) (.s 0) (.s 0) (.s 0) (.s 0) 0)),
          (0x0100000000000000, 0x0000000504003813, .fcvtTo (plainArgs 0 .s32 (.s 4) (.s 5) (.s 0) (.s 0) (.s 0) 0x010000000000)),
          (0, 0x0000828487000095, .por (plainArgs 0 .n4 (.p 7) (.p 4) (.p 2) (.s 0) (.s 0) 0)),
          (0x30000, 0x10017, .br (plainArgs 2 .n4 (.s 0) (.s 0) (.s 0) (.s 0) (.s 0) 3)),
          (0x180000, 0x300001B, .csrrd (plainArgs 0 .n4 (.s 3) (.s 0) (.s 0) (.s 0) (.s 0) 0x18)),
          (0, 0x000000090200007F, .ctxstop (plainArgs 0 .n4 (.s 2) (.s 9) (.s 0) (.s 0) (.s 0) 0)),
          (0, 0x18021, .fit (plainArgs 3 .n4 (.s 0) (.s 0) (.s 0) (.s 0) (.s 0) 0)),
          (0x100000, 0x0000C00403003830, .ld (plainArgs 0 .s32 (.s 3) (.s 4) (.imm .sx) (.s 0) (.s 0) 16)),
          (0x1100000000000000, 0x8483C0020700303A, .ldc (plainArgs 0 .n32 (.s 7) (.s 2) (.imm .sx) (.p 3) (.p 4) 0x110000000000)),
          (0x3300000000000000, 0x0403C002010043C0, .atomCas (plainArgs 0 .n64 (.s 1) (.s 2) (.imm .sx) (.s 3) (.s 4) 0x330000000000)),
          (0x0300000000000000, 0x0044434241006853, .vfma (plainArgs 0 .bf16 (.v 1) (.v 2) (.v 3) (.v 4) (.s 0) 0x030000000000)),
          (0x50000, 0x0000C0A143007071, .mxrd (plainArgs 0 .f32 (.v 3) (.a 1) (.imm .sx) (.s 0) (.s 0) 5)),
          (0x2000000, 0x0000C00307000278, .engDec (plainArgs 0 .n4 (.s 7) (.s 3) (.imm .sx) (.s 0) (.s 0) 0x200))]
         : List (Nat × Nat × Instr)),
    decode true false (BitVec.ofNat 128 (p.1 * 2 ^ 64 + p.2.1)) = .ok p.2.2

/-! ## Control and status registers -/

/-- The writable user CSRs (Table 1-10): number, value read, effect of a write; k picks a threshold. -/
def userCsrs (k : Fin 16) : List (Nat × (Leaf → Quad) × (Quad → Leaf → Leaf)) :=
  [(0x001, fun L => L.flags.setWidth 64, fun v L => { L with flags := v.setWidth 6 }),
   (0x002, fun L => L.trapEn.setWidth 64, fun v L => { L with trapEn := v.setWidth 6 }),
   (0x004, fun L => L.dropMag, fun v L => { L with dropMag := v }),
   (0x008, fun L => L.wrr.setWidth 64, fun v L => { L with wrr := if v.setWidth 4 = 0#4 then 1 else v.setWidth 4 }),
   (0x040 + k.val, fun L => L.thresh[k], fun v L => { L with thresh := L.thresh.set k v })]

/-- csrrd, csrwr, csrset and csrclr on a writable user CSR of a leaf with no matrix job outstanding: sD takes the value before, the CSR takes A, the OR with A, or the AND with NOT A, a WRR of 0 becoming 1 (R134, R135). csrrd of a read-only user CSR of a leaf (Table 1-10): CYCLE, CORE_ID, FEATURE, REC_IDX and TAINT_CNT taint the destination and count one tainting event, the others do not. -/
def Obligations.UserCsrs : Prop :=
  (∀ (x : Args) (s : State) (core slot : Nat) (k : Fin 16), s.on → s.cur = .leaf core slot → s.leaf.active x.guard = true →
    s.leaf.mxFault = [] → s.mxBusy none = false →
    ∀ r ∈ userCsrs k, field x.imm.toNat 0 16 = r.1 →
      let a : Quad := BitVec.ofNat 64 (srcOf x s false x.a).1
      let old := r.2.1 s.leaf
      let put (t : Bool) (L : Leaf) : State := (s.setLeaf (L.writeS x.d.sreg old (t || s.leaf.ctlT x.guard)).advance).settle
      exec (.csrrd x) s = .next (put false s.leaf)
      ∧ ∀ p ∈ [(Instr.csrwr x, a), (.csrset x, old ||| a), (.csrclr x, old &&& ~~~a)],
          exec p.1 s = .next (put (srcOf x s false x.a).2 (r.2.2 p.2 s.leaf)))
  ∧ (∀ (x : Args) (s : State) (core slot : Nat), s.on → s.cur = .leaf core slot → s.leaf.active x.guard = true → s.leaf.ctx < 1024 →
    let put (s : State) (v : Quad) (t : Bool) : State := (s.setLeaf (s.leaf.writeS x.d.sreg v (t || s.leaf.ctlT x.guard)).advance).settle
    let counted : State := s.setCtx s.leaf.ctx { s.myCtx with taintCnt := s.myCtx.taintCnt + 1 }
    (∀ p ∈ [(0x003, s.myCtx.taintCnt), (0x011, BitVec.ofNat 64 (s.feature core)), (0x012, BitVec.ofNat 64 s.leaf.recIdx),
            (0x014, BitVec.ofNat 64 core), (0x018, s.cycle)],
      field x.imm.toNat 0 16 = p.1 → exec (.csrrd x) s = .next (put counted p.2 true))
    ∧ ∀ p ∈ [(0x010, BitVec.ofNat 64 s.leaf.ctx), (0x013, BitVec.ofNat 64 (((s.myCtx.record s.leaf.recIdx).map (·.rule)).getD 0)),
             (0x01C, (BitVec.ofNat 64 (if coreIsString core then scrNamed core (slot * 0x40000) else 0xFFFE00000000) : Quad))],
      field x.imm.toNat 0 16 = p.1 → exec (.csrrd x) s = .next (put s p.2 false))

/-- The privileged CSRs of a die control core that a write sets (Tables 4-8, 14-4): number, value, effect; reserved bits are dropped. -/
def privCsrs : List (Nat × (Dcc → Quad) × (Quad → Dcc → Dcc)) :=
  [(0x800, fun c => BitVec.ofNat 64 (c.sv.toNat + 2 * c.prevSv.toNat), fun v c => { c with prevSv := v.getLsbD 1 }),
   (0x801, fun c => c.epc, fun v c => { c with epc := v }),
   (0x802, fun c => c.cause, fun v c => { c with cause := v &&& 0x7F#64 }),
   (0x803, fun c => c.vec, fun v c => { c with vec := v &&& ~~~0xF#64 }),
   (0x805, fun c => c.info, fun v c => { c with info := v }),
   (0x806, fun c => c.scratch, fun v c => { c with scratch := v }),
   (0x807, fun c => c.farea, fun v c => { c with farea := v &&& ~~~0x7F#64 }),
   (0x80B, fun c => c.evarea, fun v c => { c with evarea := v &&& ~~~0xFFF#64 })]

/-- The CSR instructions on a privileged CSR at supervisor level: sD takes the value before and the CSR the value written; SV_FREC, the notice count, FRESOLVE and the die number read what they hold; a write of NOTE_EN, by csrset and csrclr too, sets the enable and frees the positions of notices taken when it is 1; one of FRESOLVE resolves the record that the value written names (R134, R136, Table 14-4). -/
def Obligations.PrivilegedCsrs : Prop :=
  ∀ (x : Args) (s : State) (d : Nat), s.on → s.cur = .dcc d → (s.die d).dcc.sv = true → s.leaf.active x.guard = true →
    let D := s.die d
    let c := D.dcc
    let n := field x.imm.toNat 0 16
    let a : Quad := BitVec.ofNat 64 (srcOf x s false x.a).1
    let ta := (srcOf x s false x.a).2
    let wrote (old : Quad) (t : Bool) : Leaf := (c.leaf.writeS x.d.sreg old (t || c.leaf.ctlT x.guard)).advance
    (∀ r ∈ privCsrs, n = r.1 →
      exec (.csrrd x) s = .next (s.setDcc d { c with leaf := wrote (r.2.1 c) false }).settle
      ∧ ∀ p ∈ [(Instr.csrwr x, a), (.csrset x, r.2.1 c ||| a), (.csrclr x, r.2.1 c &&& ~~~a)],
          exec p.1 s = .next (s.setDcc d { r.2.2 p.2 c with leaf := wrote (r.2.1 c) ta }).settle)
    ∧ (∀ p ∈ [(0x804, c.frec), (0x808, BitVec.ofNat 64 c.noteEn.toNat), (0x809, BitVec.ofNat 64 D.notices.length), (0x80A, BitVec.ofNat 64 c.fresolve), (0x840, (BitVec.ofNat 64 d : Quad))],
        n = p.1 → exec (.csrrd x) s = .next (s.setDcc d { c with leaf := wrote p.2 false }).settle)
    ∧ (n = 0x808 → ∀ p ∈ [(Instr.csrwr x, a.getLsbD 0), (.csrset x, c.noteEn || a.getLsbD 0), (.csrclr x, c.noteEn && !a.getLsbD 0)],
        exec p.1 s = .next (s.setDie d { D with
          noteHeld := if p.2 then [] else D.noteHeld
          dcc := { c with noteEn := p.2, leaf := wrote (BitVec.ofNat 64 c.noteEn.toNat) ta } }).settle)
    ∧ (n = 0x80A → ∀ p ∈ [(Instr.csrwr x, a), (.csrset x, BitVec.ofNat 64 c.fresolve ||| a), (.csrclr x, BitVec.ofNat 64 c.fresolve &&& ~~~a)],
        let t := s.writeFresolve d p.2
        exec p.1 s = .next (t.setLeaf ((t.leaf.writeS x.d.sreg (BitVec.ofNat 64 c.fresolve) (ta || t.leaf.ctlT x.guard)).advance)).settle)

/-! ## Contexts and partitions -/

/-- The state after an OP 0x7F instruction that left `t`: its status in sD with the operands' taint, the PC at the next word. -/
def answered (s t : State) (x : Args) (code : Nat) : State :=
  (t.setLeaf (({ t.leaf with committed := none }).writeS x.d.sreg (BitVec.ofNat 64 code)
    ((srcOf x s false x.a).2 || (srcOf x s false x.b).2 || (srcOf x s false x.c).2 || t.leaf.ctlT x.guard)).advance).settle

/-- A die control core at supervisor level issues x and its guard is true. -/
def dccIssues (s : State) (x : Args) (d : Nat) : Prop :=
  s.on ∧ s.cur = .dcc d ∧ (s.die d).dcc.sv = true ∧ s.leaf.active x.guard = true

/-- partsplit and partmerge (Tables 4-11, 4-12): a node outside 1 to 127 is BAD_ARG; what is not current, or cannot be halved, BAD_NODE; a busy one NODE_BUSY, with nothing changed; else the node gives way to its children, or they to it, and DONE. sliceset sets the deadline and the budget, ctxkill enters DRAINING, ctxevict writes the image lines out, ctxstart of a RUNNING context answers DONE, once no ctxstop of it waits; an id past 1023 is BAD_ARG, a FREE one NO_CTX, a state not admitted BAD_STATE, ctxkill of a DRAINING one DONE, each with no other effect (R144, R145, R146). -/
def Obligations.PartitionsAndContexts : Prop :=
  (∀ (x : Args) (s : State) (d : Nat), dccIssues s x d →
    let n := (srcOf x s false x.a).1
    let ok := 1 ≤ n ∧ n ≤ 127
    let kids := 2 * n ∈ s.parts ∧ 2 * n + 1 ∈ s.parts
    (¬ ok → exec (.partsplit x) s = .next (answered s s x 5) ∧ exec (.partmerge x) s = .next (answered s s x 5))
    ∧ (ok → ¬ (n ∈ s.parts ∧ n < 64) → exec (.partsplit x) s = .next (answered s s x 3))
    ∧ (ok → n ∈ s.parts ∧ n < 64 → s.nodeIdle n = false → exec (.partsplit x) s = .next (answered s s x 4))
    ∧ (ok → n ∈ s.parts ∧ n < 64 → s.nodeIdle n = true →
        ∃ ps hs, exec (.partsplit x) s = .next (answered s { s with parts := ps, holders := hs } x 0)
          ∧ (∀ m, m ∈ ps ↔ (m ∈ s.parts ∧ m ≠ n) ∨ m = 2 * n ∨ m = 2 * n + 1)
          ∧ tfind hs n = none ∧ ∀ m, m ≠ n → tfind hs m = tfind s.holders m)
    ∧ (ok → ¬ kids → exec (.partmerge x) s = .next (answered s s x 3))
    ∧ (ok → kids → (s.nodeIdle (2 * n) && s.nodeIdle (2 * n + 1)) = false → exec (.partmerge x) s = .next (answered s s x 4))
    ∧ (ok → kids → (s.nodeIdle (2 * n) && s.nodeIdle (2 * n + 1)) = true →
        ∃ ps hs, exec (.partmerge x) s = .next (answered s { s with parts := ps, holders := hs } x 0)
          ∧ (∀ m, m ∈ ps ↔ (m ∈ s.parts ∧ m ≠ 2 * n ∧ m ≠ 2 * n + 1) ∨ m = n)
          ∧ tfind hs (2 * n) = none ∧ tfind hs (2 * n + 1) = none
          ∧ ∀ m, m ≠ 2 * n → m ≠ 2 * n + 1 → tfind hs m = tfind s.holders m))
  ∧ (∀ (x : Args) (s : State) (d : Nat), dccIssues s x d →
    let c := (srcOf x s false x.a).1
    let dl := (srcOf x s false x.b).1
    let bu := (srcOf x s false x.c).1
    let X := s.ctx c
    let okBu := 1 ≤ bu ∧ bu < 2 ^ 40
    (1023 < c → ∀ i ∈ [Instr.sliceset x, .ctxkill x, .ctxevict x, .ctxstart x], exec i s = .next (answered s s x 5))
    ∧ (c ≤ 1023 → ¬ okBu → exec (.sliceset x) s = .next (answered s s x 5))
    ∧ (c ≤ 1023 → okBu → X.st = .free → exec (.sliceset x) s = .next (answered s s x 1))
    ∧ (c ≤ 1023 → okBu → X.st = .draining → exec (.sliceset x) s = .next (answered s s x 2))
    ∧ (c ≤ 1023 → okBu → X.st ≠ .free → X.st ≠ .draining →
        exec (.sliceset x) s = .next (answered s (s.setCtx c { X with deadline := dl, budget := bu }) x 0))
    ∧ (c ≤ 1023 → X.st = .free → ∀ i ∈ [Instr.ctxkill x, .ctxevict x, .ctxstart x], exec i s = .next (answered s s x 1))
    ∧ (c ≤ 1023 → X.st = .draining → exec (.ctxkill x) s = .next (answered s s x 0)
        ∧ ∀ i ∈ [Instr.ctxevict x, .ctxstart x], exec i s = .next (answered s s x 2))
    ∧ (c ≤ 1023 → X.st ≠ .free → X.st ≠ .draining →
        exec (.ctxkill x) s = .next (answered s (s.kill c .ctxKilled) x 0) ∧ (s.offers = [] → ((s.kill c .ctxKilled).ctx c).st = .draining))
    ∧ (c ≤ 1023 → X.st = .running → exec (.ctxevict x) s = .next (answered s s x 2))
    ∧ (c ≤ 1023 → X.st = .bound ∨ X.st = .stopped → exec (.ctxevict x) s = .next (answered s (s.evictImages c) x 0))
    ∧ (c ≤ 1023 → X.st = .running → X.waiters = [] → exec (.ctxstart x) s = .next (answered s s x 0))
    ∧ (c ≤ 1023 → X.st = .running → X.waiters ≠ [] → exec (.ctxstart x) s = .next (s.setLeaf { s.leaf with committed := some c }).markWaiting.settle))

/-- partbind of a FREE, BOUND or STOPPED context to a current partition, and ctxstart of a BOUND or STOPPED one, whose descriptor reads well: the descriptor is taken, the state is BOUND with the node, or RUNNING, and DONE; the images of a STOPPED context go out first, and a move to another node retires every ring, those declared among saved words too, saves what was held in place and deals the ready list anew (R145, R367, Table 13-11). ctxstop of a RUNNING context requests the stop and waits for its completion, which answers DONE, KILLED when a kill came between; of another it answers by the state (R145, R146). -/
def Obligations.BindStartAndStop : Prop :=
  (∀ (x : Args) (s t : State) (d : Nat) (desc : CtxDesc), dccIssues s x d →
    let c := (srcOf x s false x.a).1
    let n := (srcOf x s false x.b).1
    let X := s.ctx c
    let t1 := if X.st = .stopped then t.evictImages c else t
    let t2 := if X.st ≠ .free ∧ X.node ≠ n then ((t1.retireRings c).retireSaved c).saveHeld c else t1
    c ≤ 1023 → readDesc d c s = .ok (.ok desc) t →
    (1 ≤ n → n ≤ 127 → n ∈ s.parts → X.st = .free →
      exec (.partbind x) s = .next (answered s (t.setCtx c { Ctx.free with st := .bound, node := n, desc := desc }) x 0))
    ∧ (1 ≤ n → n ≤ 127 → n ∈ s.parts → X.st = .bound ∨ X.st = .stopped →
      exec (.partbind x) s = .next (answered s (t2.setCtx c { t2.ctx c with
        st := .bound, node := n, desc := desc, alive := none
        ready := if X.node = n then (t2.ctx c).ready else dealReady n (t2.ctx c).ready }) x 0))
    ∧ (X.st = .bound ∨ X.st = .stopped →
        exec (.ctxstart x) s = .next (answered s (t.setCtx c { t.ctx c with st := .running, desc := desc }) x 0)))
  ∧ (∀ (x : Args) (s : State) (d : Nat), dccIssues s x d →
    let c := (srcOf x s false x.a).1
    let X := s.ctx c
    let rest (t : State) : State := t.setDcc d { (t.die d).dcc with stopRes := none }
    let u := (rest s).pendStop c Stop.request
    let v := (u.setCtx c { u.ctx c with waiters := d :: (u.ctx c).waiters.filter (· ≠ d) }).completeStop c
    let w := v.setLeaf { v.leaf with committed := some c }
    let ends (t : State) : Prop :=
      ((t.die d).dcc.stopRes = none → exec (.ctxstop x) s = .next t.markWaiting.settle)
      ∧ ∀ r, (t.die d).dcc.stopRes = some r → exec (.ctxstop x) s = .next (answered s (rest t) x (if r = 6 then 6 else 0))
    c ≤ 1023 →
    (s.leaf.committed ≠ some c →
      (X.st = .bound ∨ X.st = .stopped → exec (.ctxstop x) s = .next (answered s s x 0))
      ∧ (X.st = .free → exec (.ctxstop x) s = .next (answered s s x 1))
      ∧ (X.st = .draining → exec (.ctxstop x) s = .next (answered s s x 2))
      ∧ (X.st = .running → ends w))
    ∧ (s.leaf.committed = some c → ends s))
  ∧ (∀ (s : State) (c status d : Nat), d ∈ (s.ctx c).waiters →
    ((s.wakeStops c status).die d).dcc.stopRes = some status ∧ ((s.wakeStops c status).ctx c).waiters = [])

/-! ## The box and its terminals -/

/-- The executing leaf holds box b, and the guard of x is true. -/
def holdsBox (s : State) (x : Args) (b : BoxView) : Prop :=
  s.on ∧ s.leaf.active x.guard = true ∧ s.boxView = some b

/-- The midpoint of a split cuts a box of n ≥ 2 grains after the greatest power of two of grains that is below n, so both halves hold a grain; a box of one grain on the axis is not split: `split` traps BOX_UNSPLIT (R18, R150). -/
def Obligations.CanonicalMidpoint : Prop :=
  (∀ lo hi g : Nat, 1 ≤ g → lo + g < hi →
    let n := (hi - lo + g - 1) / g
    ∃ k, 2 ^ k < n ∧ n ≤ 2 ^ (k + 1) ∧ canonicalMid lo hi g = lo + 2 ^ k * g
      ∧ lo < canonicalMid lo hi g ∧ canonicalMid lo hi g < hi)
  ∧ ∀ (x : Args) (s : State) (b : BoxView), holdsBox s x b → (axisOf x).val ≤ b.r.rankM1 → s.leaf.inJoin = false → b.r.walk = false →
      b.grains (axisOf x) ≤ 1 → exec (.split x) s = .next (s.takeTrap { cause := .boxUnsplit }).settle

/-- What every end of a box waits for has come (R158, R227): copies into the allocation drained, matrix jobs complete with no fault to report, and no other endpoint left at a ring of its own; `t` is the state when its endpoints have detached. -/
def readyToEnd (s t : State) (b : BoxView) (abnormal : Bool) : Prop :=
  s.scratchBusy b.core b.slot = false ∧ s.leaf.mxFault = [] ∧ s.mxBusy none = false
    ∧ s.ringAwaited b.c s.leaf = false ∧ t = s.detachRings b.c s.leaf.entry abnormal

/-- A child of a split (R25, R150): its box is [lo, hi), its parent and its side are set, rule, rank, features and replay are the parent's, its view table is that of its record, and it starts blank. -/
def childOf (b : BoxView) (x : Ctx) (parent i : Nat) (lo hi : Vector (BitVec 32) 4) (side : Bool) (k : Rec) : Prop :=
  k.lo = lo ∧ k.hi = hi ∧ k.parent = parent ∧ k.side = side ∧ k.rule = b.r.rule ∧ k.rankM1 = b.r.rankM1 ∧ k.feat = b.r.feat
    ∧ k.replay = b.r.replay ∧ k.views = x.viewsAddr i ∧ k.sticky = 0 ∧ k.pend = 0 ∧ k.walk = false ∧ k.taint = false ∧ k.chunks = []

/-- split, and fit on the axis of a reduction, of a box that can be split, with two free records, a core that takes the right child, no reply open and nothing to wait for: the splitting step is taken (R150, R375); fit takes it too where the box exceeds its budget or a core is idle (R154, R155). fit declines, and moves on once no matrix job is waited for and no fault deferred (R277), where the box is walked or a single grain, where its leaf holds a ring endpoint or no record pair is free, and where the box fits its budget and no core is idle (R153, R154, R155), what it decides being kept over a wait. walk of an axis that is not walked marks it in the record (R156), and, as a terminal, discards the call stack and is a stop point (the model's readings, log 66). In a launch that has been aborted or has failed, each of the three ends the box, even where fit or walk would only move on (R29): the model's choice (log 46), since R153 and R156 hold no such check. What the splitting step leaves, outside a cohort (R25, R148, R150): the record waits for two, its flags ORed, its views kept apart; its children have the two parts of the box, cut at the canonical midpoint; with no stop pending the right one is the newest of the core's deque, and the left one runs in the slot from a clean entry with no flag set; with one, both are the newest, the left first, and the slot is free, DROP_MAG added to the context's total (the model's choice, log 60). -/
def Obligations.SplitFitAndWalk : Prop :=
  (∀ (x : Args) (s t : State) (b : BoxView) (li ri : Nat) (co : Option (Nat × Nat)), holdsBox s x b →
    let j := axisOf x
    j.val ≤ b.r.rankM1 → s.leaf.inJoin = false → b.r.walk = false → 2 ≤ b.grains j → b.l.dead = false →
    s.poolPair b.c = some (li, ri) → s.canTake b = true →
    (b.ru.cohort = true → s.cohortSlot b = co ∧ co ≠ none) → (b.ru.cohort = false → co = none) →
    s.leaf.repliesOpen = false → readyToEnd s t b false →
    exec (.split x) s = .next (t.splitBox b j li ri co).settle
    ∧ (b.ru.red = some j.val ∨ s.leaf.fitting = some true
        ∨ (s.leaf.fitting = none ∧ s.holdsRing = false ∧ (b.budget < b.footprint ∨ s.idleDemand b = true)) →
        exec (.fit x) s = .next (t.splitBox b j li ri co).settle))
  ∧ (∀ (x : Args) (s : State) (b : BoxView), holdsBox s x b →
    let j := axisOf x
    let settled : Prop := s.leaf.mxFault = [] ∧ s.mxBusy none = false
    j.val ≤ b.r.rankM1 → s.leaf.inJoin = false →
    (b.l.dead = false →
      ((b.r.walk = true ∨ b.grains j ≤ 1 ∨ (b.ru.red ≠ some j.val ∧ (s.leaf.fitting = some false ∨ (s.leaf.fitting = none ∧
            (s.holdsRing = true ∨ s.poolPair b.c = none ∨ (b.footprint ≤ b.budget ∧ s.idleDemand b = false)))))) →
        (settled → exec (.fit x) s = .next (s.setLeaf ({ s.leaf with fitting := none } : Leaf).advance).settle)
        ∧ (s.leaf.mxFault = [] → s.mxBusy none = true → b.r.walk = false → 2 ≤ b.grains j →
            exec (.fit x) s = .next (s.setLeaf { s.leaf with fitting := some false }).markWaiting.settle))
      ∧ (b.r.walk = false → settled → exec (.walk x) s =
          .next (let v := s.setRec b.c s.leaf.recIdx { b.r with walk := true, waxis := j.val }
            let w := v.setLeaf ({ v.leaf with calls := [] } : Leaf).advance
            if s.myCtx.stop.isSome = true ∧ s.leaf.msg = none then w.stopLeaf b.core b.slot (s.leaf.pc + 16) else w).settle)
      ∧ (b.r.walk = true → b.r.waxis = j.val → settled → exec (.walk x) s =
          .next (s.setLeaf ({ s.leaf with fitting := none } : Leaf).advance).settle))
    ∧ (∀ t, b.l.dead = true → readyToEnd s t b true →
      exec (.fit x) s = .next (t.endBox b.core b.slot false false).settle
      ∧ (b.r.walk = false ∨ b.r.waxis = j.val → exec (.walk x) s = .next (t.endBox b.core b.slot false false).settle)
      ∧ (b.r.walk = false → 2 ≤ b.grains j → exec (.split x) s = .next (t.endBox b.core b.slot false false).settle)))
  ∧ (∀ (s : State) (b : BoxView) (j : Fin 4) (li ri : Nat), s.boxView = some b → li ≠ ri → li ≠ s.leaf.recIdx → ri ≠ s.leaf.recIdx →
    let L := s.leaf
    let X := s.ctx b.c
    let t := s.splitBox b j li ri none
    let Y := t.ctx b.c
    let mid : BitVec 32 := BitVec.ofNat 32 (canonicalMid b.r.lo[j].toNat b.r.hi[j].toNat b.ru.grain[j])
    let old := tget [] X.deques b.core
    ∃ left right, Y.record li = some left ∧ Y.record ri = some right
      ∧ childOf b X L.recIdx li b.r.lo (b.r.hi.set j mid) false left
      ∧ childOf b X L.recIdx ri (b.r.lo.set j mid) b.r.hi true right ∧ right.st = RecSt.ready
      ∧ Y.record L.recIdx = some { b.r with st := RecSt.waiting, pend := 2, sticky := b.r.sticky ||| L.flags, pre := b.r.chunks, chunks := [], snap := none
                                            children := some (⟨li, false⟩, ⟨ri, false⟩) }
      ∧ (∀ i, i ≠ L.recIdx → i ≠ li → i ≠ ri → Y.record i = X.record i)
      ∧ (X.stop = none → left.st = RecSt.running ∧ left.core = b.core ∧ left.slot = b.slot ∧ Y.drop = X.drop
          ∧ Y.deques = tset X.deques b.core (ri :: old)
          ∧ ∃ n, t.leaf = ({ L with flags := 0 }).cleanEntry b.c li L.img n (b.l.pcOf b.ru.entry) false)
      ∧ (X.stop ≠ none → left.st = RecSt.ready ∧ Y.drop = X.drop + L.dropMag ∧ Y.deques = tset X.deques b.core (li :: ri :: old)
          ∧ t.leafAt b.core b.slot = Leaf.idle))

/-- The terminals with nothing to wait for: done and prune end the box, the latter without its views; prune.mag first adds sA to DROP_MAG; abort, which waits for no matrix job, fails the launch with its code and ends the box; done of a walk with a grain left takes the next grain instead (R157, R158, R159, R160). What the end of a box that is not the root's leaves (R26, R158): DROP_MAG joins the context's total; the parent, as the pool holds it once the carried set is released, waits for one child less, with the box's flags and taint, and where that was the last it is JOINING on the core that ended it; the slot is free before that; a pruned box keeps only the views from before its split, and one with none gives its record back. The root's end with no view to merge marks the launch as over (R30). A dead launch discards the box (R29). What the pool holds of a waiting record, PEND, STICKY and TAINT with it, is what the Nest takes (R31); that it is read again at a child's end is the model's choice (log 46). The next grain of a walk moves only LO, the PC and the call stack (R157). Of a launch that fails no READY record, merge or matrix job is left, and a later abort or failure of it changes nothing (R29, R160, R283); that the first stands, be it an abort or a failure, is the model's choice (log 46). -/
def Obligations.TerminalsComplete : Prop :=
  (∀ (x : Args) (s t : State) (b : BoxView), holdsBox s x b →
    let ax := Fin.ofNat 4 b.r.waxis
    let next := b.r.lo[ax].toNat + b.ru.grain[ax]
    let more := b.r.walk = true ∧ s.leaf.inJoin = false ∧ b.l.dead = false ∧ next < b.r.hi[ax].toNat
    (more → s.leaf.mxFault = [] → s.mxBusy none = false →
      exec (.done x) s = .next (s.nextGrain b (BitVec.ofNat 32 next)).settle)
    ∧ (¬ more → readyToEnd s t b b.l.dead → exec (.done x) s = .next (t.endBox b.core b.slot false false).settle)
    ∧ (readyToEnd s t b b.l.dead → exec (.prune x) s = .next (t.endBox b.core b.slot true false).settle)
    ∧ (readyToEnd s t b b.l.dead →
        exec (.pruneMag x) s = .next ((t.setLeaf { t.leaf with dropMag := t.leaf.dropMag + BitVec.ofNat 64 (srcOf x s false x.a).1 }).endBox
          b.core b.slot true (srcOf x s false x.a).2).settle)
    ∧ (s.scratchBusy b.core b.slot = false → s.ringAwaited b.c s.leaf = false → t = s.detachRings b.c s.leaf.entry true →
        let u := (t.parkJobs b.core t.leaf).1
        let v := u.setRec b.c u.leaf.recIdx { (((u.ctx b.c).record u.leaf.recIdx).getD b.r) with st := .failed }
        exec (.abort x) s = .next ((v.failLaunch b.c (some (field x.imm.toNat 0 16)) none).endBox b.core b.slot false false).settle))
  ∧ (∀ (s : State) (core slot : Nat) (pruned dt : Bool) (l : Launch) (r : Rec),
    let L := s.leafAt core slot
    let X := s.ctx L.ctx
    let t := s.endBox core slot pruned dt
    let Y := t.ctx L.ctx
    X.launch = some l → X.record L.recIdx = some r →
    let u := s.keepOwn L.ctx L.entry
    let w := (u.setCtx L.ctx { u.ctx L.ctx with drop := X.drop + L.dropMag, dropTaint := X.dropTaint || dt }).release core L.ctx
      (X.ruleOf r.rule) 3 false
    (L.recIdx ≠ 0 → Y.drop = X.drop + L.dropMag ∧ Y.dropTaint = (X.dropTaint || dt))
    ∧ (L.recIdx ≠ 0 → l.dead = true → Y.record L.recIdx = none ∧ t.leafAt core slot = Leaf.idle)
    ∧ (∀ p, L.recIdx ≠ 0 → l.dead = false → ((w.refresh L.ctx r.parent).ctx L.ctx).record r.parent = some p → r.parent ≠ L.recIdx →
      let views := if pruned = true then r.pre else r.chunks
      ∃ q, Y.record r.parent = some q ∧ q.sticky = p.sticky ||| (r.sticky ||| L.flags) ∧ q.taint = (p.taint || r.taint) ∧ q.pend = p.pend - 1
        ∧ (2 ≤ p.pend → q.st = p.st ∧ t.leafAt core slot = Leaf.idle)
        ∧ (p.pend ≤ 1 → q.st = RecSt.joining ∧ q.core = core ∧ q.slot = slot)
        ∧ (pruned = true ∧ views = [] → Y.record L.recIdx = none)
        ∧ (pruned = false ∨ views ≠ [] → ∃ z, Y.record L.recIdx = some z ∧ z.st = RecSt.waiting ∧ z.sticky = r.sticky ||| L.flags ∧ z.chunks = views))
    ∧ (L.recIdx = 0 → l.dead = false → pruned = false → r.chunks = [] → (∀ ru, l.rules[r.rule]? = some ru → ∀ p ∈ ru.ports, p.kind ≠ 2) →
      Y.launch = some { l with ended := true } ∧ t.leafAt core slot = Leaf.idle ∧ Y.drop = X.drop + L.dropMag))
  ∧ (∀ (s u : State) (c i : Nat) (r q : Rec) (n : Nat), (s.ctx c).record i = some r → readRecord c i s = .ok (q, n) u →
    ((s.refresh c i).ctx c).record i = some q ∧ q.pend = field n 0x140 2 ∧ q.sticky = BitVec.ofNat 6 (field n 0x158 8)
      ∧ q.taint = (field n 0x150 8).testBit 3 ∧ q.parent = field n 0x120 32 ∧ q.rule = field n 0x100 32 ∧ q.st = r.st ∧ q.chunks = r.chunks)
  ∧ (∀ (s : State) (b : BoxView) (lo : BitVec 32), s.boxView = some b → s.myCtx.stop = none →
    let t := s.nextGrain b lo
    t.leaf = { s.leaf with pc := b.l.pcOf b.ru.entry, calls := [] }
      ∧ (t.ctx b.c).record s.leaf.recIdx = some { b.r with lo := b.r.lo.set (Fin.ofNat 4 b.r.waxis) lo }
      ∧ ∀ i, i ≠ s.leaf.recIdx → (t.ctx b.c).record i = (s.ctx b.c).record i)
  ∧ (∀ (s : State) (c : Nat) (code : Option Nat) (cause : Option Cause) (l : Launch), (s.ctx c).launch = some l →
    let t := s.failLaunch c code cause
    let Y := t.ctx c
    (l.dead = true → t = s)
    ∧ (l.dead = false → Y.launch = some { l with abort := code, fail := cause }
      ∧ Y.deques = [] ∧ Y.ready = [] ∧ Y.joining = [] ∧ (∀ i r, i ≠ 0 → Y.record i = some r → r.st ≠ RecSt.ready)
      ∧ ∀ core, ∀ j ∈ (t.core core).mxq, j.ctx ≠ c))

/-! ## Ports and capabilities -/

/-- port gives a field of the binding of its port (Table 5-5), or, tainted, whether stores to the region are admitted: 1 for an open port, else by its region's OPEN or HOLDER, and 0, with no fault, where the region is not found; vwaddr gives the view address of an address in a view port (R167, R169). The region of BASE is the entry that its page names: where the page does not translate, the cause is that of the walk, and where the entry is not valid REGION_UNDEF (the model's reading for all but port.cap, log 37). capgive by the holder of a region to a live context of the same tenant: the entry is pending for the receiver, the offer is noted, from a receiver that is DRAINING it returns at once (the model's reading of R174, log 37), and the stores to the region are released; by another CAP_ABSENT, to another receiver CAP_TARGET; captake of a region that is offered, or held already: the taker is the holder and its copies are dropped; both are PORT_KIND on a view or open port and take the fault of the region (R168, R173, R174). -/
def Obligations.PortsAndCapabilities : Prop :=
  (∀ (x : Args) (s : State) (b : BoxView) (p : Port), holdsBox s x b → b.ru.ports[portNo x]? = some p →
    let f := field x.imm.toNat 44 4
    let a := srcOf x s true x.a
    (f ≠ 8 → exec (.port x) s = .next (s.setLeaf (s.leaf.writeS x.d.sreg (match f with
        | 0 => BitVec.ofNat 64 p.base
        | 1 => BitVec.ofNat 64 (p.kind + 16 * (if p.kind = 2 then p.op else 0) + 256 * p.ety)
        | 2 => BitVec.ofNat 64 p.esize
        | 3 => p.str[0] | 4 => p.str[1] | 5 => p.str[2] | 6 => p.str[3]
        | _ => BitVec.ofNat 64 p.bytes) (s.leaf.ctlT x.guard)).advance).settle)
    ∧ (f = 8 → p.kind = 3 → exec (.port x) s =
        .next ((s.countTaint b.c 1).setLeaf ((s.countTaint b.c 1).leaf.putS x 1 true).advance).settle)
    ∧ (p.kind = 2 → p.base ≤ a.1 → a.1 < p.base + p.bytes → exec (.vwaddr x) s =
        .next (s.setLeaf (s.leaf.writeS x.d.sreg (BitVec.ofNat 64 (0xFFF000000000 + portNo x * 2 ^ 31 + (a.1 - p.base)))
          (a.2 || s.leaf.ctlT x.guard)).advance).settle)
    ∧ (p.kind ≠ 2 → exec (.vwaddr x) s = .next (s.takeTrap { cause := .portKind }).settle)
    ∧ (p.kind = 2 → a.1 < p.base ∨ p.base + p.bytes ≤ a.1 → exec (.vwaddr x) s = .next (s.takeTrap { cause := .portRange }).settle))
  ∧ (∀ (x : Args) (s u v : State) (b : BoxView) (p : Port) (regAddr r : Nat), holdsBox s x b → b.ru.ports[portNo x]? = some p →
    let reg := regionAt s.who b.c p.base
    let capIs (w : State) (n : Nat) : Prop := field x.imm.toNat 44 4 = 8 → p.kind ≠ 3 →
      exec (.port x) s = .next ((w.countTaint b.c 1).setLeaf ((w.countTaint b.c 1).leaf.putS x (BitVec.ofNat 64 n) true).advance).settle
    (reg s = .ok (regAddr, r) u → capIs u (if r.testBit 8 = true ∨ regCtx (field r 16 16) = some b.c then 1 else 0))
    ∧ (∀ t, reg s = .error (.trap t) u → capIs u 0
      ∧ (p.kind ≠ 2 → p.kind ≠ 3 → ∀ i ∈ [Instr.capgive x, .captake x], exec i s = .next (u.takeTrap t).settle))
    ∧ (p.kind = 2 ∨ p.kind = 3 → ∀ i ∈ [Instr.capgive x, .captake x], exec i s = .next (s.takeTrap { cause := .portKind }).settle)
    ∧ (p.kind ≠ 2 → p.kind ≠ 3 → reg s = .ok (regAddr, r) u →
      let rcv := (srcOf x s true x.a).1
      let gives := rcv ≤ 1023 ∧ (s.ctx rcv).st ≠ .free ∧ s.tenantOf rcv = s.tenantOf b.c
      let marked (w : State) : State := w.setLeaf { w.leaf with noReplay := true }
      let fin (w : State) : Host.Outcome State Fault Refusal := .next (w.setLeaf w.leaf.advance).settle
      (regCtx (field r 16 16) = some b.c → gives → rcv ≠ b.c → setCapability b.c regAddr 0x8000 rcv u = .ok () v →
        let o : State := { v with offers := tset v.offers regAddr b.c }
        let w := marked (if (s.ctx rcv).st = .draining then o.clearOffers rcv else o)
        exec (.capgive x) s = fin (w.releaseRegion b.c (w.ridxOf b.c regAddr)))
      ∧ (regCtx (field r 16 16) = some b.c → gives → rcv = b.c →
        exec (.capgive x) s = fin ((marked u).releaseRegion b.c ((marked u).ridxOf b.c regAddr)))
      ∧ (regCtx (field r 16 16) ≠ some b.c → exec (.capgive x) s = .next (u.takeTrap { cause := .capAbsent }).settle)
      ∧ (regCtx (field r 16 16) = some b.c → ¬ gives → exec (.capgive x) s = .next (u.takeTrap { cause := .capTarget }).settle)
      ∧ (regCtx (field r 16 16) = some b.c → exec (.captake x) s = fin ((marked u).acquireRegion b.c ((marked u).ridxOf b.c regAddr)))
      ∧ (regCtx (field r 16 16) ≠ some b.c → regCtx (field r 32 16) = some b.c → setCapability b.c regAddr b.c 0x8000 u = .ok () v →
        let o := marked { v with offers := terase v.offers regAddr }
        exec (.captake x) s = fin (o.acquireRegion b.c (o.ridxOf b.c regAddr)))
      ∧ (regCtx (field r 16 16) ≠ some b.c → regCtx (field r 32 16) ≠ some b.c → exec (.captake x) s = .next u.markWaiting.settle)))
  ∧ (∀ (w : Who) (c va r : Nat) (s u v : State) (y : Xlat),
    let addr := (u.ctx c).desc.regtab + 16 * field y.pte.toNat 52 12
    let no (k : Cause) (t : State) : Prop := regionAt w c va s = .error (.trap { cause := k, addr := va }) t
    (inWindow va = true → no .xlatInvalid s)
    ∧ (inWindow va = false → (∀ e, lookup w c va s = .error e u → regionAt w c va s = .error e u)
      ∧ (lookup w c va s = .ok y u → atAddr va (homeQuad { w with slot := 0 } tableAttr addr) u = .ok r v →
        (r.testBit 15 = false → no .regionUndef v) ∧ (r.testBit 15 = true → regionAt w c va s = .ok (addr, r) v))))

/-! ## Loads, stores and memory -/

/-- Byte y of the scratchpad of a core. -/
def scrByte (s : State) (core y : Nat) : Nat := elem 8 (y % 4) (s.scrWord core (y / 4)).val.toNat

/-- ld and st at a local-alias address of the leaf's own allocation (R51, R177, R178, R186): the load gives the bytes there, little-endian, by the element type, with their taint and the address's; the store changes exactly the bytes at A + B, keeps every word state, and taints the words it touches. `u` is what the ordering modifier leaves. -/
def Obligations.ScratchpadLoadAndStore : Prop :=
  ∀ (x : Args) (s u : State) (core slot : Nat), s.on → s.cur = .leaf core slot → coreIsString core = false → s.leaf.active x.guard = true →
    let ea := (eaOf x s).1
    let off := ea - 0xFFFE00000000
    let n := etyBits x.ety / 8
    let base := slot * 0x40000 + off
    let c := srcOf x s true x.c
    let tt := (eaOf x s).2 || c.2 || s.leaf.ctlT x.guard
    0xFFFE00000000 ≤ ea → off < 0x40000 → off < s.myCtx.scratchOf (s.leafAt core slot).recIdx → ea % n = 0 →
    (ordAfter x s = .ok () u → ∃ r,
      exec (.ld x) s = .next (u.setLeaf (u.leaf.putS x (etyExt x.ety r)
        (((List.range n).any fun k => (s.scrWord core ((base + k) / 4)).taint) || (eaOf x s).2)).advance).settle
      ∧ r < 2 ^ (8 * n) ∧ ∀ k, k < n → elem 8 k r = scrByte s core (base + k))
    ∧ (ordBefore x s = .ok () u → ∃ t,
      exec (.st x) s = .next (t.setLeaf t.leaf.advance).settle ∧ t.leaf = u.leaf ∧ sameBytes u t
      ∧ (∀ y, scrByte t core y = if base ≤ y ∧ y < base + n then elem 8 (y - base) c.1 else scrByte u core y)
      ∧ (∀ i, (t.scrWord core i).st = (u.scrWord core i).st
          ∧ (t.scrWord core i).taint =
            if base ≤ 4 * i ∧ 4 * i + 4 ≤ base + n then tt
            else if 4 * i < base + n ∧ base < 4 * i + 4 then tt || (u.scrWord core i).taint else (u.scrWord core i).taint)
      ∧ ∀ k, k ≠ core → t.core k = u.core k)

/-- The checks of one element in their order (R178): an address past 48 bits is ADDR_NONCANON and a misaligned one ADDR_ALIGN, whatever it names; then, with nothing changed, those of a supervisor, of the two scratchpad windows (R51, R312, R314), where one on a die whose link is lost is HOME_UNREACHABLE (R398), and of the view aperture (R168, R169). That an access of less than a quad to the control space is ADDR_ALIGN, and a word-state operation of a control core WS_SPACE at any address, is the model's reading (log 24). Elsewhere the translation, for a store the capability (R172), and of what lies behind a CXL port that is down CXL_DOWN, in a cache too (R310); its place in the order is the model's (log 72). -/
def elementChecks : Prop :=
  ∀ (a : Actor) (ea n : Nat) (k : Kind) (s : State),
    let no (c : Cause) : Prop := checkAccess a ea n k s = .error (.trap { cause := c, addr := ea }) s
    let acc : Acc := match k with | .load => .load | .atom => .atom | _ => .store
    let off := ea % 2 ^ 20
    let sel := field ea 20 3
    let num := field ea 23 7
    (2 ^ 48 ≤ ea → ea < 2 ^ 64 → no .addrNoncanon)
    ∧ (ea < 2 ^ 48 → ea % n ≠ 0 → no .addrAlign)
    ∧ (ea < 2 ^ 48 → ea % n = 0 → a.who.sup = true → a.who.dom = none →
      (k = .ws → no .wsSpace)
      ∧ (k ≠ .ws → (∀ c, s.svAddr ea acc = .error c → no c)
        ∧ ∀ pa, s.svAddr ea acc = .ok pa →
          (isControl pa = true → (n ≠ 8 → no .addrAlign) ∧ (n = 8 → k = .atom → no .atomSpace)
            ∧ (n = 8 → k ≠ .atom → checkAccess a ea n k s = .ok (.ctl pa) s))
          ∧ (isControl pa = false → (s.homeOf pa = Home.none → no .xlatPaRange)
            ∧ (s.homeOf pa ≠ Home.none → checkAccess a ea n k s = .ok (.sv pa (a.hint / 4)) s))))
    ∧ (ea < 2 ^ 48 → ea % n = 0 → ¬ (a.who.sup = true ∧ a.who.dom = none) →
      (field ea 32 16 = 0xFFFE →
        let size := (s.ctx a.ctx).scratchOf (s.leafAt a.who.core a.slot).recIdx
        (field ea 20 12 ≠ 0 ∨ coreIsString a.who.core = true ∨ size ≤ off → no .scrAddrBad)
        ∧ (field ea 20 12 = 0 → coreIsString a.who.core = false → off < size →
          (k = .atom → no .atomSpace)
          ∧ (k ≠ .atom → s.linkLost a.who.die (coreDie a.who.core) = true → no .homeUnreachable)
          ∧ (k ≠ .atom → s.linkLost a.who.die (coreDie a.who.core) = false →
            checkAccess a ea n k s = .ok (.scr a.who.core (a.slot * 0x40000 + off)) s)))
      ∧ (field ea 32 16 = 0xFFFF →
        let core := if sel = 0 then computeCore (field ea 30 2) num else stringCore (field ea 30 2) num
        (1 < sel ∨ (sel = 1 ∧ (31 < num ∨ 0x80000 ≤ off)) → no .scrAddrBad)
        ∧ (sel = 0 ∨ (sel = 1 ∧ num ≤ 31 ∧ off < 0x80000) →
          (coreIn (s.ctx a.ctx).node core = false → no .scrOutOfPart)
          ∧ (coreIn (s.ctx a.ctx).node core = true → s.inAlloc core a.ctx off = false → no .scrAddrBad)
          ∧ (coreIn (s.ctx a.ctx).node core = true → s.inAlloc core a.ctx off = true →
            (k = .atom → no .atomSpace)
            ∧ (k ≠ .atom → s.linkLost a.who.die (coreDie core) = true → no .homeUnreachable)
            ∧ (k ≠ .atom → s.linkLost a.who.die (coreDie core) = false → checkAccess a ea n k s = .ok (.scr core off) s))))
      ∧ (0xFFF000000000 ≤ ea → ea ≤ 0xFFF7FFFFFFFF →
        let v := (ea - 0xFFF000000000) % 2 ^ 31
        let port := (((s.viewRec a.ctx a.box).bind fun r => (s.ctx a.ctx).ruleOf r.rule).bind fun r => r.ports[(ea - 0xFFF000000000) / 2 ^ 31]?)
        (k = .ws ∨ k = .atom → no .portKind)
        ∧ (k = .load ∨ k = .store → (port = none → no .portKind)
          ∧ ∀ p, port = some p → (p.kind ≠ 2 → no .portKind) ∧ (p.kind = 2 → p.bytes < v + n → no .portRange)
            ∧ (p.kind = 2 → v + n ≤ p.bytes → ∀ ch t,
                chunkOpen a.who.die a.ctx a.box (chunkKey ((ea - 0xFFF000000000) / 2 ^ 31) v) p.op (decide (k = .store)) s = .ok ch t →
                checkAccess a ea n k s = .ok (.view ((ea - 0xFFF000000000) / 2 ^ 31) v p.op) t)))
      ∧ (inWindow ea = false →
        (k = .ws → no .wsSpace)
        ∧ (k ≠ .ws → (∀ e t, translate a.who a.ctx ea acc s = .error e t → checkAccess a ea n k s = .error e t)
          ∧ ∀ tr t, translate a.who a.ctx ea acc s = .ok tr t →
            (k ≠ .load → tr.isOpen = false → tr.holder ≠ some a.ctx →
              checkAccess a ea n k s = .error (.trap { cause := .capAbsent, addr := ea }) t)
            ∧ (k = .load ∨ tr.isOpen = true ∨ tr.holder = some a.ctx → t.cxlGone tr.pa = true →
              checkAccess a ea n k s = .error (.trap { cause := .cxlDown, addr := ea }) t)
            ∧ (k = .load ∨ tr.isOpen = true ∨ tr.holder = some a.ctx → t.cxlGone tr.pa = false →
              checkAccess a ea n k s = .ok (.mem { tr with attr := { tr.attr with hint := a.hint / 4, hintL1 := a.hint % 4 } }) t))))

/-- Translation of one address (R322, R323, R326, R341). A level of the walk: an entry that cannot be read is XLAT_WALK_SEAL, one with V = 0 XLAT_INVALID, a reserved bit set, a leaf at level 0, a misaligned leaf or a table at level 3 XLAT_RSVD; a leaf answers, and a table is walked at the next level. With the leaf entry found: the permission, a PA that names nothing, a format window that is not read, and the region's entry, in that order; the PA has the offset of the leaf's size. That an address of a window gives XLAT_INVALID with no walk is the model's reading of R51 (log 64). -/
def translationChecks : Prop :=
  (∀ (w : Who) (va fuel lvl t e : Nat) (s u : State), lvl ≤ 3 →
    let quad := homeQuad { w with slot := 0 } tableAttr (t + 8 * (match lvl with | 0 => field va 39 9 | 1 => field va 30 9 | 2 => field va 21 9 | _ => field va 16 5))
    let no (c : Cause) : Prop := walk w va (fuel + 1) lvl t s = .error (.trap { cause := c, addr := va }) u
    let size := match lvl with | 1 => 2 ^ 30 | 2 => 2 ^ 21 | _ => 2 ^ 16
    let leaf := e.testBit 1 = true
    let rsvd := field e 10 2 ≠ 0 ∨ e.testBit 6 = true ∨ e.testBit 2 = true ∨ (leaf ∧ e.testBit 4 = true ∧ e.testBit 3 = false)
      ∨ (¬ leaf ∧ (field e 52 12 ≠ 0 ∨ field e 7 3 ≠ 0 ∨ field e 3 3 ≠ 0))
    (∀ f, quad s = .error (.trap f) u → no .xlatWalkSeal)
    ∧ (quad s = .ok e u →
      (e.testBit 0 = false → no .xlatInvalid)
      ∧ (e.testBit 0 = true → rsvd → no .xlatRsvd)
      ∧ (e.testBit 0 = true → ¬ rsvd → leaf → lvl = 0 ∨ field e 12 40 * 4096 % size ≠ 0 → no .xlatRsvd)
      ∧ (e.testBit 0 = true → ¬ rsvd → leaf → lvl ≠ 0 → field e 12 40 * 4096 % size = 0 → walk w va (fuel + 1) lvl t s = .ok (e, lvl) u)
      ∧ (e.testBit 0 = true → ¬ rsvd → ¬ leaf → lvl = 3 → no .xlatRsvd)
      ∧ (e.testBit 0 = true → ¬ rsvd → ¬ leaf → lvl ≠ 3 →
        walk w va (fuel + 1) lvl t s = walk w va fuel (lvl + 1) (field e 12 40 * 4096) u)))
  ∧ (∀ (w : Who) (ctx va : Nat) (k : Acc) (s u v : State) (x : Xlat) (r : Nat),
    let no (c : Cause) (t : State) : Prop := translate w ctx va k s = .error (.trap { cause := c, addr := va }) t
    let e := x.pte.toNat
    let pa := field e 12 40 * 4096 + va % (match x.level with | 1 => 2 ^ 30 | 2 => 2 ^ 21 | _ => 2 ^ 16)
    let allowed := (e.testBit 9 = true → w.sup = true) ∧ (match k with
      | .load => e.testBit 3 = true
      | .store => e.testBit 4 = true
      | .atom => e.testBit 3 = true ∧ e.testBit 4 = true
      | .fetch => e.testBit 5 = true)
    let reg := (u.ctx ctx).desc.regtab + 16 * field e 52 12
    (inWindow va = true → no .xlatInvalid s)
    ∧ (inWindow va = false → (∀ f, lookup w ctx va s = .error f u → translate w ctx va k s = .error f u)
      ∧ (lookup w ctx va s = .ok x u →
        (¬ allowed → no .xlatPerm u)
        ∧ (allowed → u.homeOf pa = Home.none → no .xlatPaRange u)
        ∧ (allowed → u.isWindow pa = true → k ≠ .load → no .xlatPerm u)
        ∧ (allowed → u.homeOf pa ≠ Home.none → (u.isWindow pa = true → k = .load) →
          atAddr va (homeQuad { w with slot := 0 } tableAttr reg) u = .ok r v →
          (r.testBit 15 = false → no .regionUndef v)
          ∧ (r.testBit 15 = true → ∃ tr, translate w ctx va k s = .ok tr v ∧ tr.pa = pa ∧ tr.isOpen = r.testBit 8
            ∧ tr.holder = regCtx (field r 16 16) ∧ tr.pend = regCtx (field r 32 16) ∧ tr.attr.g512 = e.testBit 7 ∧ tr.attr.anchor = e.testBit 8
            ∧ tr.attr.part = field r 4 4 ∧ tr.attr.cls = field r 0 2)))))

/-- ld and st in general: the checks, then the access with its ordering, then the register or nothing (R181, R186); the checks of an element in their order (R178), and its translation (R322, R323, R326). What a control core's access of less than a quad to the control space, its word-state operations and a fetch in a window report is the model's reading (logs 24, 64). -/
def Obligations.LoadAndStoreComplete : Prop :=
  (∀ (x : Args) (s s1 s2 s3 s4 : State) (tg : Target) (bs : List Byte) (tm : Bool), s.on → s.leaf.active x.guard = true →
    let ea := (eaOf x s).1
    let n := etyBits x.ety / 8
    let c := srcOf x s true x.c
    (checkAccess (s.actorFor x) ea n .load s = .ok tg s1 → loadEl (s.actorFor x) tg ea n (noAlloc x) s1 = .ok (bs, tm) s2 → ordAfter x s2 = .ok () s3 →
      exec (.ld x) s = .next (s3.setLeaf (s3.leaf.putS x (etyExt x.ety (ofBytes bs)) (tm || (eaOf x s).2)).advance).settle)
    ∧ (checkAccess (s.actorFor x) ea n .store s = .ok tg s1 → ordBefore x s1 = .ok () s2 → fillFor (s.actorFor x) tg n (noAlloc x) s2 = .ok () s3 →
      storeEl (s.actorFor x) tg ea (toBytes n c.1) ((eaOf x s).2 || c.2 || s.leaf.ctlT x.guard) (noAlloc x) s3 = .ok () s4 →
      exec (.st x) s = .next (s4.setLeaf s4.leaf.advance).settle)
    ∧ (∀ e, (checkAccess (s.actorFor x) ea n .load s = .error (.trap e) s1 → exec (.ld x) s = .next (s1.takeTrap e).settle)
      ∧ (checkAccess (s.actorFor x) ea n .store s = .error (.trap e) s1 → exec (.st x) s = .next (s1.takeTrap e).settle)))
  ∧ elementChecks ∧ translationChecks

/-- Every line of the granule of an address is whole at the home under a key slot, and the granule is not quarantined. -/
def granuleWhole (s : State) (pa slot : Nat) (g512 : Bool) : Prop :=
  recQ (s.sealRec (granBase pa g512)) = false
    ∧ ∀ k, granBase pa g512 / 128 ≤ k → k < (granBase pa g512 + granSize g512) / 128 →
      ∃ l, tfind s.l2 k = some l ∧ l.present = BitVec.allOnes 128 ∧ l.slot = slot

/-- Where the bytes of a store go. A store that hits its own line of the L1 (R315, R316) changes no byte of a memory, and a load of the line then gives the stored bytes where they were stored and the line's bytes elsewhere. A store with HINT.L1 = 0b11, to a home in LPDDR that admits it and holds the granule whole, changes there exactly the bytes stored; every other byte, of this memory and of the others, is as before (R187, R316). -/
def Obligations.StoreThenLoadInL1 : Prop :=
  (∀ (s : State) (a : Actor) (tr : Tr) (ea : Nat) (bs : List Byte) (taint : Bool) (l : L1Line),
    tr.pa % 128 + bs.length ≤ 128 → tfind (s.core a.who.core).l1 (tr.pa / 128) = some l → l.slot = a.who.slot →
    l.dirty = 0 ∨ l.owner = a.who.owner → (s.core a.who.core).cbuf = [] →
    ∃ t, storeAt a (.mem tr) ea bs taint false s = .ok () t ∧ sameBytes s t
      ∧ ∀ (pa m : Nat), pa / 128 = tr.pa / 128 → pa % 128 + m ≤ 128 → s.isWindow pa = false →
        ∃ data tn u, loadAt a (.mem { tr with pa := pa }) m false t = .ok (data, tn) u ∧ sameBytes s u ∧ data.length = m
          ∧ ∀ i, i < m → (data.getD i 0).toNat =
              if tr.pa ≤ pa + i ∧ pa + i < tr.pa + bs.length then (bs.getD (pa + i - tr.pa) 0).toNat
              else elem 8 (pa % 128 + i) l.data.toNat)
  ∧ (∀ (s : State) (a : Actor) (tr : Tr) (ea d sc o : Nat) (bs : List Byte) (taint : Bool),
    s.homeOf tr.pa = .lpddr d sc o → s.linkLost a.who.die d = false → s.admits (tgtL2 d sc) a.who.id a.who.dom true = true →
    tr.attr.src = AttrSrc.page → s.waysOf d tr.attr.part ≠ 0 → granuleWhole s tr.pa a.who.slot tr.attr.g512 →
    tr.pa % 128 + bs.length ≤ 128 →
    (∀ l, tfind (s.core a.who.core).l1 (tr.pa / 128) = some l → l.dirty = 0 ∨ l.owner = a.who.owner) →
    ∃ t, storeAt a (.mem tr) ea bs taint true s = .ok () t ∧ readBytes t.mem tr.pa bs.length = bs
      ∧ (∀ b, b < tr.pa ∨ tr.pa + bs.length ≤ b → readByte t.mem b = readByte s.mem b)
      ∧ t.dram = s.dram ∧ t.podMem = s.podMem ∧ t.hostMem = s.hostMem)

/-! ## Vector accesses -/

/-- Active elements, below E, of the guard of x. -/
def activeEls (s : State) (x : Args) (E : Nat) : List Nat := actives (s.leaf.guardMask x.guard E) E

/-- The bytes that element i of vC puts at its address, from those there for a 4-bit type, and their taint (R189, R191). -/
def vstData (x : Args) (s : State) (ta : Bool) (ti : Nat → Bool) (i : Nat) : (List Byte → List Byte) × Bool :=
  let v := elem (etyBits x.ety) i (s.leaf.v[x.c.vreg]).toNat
  (fun old =>
    if etyBits x.ety = 4 then toBytes 1 (if i % 2 = 0 then ofBytes old / 16 * 16 + v else ofBytes old % 16 + 16 * v)
    else toBytes (elSize x.ety) v,
   laneTaint (s.leaf.vT[x.c.vreg]) (etyBits x.ety) i || ta || ti i || (s.leaf.guardTaint x.guard).testBit i || s.leaf.ctlTaint)

/-- vld, vld.str and vgath: once every active element is checked and read, vD takes the elements read; an inactive element keeps its own, and past the 64 or 128 elements of vgath the register is cleared. vst, vst.str and vscat: once every active element is checked and stored in increasing number, only the PC moves; where every element lies in a scratchpad the stores do complete, and every byte of memory and of a scratchpad outside the elements stored is as before (R189, R190, R191). That an element's own taint is what taints its words is the model's reading (log 35). -/
def Obligations.VectorLoadsAndStores : Prop :=
  (∀ (x : Args) (s s1 s2 : State) (ts : List (Nat × Nat × Target)) (got : Tbl (Nat × Bool)), s.on →
    let w := etyBits x.ety
    let a := srcOf x s true x.a
    let b := srcOf x s true x.b
    let E := etyCount x.ety
    let G := idxCount x.ety
    ∀ p ∈ [(Instr.vld x, E, contigEls x.ety (eaOf x s).1 (activeEls s x E)),
           (.vldStr x, E, stridedEls a.1 b.1 (activeEls s x E)),
           (.vgath x, G, indexedEls a.1 (modSh x) (s.leaf.v[x.b.vreg]) (activeEls s x G))],
      checkAll x.hint.toNat p.2.2 (elSize x.ety) .load s = .ok ts s1 → loadAll ts (elSize x.ety) (noAlloc x) s1 = .ok got s2 →
      ∃ L, exec p.1 s = .next (s2.setLeaf L).settle ∧ vFrame s2.leaf L (· = x.d.vreg) 0
        ∧ ∀ i, i < 4096 / w → elem w i (L.v[x.d.vreg]).toNat =
            if p.2.1 ≤ i then (if p.1 = .vgath x then 0 else elem w i (s2.leaf.v[x.d.vreg]).toNat)
            else match tfind got i with
              | some (v, _) => if w = 4 then elem 4 (i % 2) v else v % 2 ^ w
              | none => elem w i (s2.leaf.v[x.d.vreg]).toNat)
  ∧ (∀ (x : Args) (s s1 : State) (ts : List (Nat × Nat × Target)), s.on →
    let n := elSize x.ety
    let a := srcOf x s true x.a
    let b := srcOf x s true x.b
    let E := etyCount x.ety
    let G := idxCount x.ety
    ∀ p ∈ [(Instr.vst x, contigEls x.ety (eaOf x s).1 (activeEls s x E), (eaOf x s).2, fun _ => false),
           (.vstStr x, stridedEls a.1 b.1 (activeEls s x E), a.2 || b.2, fun _ => false),
           (.vscat x, indexedEls a.1 (modSh x) (s.leaf.v[x.b.vreg]) (activeEls s x G), a.2, fun i => (s.leaf.vT[x.b.vreg]).getLsbD i)],
      checkAll x.hint.toNat p.2.1 n .store s = .ok ts s1 →
      (∀ s2, storeAll ts n (noAlloc x) (vstData x s p.2.2.1 p.2.2.2) (etyBits x.ety = 4) s1 = .ok () s2 →
        exec p.1 s = .next (s2.setLeaf s2.leaf.advance).settle)
      ∧ ((∀ e ∈ ts, ∃ c off, e.2.2 = .scr c off) → ∃ s2,
        storeAll ts n (noAlloc x) (vstData x s p.2.2.1 p.2.2.2) (etyBits x.ety = 4) s1 = .ok () s2 ∧ sameBytes s1 s2
        ∧ ∀ c y, (∀ e ∈ ts, ∀ off, e.2.2 = .scr c off → y < off ∨ off + n ≤ y) → scrByte s2 c y = scrByte s1 c y))

/-- vldp and vstp act on the sixteen 32-byte pieces from A + B as one element (R263): the store writes vC in plane layout, the load unpacks it into vD. pref moves on whatever its fill does; clean and inval act on the lines of [A, A + B) and trap only past the 48-bit space (R192, R193). That a range past 2^64 does not wrap, and that pages without W are acted on too, are the model's readings (log 57), as is the taint of a store by its own planes or elements (log 35). -/
def Obligations.PlanesAndCacheOperations : Prop :=
  ∀ (x : Args) (s s1 s2 : State), s.on → s.leaf.active x.guard = true →
    let ea := (eaOf x s).1
    let D := etyBits x.ety
    let t0 := (eaOf x s).2 || s.leaf.ctlT x.guard
    let row (r : Nat) : Bool := (rowLanes D r).any fun l => (s.leaf.vT[x.c.vreg]).getLsbD l
    let bs := planeBytes D (s.leaf.v[x.c.vreg]).toNat
    let a := (srcOf x s true x.a).1
    let n := (srcOf x s true x.b).1
    (∀ ts, checkAll x.hint.toNat (planeEls ea) 32 .store s = .ok ts s1 →
      storeAll ts 32 (noAlloc x) (fun i => (fun _ => (bs.drop (32 * i)).take 32, row (i / D) || t0)) false s1 = .ok () s2 →
      exec (.vstp x) s = .next (s2.setLeaf s2.leaf.advance).settle)
    ∧ (∀ ts got, checkAll x.hint.toNat (planeEls ea) 32 .load s = .ok ts s1 → loadAll ts 32 (noAlloc x) s1 = .ok got s2 →
      ∃ L, exec (.vldp x) s = .next (s2.setLeaf L).settle ∧ vFrame s2.leaf L (· = x.d.vreg) 0
        ∧ ∀ i, i < 4096 / D → elem D i (L.v[x.d.vreg]).toNat = planeUnpack D (packElems 256 (got.map fun e => e.2.1)) i % 2 ^ D)
    ∧ (∀ r, attempt (prefetch x (s.actorFor x) ea) s = .ok r s1 → exec (.pref x) s = .next (s1.setLeaf s1.leaf.advance).settle)
    ∧ (n = 0 → ∀ i ∈ [Instr.clean x, .inval x], exec i s = .next (s.setLeaf s.leaf.advance).settle)
    ∧ (n ≠ 0 → 2 ^ 48 < a + n → ∀ i ∈ [Instr.clean x, .inval x],
        exec i s = .next (s.takeTrap { cause := .addrNoncanon, addr := (a + n - 1) % 2 ^ 64 }).settle)
    ∧ (∀ core slot, n ≠ 0 → a + n ≤ 2 ^ 48 → s.cur = .leaf core slot →
        let p := s.rangeLines s.leaf.ctx a (a + n)
        let hint := some (x.hint.toNat / 4)
        let fin (t : State) : Host.Outcome State Fault Refusal := .next (t.setLeaf t.leaf.advance).settle
        exec (.clean x) s = fin (if noAlloc x then s.dropWhere core p hint else s.cleanWhere core p hint)
        ∧ exec (.inval x) s = fin ((s.dropWhere core p hint).dropRdc (coreDie core) p))

/-! ## Word states, atoms, fences -/

/-- The executing leaf with a word-state operation under way (R197). -/
def waitsFor (s : State) (m : WsMsg) : State :=
  let u : State := { s with msgs := tset s.msgs (leafKey m.core m.slot) m }
  u.setLeaf { u.leaf with msg := some (leafKey m.core m.slot) }

/-- The waiting word-state operations at a word of the leaf's own core (R195, R196): a load of a FULL word takes it, ldc leaving EMPTY, a store to an EMPTY word fills it, ste as END; with END and POISON outputs those are cleared; against an EMPTY or a FULL word the leaf waits; an operation at a word of another core travels there as a message; END and POISON go to their outputs, or trap where none is given. fe.set changes the state of a word and nothing else of it; fe.rd gives the state in bits [1:0] and the taint in bit 2, tainted, and counts one tainting event (R198). The model's choices (log 45): a waiting operation stands as a message at the word, one of its own core too; fe.set makes those that wait there look at it again within the same step; and a wait at a word of the leaf's own core sends no message while a stop is pending. An operation at a word of another core sends its message whatever the stop, and with a stop pending the message goes cancelled (R197). -/
def Obligations.WordStateInstructions : Prop :=
  (∀ (x : Args) (s s1 s2 : State) (off : Nat), s.on → s.leaf.active x.guard = true → s.leaf.msg = none →
    let ea := (eaOf x s).1
    let t := (eaOf x s).2 || s.leaf.ctlT x.guard
    let c := srcOf x s true x.c
    let core := s.curCore
    checkAccess s.actor ea 4 .ws s = .ok (.scr core off) s1 → ordBefore x s1 = .ok () s2 → s2.cur = s.cur →
    let i := off / 4
    let w := s2.scrWord core i
    let goes (j : Instr) (w' : ScrWord) (dst endOut : Nat) (res : Option (BitVec 32 × Bool)) (e p : Bool) : Prop :=
      ∀ s3, ordAfter x ((s2.setScrWord core i w').setLeaf
          ((s2.setScrWord core i w').leaf.deliver dst endOut x.e.preg.val x.ety res e p t)) = .ok () s3 →
        exec j s = .next (s3.setLeaf s3.leaf.advance).settle
    let traps (j : Instr) (c : Cause) : Prop := exec j s = .next (s2.takeTrap { cause := c, addr := ea }).settle
    let stays (j : Instr) (op : Nat) : Prop :=
      (s2.myCtx.stop = none → exec j s = .next (waitsFor s2 (wsMsgOf op x s2 core off ea)).markWaiting.settle)
      ∧ (s2.myCtx.stop ≠ none → exec j s = .next s2.markWaiting.settle)
    (w.st = 1#2 →
      goes (.ldw x) w x.d.sreg.val x.c.preg.val (some (w.val, w.taint)) false false
      ∧ goes (.ldc x) { w with st := 0 } x.d.sreg.val x.c.preg.val (some (w.val, w.taint)) false false
      ∧ stays (.stf x) 2 ∧ stays (.ste x) 3)
    ∧ (w.st = 0#2 →
      goes (.stf x) ⟨BitVec.ofNat 32 c.1, 1, c.2 || t⟩ 0 x.d.preg.val none false false
      ∧ goes (.ste x) ⟨BitVec.ofNat 32 c.1, 2, c.2 || t⟩ 0 x.d.preg.val none false false
      ∧ stays (.ldw x) 0 ∧ stays (.ldc x) 1)
    ∧ (w.st = 2#2 →
      (x.c.preg.val ≠ 0 → ∀ j ∈ [Instr.ldw x, .ldc x], goes j w x.d.sreg.val x.c.preg.val (some (w.val, w.taint)) true false)
      ∧ (x.c.preg.val = 0 → ∀ j ∈ [Instr.ldw x, .ldc x], traps j .ringEnd)
      ∧ (x.d.preg.val ≠ 0 → ∀ j ∈ [Instr.stf x, .ste x], goes j w 0 x.d.preg.val none true false)
      ∧ (x.d.preg.val = 0 → ∀ j ∈ [Instr.stf x, .ste x], traps j .ringClosed))
    ∧ (w.st = 3#2 →
      (x.e.preg.val ≠ 0 → (∀ j ∈ [Instr.ldw x, .ldc x], goes j w x.d.sreg.val x.c.preg.val none false true)
        ∧ ∀ j ∈ [Instr.stf x, .ste x], goes j w 0 x.d.preg.val none false true)
      ∧ (x.e.preg.val = 0 → ∀ j ∈ [Instr.ldw x, .ldc x, .stf x, .ste x], traps j .ringPoison)))
  ∧ (∀ (x : Args) (s s1 s2 : State) (core off : Nat), s.on → s.leaf.active x.guard = true → s.leaf.msg = none →
    let ea := (eaOf x s).1
    checkAccess s.actor ea 4 .ws s = .ok (.scr core off) s1 → ordBefore x s1 = .ok () s2 → s2.curCore ≠ core →
    ∀ p ∈ [(Instr.ldw x, 0), (.ldc x, 1), (.stf x, 2), (.ste x, 3)],
      let m := wsMsgOf p.2 x s2 core off ea
      exec p.1 s = .next (waitsFor s2 m).markWaiting.settle
      ∧ m.op = p.2 ∧ m.target = core ∧ m.word = off / 4 ∧ m.addr = ea ∧ m.cancel = s2.myCtx.stop.isSome ∧ m.poisonOut = x.e.preg.val
      ∧ m.endOut = (if p.2 < 2 then x.c.preg.val else x.d.preg.val) ∧ (2 ≤ p.2 → m.value = BitVec.ofNat 32 (srcOf x s2 true x.c).1))
  ∧ (∀ (x : Args) (s s1 : State) (core off : Nat), s.on → s.leaf.active x.guard = true →
    checkAccess s.actor (eaOf x s).1 4 .ws s = .ok (.scr core off) s1 →
    let w := s1.scrWord core (off / 4)
    let t := s1.setScrWord core (off / 4) { w with st := BitVec.ofNat 2 (field x.imm.toNat 40 2) }
    let u := s1.countTaint s1.leaf.ctx 1
    let v := t.serveWord core (off / 4)
    exec (.feSet x) s = .next (v.setLeaf v.leaf.advance).settle
    ∧ ((∀ e ∈ s1.msgs, e.2.target ≠ core ∨ e.2.word ≠ off / 4) → v = t)
    ∧ t.scrWord core (off / 4) = { w with st := BitVec.ofNat 2 (field x.imm.toNat 40 2) }
    ∧ (∀ i, i ≠ off / 4 → t.scrWord core i = s1.scrWord core i)
    ∧ exec (.feRd x) s = .next (u.setLeaf (u.leaf.putS x (BitVec.ofNat 64 (w.st.toNat + 4 * w.taint.toNat)) true).advance).settle)

/-- What AtomStep (R201) makes of the old value of a word of k bits: the sum modulo 2^k, the smaller and the greater by signedness, the bitwise results, the operand, or E where the old value is C; on f32 the sum rounded to nearest even, and minimum and maximum of file 02. -/
def atomGives (op : AtomOp) (ty : Ety) (old c e new : Nat) : Prop :=
  let k := etyBits ty
  let f := fdecode fmtF32
  new < 2 ^ k ∧ match op with
  | .add => new = if ty = .f32 then (fadd fmtF32 .rne false (f old) (f (c % 2 ^ k))).1 else (old + c) % 2 ^ k
  | .min => if ty = .f32 then new = (fminmax fmtF32 false old (c % 2 ^ k) (f old) (f (c % 2 ^ k))).1
      else etyVal ty new = min (etyVal ty old) (etyVal ty c)
  | .max => if ty = .f32 then new = (fminmax fmtF32 true old (c % 2 ^ k) (f old) (f (c % 2 ^ k))).1
      else etyVal ty new = max (etyVal ty old) (etyVal ty c)
  | .and => ∀ j, j < k → new.testBit j = (old.testBit j && c.testBit j)
  | .or => ∀ j, j < k → new.testBit j = (old.testBit j || c.testBit j)
  | .xor => ∀ j, j < k → new.testBit j = xor (old.testBit j) (c.testBit j)
  | .swap => new = c % 2 ^ k
  | .cas => new = if old = c % 2 ^ k then e % 2 ^ k else old

/-- The step of an atom, or of `events` combined reductions, at an LPDDR home that admits it and holds the line, on a word of 32 or 64 bits (R201, R204): the old value is answered, the word takes the value of AtomStep, and no other byte of memory changes; the word's sector at the home is tainted where the request is, and by a swap, a cas or an f32 operation whatever it held, and no other sector changes its taint. -/
def Obligations.AtomAtItsHome : Prop :=
  ∀ (w : Who) (pa : Nat) (ty : Ety) (op : AtomOp) (c e : Nat) (taint inPort : Bool) (attr : Attr) (events : Nat) (s : State) (d sc o : Nat) (l : L2Line),
    let n := atomSize ty
    let at' := s.attrFor attr pa
    let h : Who := { w with id := masterId (stringCore d sc), die := d }
    n = 4 ∨ n = 8 → pa % n = 0 →
    s.homeOf pa = .lpddr d sc o → s.linkLost w.die d = false →
    s.admits (tgtString d sc) w.id w.dom false = true → s.admits (tgtString d sc) w.id w.dom true = true →
    s.admits (tgtL2 d sc) h.id h.dom false = true → s.admits (tgtL2 d sc) h.id h.dom true = true →
    recQ (s.sealRec (granBase pa at'.g512)) = false → s.waysOf d at'.part ≠ 0 →
    tfind s.l2 (pa / 128) = some l → l.slot = w.slot → l.present = BitVec.allOnes 128 → Memory.wf s.mem →
    let old := ofBytes (readBytes s.mem pa n)
    ∃ t new l', atomHome w pa ty op c e taint inPort attr events s = .ok old t ∧ atomGives op ty old c e new
      ∧ readBytes t.mem pa n = toBytes n new
      ∧ (∀ b, b < pa ∨ pa + n ≤ b → readByte t.mem b = readByte s.mem b)
      ∧ tfind t.l2 (pa / 128) = some l'
      ∧ ∀ i, i < 4 → l'.taint.getLsbD i =
          (l.taint.getLsbD i || (decide (i = pa % 128 / 32) && (taint || op == .swap || op == .cas || ty == .f32)))

/-- Release and acquire (R181, R182, Table 6-4). The modifier of a leaf's instruction asks for a release before it or an acquire after it, with its scope and set, and of a control core's for nothing. A release leaves the combining buffer of the core empty, and at a scope past the core no line of the set dirty in its L1; a line so cleaned has its dirty bytes, and no other byte, written at its home. An acquire at a scope past the core leaves no line of the set in the L1, and from scope 3 none in the RDC of its die. With `.all` the set is every line, else the lines of the regions of the rule's ports that are no views. -/
def orderingDoes : Prop :=
  (∀ (x : Args) (s : State) (core slot : Nat), s.cur = .leaf core slot →
    ordBefore x s = .ok () (if (modOrd x).testBit 1 then s.release core s.leaf.ctx s.myRule (modScope x) (modAll x) else s)
    ∧ ordAfter x s = .ok () (if (modOrd x).testBit 0 then s.acquire core s.leaf.ctx s.myRule (modScope x) (modAll x) else s))
  ∧ (∀ (x : Args) (s : State) (d : Nat), s.cur = .dcc d → ordBefore x s = .ok () s ∧ ordAfter x s = .ok () s)
  ∧ (∀ (s : State) (core ctx : Nat) (rule : Option Rule) (scope : Nat) (all : Bool),
    let sent := s.sendEntries core fun _ => true
    let t := s.release core ctx rule scope all
    let u := s.acquire core ctx rule scope all
    (t.core core).cbuf = []
    ∧ (scope = 0 → t = sent ∧ u = s)
    ∧ (scope ≠ 0 → ∀ k l, sent.setPred all ctx rule k = true → tfind (t.core core).l1 k = some l → l.dirty = 0)
    ∧ (scope ≠ 0 → ∀ k, s.setPred all ctx rule k = true → tfind (u.core core).l1 k = none)
    ∧ (3 ≤ scope → ∀ k, s.setPred all ctx rule k = true → tfind (u.die (coreDie core)).rdc k = none)
    ∧ s.setPred true ctx rule = (fun _ => true)
    ∧ ∀ r k, rule = some r → (s.setPred false ctx rule k = true ↔ ∃ p ∈ r.ports, p.kind ≠ 2 ∧ p.bytes ≠ 0
        ∧ ∃ i ∈ s.physOf ctx p.base (p.base + p.bytes), k * 128 < i.2.1 ∧ i.1 < k * 128 + 128))
  ∧ (∀ (s : State) (core line d sc o : Nat) (l : L1Line) (h : L2Line), tfind (s.core core).l1 line = some l → l.dirty ≠ 0 →
    s.homeOf (line * 128) = .lpddr d sc o → s.linkLost (coreDie core) d = false → s.admits (tgtL2 d sc) (masterId core) (some l.owner) true = true →
    tfind s.l2 line = some h → h.slot = l.slot → s.waysOf d l.attr.part ≠ 0 →
    let t := s.cleanLine core line
    tfind (t.core core).l1 line = some { l with dirty := 0, inPort := 0 }
    ∧ (∀ i, i < 128 → readByte t.mem (line * 128 + i) =
        if l.dirty.getLsbD i then BitVec.ofNat 8 (elem 8 i l.data.toNat) else readByte s.mem (line * 128 + i))
    ∧ (∀ b, b < line * 128 ∨ line * 128 + 128 ≤ b → readByte t.mem b = readByte s.mem b)
    ∧ t.dram = s.dram ∧ t.podMem = s.podMem ∧ t.hostMem = s.hostMem)

/-- An atom of a leaf: with its checks and its release done, the core's entries for the word are sent, its line is cleaned and dropped, one whose dirty bytes cannot be cleaned kept, and the remote copy of its die dropped (the model's readings, logs 27 and 40), the step is performed at the home, and sD takes the old value, tainted, with one tainting event counted, after its acquire (R201, R202). The reductions of a leaf enter the combining buffer of its core after their checks and release, with their value, operation and taint, and combine there into one value (R204, R205), those of an f32 sum of two leaves by a free choice (log 34); fence releases, sends every entry of the buffer, then acquires (R206). What a release and an acquire do at their scope and on their set (R181, R182, Table 6-4), and that a line so cleaned has its dirty bytes, and no other, written at its home. The model's choices: that the ordering modifiers of a control core do nothing (log 24), which lines the sets of a release and an acquire hold (log 41), and that an atom is performed within its instruction (log 17). -/
def Obligations.AtomsReductionsAndFence : Prop :=
  (∀ (x : Args) (s s1 s2 s4 s5 : State) (core slot : Nat) (tr : Tr) (old : Nat), s.on → s.cur = .leaf core slot → s.leaf.active x.guard = true →
    let ea := (eaOf x s).1
    let n := atomSize x.ety
    let c := srcOf x s true x.c
    checkAccess (s.actorFor x) ea n .atom s = .ok (.mem tr) s1 → ordBefore x s1 = .ok () s2 → s2.cur = s.cur →
    ∀ p ∈ [(Instr.atomAdd x, AtomOp.add), (.atomMin x, .min), (.atomMax x, .max), (.atomAnd x, .and), (.atomOr x, .or),
           (.atomXor x, .xor), (.atomSwap x, .swap), (.atomCas x, .cas)],
      let e := if p.2 = .cas then srcOf x s true x.e else (0, false)
      let s3 := (s2.sendEntries core (·.meets tr.pa n)).dropForAtom core (tr.pa / 128)
      atomHome s3.who tr.pa x.ety p.2 c.1 e.1 ((eaOf x s).2 || c.2 || e.2 || s.leaf.ctlT x.guard) (s3.inPort s3.leaf.ctx ea n) tr.attr 1 s3 = .ok old s4 →
      ordAfter x (s4.countTaint s4.leaf.ctx 1) = .ok () s5 →
      exec p.1 s = .next (s5.setLeaf (s5.leaf.putS x (etyExt x.ety old) true).advance).settle)
  ∧ (∀ (x : Args) (s s1 s2 s3 : State) (core slot : Nat) (tr : Tr), s.on → s.cur = .leaf core slot → s.leaf.active x.guard = true →
    let ea := (eaOf x s).1
    let n := atomSize x.ety
    let c := srcOf x s true x.c
    (checkAccess (s.actorFor x) ea n .atom s = .ok (.mem tr) s1 → ordBefore x s1 = .ok () s2 → s2.cur = s.cur →
      ∀ p ∈ [(Instr.redAdd x, AtomOp.add), (.redMin x, .min), (.redMax x, .max), (.redAnd x, .and), (.redOr x, .or), (.redXor x, .xor)],
        let t := s2.bufferRed core { pa := tr.pa, va := ea, op := p.2, ety := x.ety, value := BitVec.ofNat 64 (c.1 % 2 ^ (8 * n))
                                     taint := (eaOf x s).2 || c.2 || s.leaf.ctlT x.guard, ctx := s2.leaf.ctx, attr := tr.attr
                                     inPort := s2.inPort s2.leaf.ctx ea n, count := 1, leaf := s2.leaf.entry }
        exec p.1 s = .next (t.setLeaf t.leaf.advance).settle)
    ∧ (ordBefore x s = .ok () s1 → ordAfter x (s1.sendEntries s1.curCore fun _ => true) = .ok () s3 →
        exec (.fence x) s = .next (s3.setLeaf s3.leaf.advance).settle))
  ∧ (∀ (s : State) (core line : Nat),
    let t := s.dropForAtom core line
    tfind (t.core core).l1 line = (if s.canClean core line then none else tfind (s.core core).l1 line)
      ∧ tfind (t.die (coreDie core)).rdc line = none)
  ∧ (∀ (o e : CEntry), o.alike e = true →
    let u := o.combine e
    u = { o with taint := o.taint || e.taint, inPort := o.inPort || e.inPort, count := o.count + e.count, value := u.value }
      ∧ (atomSize o.ety = 4 ∨ atomSize o.ety = 8 → atomGives o.op o.ety (o.value.toNat % 2 ^ (8 * atomSize o.ety)) e.value.toNat 0 u.value.toNat))
  ∧ (∀ (o e : CEntry), o.alike e = true ↔ o.pa = e.pa ∧ o.op = e.op ∧ o.ety = e.ety ∧ o.ctx = e.ctx)
  ∧ (∀ (s : State) (core : Nat) (o e : CEntry), (s.core core).cbuf = [o] → o.alike e = true →
      (o.op ≠ .add ∨ o.ety ≠ .f32 ∨ o.leaf = e.leaf → s.bufferRed core e = s.setCore core { s.core core with cbuf := [o.combine e] })
      ∧ (o.op = .add → o.ety = .f32 → o.leaf ≠ e.leaf →
          let t : State := { s with free := s.free + 1 }
          s.bufferRed core e = t.setCore core { t.core core with cbuf := [o.combine e] }
          ∨ ∀ u : State, u = t.sendEntries core (· == o) → (u.core core).cbuf = [] →
              s.bufferRed core e = (u.setCore core { u.core core with cbuf := (u.core core).cbuf ++ [e] }).occSet (occBuf core) e.ctx))
  ∧ orderingDoes

/-! ## Vector instructions -/

/-- The elements of a vector or repeated source, E of the width of the type (R234, R235). -/
def velem (x : Args) (s : State) (o : Opnd) (i : Nat) : Nat := (vsrcOf x s true o (etyBits x.ety)).1 i

/-- Element i of E is active. -/
def vactive (s : State) (x : Args) (E i : Nat) : Prop := i < E ∧ (s.leaf.guardMask x.guard E).testBit i = true

/-- The OR of the flags of the active elements (R238). -/
def vflags (s : State) (x : Args) (E : Nat) (f : Nat → Flags) : Flags := (activeEls s x E).foldl (fun r i => r ||| f i) 0

/-- The special functions (R264, Table 8-11): a NaN gives the canonical one, with IV for a signalling one; zeros, infinities and negative values give the table's results and flags; 2^x of an integer and log2 of a power of two are rounded from the exact result; 1/x is the exact quotient rounded, with .ftz a tiny one a zero with UF and NX; 1/√x is the nearest value, with NX where it is not exact. The other values of 2^x, log2 x and tanh x are the model's own functions (log 10). -/
def specialFunctions : Prop :=
  ∀ f ∈ [fmtF32, fmtF16, fmtBf16], ∀ (ftz n : Bool) (m : Nat) (e : Int),
    let one := f.bias * 2 ^ f.frac
    let bad : Nat × Flags := (f.nan, flagIV)
    let x : Fv := .fin n m e
    (∀ g ∈ [fexp2 f ftz, flog2 f ftz, frcp f ftz, frsq f ftz, ftanh f ftz], ∀ sig, g (.nan sig) = (f.nan, if sig then flagIV else 0))
    ∧ (fexp2 f ftz (.fin n 0 e) = (one, 0) ∧ flog2 f ftz (.fin n 0 e) = (finf f true, flagDZ) ∧ frcp f ftz (.fin n 0 e) = (finf f n, flagDZ)
      ∧ frsq f ftz (.fin n 0 e) = (finf f n, flagDZ) ∧ ftanh f ftz (.fin n 0 e) = (fzero f n, 0))
    ∧ (fexp2 f ftz (.inf false) = (finf f false, 0) ∧ flog2 f ftz (.inf false) = (finf f false, 0) ∧ frcp f ftz (.inf n) = (fzero f n, 0)
      ∧ frsq f ftz (.inf false) = (0, 0) ∧ ftanh f ftz (.inf n) = (signBit f n + one, 0))
    ∧ (fexp2 f ftz (.inf true) = (0, 0) ∧ flog2 f ftz (.inf true) = bad ∧ frsq f ftz (.inf true) = bad)
    ∧ (m ≠ 0 → n = true → flog2 f ftz x = bad ∧ frsq f ftz x = bad)
    ∧ (∀ k : Int, k ≠ 0 → fvRat x = (k : Rat) → roundsTo f ((2 : Rat) ^ k) (fexp2 f false x))
    ∧ (∀ k : Int, fvRat x = (2 : Rat) ^ k → if k = 0 then flog2 f ftz x = (0, 0) else roundsTo f (k : Rat) (flog2 f ftz x))
    ∧ (m ≠ 0 → roundsTo f (1 / fvRat x) (frcp f false x)
      ∧ frcp f true x = if tinyIn f .rne (1 / fvRat x) then (fzero f n, flagUF ||| flagNX) else frcp f false x)
    ∧ ∀ y, y < 2 ^ (f.bits - 1) → fdecode f y = x → m ≠ 0 → ∃ p, p ≤ f.maxFin
      ∧ frsq f ftz x = (p, if fmtValue f p * fmtValue f p * fvRat x = 1 then 0 else flagNX)
      ∧ ∀ q, q ≤ f.maxFin → (q < p → (fmtValue f p + fmtValue f q) * (fmtValue f p + fmtValue f q) * fvRat x ≤ 4)
          ∧ (p < q → 4 ≤ (fmtValue f p + fmtValue f q) * (fmtValue f p + fmtValue f q) * fvRat x)

/-- A value that is no NaN lies below another: −∞, the finite values in their order, +∞, and −0 below +0 (Table 2-9). -/
def fvBelow : Fv → Fv → Bool
  | .inf a, .inf b => a && !b
  | .inf a, .fin _ _ _ => a
  | .fin _ _ _, .inf b => !b
  | .fin n m e, .fin n' m' e' =>
    decide (fvRat (.fin n m e) < fvRat (.fin n' m' e')) || (decide (fvRat (.fin n m e) = fvRat (.fin n' m' e')) && n && !n')
  | _, _ => false

/-- The least and the greatest of two patterns, the magnitude and the negation of one: a NaN operand gives the canonical NaN, with IV for a signalling one and no other flag (R57, R83); of two values that are no NaN the lower or the higher, −0 below +0, with no flag (Table 2-9); the magnitude clears the sign bit, the negation inverts it (R241). A flushed pattern is a zero of its sign where its exponent field is 0, else unchanged (R59). -/
def signAndOrder : Prop :=
  ∀ f ∈ [fmtE4m3, fmtE5m2, fmtF16, fmtBf16, fmtF32], ∀ a b, a < 2 ^ f.bits → b < 2 ^ f.bits →
    let x := fdecode f a
    let y := fdecode f b
    let top := 2 ^ (f.bits - 1)
    (x.isNaN = true ∨ y.isNaN = true → ∀ isMax, fminmax f isMax a b x y = (f.nan, if x = .nan true ∨ y = .nan true then flagIV else 0))
    ∧ (x.isNaN = false → y.isNaN = false →
        fminmax f true a b x y = (if fvBelow x y then b else a, 0) ∧ fminmax f false a b x y = (if fvBelow y x then b else a, 0))
    ∧ (x.isNaN = true → ∀ neg, fabsBits f neg a = (f.nan, if x = .nan true then flagIV else 0))
    ∧ (x.isNaN = false → fabsBits f false a = (if a < top then a else a - top, 0)
        ∧ fabsBits f true a = (if a < top then a + top else a - top, 0))
    ∧ flushBits f false a = a
    ∧ flushBits f true a = if field a f.frac (f.bits - 1 - f.frac) = 0 then (if a < top then 0 else top) else a

/-- The element-wise float instructions (R241, R264): each active element by the operation of file 02 on the decoded operands, subnormal inputs flushed with .ftz, the flags ORed; the least, the greatest, the magnitude and the negation by the order of the values and the sign bit, with the canonical NaN for a NaN operand and −0 below +0 (R57, R83, Table 2-9); the special functions with the special inputs of Table 8-11, 1/x and 1/√x rounded to nearest. -/
def Obligations.VectorFloats : Prop :=
  specialFunctions ∧ signAndOrder ∧
  ∀ (x : Args) (s : State) (f : Fmt), s.on → etyFmt x.ety = some f →
    let w := etyBits x.ety
    let E := etyCount x.ety
    let ftz := modFtz x
    let rm := modRm x
    let d (o : Opnd) (i : Nat) : Fv := fdecodeFtz f ftz (velem x s o i)
    let z (o : Opnd) (i : Nat) : Nat := flushBits f ftz (velem x s o i)
    ∀ p ∈ [(Instr.vadd x, fun i => fadd f rm ftz (d x.a i) (d x.b i)), (.vsub x, fun i => fadd f rm ftz (d x.a i) (fneg (d x.b i))),
           (.vmul x, fun i => fmul f rm ftz (d x.a i) (d x.b i)),
           (.vfma x, fun i => ffma f rm ftz false (d x.a i) (d x.b i) (d x.c i)),
           (.vfnma x, fun i => ffma f rm ftz true (d x.a i) (d x.b i) (d x.c i)),
           (.vmin x, fun i => fminmax f false (z x.a i) (z x.b i) (fdecode f (z x.a i)) (fdecode f (z x.b i))),
           (.vmax x, fun i => fminmax f true (z x.a i) (z x.b i) (fdecode f (z x.a i)) (fdecode f (z x.b i))),
           (.vabs x, fun i => fabsBits f false (velem x s x.a i)), (.vneg x, fun i => fabsBits f true (velem x s x.a i)),
           (.vexp2 x, fun i => fexp2 f ftz (d x.a i)), (.vlog2 x, fun i => flog2 f ftz (d x.a i)),
           (.vrcp x, fun i => frcp f ftz (d x.a i)), (.vrsq x, fun i => frsq f ftz (d x.a i)), (.vtanh x, fun i => ftanh f ftz (d x.a i))],
      ∃ t, exec p.1 s = .next t ∧ putsV s t x w E (fun i => (p.2 i).1) (vflags s x E fun i => (p.2 i).2)

/-- vcmp writes bit i of pD with the comparison of element i where it is active, 0 where it is not and past E (R245); vsel takes element i of B where bit i of pA is 1, else of C (R246). -/
def Obligations.VectorCompareAndSelect : Prop :=
  ∀ (x : Args) (s : State) (c : Cond), s.on →
    let w := etyBits x.ety
    let E := etyCount x.ety
    let a := velem x s x.a
    let b := velem x s x.b
    let r (i : Nat) : Bool × Flags := match etyFmt x.ety with
      | some f => fcompare c (fdecodeFtz f (modFtz x) (a i)) (fdecodeFtz f (modFtz x) (b i))
      | none => (match c with
        | .eq => etyVal x.ety (a i) = etyVal x.ety (b i) | .ne => etyVal x.ety (a i) ≠ etyVal x.ety (b i)
        | .lt => etyVal x.ety (a i) < etyVal x.ety (b i) | .le => etyVal x.ety (a i) ≤ etyVal x.ety (b i)
        | .gt => etyVal x.ety (b i) < etyVal x.ety (a i) | .ge => etyVal x.ety (b i) ≤ etyVal x.ety (a i) | .unord => false, 0)
    (∃ t, exec (.vcmp c x) s = .next t ∧ onlyLeaf s t ∧ pFrame s.leaf t.leaf x.d.preg (vflags s x E fun i => (r i).2)
      ∧ (x.d.preg ≠ 0 → ∀ i, i < 1024 → ((t.leaf.readP x.d.preg).getLsbD i = true ↔ vactive s x E i ∧ (r i).1 = true)))
    ∧ ∃ t, exec (.vsel x) s = .next t
      ∧ putsV s t x w E (fun i => velem x s (if (s.leaf.readP x.a.preg).getLsbD i then x.b else x.c) i) 0

/-- The conversions: vcvt of each element; vwid of source element i into register vD + (i mod k) at position i div k; vnar of element i from register vA + (i mod k), position i div k (R247, R248, R249, R250); each by the conversions of R59 to R62. -/
def Obligations.VectorConversions : Prop :=
  conversionsDo ∧
  ∀ (x : Args) (s : State) (k : Wid), s.on →
    let w := etyBits x.ety
    let E := etyCount x.ety
    let sty := modSty x
    let n := Wid.k k
    let cv (rm : Rm) (wrap : Bool) (v : Nat) : Nat × Flags := cvtElem sty x.ety rm (modFtz x) wrap v
    let one (i : Nat) := cv (modRm x) (modWrap x) (velem x s x.a i)
    let nar (i : Nat) := cv (modRm x) (modWrap x) (elem (etyBits sty) (i / n) (s.leaf.v[(Fin.ofNat 32 (x.a.vreg.val + i % n))]).toNat)
    let wid (i : Nat) := cv .rne false ((vsrcOf x s true x.a (etyBits sty)).1 i)
    (∃ t, exec (.vcvt x) s = .next t ∧ putsV s t x w E (fun i => (one i).1) (vflags s x E fun i => (one i).2))
    ∧ (∃ t, exec (.vnar k x) s = .next t ∧ putsV s t x w E (fun i => (nar i).1) (vflags s x E fun i => (nar i).2))
    ∧ (w = n * etyBits sty → x.d.vreg.val + n ≤ 32 →
      ∃ t, exec (.vwid k x) s = .next t ∧ onlyLeaf s t
        ∧ vFrame s.leaf t.leaf (fun r => x.d.vreg.val ≤ r.val ∧ r.val < x.d.vreg.val + n)
            (vflags s x (etyCount sty) fun i => (wid i).2)
        ∧ ∀ (r : Fin 32) (q : Nat), x.d.vreg.val ≤ r.val → r.val < x.d.vreg.val + n → q < 4096 / w →
            let i := q * n + (r.val - x.d.vreg.val)
            elem w q (t.leaf.v[r]).toNat = if (s.leaf.guardMask x.guard (etyCount sty)).testBit i = true then (wid i).1 % 2 ^ w
              else elem w q (s.leaf.v[r]).toNat)

/-- TreeReduce (R85) of E values x, E a power of two, by an operation: in round r + 1 value i is the operation of values 2i and 2i + 1 of round r, until one is left, whose pattern is the quad; the flags are those that some operation raised, and `conv`, those of the conversions of the elements (R238). -/
def treeReduced (op : Nat → Nat → Nat × Flags) (E : Nat) (x : Nat → Nat) (conv : Fin 6 → Prop) (value : Quad) (flags : Flags) : Prop :=
  ∃ y : Nat → Nat → Nat,
    (∀ i, i < E → y 0 i = x i)
    ∧ (∀ r i, i < E / 2 ^ (r + 1) → y (r + 1) i = (op (y r (2 * i)) (y r (2 * i + 1))).1)
    ∧ (∀ r, 2 ^ r = E → value = BitVec.ofNat 64 (y r 0))
    ∧ ∀ k : Fin 6, flags.getLsbD k = true ↔
        conv k ∨ ∃ r i, i < E / 2 ^ (r + 1) ∧ ((op (y r (2 * i)) (y r (2 * i + 1))).2).getLsbD k = true

/-- The lane reductions over the active elements (R251, R252): the exact integer sum in 64 bits; the least and the greatest by the type, its identity with none active; AND, OR and XOR bit by bit, zero-extended, none of these with a flag; for a float type each active element converted exactly to f32 with no flush, an inactive one the identity of Table 8-7, the f32 operations of neighbours pairwise, round after round, as TreeReduce says (R85), with the operands of each flushed with .ftz and the flags of every operation and conversion (R238). The result is tainted by the lanes of the active elements, by every guard bit and by the control taint. -/
def Obligations.VectorReductions : Prop :=
  ∀ (x : Args) (s : State), s.on →
    let w := etyBits x.ety
    let E := etyCount x.ety
    let a := velem x s x.a
    let z (i : Nat) : Int := etyVal x.ety (a i)
    let act := activeEls s x E
    let lo : Int := if etySigned x.ety then -(2 ^ (w - 1)) else 0
    let hi : Int := if etySigned x.ety then 2 ^ (w - 1) - 1 else 2 ^ w - 1
    let puts (i : Instr) (v : Quad) (fl : Flags) : Prop := ∃ t, exec i s = .next t ∧ onlyLeaf s t ∧ sFrame s.leaf t.leaf x.d.sreg fl
      ∧ (x.d.sreg ≠ 0 → t.leaf.readS x.d.sreg = v
        ∧ t.leaf.taintS x.d.sreg = (((act.any fun i => (vsrcOf x s true x.a w).2 i) || (List.range E).any fun i => (s.leaf.guardTaint x.guard).testBit i) || s.leaf.ctlTaint))
    (etyFmt x.ety = none →
      puts (.vredAdd x) (BitVec.ofInt 64 (act.map z).sum) 0
      ∧ puts (.vredMin x) (etyExt x.ety (((act.map z).foldl min hi) % 2 ^ w).toNat) 0
      ∧ puts (.vredMax x) (etyExt x.ety (((act.map z).foldl max lo) % 2 ^ w).toNat) 0)
    ∧ (∀ p ∈ ([(Instr.vredAnd x, fun j => act.all fun i => (a i).testBit j), (.vredOr x, fun j => act.any fun i => (a i).testBit j),
              (.vredXor x, fun j => (act.countP fun i => (a i).testBit j) % 2 == 1)] : List (Instr × (Nat → Bool))),
        ∃ v : Quad, puts p.1 v 0 ∧ ∀ j, j < 64 → v.getLsbD j = (decide (j < w) && p.2 j))
    ∧ ∀ f, etyFmt x.ety = some f →
      let ftz := modFtz x
      let wide (i : Nat) : Nat × Flags := if f.bits = 32 then (a i, 0) else fconvert fmtF32 .rne false (fdecode f (a i))
      let conv (k : Fin 6) : Prop := ∃ i ∈ act, (wide i).2.getLsbD k = true
      let sum (a b : Nat) : Nat × Flags := fadd fmtF32 (modRm x) ftz (fdecodeFtz fmtF32 ftz a) (fdecodeFtz fmtF32 ftz b)
      let extreme (isMax : Bool) (a b : Nat) : Nat × Flags :=
        let a := flushBits fmtF32 ftz a
        let b := flushBits fmtF32 ftz b
        fminmax fmtF32 isMax a b (fdecode fmtF32 a) (fdecode fmtF32 b)
      ∀ p ∈ ([(Instr.vredAdd x, sum, 0x80000000), (.vredMin x, extreme false, 0x7F800000), (.vredMax x, extreme true, 0xFF800000)] :
          List (Instr × (Nat → Nat → Nat × Flags) × Nat)),
        ∃ v fl, puts p.1 v fl
          ∧ treeReduced p.2.1 E (fun i => if (s.leaf.guardMask x.guard E).testBit i then (wide i).1 else p.2.2) conv v fl

/-- What element i of a shuffle of E elements of A and B takes (Table 8-9). -/
def shuffled {α : Type} (kind N E : Nat) (a b : Nat → α) (i : Nat) : α :=
  let z (j : Nat) : α := if j < E then a j else b (j - E)
  match kind with
  | 0 => if i % 2 = 0 then a (i / 2) else b ((i - 1) / 2)
  | 1 => if i % 2 = 0 then a (E / 2 + i / 2) else b (E / 2 + (i - 1) / 2)
  | 2 => z (2 * i)
  | 3 => z (2 * i + 1)
  | 4 => z (i + N)
  | 5 => a (i ^^^ (2 ^ N - 1))
  | _ => a (i &&& (2 ^ N - 1))

/-- The instructions that move elements: vperm takes the element of A that B's names, modulo E; vshuf that of Table 8-9, by KIND and N within their limits, past which the word is no instruction; vset writes element B mod E of vD, vget reads element B mod E of vA; vcompress packs the active elements low and clears the rest; vexpand spreads the first elements over the active positions (R253, R254, R255, R256). -/
def Obligations.VectorMoves : Prop :=
  ∀ (x : Args) (s : State), s.on →
    let w := etyBits x.ety
    let E := etyCount x.ety
    let a := velem x s x.a
    let b := velem x s x.b
    let ctl := (srcOf x s true x.c).1
    let kind := field ctl 0 4
    let N := field ctl 4 12
    let at' := (srcOf x s true x.b).1 % E
    let act := activeEls s x E
    (∃ t, exec (.vperm x) s = .next t ∧ putsV s t x w E (fun i => a (b i % E)) 0)
    ∧ (kind ≤ 6 → (kind = 5 → 2 ^ N ≤ E) → ∃ t, exec (.vshuf x) s = .next t ∧ putsV s t x w E (shuffled kind N E a b) 0)
    ∧ (s.leaf.active x.guard = true → ∃ t, exec (.vget x) s = .next t
        ∧ putsS s t x (etyExt x.ety (a at')) ((vsrcOf x s true x.a w).2 at' || (srcOf x s true x.b).2) 0)
    ∧ (s.leaf.active x.guard = true → ∃ t, exec (.vset x) s = .next t ∧ onlyLeaf s t ∧ vFrame s.leaf t.leaf (· = x.d.vreg) 0
        ∧ ∀ i, i < E → elem w i (t.leaf.v[x.d.vreg]).toNat =
          if i = at' then (srcOf x s true x.a).1 % 2 ^ w else elem w i (s.leaf.v[x.d.vreg]).toNat)
    ∧ (∃ t, exec (.vcompress x) s = .next t ∧ onlyLeaf s t ∧ vFrame s.leaf t.leaf (· = x.d.vreg) 0
        ∧ ∀ i, i < E → elem w i (t.leaf.v[x.d.vreg]).toNat = match act[i]? with | some k => a k % 2 ^ w | none => 0)
    ∧ ∃ t, exec (.vexpand x) s = .next t ∧ putsV s t x w E (fun i => a (act.countP fun k => k < i)) 0

/-- vand, vor, vxor and vandn bit by bit (R243); vshl, vshr and vsra by the natural value of the count's element, a count of the width or more giving 0 or the sign (R244); vbcast copies A (R256). On 64-bit elements vbmm8 multiplies 8 by 8 bit matrices over GF(2); vpext gathers the bits of A that the mask B names, low first, and vpdep places them there; vbperm takes for bit j of each element the bit of A that field j of vB names (R257, R258, R259). -/
def Obligations.VectorBits : Prop :=
  (∀ (x : Args) (s : State), s.on →
    let w := etyBits x.ety
    let E := etyCount x.ety
    let a := velem x s x.a
    let b := velem x s x.b
    ∀ p ∈ ([(Instr.vand x, fun i j => (a i).testBit j && (b i).testBit j), (.vor x, fun i j => (a i).testBit j || (b i).testBit j),
            (.vxor x, fun i j => xor ((a i).testBit j) ((b i).testBit j)), (.vandn x, fun i j => (a i).testBit j && !(b i).testBit j),
            (.vshl x, fun i j => decide (b i ≤ j) && (a i).testBit (j - b i)),
            (.vshr x, fun i j => decide (j + b i < w) && (a i).testBit (j + b i)),
            (.vsra x, fun i j => (a i).testBit (if j + b i < w then j + b i else w - 1)),
            (.vbcast x, fun i j => (a i).testBit j)] : List (Instr × (Nat → Nat → Bool))),
      ∃ t r, exec p.1 s = .next t ∧ putsV s t x w E r 0 ∧ ∀ i j, i < E → j < w → (r i).testBit j = p.2 i j)
  ∧ (∀ (x : Args) (s : State), s.on → etyBits x.ety = 64 →
    let a := velem x s x.a
    let b := velem x s x.b
    let rank (m j : Nat) : Nat := (List.range j).countP fun i => m.testBit i
    (∃ t r, exec (.vbmm8 x) s = .next t ∧ putsV s t x 64 64 r 0 ∧ ∀ i u v, i < 64 → u < 8 → v < 8 →
      (r i).testBit (8 * u + v) = ((((List.range 8).countP fun k => (a i).testBit (8 * u + k) && (b i).testBit (8 * k + v)) % 2) == 1))
    ∧ (∃ t r, exec (.vpdep x) s = .next t ∧ putsV s t x 64 64 r 0
      ∧ ∀ i j, i < 64 → j < 64 → (r i).testBit j = ((b i).testBit j && (a i).testBit (rank (b i) j)))
    ∧ (∃ t r, exec (.vpext x) s = .next t ∧ putsV s t x 64 64 r 0
      ∧ ∀ i j, i < 64 → j < 64 → ((b i).testBit j = true → (r i).testBit (rank (b i) j) = (a i).testBit j)
        ∧ (rank (b i) 64 ≤ j → (r i).testBit j = false))
    ∧ ∃ t r, exec (.vbperm x) s = .next t ∧ putsV s t x 64 64 r 0
      ∧ ∀ i j, i < 64 → j < 64 → (r i).testBit j = (a i).testBit (elem 6 j (s.leaf.v[x.b.vreg]).toNat))

/-- vthz drops the active elements that `drops` names: they become 0, a float +0, the others stay; sC takes the sum of their magnitudes, clamped to 64 bits with SAT, tainted by any active lane, guard bit or the control taint; no other flag and no other register changes. -/
def thresholds (x : Args) (s : State) (drops : Nat → Bool) (mag : Nat → Nat) : Prop :=
  let w := etyBits x.ety
  let E := etyCount x.ety
  let act := activeEls s x E
  let total := ((act.filter drops).map mag).sum
  ∃ t, exec (.vthz x) s = .next t ∧ onlyLeaf s t
    ∧ t.leaf = { s.leaf with v := t.leaf.v, vT := t.leaf.vT, s := t.leaf.s, sT := t.leaf.sT, pc := s.leaf.pc + 16
                             flags := s.leaf.flags ||| (if 2 ^ 64 ≤ total then flagSAT else 0) }
    ∧ (∀ n, n ≠ x.c.sreg → t.leaf.readS n = s.leaf.readS n ∧ t.leaf.taintS n = s.leaf.taintS n)
    ∧ (∀ n, n ≠ x.d.vreg → t.leaf.v[n] = s.leaf.v[n] ∧ t.leaf.vT[n] = s.leaf.vT[n])
    ∧ (x.c.sreg ≠ 0 → t.leaf.readS x.c.sreg = BitVec.ofNat 64 (min total (2 ^ 64 - 1))
        ∧ t.leaf.taintS x.c.sreg = (((act.any fun i => (vsrcOf x s true x.a w).2 i) || (List.range E).any fun i => (s.leaf.guardTaint x.guard).testBit i) || s.leaf.ctlTaint))
    ∧ ∀ i, i < E → elem w i (t.leaf.v[x.d.vreg]).toNat =
        if (s.leaf.guardMask x.guard E).testBit i = true then (if drops i then 0 else velem x s x.a i)
        else elem w i (s.leaf.v[x.d.vreg]).toNat

/-- QuantBlock to D bits (R76): a NaN makes the scale 0xFF and every integer 0, with IV; else the exponent is the least of −127 to 127 at which no value is infinite and each, divided by its power of two and rounded to nearest even, has at most D − 1 bits of magnitude, or 127 where none is, and the integers are those so rounded, clamped to ±(2^(D−1) − 1), an infinity to its limit, with SAT where one was clamped. -/
def quantDoes : Prop :=
  ∀ D ∈ [4, 8, 16], ∀ xs : List Fv,
    let L : Int := 2 ^ (D - 1) - 1
    let r := quantBlock D xs
    let rounds (e : Int) (x : Fv) (q : Int) : Prop := roundsToInt .rne (fvRat x / (2 : Rat) ^ e) q
    let fits (e : Int) : Prop := ∀ x ∈ xs, match x with
      | .fin n m k => ∃ q, rounds e (.fin n m k) q ∧ -L ≤ q ∧ q ≤ L
      | _ => False
    ((∃ sig, Fv.nan sig ∈ xs) → r = (0xFF, List.replicate xs.length 0, flagIV))
    ∧ ((∀ sig, Fv.nan sig ∉ xs) → ∃ e : Int, -127 ≤ e ∧ e ≤ 127 ∧ r.1 = (e + 127).toNat
        ∧ (∀ k, -127 ≤ k → k < e → ¬ fits k) ∧ (fits e ∨ e = 127)
        ∧ r.2.1.length = xs.length
        ∧ (∀ p ∈ xs.zip r.2.1, match p.1 with
            | .fin n m k => ∃ q, rounds e (.fin n m k) q ∧ p.2 = max (-L) (min L q)
            | .inf n => p.2 = if n then -L else L
            | .nan _ => False)
        ∧ (fits e → r.2.2 = 0) ∧ (¬ fits e → r.2.2 = flagSAT))

/-- Dequant (R262): a scale word with a reserved bit, the tag of a codebook block or the reserved tag, or an integer block of scale 0xFF, gives the canonical NaN with IV; a ZERO block gives +0; else the value is the integer times 2^(SCALE − 127), rounded by RM, with .ftz a tiny result a zero of its sign with UF and NX (R59 to R61). -/
def dequantDoes : Prop :=
  ∀ f ∈ [fmtF32, fmtF16, fmtBf16], ∀ (rm : Rm) (ftz : Bool) (d : Int) (S : Nat), S < 2 ^ 16 →
    let tag := S / 2 ^ 8 % 4
    let z : Rat := (d : Rat) * (2 : Rat) ^ ((S % 2 ^ 8 : Nat) - 127 : Int)
    (2 ^ 10 ≤ S ∨ tag = 1 ∨ tag = 3 → dequant f rm ftz d S = (f.nan, flagIV))
    ∧ (S < 2 ^ 10 → tag = 2 → dequant f rm ftz d S = (0, 0))
    ∧ (S = 0xFF → dequant f rm ftz d S = (f.nan, flagIV))
    ∧ (S < 0xFF → d = 0 → dequant f rm ftz d S = (0, 0))
    ∧ (S < 0xFF → d ≠ 0 → roundsIn f rm z (dequant f rm false d S)
        ∧ dequant f rm true d S = if tinyIn f rm z then (fzero f (decide (d < 0)), flagUF ||| flagNX) else dequant f rm false d S)

/-- vthz: an active element whose magnitude does not exceed the threshold becomes 0, sC takes the sum of the magnitudes dropped, in units of 2^-16 rounded down, clamped to 64 bits with SAT; of floats a NaN is never dropped, a NaN or negative threshold drops nothing, an infinity only what an infinite threshold drops, and counts past the clamp (R260). vqblk quantises each block of 32 elements, an inactive one read as +0, to integers in vD and a scale word in vC: the least exponent of −127 to 127 at which every integer, rounded to nearest even, fits ±(2^(D−1) − 1), or 127, with a clamp and SAT where one does not; a NaN gives the scale 0xFF, zeros and IV; the elements of vD past the blocks are 0 (R76, R261). vdqblk gives back the integer times 2^(SCALE − 127), rounded, +0 for a ZERO block, and the canonical NaN with IV for every other tag, a reserved bit or the scale 0xFF (R262). -/
def Obligations.VectorBlocksAndThresholds : Prop :=
  quantDoes ∧ dequantDoes ∧
  ∀ (x : Args) (s : State), s.on →
    let w := etyBits x.ety
    let E := etyCount x.ety
    let a := velem x s x.a
    let thr := (s.leaf.thresh[(Fin.ofNat 16 (field x.imm.toNat 44 4))]).toNat % 2 ^ w
    (etyFmt x.ety = none →
      thresholds x s (fun i => (((etyVal x.ety (a i)).natAbs : Int) ≤ etyVal x.ety thr)) fun i => (etyVal x.ety (a i)).natAbs * 2 ^ 16)
    ∧ (∀ f, etyFmt x.ety = some f → thresholds x s
        (fun i => match fdecode f (a i), fdecode f thr with
          | .nan _, _ | _, .nan _ => false
          | .inf _, .inf n => !n
          | .inf _, .fin _ _ _ => false
          | .fin _ _ _, .inf n => !n
          | .fin n m e, .fin n' m' e' => decide (ratAbs (fvRat (.fin n m e)) ≤ fvRat (.fin n' m' e')))
        fun i => match fdecode f (a i) with
          | .fin n m e => (ratAbs (fvRat (.fin n m e)) * 2 ^ 16).floor.toNat
          | _ => 2 ^ 64)
    ∧ (let sty := modSty x
       let N := etyCount sty
       let val (i : Nat) : Fv := if (s.leaf.guardMask x.guard N).testBit i then fdecode (fmtOf sty) ((vsrcOf x s true x.a (etyBits sty)).1 i) else .fin false 0 0
       let q (j : Nat) : Nat × List Int × Flags := quantBlock w ((List.range 32).map fun i => val (32 * j + i))
       N ≤ 4096 / w → x.d.vreg ≠ x.c.vreg → ∃ t, exec (.vqblk x) s = .next t ∧ onlyLeaf s t
        ∧ vFrame s.leaf t.leaf (fun n => n = x.d.vreg ∨ n = x.c.vreg) ((List.range (N / 32)).foldl (fun f j => f ||| (q j).2.2) 0)
        ∧ (∀ i, i < 4096 / w → elem w i (t.leaf.v[x.d.vreg]).toNat =
            if i < N / 32 * 32 then (((q (i / 32)).2.1.getD (i % 32) 0) % 2 ^ w).toNat else 0)
        ∧ ∀ j, j < 256 → elem 16 j (t.leaf.v[x.c.vreg]).toNat = if j < N / 32 then (q j).1 % 2 ^ 16 else elem 16 j (s.leaf.v[x.c.vreg]).toNat)
    ∧ (let sty := modSty x
       let r (i : Nat) : Nat × Flags := dequant (fmtOf x.ety) (modRm x) (modFtz x)
         (etyVal sty ((vsrcOf x s true x.a (etyBits sty)).1 i)) ((vsrcOf x s true x.b 16).1 (i / 32))
       ∃ t, exec (.vdqblk x) s = .next t ∧ putsV s t x w E (fun i => (r i).1) (vflags s x E fun i => (r i).2))

/-- The lanes of a vector register take the OR over their elements of width w of what is written to them, and keep their own taint where an element is not written; a 64-bit element has both of its lanes (R237). -/
def laneTaints (s t : State) (d : Fin 32) (w : Nat) (written taint : Nat → Bool) : Prop :=
  ∀ l, l < 128 → (t.leaf.vT[d]).getLsbD l = (List.range (if w = 64 then 1 else 32 / w)).any fun k =>
    let i := if w = 64 then l / 2 else l * (32 / w) + k
    if written i then taint i else (s.leaf.vT[d]).getLsbD l

/-- The instruction goes on, and the lanes of vD take, for each active element, the taint `src` of what it reads, that of its guard bit and the control taint (R116, R237). -/
def taintsLanes (i : Instr) (x : Args) (s : State) (E w : Nat) (src : Nat → Bool) : Prop :=
  ∃ t, exec i s = .next t ∧ laneTaints s t x.d.vreg w (fun e => (s.leaf.guardMask x.guard E).testBit e) fun e =>
    src e || (s.leaf.guardTaint x.guard).testBit e || s.leaf.ctlTaint

/-- The taint of the lanes that each vector instruction on registers writes (R116, R237, R245, R246, R253 to R256, R259, R261, R262). -/
def laneTaintDoes : Prop :=
  ∀ (x : Args) (s : State), s.on →
    let w := etyBits x.ety
    let E := etyCount x.ety
    let sty := modSty x
    let a := (vsrcOf x s true x.a w).2
    let b := (vsrcOf x s true x.b w).2
    let c := (vsrcOf x s true x.c w).2
    let act := activeEls s x E
    let gt (e : Nat) : Bool := (s.leaf.guardTaint x.guard).testBit e
    let all : Bool := ((List.range E).any gt) || s.leaf.ctlTaint
    let ctl := (srcOf x s true x.c).1
    let at' := (srcOf x s true x.b).1 % E
    (∀ i ∈ [Instr.vadd x, .vaddSat x, .vsub x, .vsubSat x, .vmul x, .vmulHi x, .vmin x, .vmax x, .vand x, .vor x, .vxor x, .vandn x,
            .vshl x, .vshr x, .vsra x, .vbmm8 x, .vpdep x, .vpext x], taintsLanes i x s E w fun e => a e || b e)
    ∧ (∀ i ∈ [Instr.vfma x, .vfnma x], taintsLanes i x s E w fun e => a e || b e || c e)
    ∧ (∀ i ∈ [Instr.vabs x, .vneg x, .vexp2 x, .vlog2 x, .vrcp x, .vrsq x, .vtanh x, .vbcast x, .vcvt x, .vthz x], taintsLanes i x s E w a)
    ∧ (∀ k, ∃ t, exec (.vcmp k x) s = .next t ∧ (x.d.preg ≠ 0 → ∀ i, i < 1024 → (t.leaf.taintP x.d.preg).getLsbD i =
        (decide (i < E) && (((s.leaf.guardMask x.guard E).testBit i && (a i || b i)) || gt i || s.leaf.ctlTaint))))
    ∧ taintsLanes (.vsel x) x s E w (fun e =>
        (if (s.leaf.readP x.a.preg).getLsbD e then b e else c e) || (s.leaf.taintP x.a.preg).getLsbD e)
    ∧ taintsLanes (.vperm x) x s E w (fun e => a (velem x s x.b e % E) || b e)
    ∧ (field ctl 0 4 ≤ 6 → (field ctl 0 4 = 5 → 2 ^ field ctl 4 12 ≤ E) →
        taintsLanes (.vshuf x) x s E w (shuffled (field ctl 0 4) (field ctl 4 12) E a b))
    ∧ taintsLanes (.vbperm x) x s 64 64 (fun e => (vsrcOf x s true x.a 64).2 e
        || (List.range 12).any fun l => (s.leaf.vT[x.b.vreg]).getLsbD l)
    ∧ (∀ k, taintsLanes (.vnar k x) x s E w fun e =>
        laneTaint (s.leaf.vT[(Fin.ofNat 32 (x.a.vreg.val + e % Wid.k k))]) (etyBits sty) (e / Wid.k k))
    ∧ (∀ k, w = Wid.k k * etyBits sty → x.d.vreg.val + Wid.k k ≤ 32 → ∃ t, exec (.vwid k x) s = .next t ∧
        ∀ r : Fin 32, x.d.vreg.val ≤ r.val → r.val < x.d.vreg.val + Wid.k k →
          let i (q : Nat) : Nat := q * Wid.k k + (r.val - x.d.vreg.val)
          laneTaints s t r w (fun q => (s.leaf.guardMask x.guard (etyCount sty)).testBit (i q))
            fun q => (vsrcOf x s true x.a (etyBits sty)).2 (i q) || gt (i q) || s.leaf.ctlTaint)
    ∧ taintsLanes (.vdqblk x) x s E w (fun e => (vsrcOf x s true x.a (etyBits sty)).2 e || (vsrcOf x s true x.b 16).2 (e / 32))
    ∧ (let N := etyCount sty
       let blk (j : Nat) : Bool := ((List.range 32).any fun i => (vsrcOf x s true x.a (etyBits sty)).2 (32 * j + i) || gt (32 * j + i)) || s.leaf.ctlTaint
       N ≤ 4096 / w → x.d.vreg ≠ x.c.vreg → ∃ t, exec (.vqblk x) s = .next t
        ∧ laneTaints s t x.d.vreg w (fun _ => true) (fun e => if e < N / 32 * 32 then blk (e / 32) else s.leaf.ctlTaint)
        ∧ laneTaints s t x.c.vreg 16 (fun e => decide (e < N / 32)) blk)
    ∧ (∃ t, exec (.vcompress x) s = .next t ∧ laneTaints s t x.d.vreg w (fun _ => true) fun e =>
        (match act[e]? with | some k => a k | none => false) || all)
    ∧ (∃ t, exec (.vexpand x) s = .next t ∧ laneTaints s t x.d.vreg w (fun e => (s.leaf.guardMask x.guard E).testBit e)
        fun e => a (act.countP fun k => k < e) || all)
    ∧ (s.leaf.active x.guard = true → ∃ t, exec (.vset x) s = .next t ∧ laneTaints s t x.d.vreg w (fun e => e == at') fun _ =>
        (srcOf x s true x.a).2 || (srcOf x s true x.b).2 || s.leaf.ctlT x.guard)

/-- The element-wise instructions on integer types: vadd, vsub, vmul, vfma, vfnma, vabs and vneg wrap to the width, vmul.hi takes the high half of the exact product, vmin and vmax go by signedness, the saturating forms clamp to the type's range and set SAT where an active element was clamped (R54, R241, R242). The taint of a lane of vD after any vector instruction that writes registers, on integers and floats alike, is the OR over its elements of the lanes read, the guard bit and the control taint where written, of the lane's own taint where not (R237, R116): of A, of A and B, or of the three sources; vsel reads the operand taken and the bit of pA (R246), vperm the index and the element named, vshuf the element it takes, vbperm lanes 0 to 11 of vB too, vdqblk the scale word; vcompress and vexpand take every guard bit (R255), vqblk those of the block (R261). A bit of pD after vcmp takes the lanes read where active, and, active or not, the guard bit and the control taint (R245). That the zeros vqblk writes past its blocks take the control taint alone is the model's reading (log 80). -/
def Obligations.VectorIntegers : Prop :=
  (∀ (x : Args) (s : State), s.on → etyFmt x.ety = none →
    let w := etyBits x.ety
    let E := etyCount x.ety
    let a (i : Nat) : Int := etyVal x.ety (velem x s x.a i)
    let b (i : Nat) : Int := etyVal x.ety (velem x s x.b i)
    let c (i : Nat) : Int := etyVal x.ety (velem x s x.c i)
    let lo : Int := if etySigned x.ety then -(2 ^ (w - 1)) else 0
    let hi : Int := if etySigned x.ety then 2 ^ (w - 1) - 1 else 2 ^ w - 1
    (∀ p ∈ [(Instr.vadd x, fun i => a i + b i), (.vsub x, fun i => a i - b i), (.vmul x, fun i => a i * b i),
            (.vmulHi x, fun i => a i * b i / 2 ^ w), (.vfma x, fun i => a i * b i + c i), (.vfnma x, fun i => c i - a i * b i),
            (.vmin x, fun i => min (a i) (b i)), (.vmax x, fun i => max (a i) (b i)),
            (.vabs x, fun i => ((a i).natAbs : Int)), (.vneg x, fun i => -a i)],
      ∃ t, exec p.1 s = .next t ∧ putsV s t x w E (fun i => (p.2 i % 2 ^ w).toNat) 0)
    ∧ ∀ p ∈ [(Instr.vaddSat x, fun i => a i + b i), (.vsubSat x, fun i => a i - b i)],
      ∃ t, exec p.1 s = .next t ∧ putsV s t x w E (fun i => (max lo (min hi (p.2 i)) % 2 ^ w).toNat)
        (vflags s x E fun i => if lo ≤ p.2 i ∧ p.2 i ≤ hi then 0 else flagSAT))
  ∧ laneTaintDoes

/-! ## The matrix unit -/

/-- A leaf of a compute core holds no fault of a matrix job to report and no job that an instruction on the tile must wait for. -/
def mxReady (s : State) (tile : Option Nat) : Prop :=
  s.on ∧ s.noMatrix = false ∧ s.leaf.mxFault = [] ∧ s.mxBusy tile = false

/-- mxmul: with both descriptors read and every byte of the job admitted, a descriptor outside its limits is MX_DESC_BAD; with a place in the core's queue, and no parked job of the leaf, the lines read are cleaned and the job is the last of the queue with the fields of the instruction, its HINT.L2 for the lines it reads with them (R102), and the control taint or the taint of the guard (R116); else it waits, and then goes on with what it has read (R272). mxwait with nothing to wait for moves on; mxrd copies the active elements of a tile row to vD; mxwr writes the active elements of vA to a tile row and leaves the rest of the tiles; mxst converts and stores the elements of the tile and raises the conversions' flags, an element beyond the 128 rows and columns of a tile being a free value (log 18). A string core has NO_MATRIX (R13, R268, R272, R278, R279, R280), and that a die control core has it too is the model's choice (log 24). -/
def Obligations.MatrixInstructions : Prop :=
  (∀ (x : Args) (s s1 s2 s3 s4 s5 s6 : State) (ta tb : Target) (da db : MxDesc) (za zb : Bool) (ra rb : List (Nat × Nat)),
    s.on → s.noMatrix = false → s.leaf.active x.guard = true →
    let ea := (srcOf x s false x.a).1
    let eb := (srcOf x s false x.b).1
    let kb := (srcOf x s false x.c).1
    let na := field x.imm.toNat 0 4 + 1
    let nw := field x.imm.toNat 4 4 + 1
    let core := s.curCore
    let good := 1 ≤ kb ∧ kb ≤ 2 ^ 24 ∧ da.valid na = true ∧ db.valid nw = true ∧ za = true ∧ zb = true ∧ mxSteps kb ≤ da.cstr ∧ mxSteps kb ≤ db.cstr
    let who : Actor := { s.actor with hint := x.hint.toNat / 4 * 4 }
    s.leaf.mxIssued = none → mxCheck who ea 32 s = .ok ta s1 → mxCheck who eb 32 s1 = .ok tb s2 →
    readMxDesc who ta ea s2 = .ok (da, za) s3 → readMxDesc who tb eb s3 = .ok (db, zb) s4 →
    (¬ good → exec (.mxmul x) s = .next (s4.takeTrap { cause := .mxDescBad }).settle)
    ∧ (good → mxCheckAll who (da.pieces na kb) s4 = .ok ra s5 → mxCheckAll who (db.pieces nw kb) s5 = .ok rb s6 →
      let L := s6.leaf
      let job : MxJob := { ctx := L.ctx, entry := L.entry, tile := x.d.tile, da := da, db := db, kb := kb
                           period := 2 ^ field x.imm.toNat 40 2, na := na, nw := nw, init := x.imm.toNat.testBit 42
                           weight := L.wrr.toNat, pc := L.pc, step := 0, ctlTaint := L.ctlT x.guard, hint := x.hint.toNat / 4 * 4 }
      let t := s6.mxClean core (ra ++ rb)
      let u := (t.setCore core { t.core core with mxq := (t.core core).mxq ++ [job] }).occSet (occBuf core) L.ctx
      ((s6.core core).mxq.length < Config.mxQueue → s6.leaf.parked = [] →
        exec (.mxmul x) s = .next (u.setLeaf ({ u.leaf with mxIssued := none } : Leaf).advance).settle)
      ∧ (Config.mxQueue ≤ (s6.core core).mxq.length ∨ s6.leaf.parked ≠ [] →
        exec (.mxmul x) s = .next (s6.setLeaf { L with mxIssued := some (job, ra ++ rb) }).markWaiting.settle)))
  ∧ (∀ (x : Args) (s : State) (job : MxJob) (rs : List (Nat × Nat)), s.on → s.noMatrix = false → s.leaf.active x.guard = true →
    let core := s.curCore
    let t := s.mxClean core rs
    let u := (t.setCore core { t.core core with mxq := (t.core core).mxq ++ [job] }).occSet (occBuf core) job.ctx
    s.leaf.mxIssued = some (job, rs) →
    ((s.core core).mxq.length < Config.mxQueue → s.leaf.parked = [] →
      exec (.mxmul x) s = .next (u.setLeaf ({ u.leaf with mxIssued := none } : Leaf).advance).settle)
    ∧ (Config.mxQueue ≤ (s.core core).mxq.length ∨ s.leaf.parked ≠ [] →
        exec (.mxmul x) s = .next (s.setLeaf { s.leaf with mxIssued := some (job, rs) }).markWaiting.settle))
  ∧ (∀ (x : Args) (s : State),
    let r := (srcOf x s false x.b).1 % 128
    (mxReady s none → s.leaf.active x.guard = true → exec (.mxwait x) s = .next (s.setLeaf s.leaf.advance).settle)
    ∧ (mxReady s (some x.a.tile) → ∃ L, exec (.mxrd x) s = .next (s.setLeaf L).settle ∧ vFrame s.leaf L (· = x.d.vreg) 0
        ∧ ∀ i, i < 128 → elem 32 i (L.v[x.d.vreg]).toNat =
            if (s.leaf.guardMask x.guard 128).testBit i = true then elem 32 i (s.leaf.tileRow x.a.tile r).val.toNat
            else elem 32 i (s.leaf.v[x.d.vreg]).toNat)
    ∧ (mxReady s (some x.d.tile) → ∃ L, exec (.mxwr x) s = .next ((s.occSet (occOctet (coreOctet s.curCore)) s.leaf.ctx).setLeaf L).settle
        ∧ L = { s.leaf with tiles := L.tiles, pc := s.leaf.pc + 16 }
        ∧ (∀ tile row, (tile ≠ x.d.tile ∨ row ≠ r) → row < 128 → L.tileRow tile row = s.leaf.tileRow tile row)
        ∧ ∀ i, i < 128 → elem 32 i (L.tileRow x.d.tile r).val.toNat =
            if (s.leaf.guardMask x.guard 128).testBit i = true then elem 32 i (s.leaf.v[x.a.vreg]).toNat
            else elem 32 i (s.leaf.tileRow x.d.tile r).val.toNat)
    ∧ (mxReady s (some x.c.tile) → s.leaf.active x.guard = true →
        let a := srcOf x s true x.a
        let b := srcOf x s true x.b
        let e := srcOf x s true x.e
        let rows := field e.1 0 8 + 1
        let cols := field e.1 8 8 + 1
        let size := elSize x.ety
        let el (k : Nat) : (Nat × Flags) × Bool :=
          let v := s.leaf.tileElem x.c.tile (k / cols) (k % cols)
          (if x.ety = .f32 then (v.1, 0) else cvtElem .f32 x.ety (modRm x) (modFtz x) false v.1, v.2)
        ∀ ts s1 s2, checkAll x.hint.toNat (mxstEls a.1 b.1 rows cols size) size .store s = .ok ts s1 →
          storeAll ts size (noAlloc x) (fun k => (fun _ => toBytes size (el k).1.1, (el k).2 || (a.2 || b.2 || e.2 || s.leaf.ctlT x.guard))) false s1 = .ok () s2 →
          exec (.mxst x) s = .next (s2.setLeaf (s2.leaf.raise ((List.range (rows * cols)).foldl (fun f k => f ||| (el k).1.2) 0)).advance).settle)
    ∧ (s.on → s.noMatrix = true → ∀ i ∈ [Instr.mxmul x, .mxwait x, .mxrd x, .mxwr x, .mxst x],
        exec i s = .next (s.takeTrap { cause := .noMatrix }).settle))

/-! ## Engine commands -/

/-- The function number of an engine instruction. -/
def engInstrs (x : Args) : List (Instr × Nat) :=
  [(.engCopy x, 0), (.engGath x, 1), (.engScat x, 2), (.engWin x, 3), (.engDec x, 4), (.engSeal x, 5), (.engRing x, 6), (.engColl x, 7)]

/-- Issue of an engine command (R211, R212): a card address that is not a multiple of 128 traps ENG_CARD_ALIGN, a card that is not valid ENG_CARD_BAD; the card is read once, and kept while the issue waits for a ticket or for a place for the reply in a q-register; with both, the footprint is released, the job accepted, and the instruction is over; for an s-register it waits for the reply, which it writes once the job is done, tainted by its sources alone (R116). eng.wait gives the reply of a job that is done, after acquiring what it wrote, and waits for one that is not; for ticket 0 the first error among its tickets, or DONE alone, once all are done; eng.stat gives the word as it stands, tainted and counted; a number that is no live ticket, and 0 for eng.stat, traps ENG_TICKET_NONE (R213, R229, R230). The address that ENG_CARD_BAD and ENG_CARD_ALIGN report, the card kept over a wait, and the jobs and eng.stat of a control core, which belong to no context and count no event, are the model's choices (logs 30 and 24). -/
def Obligations.EngineCommands : Prop :=
  (∀ (s s1 s2 : State) (a : Nat) (card : Card) (t : Target) (bs : List Byte) (tn : Bool),
    (s.leaf.card = some card → engCard a s = .ok card s)
    ∧ (s.leaf.card = none → mxCheck s.actor a 128 s = .ok t s1 → loadEl s.actor t a 128 false s1 = .ok (bs, tn) s2 →
        engCard a s = .ok (BitVec.ofNat 1024 (ofBytes bs)) s2))
  ∧ (∀ (x : Args) (s s2 : State) (card : Card), s.on → s.leaf.active x.guard = true →
    let a := (srcOf x s true x.a).1
    let delta := (srcOf x s true x.b).1
    let core := s.curCore
    let keep : State := s2.setLeaf { s2.leaf with card := some card }
    ∀ p ∈ engInstrs x,
      (s.leaf.committed = none → a % 128 ≠ 0 → exec p.1 s = .next (s.takeTrap { cause := .engCardAlign, addr := a }).settle)
      ∧ (s.leaf.committed = none → a % 128 = 0 → engCard a s = .ok card s2 →
        let rel := s2.releaseRanges core s2.leaf.ctx (cardReads card p.2 core 0 ++ cardWrites card p.2 delta core 0)
        (cardValid card p.2 delta s.pkg.index = false → exec p.1 s = .next (s2.takeTrap { cause := .engCardBad, addr := a }).settle)
        ∧ (∀ n : Fin 16, cardValid card p.2 delta s.pkg.index = true → x.d = .q n → (s.leaf.q[n]).length < Config.queueDepth →
            (s.core core).jobs.length < Config.tickets →
            let u := rel.engAccept p.2 delta card (some n.val) (x.hint.toNat / 4)
            exec p.1 s = .next (u.setLeaf u.leaf.advance).settle)
        ∧ (∀ n : Fin 64, cardValid card p.2 delta s.pkg.index = true → x.d = .s n → (s.core core).jobs.length < Config.tickets →
            exec p.1 s = .next (rel.engAccept p.2 delta card none (x.hint.toNat / 4)).markWaiting.settle)
        ∧ (cardValid card p.2 delta s.pkg.index = true →
            Config.tickets ≤ (s.core core).jobs.length ∨ (∃ n : Fin 16, x.d = .q n ∧ Config.queueDepth ≤ (s.leaf.q[n]).length) →
            exec p.1 s = .next keep.markWaiting.settle))
      ∧ (∀ n tk, s.leaf.committed = some n → tfind s.leaf.tickets n = some tk → replyDone tk.reply = true →
          let u := s.acquireRanges core s.leaf.ctx tk.writes
          exec p.1 s = .next (u.setLeaf (({ u.leaf with committed := none }).putS x tk.reply ((srcOf x s true x.a).2 || (srcOf x s true x.b).2)).advance).settle)
      ∧ (∀ n tk, s.leaf.committed = some n → tfind s.leaf.tickets n = some tk → replyDone tk.reply = false →
          exec p.1 s = .next s.markWaiting.settle))
  ∧ (∀ (x : Args) (s : State), s.on → s.leaf.active x.guard = true →
    let id := (srcOf x s true x.a).1 % 2 ^ 16
    let fin (t : State) (r : Quad) (tn : Bool) : Host.Outcome State Fault Refusal := .next (t.setLeaf (t.leaf.putS x r tn).advance).settle
    let acq (ws : List (Nat × Nat)) : State := s.acquireRanges s.curCore s.leaf.ctx ws
    let ta := (srcOf x s true x.a).2
    (∀ n tk, id ≠ 0 → s.leaf.liveTicket id = some (n, tk) →
      (replyDone tk.reply = true → exec (.engWait x) s = fin (acq tk.writes) tk.reply ta)
      ∧ (replyDone tk.reply = false → exec (.engWait x) s = .next s.markWaiting.settle)
      ∧ (∀ core slot, s.cur = .leaf core slot → exec (.engStat x) s = fin (s.countTaint s.leaf.ctx 1) tk.reply true)
      ∧ (∀ d, s.cur = .dcc d → exec (.engStat x) s = fin s tk.reply true))
    ∧ (id = 0 → (∀ e ∈ s.leaf.tickets, replyDone e.2.reply = true) →
      let ws := (s.leaf.tickets.map fun e => e.2.writes).flatten
      ((∀ e ∈ s.leaf.tickets, e.2.reply.getLsbD 46 = false) → exec (.engWait x) s = fin (acq ws) (BitVec.ofNat 64 (2 ^ 47)) ta)
      ∧ ∀ l e r, s.leaf.tickets = l ++ e :: r → (∀ y ∈ l, y.2.reply.getLsbD 46 = false) → e.2.reply.getLsbD 46 = true →
          exec (.engWait x) s = fin (acq ws) e.2.reply ta)
    ∧ (id = 0 → exec (.engStat x) s = .next (s.takeTrap { cause := .engTicketNone }).settle)
    ∧ (id ≠ 0 → s.leaf.liveTicket id = none → ∀ i ∈ [Instr.engWait x, .engStat x],
        exec i s = .next (s.takeTrap { cause := .engTicketNone }).settle))

/-! ## Events: engines, matrix units, messages, atoms -/

/-- The reply word of a job that is over (Table 7-4): its ticket, DONE, ERR with the cause, COUNT. -/
def replyWord (j : Job) (q : Quad) : Prop :=
  field q.toNat 48 16 = ticketId j.ticket ∧ q.getLsbD 47 = true ∧ q.getLsbD 46 = j.fail.isSome
    ∧ field q.toNat 39 7 = (match j.fail with | some c => causeCode c % 128 | none => 0) ∧ field q.toNat 0 39 = min j.count (2 ^ 39 - 1)

/-- The bytes that a write of a job puts, with their addresses. -/
def writtenBytes : JobWrite → List (Nat × Byte)
  | .bytes a bs _ => bs.zipIdx.map fun b => ((a + b.2) % 2 ^ 64, b.1.1)
  | .word a v _ _ _ => (toBytes 4 v.toNat).zipIdx.map fun b => ((a + b.2) % 2 ^ 64, b.1)

/-- What the units of the engines' functions write (R217, R221 to R224): the pieces cover the data byte by byte; eng.copy copies its rows in order, up to the first byte that it cannot read; eng.gath and eng.scat take the element that their index names, zeros or nothing for the sentinel, ENG_INDEX_RANGE at or beyond the limit, and taint the bytes by the index; eng.win reads a run whose bounded coordinates are inside, and writes FILL elsewhere; eng.dec decodes the blocks of a chunk in the geometry of the row's window into planes and a scale row. -/
def engineUnits : Prop :=
  (∀ (core ea : Nat) (j : Job) (last : Bool) (data : List (Byte × Bool)),
    (∀ i, i < data.length → engScratch core ((ea + i) % 2 ^ 64) = false)
      ∨ (data.length % 4 = 0 ∧ ea < 2 ^ 64 ∧ ∀ i, i < data.length → engScratch core ((ea + i) % 2 ^ 64) = true) →
    ((engSplit core j last data.length ea data).map writtenBytes).flatten = data.zipIdx.map fun b => ((ea + b.2) % 2 ^ 64, b.1.1))
  ∧ (∀ (core : Nat) (j : Job) (at' : Nat → State) (bufs : Nat → List (Byte × Bool)),
    let c := j.card
    let rows := cardAt c 0x34 4
    let src (r : Nat) : Nat := addrPlus (cardAt c 0x20 8) (r * cardInt c 0x38 8)
    let dst (r : Nat) : Nat := addrPlus (cardDst c 0 j.delta) (r * cardInt c 0x40 8)
    let rd (r : Nat) (e : Option Cause) : Prop :=
      engRead core j (cardAt c 0x30 4) (src r) (cardAt c 0x30 4) (at' r) = .ok (bufs r, e) (at' (r + 1))
    let out (k : Nat) : List JobWrite :=
      ((List.range k).map fun r => engSplit core j (cardFlag c 1 && decide (r + 1 = rows)) (bufs r).length (dst r) (bufs r)).flatten
    ((∀ r, r < rows → rd r none) → unitCopy core j (at' 0) = .ok (out rows, none) (at' rows))
    ∧ ∀ k e, k < rows → (∀ r, r < k → rd r none) → rd k (some e) →
        unitCopy core j (at' 0) = .ok (out k ++ engSplit core j false (bufs k).length (dst k) (bufs k), some e) (at' (k + 1)))
  ∧ (∀ (core u x : Nat) (j : Job) (tx : Bool) (s s1 : State), idxAt core j u s = .ok (x, tx) s1 →
    let c := j.card
    let es := cardAt c 0x3C 2
    let sentinel := cardAt c 0x48 4
    let limit := cardAt c 0x44 4
    let stride := cardAt c 0x40 4
    let src := cardAt c 0x20 8
    (x = sentinel →
      unitGath core j u s = .ok (engSplit core j (j.endsAt u) es ((cardMoved c j.delta 0x28 + u * es) % 2 ^ 64) (List.replicate es (0, tx))) s1
      ∧ unitScat core j u s = .ok [] s1)
    ∧ (x ≠ sentinel → limit ≤ x → (∃ t, unitGath core j u s = .error (.trap t) s1 ∧ t.cause = .engIndexRange)
        ∧ ∃ t, unitScat core j u s = .error (.trap t) s1 ∧ t.cause = .engIndexRange)
    ∧ (∀ bs s2, x ≠ sentinel → x < limit → engReadAll core j ((src + x * stride) % 2 ^ 64) es s1 = .ok bs s2 →
        unitGath core j u s = .ok (engSplit core j (j.endsAt u) es ((cardMoved c j.delta 0x28 + u * es) % 2 ^ 64) (bs.map fun b => (b.1, b.2 || tx))) s2)
    ∧ (∀ bs s2 s3 last, x ≠ sentinel → x < limit → engReadAll core j ((src + u * es) % 2 ^ 64) es s1 = .ok bs s2 →
        (if cardFlag c 1 then restSentinel core j (cardUnits c 2 - (u + 1)) (u + 1) s2 = .ok last s3 else last = false ∧ s3 = s2) →
        unitScat core j u s = .ok (engSplit core j last es ((cardMoved c j.delta 0x28 + x * stride) % 2 ^ 64) (bs.map fun b => (b.1, b.2 || tx))) s3))
  ∧ (∀ (core u : Nat) (j : Job) (s s1 : State) (bs : List (Byte × Bool)),
    let c := j.card
    let n := cardAt c 0x30 2
    let inside := winInside c u 0x34 0x38 2 = true ∧ winInside c u 0x36 0x3A 3 = true
    let put (data : List (Byte × Bool)) : List JobWrite := engSplit core j (j.endsAt u) n (addrPlus (cardMoved c j.delta 0x28) (winSum c u 8 4)) data
    (inside → engReadAll core j (addrPlus (cardAt c 0x20 8) (winSum c u 4 4)) n s = .ok bs s1 → unitWin core j u s = .ok (put bs) s1)
    ∧ (¬ inside → unitWin core j u s = .ok (put (List.replicate n (BitVec.ofNat 8 (cardAt c 0x32 1), false))) s))
  ∧ (∀ (c : Card) (u : Nat), (∀ k, k < 4 → 1 ≤ winN c k) → u < winN c 0 * winN c 1 * winN c 2 * winN c 3 →
    (∀ k, k < 4 → winCoord c u k < winN c k)
    ∧ u = ((winCoord c u 0 * winN c 1 + winCoord c u 1) * winN c 2 + winCoord c u 2) * winN c 3 + winCoord c u 3)
  ∧ (∀ (core u r pa win : Nat) (j : Job) (f : Fwin) (s s1 s2 s3 s4 : State) (words pays : List (Nat × Bool)) (tab : Nat → Nat) (tt : Bool)
      (ps : List Nat) (sw : List Nat),
    let c := j.card
    let k := cardAt c 0x44 4
    let per := ceilDiv k 256
    let va := (cardAt c 0x20 8 + u / per * cardAt c 0x38 8) % 2 ^ 64
    let who := (s1.engActor core j).who
    let row := (pa - f.pbase) / f.rstr
    let b0 := (pa - f.pbase) % f.rstr / f.bud
    let first := u % per * 8
    let n := min 8 (ceilDiv k 32 - first)
    let tn := words.any (·.2) || pays.any (·.2) || tt
    let put (last : Bool) (dst : Nat) (bs : List Byte) : List JobWrite := engSplit core j last bs.length (dst % 2 ^ 64) (bs.map fun b => (b, tn))
    decRow core j u s = .ok (r, pa, win) s1 → s1.fwinOf (win / 512) (win / 16 % 32) (win % 16) = some f → f.rstr ≠ 0 →
    (pa - f.pbase) % f.rstr % f.bud = 0 → b0 + ceilDiv k 32 ≤ ceilDiv f.k 32 →
    (List.range n).mapM (fun i => decWord who f va row (b0 + first + i)) s1 = .ok words s2 →
    (∀ x ∈ words, scaleFault x.1 = none) →
    words.zipIdx.mapM (fun x => decPayload core j f va (first + x.2) x.1.1) s2 = .ok pays s3 →
    fwinTable who f (words.any fun x => field x.1 8 2 = 1) s3 = .ok (tab, tt) s4 →
    decodeChunk f.bud tab (List.zip (pays.map (·.1)) (words.map (·.1))) (min 256 (k - u % per * 256)) = .ok (ps, sw) →
    unitDec core j u s = .ok (put false (cardMoved c j.delta 0x28 + u * planesOf f.bud * 32) (ps.map (toBytes 32)).flatten
      ++ put (j.endsAt u) (cardMoved c j.delta 0x30 + 16 * u) (toBytes 16 (packElems 16 sw)), planesOf f.bud * 32 + 16) s4)

/-- How the units of a job are prepared and performed (R217, R219): the writes of the next unit once those of the last are made; each write is checked first; with WS a word that is FULL makes the job wait, POISON and END end it; a word becomes FULL, or END where SETEND asks for it. -/
def engineRuns : Prop :=
  (∀ (core u : Nat) (j : Job) (s s1 : State) (ws : List JobWrite),
    (j.fn = 0 → ∀ e, unitCopy core j s = .ok (ws, e) s1 → engUnit core j u s = .ok (ws, e) s1)
    ∧ (j.fn = 1 → unitGath core j u s = .ok ws s1 → engUnit core j u s = .ok (unitWrites 1 ws, none) s1)
    ∧ (j.fn = 2 → unitScat core j u s = .ok ws s1 → engUnit core j u s = .ok (unitWrites 1 ws, none) s1)
    ∧ (j.fn = 3 → unitWin core j u s = .ok ws s1 → engUnit core j u s = .ok (unitWrites (cardAt j.card 0x30 2) ws, none) s1)
    ∧ (j.fn = 4 → ∀ n, unitDec core j u s = .ok (ws, n) s1 → engUnit core j u s = .ok (unitWrites n ws, none) s1))
  ∧ (∀ (core jid : Nat) (j : Job) (s s1 : State) (ws : List JobWrite) (e : Option Cause) (t : Trap), s.job core jid = some j →
    (j.pend ≠ [] ∨ j.over = true → s.engNext core jid = s)
    ∧ (j.pend = [] → j.over = false → j.fn ≠ 4 → s1.job core jid = some j →
        (attempt (engUnit core j j.unit) s = .ok (.ok (ws, e)) s1 →
          s.engNext core jid = s1.setJob core jid { j with pend := ws, fail := e, unit := j.unit + 1 })
        ∧ (attempt (engUnit core j j.unit) s = .ok (.error t) s1 →
          s.engNext core jid = s1.setJob core jid { j with pend := [], fail := some t.cause })))
  ∧ (∀ (core : Nat) (j : Job) (w : JobWrite) (s s1 s2 s3 : State),
    engPrecheck core j w s = .ok () s1 → engReady core j w s1 = .ok () s2 → engWrite core j w s2 = .ok () s3 → engPutAll core j [w] s = .ok () s3)
  ∧ (∀ (core a n : Nat) (j : Job) (v : BitVec 32) (tn last : Bool) (s s1 : State) (old : ScrWord) (f : ScrWord → State → State),
    engWord core j a .store s = .ok (old, some f) s1 →
    let w : JobWrite := .word a v tn last n
    (cardFlag j.card 0 = false ∨ old.st = 0 → engReady core j w s = .ok () s1)
    ∧ (cardFlag j.card 0 = true → old.st = 1 → engReady core j w s = .error .wait s1)
    ∧ (cardFlag j.card 0 = true → old.st = 2 → ∃ t, engReady core j w s = .error (.trap t) s1 ∧ t.cause = .engWsEnd)
    ∧ (cardFlag j.card 0 = true → old.st = 3 → ∃ t, engReady core j w s = .error (.trap t) s1 ∧ t.cause = .engWsPoison)
    ∧ (engInside core j a 4 = true → engWrite core j w s = .ok () (f ⟨v, if last then 2 else 1, tn⟩ s1))
    ∧ (engInside core j a 4 = false → ∃ t, engPrecheck core j w s = .error (.trap t) s ∧ t.cause = .engFootprint))
  ∧ (∀ (core a size c k : Nat) (j : Job) (kind : Kind) (s : State),
    let off := namedAddr core j.slot a - scrNamed core (j.slot * 0x40000)
    scrNamed core (j.slot * 0x40000) ≤ namedAddr core j.slot a → off < size → size ≤ 0x40000 → s.ownPlace j.ctx j.entry = some (.slot c k, size) →
    ∃ f, engWord core j a kind s = .ok (s.scrWord c (k * 0x10000 + off / 4), some f) s ∧ ∀ w u, f w u = u.setScrWord c (k * 0x10000 + off / 4) w)
  ∧ (∀ (core jid stop fuel a n : Nat) (j : Job) (done : Bool) (s s1 : State) (t : Trap), s.job core jid = some j →
    (stop ≤ a → s.sealRun core jid stop (fuel + 1) a = s.setJob core jid { j with unit := 1 })
    ∧ (a < stop → s1.job core jid = some j →
        (attempt (sealStep core j a) s = .ok (.ok (n, done)) s1 → s.sealRun core jid stop (fuel + 1) a =
          (s1.setJob core jid { j with count := j.count + done.toNat }).sealRun core jid stop fuel (a - a % n + n))
        ∧ (attempt (sealStep core j a) s = .ok (.error t) s1 → s.sealRun core jid stop (fuel + 1) a =
          s1.setJob core jid { j with pend := [], fail := some t.cause })))

/-- One tile step of the job at the head of a core's queue (R273, R275, R277, R282): its operand rows are read; element (m, n) of its tile goes through MxJob.element of row m of A and row n of B, its taint is raised by theirs and the job's, every other row, column and tile stays; the job moves on to its next step, or leaves the queue after its last. A fault discards the leaf's jobs, parked ones with them, and waits, behind those that wait already, for the instruction that reports it. -/
def tileStep : Prop :=
  ∀ (s s1 s2 : State) (core slot : Nat) (job : MxJob) (rest : List MxJob) (ra rb : List MxRow),
    (s.core core).mxq = job :: rest → s.jobSlot core job.ctx job.entry = some slot → (s.ctx job.ctx).stop = none →
    let L := s.leafAt core slot
    let u : State := if job.init = true ∧ job.step = 0 then s.setLeafAt core slot { L with tiles := L.tiles.filter fun e => e.1 / 128 ≠ job.tile } else s
    let a := u.jobActor core slot job.hint
    let t := s.mxStepCore core
    (mxRows a job.da job.na job.kb job.step u = .ok ra s1 → mxRows a job.db job.nw job.kb job.step s1 = .ok rb s2 →
      ra.length ≤ 128 → rb.length ≤ 128 →
      let M := s2.leafAt core slot
      let N := t.leafAt core slot
      (t.core core).mxq = (if job.step + 1 < mxSteps job.kb then [{ job with step := job.step + 1 }] else []) ++ (s2.core core).mxq.drop 1
      ∧ N = { M with tiles := N.tiles, flags := N.flags }
      ∧ (∀ tile r, r < 128 → tile ≠ job.tile ∨ ra.length ≤ r → N.tileRow tile r = M.tileRow tile r)
      ∧ ∀ m x, ra[m]? = some x → ∀ n, n < 128 →
          let old := elem 32 n (M.tileRow job.tile m).val.toNat
          elem 32 n (N.tileRow job.tile m).val.toNat = (match rb[n]? with | some y => (job.element x y old).1 % 2 ^ 32 | none => old)
          ∧ (N.tileRow job.tile m).taint.getLsbD n = ((M.tileRow job.tile m).taint.getLsbD n ||
              (match rb[n]? with | some y => x.taint || y.taint || job.ctlTaint | none => false)))
    ∧ ∀ e, mxRows a job.da job.na job.kb job.step u = .error (.trap e) s2
        ∨ (mxRows a job.da job.na job.kb job.step u = .ok ra s1 ∧ mxRows a job.db job.nw job.kb job.step s1 = .error (.trap e) s2) →
      let mine (k : MxJob) : Bool := k.ctx = job.ctx && k.entry = job.entry
      let M := s2.leafAt core slot
      (t.core core).mxq = (s2.core core).mxq.filter (fun k => !mine k)
      ∧ t.leafAt core slot = { M with
          parked := [], mxFault := M.mxFault ++ [⟨e.cause, e.addr, job.step, job.pc, ((s2.core core).mxq.filter mine ++ M.parked).map (·.tile)⟩] }

/-- The events of the engines and the matrix units. A job starts when no job it waits for is left; it is cancelled where its launch is dead while it still waits for one, and not where it has none left (the model's reading, log 30), and failed where a predecessor failed; eng.seal then goes through the granules of its range, eng.ring declares or attaches, also among the saved words of a leaf that is suspended, whose record keeps the ring (the model's reading, log 30), eng.coll announces its member, and a job without WS runs to its end; a job with WS makes its next unit's writes one event at a time; the reply of a job that is over is delivered, the job removed and its successors freed (R212, R214, R215, R217, R219, R221 to R226, R231, Table 7-4). A collective waits for its members, for its own context to run and for its tenant's residence; members that disagree end COLL_MISMATCH, and those of a package out of reach COLL_ABORT (R228); COUNT of one that succeeds is a free value (the model's choice, log 19). A matrix unit first takes parked jobs that have room, then runs a tile step of the core whose turn it is, whose rows of A are read before those of B, the first fault in that order being reported and faults kept in order (the model's choice, log 29), and the jobs of a leaf whose context stops leave the queue for the leaf, ahead of those that it holds parked (R273, R275, R282, R284). -/
def Obligations.EngineAndMatrixEvents : Prop :=
  (∀ (s : State) (core jid : Nat), s.on →
    (∀ i ∈ [Instr.engJobStart core jid, .engWsWordWrite core jid, .engJobComplete core jid], s.job core jid = none → exec i s = .next s.settle)
    ∧ ∀ j, s.job core jid = some j →
      let go (i : Instr) (t : State) : Prop := exec i s = .next t.settle
      let st : State := s.setJob core jid { j with started := true }
      let failed (t : State) (c : Cause) : State := t.setJob core jid { j with started := true, fail := some c, pend := [] }
      let begins := j.started = false ∧ j.preds = [] ∧ j.predFailed = false
      (j.started = true ∨ (s.jobCancelled j = false ∧ j.preds ≠ []) → go (.engJobStart core jid) s)
      ∧ (j.started = false → j.preds ≠ [] → s.jobCancelled j = true → go (.engJobStart core jid) (failed s .engCancelled))
      ∧ (j.started = false → j.preds = [] → j.predFailed = true → go (.engJobStart core jid) (failed s .engPredFail))
      ∧ (begins → j.fn < 5 → go (.engJobStart core jid) (if cardFlag j.card 0 then st else st.engRun core jid))
      ∧ (begins → j.fn = 5 →
          let b := cardMoved j.card j.delta 0x20
          let n := cardAt j.card 0x28 8
          go (.engJobStart core jid) (st.sealRun core jid (b + n) (n / 512 + 2) b))
      ∧ (begins → j.fn = 6 →
          let lo := scrNamed core (j.slot * 0x40000)
          let n := namedAddr core j.slot (cardMoved j.card j.delta 0x20)
          let put (r : Except Cause State) (t : State) : Prop := match r with
            | .ok u => u.job core jid = some j → t = u.setJob core jid { j with started := true, unit := 1 }
            | .error c => t = failed s c
          ∃ t, go (.engJobStart core jid) t
            ∧ (s.ownPlace j.ctx j.entry = none → t = failed s .ringBad)
            ∧ (∀ c k size, s.ownPlace j.ctx j.entry = some (.slot c k, size) →
                put (s.ringRun c k (if lo ≤ n ∧ n < lo + 0x40000 then scrNamed c (k * 0x40000) + (n - lo) else n) j) t)
            ∧ (∀ b size, s.ownPlace j.ctx j.entry = some (.saved b, size) →
                put (if cardFlag j.card 3 then (if lo ≤ n ∧ n < lo + 0x40000 then s.ringSaved b size (n - lo) j else .error .ringBad)
                  else s.ringRun core j.slot n j) t))
      ∧ (begins → j.fn = 7 →
          (∀ src s', attempt (collSource core j) s = .ok (.ok src) s' → s'.job core jid = some j →
            go (.engJobStart core jid) { s'.setJob core jid { j with started := true } with colls := s'.colls ++ [{
              job := some (core, jid), pkg := s.pkg.index, tenant := s.jobTenant j, tag := cardAt j.card 0x3C 4, count := cardAt j.card 0x30 4
              op := cardAt j.card 0x34 1, kind := cardAt j.card 0x35 1, root := cardAt j.card 0x36 1, group := cardAt j.card 0x38 4, src := src }] })
          ∧ ∀ e s', attempt (collSource core j) s = .ok (.error e) s' → s'.job core jid = some j → go (.engJobStart core jid) (failed s' e.cause))
      ∧ (let u := if j.started = true ∧ j.fn ≠ 7 then s.engNext core jid else s
         ∀ k, u.job core jid = some k →
          (k.together = [] → go (.engWsWordWrite core jid) u)
          ∧ (∀ s', k.together ≠ [] → attempt (engPutAll core k k.together) u = .ok (.ok ()) s' → s'.job core jid = some k →
              go (.engWsWordWrite core jid) (s'.setJob core jid { k with
                pend := k.pend.drop k.together.length, count := k.count + (k.together.map JobWrite.adds).foldl (· + ·) 0 }))
          ∧ (∀ s' t, k.together ≠ [] → attempt (engPutAll core k k.together) u = .ok (.error t) s' → s'.job core jid = some k →
              go (.engWsWordWrite core jid) (s'.setJob core jid { k with fail := some t.cause, pend := [] }))
          ∧ (∀ s', k.together ≠ [] → attempt (engPutAll core k k.together) u = .error .wait s' → go (.engWsWordWrite core jid) u))
      ∧ (j.over = false → go (.engJobComplete core jid) s)
      ∧ (j.over = true → ∃ t : State, go (.engJobComplete core jid) t ∧ t = (s.deliver core j).setCore core { (s.deliver core j).core core with jobs := (t.core core).jobs }
          ∧ t.job core jid = none ∧ ∀ k, k ≠ jid → t.job core k = ((s.deliver core j).job core k).map fun x =>
            if x.preds.contains jid then { x with preds := x.preds.filter (· ≠ jid), predFailed := x.predFailed || j.fail.isSome } else x)
      ∧ replyWord j j.reply)
  ∧ engineUnits ∧ engineRuns
  ∧ (∀ (s : State) (core slot base : Nat) (j : Job),
    let n := cardAt j.card 0x28 4
    let mine : Nat × Nat := (j.entry, cardAt j.card 0x2C 1)
    let c := s.core core
    let lo := scrNamed core (slot * 0x40000)
    let off := slot * 0x40000 + (base - lo)
    let fits := lo ≤ base ∧ base + 4 * n ≤ lo + (s.ctx j.ctx).scratchOf (s.leafAt core slot).recIdx ∧ c.rings.length < Config.rings
      ∧ ∀ r ∈ c.rings, off + 4 * n ≤ r.base ∨ r.base + 4 * r.slots ≤ off
    let woken := (s.msgs.filter fun e => e.2.target = core && off / 4 ≤ e.2.word && e.2.word < off / 4 + n).map fun e => Pending.serve core e.2.word
    (cardFlag j.card 3 = true → ¬ fits → s.ringRun core slot base j = .error .ringBad)
    ∧ (cardFlag j.card 3 = true → fits → s.ringRun core slot base j = .ok (({ s.setCore core { c with
        rings := c.rings ++ [⟨off, n, j.ctx, j.entry, [mine]⟩]
        scr := c.scr.filter fun e => e.1 < off / 4 || off / 4 + n ≤ e.1 } with pending := s.pending ++ woken } : State).occSet (occNest (coreDie core)) j.ctx))
    ∧ (cardFlag j.card 3 = false → (∀ e ∈ s.cores, ∀ r ∈ e.2.rings, r.ctx ≠ j.ctx ∨ scrNamed e.1 r.base ≠ base) →
        s.ringRun core slot base j = .error .ringBad))
  ∧ (∀ (s : State) (box size off : Nat) (j : Job) (r : Rec), (s.ctx j.ctx).record box = some r →
    let n := cardAt j.card 0x28 4
    let fits := off + 4 * n ≤ size ∧ (s.core r.core).rings.length + r.rings.length < Config.rings
      ∧ ∀ g ∈ r.rings, off + 4 * n ≤ g.base ∨ g.base + 4 * g.slots ≤ off
    (¬ fits → s.ringSaved box size off j = .error .ringBad)
    ∧ (fits → ∃ u q, s.ringSaved box size off j = .ok u ∧ (u.ctx j.ctx).record box = some q
        ∧ q.rings = r.rings ++ [⟨off, n, j.ctx, j.entry, [(j.entry, cardAt j.card 0x2C 1)]⟩]
        ∧ ∀ k, k < n → u.ownWord j.ctx (.saved box) (off / 4 + k) = ⟨0, 0, false⟩))
  ∧ (∀ (s : State) (tenant tag : Nat), s.on →
    let ms := s.joins tenant tag
    let ended (t : State) : State := { t with colls := t.colls.filter fun m => !(m.tenant = tenant && m.tag = tag) }
    let lost (m : CollJoin) : Bool := (groupPkgs m.group).any fun p => p ≠ m.pkg && !s.podRoute p
    ((∀ m ∈ ms, m.job = none) → exec (.collStart tenant tag) s = .next s.settle)
    ∧ (collMismatch ms = true → (∃ m ∈ ms, m.job ≠ none) → exec (.collStart tenant tag) s = .next (ended (s.collFail ms .collMismatch)).settle)
    ∧ ∀ m core jid j l r, collMismatch ms = false → ms = l ++ m :: r → (∀ n ∈ l, n.job = none) → m.job = some (core, jid) → s.job core jid = some j →
      let all := (groupPkgs m.group).all fun p => ms.any (·.pkg = p)
      let resident := (1024 ≤ j.ctx ∨ ((s.ctx j.ctx).st = .running ∧ ∃ e ∈ s.holders, s.jobTenant { j with ctx := e.2 } = s.jobTenant j)) ∧ ∀ p ∈ groupPkgs m.group, p ≠ m.pkg → (p, tenant) ∈ s.podResident
      (lost m = true → exec (.collStart tenant tag) s = .next (ended (s.collFail ms .collAbort)).settle)
      ∧ (lost m = false → all = true → resident → exec (.collStart tenant tag) s = .next (ended (s.collFinish core jid j m ms)).settle)
      ∧ (lost m = false → all = false ∨ ¬ resident → exec (.collStart tenant tag) s = .next s.settle))
  ∧ (∀ (s : State) (core jid : Nat) (j : Job) (m : CollJoin) (ms : List CollJoin), s.job core jid = some j → cardFlag j.card 0 = true →
    let order := groupPkgs m.group
    let srcs := order.map fun p => ((ms.find? fun n => n.pkg = p).map (·.src)).getD []
    let rank (p : Nat) : Nat := (order.findIdx? (· = p)).getD 0
    let data := ((collResult m srcs (rank m.pkg) (rank m.root)).map fun (v, t) => (toBytes 4 v.toNat).map fun b => (b, t)).flatten
    s.collFinish core jid j m ms = s.setJob core jid { j with
      pend := unitWrites (Config.collCount j.card.toNat % 2 ^ 39) (engSplit core j (cardFlag j.card 1) data.length (cardMoved j.card j.delta 0x28) data)
      unit := 1 })
  ∧ (∀ (m : CollJoin) (srcs : List (List (BitVec 32 × Bool))) (r root e : Nat),
    let sum (i : Nat) : BitVec 32 × Bool := collElem m.op (srcs.map fun s => s.getD i (0, false))
    (m.kind = 0 → e < m.count → (collResult m srcs r root)[e]? = some (sum e))
    ∧ (m.kind = 1 → e < m.count / srcs.length → (collResult m srcs r root)[e]? = some (sum (r * (m.count / srcs.length) + e)))
    ∧ (m.kind = 2 → collResult m srcs r root = srcs.flatten)
    ∧ (m.kind = 3 → collResult m srcs r root = srcs.getD root []))
  ∧ (∀ (s : State) (o core : Nat), s.on → o < 64 →
    let u := s.mxRefill o
    (u.mxTurn o = none → exec (.mxTileStep o) s = .next u.settle)
    ∧ (∀ i credit, u.mxTurn o = some (i, credit) →
      let t := u.mxStepCore (octetCore o i)
      exec (.mxTileStep o) s = .next ({ t with
        arbLast := tset t.arbLast o i
        arbCredit := tset t.arbCredit o (if (t.core (octetCore o i)).mxq = [] then 0 else credit - 1) } : State).settle)
    ∧ ((∀ i k, i < 8 → k < 4 → (s.leafAt (octetCore o i) k).parked = []) → u = s)
    ∧ ((∀ i, (s.core (octetCore o i)).mxq = []) → s.mxTurn o = none)
    ∧ (∃ t : State, exec (.mxJobPark core) s = .next t.settle
        ∧ (∀ k, k ≠ core → t.core k = s.core k)
        ∧ (let parks (k : Nat) : Prop := k < 4 ∧ (s.leafAt core k).mode ≠ Mode.idle ∧ (s.ctx (s.leafAt core k).ctx).stop.isSome = true
           let mine (k : Nat) (j : MxJob) : Bool := j.ctx = (s.leafAt core k).ctx && j.entry = (s.leafAt core k).entry
           (∀ j, j ∈ (t.core core).mxq ↔ j ∈ (s.core core).mxq ∧ ∀ k, parks k → mine k j = false)
           ∧ (∀ k, ¬ parks k → t.leafAt core k = s.leafAt core k)
           ∧ ∀ k, parks k → (∀ i j, i < k → parks i → mine k j = true → mine i j = false) →
              t.leafAt core k = { s.leafAt core k with parked := (s.core core).mxq.filter (mine k) ++ (s.leafAt core k).parked })))
  ∧ tileStep

/-- Messages of word-state operations and requests of atoms: a message that is gone does nothing; one whose way to its word crosses a lost die link ends with HOME_UNREACHABLE at its leaf, cancelled or not (R398); with the link there, one whose word does not admit it waits there; a trap goes to the leaf; else the word takes its new value and the leaf its result. A cancelled one that waits suspends its leaf, any other cancelled one is performed. red.home-step sends the entry of its word, whose value the home takes in one step, with as many events as it combines; atom.home-step performs the oldest request of a home (R197, R201, R205, R398, R431). -/
def Obligations.MessageAndHomeEvents : Prop :=
  ∀ (s : State) (id core pa home : Nat), s.on →
    (tfind s.msgs id = none → ∀ i ∈ [Instr.remoteWsOp id, .remoteWsCancel id], exec i s = .next s.settle)
    ∧ (∀ m, tfind s.msgs id = some m →
      let step := wsStep m.op m.endOut m.poisonOut m.value m.taint (s.scrWord m.target m.word)
      let L := s.leafAt m.core m.slot
      let lost := s.linkLost (coreDie m.core) (coreDie m.target)
      (lost = true → s.msgLive m = true →
        let t := ((s.dropMsg id m).trapLeaf m.core m.slot { cause := .homeUnreachable, addr := m.addr }).settle
        exec (.remoteWsOp id) s = .next t ∧ (m.cancel = true → exec (.remoteWsCancel id) s = .next t))
      ∧ (lost = false → step = .wait → exec (.remoteWsOp id) s = .next s.settle)
      ∧ (∀ c, lost = false → step = .trap c → s.msgLive m = true → exec (.remoteWsOp id) s =
          .next ((s.dropMsg id m).trapLeaf m.core m.slot { cause := c, addr := m.addr }).settle)
      ∧ (∀ w res e p, lost = false → step = .go w res e p → s.msgLive m = true → m.acq = 0 → (s.ctx m.ctx).stop = none → exec (.remoteWsOp id) s =
          .next ((({ s with msgs := terase s.msgs id } : State).setScrWord m.target m.word w).setLeafAt m.core m.slot
            ((({ L with msg := none, mode := Mode.running }).deliver m.dst m.endOut m.poisonOut m.ety res e p m.addrTaint).advance)).settle)
      ∧ (m.cancel = false → exec (.remoteWsCancel id) s = .next s.settle)
      ∧ (m.cancel = true → step ≠ .wait → exec (.remoteWsCancel id) s = exec (.remoteWsOp id) s)
      ∧ (lost = false → m.cancel = true → step = .wait → s.msgLive m = true →
          exec (.remoteWsCancel id) s = .next ((s.dropMsg id m).stopLeaf m.core m.slot L.pc).settle))
    ∧ exec (.redHomeStep core pa) s = .next (s.sendEntries core (·.pa == pa)).settle
    ∧ ((∀ e ∈ (s.core core).cbuf, e.pa ≠ pa) → exec (.redHomeStep core pa) s = .next s.settle)
    ∧ (∀ (e : CEntry) (old : Nat) (t : State),
      let d := s.dropForAtom core (e.pa / 128)
      atomHome (d.whoFor core e.ctx) e.pa e.ety e.op e.value.toNat 0 e.taint e.inPort e.attr e.count d = .ok old t → s.redHome core e = t)
    ∧ (tget [] s.atomQ home = [] → exec (.atomHomeStep home) s = .next s.settle)
    ∧ ∀ r rest u v, tget [] s.atomQ home = r :: rest →
      u = { s with atomQ := if rest.isEmpty then terase s.atomQ home else tset s.atomQ home rest } →
      (∃ old, atomHome ⟨none, 1024 + s.homeDie r.pa, s.homeDie r.pa, ((s.pkg.ks.tenants.find? fun e => e.2 = r.tenant).map (·.1)).getD 0, 4 * 512 + r.pkg, false⟩
        r.pa .n64 .add r.value.toNat 0 false false plainAttr 1 u = .ok old v) →
      exec (.atomHomeStep home) s = .next v.settle

/-! ## Events: launches, scheduling, notices -/

/-- A row that is a write of a quad of the control space by a master outside the dies (R399, R401 to R403): a host function's needs a module of the host link and is refused and counted where the access table of the register does not admit it; an admitted write leaves t. -/
def hostWrites (s : State) (addr : Nat) (v : Quad) (i : Instr) (t : State) : Prop :=
  ∀ fn, s.master = .host fn →
    let id := 3 * 512 + fn % 16
    (s.pkg.hostMods = 0 → exec i s = .next s.settle)
    ∧ (s.pkg.hostMods ≠ 0 → s.ctrlAdmits id addr (some v) = true → exec i s = .next t.settle)
    ∧ (s.pkg.hostMods ≠ 0 → s.ctrlAdmits id addr (some v) = false → exec i s = .next (s.ctrlRefuse id addr).settle)

/-- Such a row where the board's management controller writes nothing. -/
def rowWrites (s : State) (addr : Nat) (v : Quad) (i : Instr) (t : State) : Prop :=
  (s.master = .bmc → exec i s = .next s.settle) ∧ hostWrites s addr v i t

/-- The events of the packet processors and the notice queues: WRIDX is taken, and a live queue whose index is out of range halts; QCTL.ERR written 1 skips the packet; an empty, dead or out-of-range head does nothing or halts the queue, and a head that must wait, or whose queue is not the one that takes the free launch slot, changes nothing; a launch packet that is served moves RDIDX and its level's pointer, acquires, and is either rejected with a status of KIND 2 or accepted: its context has the launch, cleared totals, and record 0 READY in the deque of the lowest core that qualifies; a notice enters the queue when there is room; the notice trap saves and enters as a trap does, with NOTE_EN cleared; FRESOLVE answers KILLED for a DRAINING context, NO_FAULT for a record that is not in the faulted set, else DONE: RETRY takes the record out of the set and suspends it, unless a merge faulted, FAIL ends the launch with the record's cause and drops every faulted record (R362, R364, R365, R380, R381, R382, Table 14-5). The model's readings: the WRIDX and QCTL rows are writes by State.master (log 32); an ERR skip keeps ECAUSE, and WRIDX is checked when it is written to a live queue (log 33); TAINT_CNT is cleared at acceptance, and a failure that comes second changes nothing (log 46); a rejected packet's status has KIND 2 and follows its release, and a marker orders as a launch does (log 50). -/
def Obligations.QueueAndNoticeEvents : Prop :=
  ∀ (s : State) (d q : Nat) (v : Quad), s.on → d < 4 → q < 64 →
    let x := s.queue d q
    let y : Queue := { x with wridx := v.toNat }
    let D := s.die d
    rowWrites s (queueAddr d q + 24) v (.queueWridxWrite d q v)
      (if y.live && y.badIndex then (s.setQueue d q y).haltQueue d q .launchBadPkt else s.setQueue d q y)
    ∧ (∃ y', rowWrites s (queueAddr d q + 8) (x.ctl ||| BitVec.ofNat 64 (2 ^ 30)) (.qctlErrSkip d q) (s.setQueue d q y')
        ∧ y' = { x with ctl := y'.ctl, rdidx := y'.rdidx }
        ∧ (∀ b, b < 64 → y'.ctl.getLsbD b = if b = 30 then false else
            decide (b < 4 ∨ (23 ≤ b ∧ b < 30) ∨ b = 31 ∨ (32 ≤ b ∧ b < 40)) && x.ctl.getLsbD b)
        ∧ y'.rdidx = if x.ctl.getLsbD 30 then (x.rdidx + 1) % 2 ^ 64 else x.rdidx)
    ∧ (x.live = false ∨ x.rdidx = x.wridx → exec (.packetServe d q) s = .next s.settle)
    ∧ (x.live = true → x.rdidx ≠ x.wridx → x.badIndex = true → exec (.packetServe d q) s = .next (s.haltQueue d q .launchBadPkt).settle)
    ∧ (∀ e s', x.live = true → x.rdidx ≠ x.wridx → x.badIndex = false → attempt (readPacket d q) s = .ok (.error e) s' →
        exec (.packetServe d q) s = .next (s'.haltQueue d q e.cause).settle)
    ∧ (∀ p s', x.live = true → x.rdidx ≠ x.wridx → x.badIndex = false → attempt (readPacket d q) s = .ok (.ok p) s' →
        let go (t : State) : Prop := exec (.packetServe d q) s = .next t.settle
        let c := s'.ctx p.ctx
        let badCtx := c.st = CtxSt.free ∨ c.desc.slot ≠ field x.ctl.toNat 32 8
        let badScope := p.type = 1 ∧ (p.acq = 6 ∨ p.rel = 6)
        let waits := (p.barrier = true ∧ x.inflight ≠ 0) ∨ c.st ≠ CtxSt.running ∨ c.launch ≠ none ∨ (p.type = 1 ∧ Config.launchSlots ≤ s'.launchesOf d)
        let y := s'.queue d q
        let u : State := s'.setQueue d q { y with rdidx := y.rdidx + 1 }
        let pr := (u.die d).prio.set (p.prio % 4) ((q + 1) % 64) (Nat.mod_lt _ (by decide))
        let w := (u.setDie d { u.die d with prio := pr }).packetOrder p.ctx p.acq false
        (p.good = false → go (s'.haltQueue d q .launchBadPkt))
        ∧ (p.good = true → badCtx → go (s'.haltQueue d q .launchBadCtx))
        ∧ (p.good = true → ¬ badCtx → badScope → go (s'.haltQueue d q .launchBadPkt))
        ∧ (p.good = true → ¬ badCtx → ¬ badScope → waits → go s)
        ∧ (p.good = true → ¬ badCtx → ¬ waits → p.type = 2 → go ((u.packetOrder p.ctx 5 false).putStatus d p.ctx p.sig y.rdidx 7 { kind := 0 }))
        ∧ (p.good = true → ¬ badCtx → ¬ badScope → ¬ waits → p.type = 1 →
          (s'.launchWinner d ≠ some q → go s)
          ∧ (∀ e t, s'.launchWinner d = some q → attempt (launchCheck d p.ctx p) w = .ok (.error e) t →
              go (t.putStatus d p.ctx p.sig y.rdidx p.rel { kind := 2, cause := some e.cause }))
          ∧ (∀ text rules ru t, s'.launchWinner d = some q → attempt (launchCheck d p.ctx p) w = .ok (.ok (text, rules)) t →
              rules[p.at 4 4]? = some ru →
              ∃ z : State, go (z.saveRec p.ctx 0)
                ∧ (z.ctx p.ctx).launch = some { die := d, queue := q, seq := y.rdidx, sig := p.sig, rel := p.rel, text := text, rules := rules
                                                rootLo := p.bound 0x10, rootHi := p.bound 0x20, abort := none, fail := none, ended := false }
                ∧ (z.ctx p.ctx).drop = 0 ∧ (z.ctx p.ctx).dropTaint = false ∧ (z.ctx p.ctx).portTaint = false ∧ (z.ctx p.ctx).taintCnt = 0
                ∧ (z.queue d q).inflight = (t.queue d q).inflight + 1
                ∧ (z.ctx p.ctx).record 0 = some (Rec.fresh (p.bound 0x10) (p.bound 0x20) (p.at 4 4) rootParent (ru.rank - 1) ru.feat false ru.replay
                    ((t.ctx p.ctx).viewsAddr 0))
                ∧ ∀ l k r, t.ctxCores p.ctx = l ++ k :: r → (∀ j ∈ l, t.qualifies ru.onString ru.feat j = false) →
                    t.qualifies ru.onString ru.feat k = true → (z.ctx p.ctx).deques = tset [] k [0])))
    ∧ (s.launchWinner d = some q → ∃ p, (s.headOf d q).2 = .ready p ∧ p.type = 1 ∧ ∀ q' p', q' < 64 → (s.headOf d q').2 = .ready p' → p'.type = 1 →
        let dist (k n : Nat) : Nat := (k + 64 - (D.prio[n % 4]'(Nat.mod_lt _ (by decide)))) % 64
        p'.prio < p.prio ∨ (p'.prio = p.prio ∧ dist q p.prio ≤ dist q' p.prio))
    ∧ (D.notePend = [] ∨ D.noteRoom = false → exec (.noticePost d) s = .next s.settle)
    ∧ (∀ n rest, D.notePend = n :: rest → D.noteRoom = true → exec (.noticePost d) s =
        .next (({ s with dies := s.dies.set (d % 4) { D with notePend := rest } (Nat.mod_lt _ (by decide)) }).enqueueNotice d n).settle)
    ∧ (D.noteReady = false → exec (.noticeTrap d) s = .next s.settle)
    ∧ (∀ n rest, D.noteReady = true → D.notices = n :: rest →
        let c : Dcc := { D.dcc with noteEn := false, leaf := { D.dcc.leaf with mode := Mode.idle } }
        exec (.noticeTrap d) s = .next ((s.setDie d { D with notices := rest, noteHeld := n.pos :: D.noteHeld, dcc := c }).enterDcc
          d D.dcc.leaf.pc (BitVec.ofNat 64 (field n.word.toNat 57 7)) n.word (BitVec.ofNat 64 n.frec)).settle)
    ∧ ∀ (c i : Nat) (f : Bool), c < 1024 → i < 2 ^ 24 →
      let r := s.fresolve c i f
      let z := s.ctx c
      exec (if f then .fresolveFail d c i else .fresolveRetry d c i) s = .next (r.1.setDcc d { (r.1.die d).dcc with fresolve := r.2 }).settle
      ∧ (z.st = CtxSt.draining → r = (s, 2))
      ∧ (z.st ≠ CtxSt.draining → tfind z.faulted i = none → r = (s, 1))
      ∧ (∀ e, z.st ≠ CtxSt.draining → tfind z.faulted i = some e →
          (f = false → let w := s.setCtx c { z with
            faulted := terase z.faulted i, suspended := if e.merge then z.suspended else z.suspended ++ [i] }
            r = (if s.holders.any (fun h => h.2 = c) then w.featureCheck c else w, 0))
          ∧ (f = true → r = (z.faulted.foldl (fun t y => t.dropRec c y.1) (s.failLaunch c none (some e.cause)), 0)))

/-- What a pickup leaves (R34, R35, R47, R148, R368, R382). A READY record that has a free image slot, and is no replayed one with its snapshot, starts, one that was suspended and whose RESUME is 0 too: it takes the slot, its acquire is performed, and its leaf has every register, queue and flag clear, the CSR defaults of the context descriptor, and the PC at its rule's ENTRY; the scratch words are cleared, and the record is RUNNING on the core and slot, RESUME 0, with the snapshot of the entry in its image. A record with a RESUME takes the registers, the PC and the CSRs that the image holds there, and is RUNNING with RESUME 0. The numbering of entries and what the snapshot holds are the model's (log 5). -/
def pickupDoes : Prop :=
  (∀ (s s' : State) (core slot c i img : Nat) (l : Launch) (r : Rec) (ru : Rule),
    attempt (loadRec c i) (s.setCtx c ((s.ctx c).unlist i)) = .ok (.ok r) s' →
    let x := s'.ctx c
    x.launch = some l → l.dead = false → x.freeImg = some img → l.rules[r.rule]? = some ru → r.resume = 0 → r.st = RecSt.ready → r.saved ≠ none ∨ r.snap = none →
    (∀ j : Fin 4, j.val ≤ r.rankM1 → r.lo[j].toNat < r.hi[j].toNat) →
    let taken := s'.setCtx c { x with
      recs := tset x.recs i r, imgUsed := img :: x.imgUsed.filter fun j => some j ≠ r.saved.map (·.img) }
    s.startRec core slot c i =
      (taken.acquire core c (some ru) 3 false).enter core slot x.leafDefaults c i img (BitVec.ofNat 64 (l.text + ru.entry)) false)
  ∧ (∀ (s : State) (core slot c i img : Nat) (x : Ctx) (pc : Quad) (r : Rec), (s.ctx c).record i = some r →
    let L : Leaf := { Leaf.idle with
      trapEn := x.desc.dtrap, wrr := if x.desc.dwrr = 0 then 1 else x.desc.dwrr, thresh := x.desc.thr
      ctx := c, recIdx := i, img := img, entry := s.nextEntry, pc := pc, mode := Mode.running }
    let p := ({ (s.clearScratch core slot).setLeafAt core slot L with nextEntry := s.nextEntry + 1 } : State).occSet (occImg core) c
    let kept := tmap (fun _ ch => { ch with own := false }) r.chunks
    let sn : Snapshot := ⟨r.lo, r.hi, kept, r.taint, 0, x.desc.dtrap, 0, L.wrr, x.desc.thr, false, false⟩
    let u := runIgnore (nestWrite (coreDie core) c ((p.ctx c).imgAddr img + 0xC080) (sn.bytes r) .image) p
    s.enter core slot x.leafDefaults c i img pc false = u.setCtx c { u.ctx c with recs := tset (u.ctx c).recs i { r with
      st := RecSt.running, core := core, slot := slot, held := false, saved := none, resume := 0, chunks := kept, snap := some sn } })
  ∧ (∀ (s s' b : State) (core slot c i : Nat) (r : Rec) (L : Leaf) (t : Tbl ScrWord),
    attempt (loadRec c i) (s.setCtx c ((s.ctx c).unlist i)) = .ok (.ok r) s' → r.resume ≠ 0 →
    let a := (s'.setCtx c { s'.ctx c with recs := tset (s'.ctx c).recs i r }).acquire core c none 3 true
    attempt (do
      let L ← readImage (coreDie core) c r.resume.toNat (a.resumeBase c i r)
      let t ← (if r.held then pure [] else readScratch (coreDie core) c r.resume.toNat ((a.ctx c).scratchOf i))
      pure (L, t)) a = .ok (.ok (L, t)) b →
    ∃ v : State, v.leafAt core slot = { L with mode := Mode.running } ∧ L.img ∈ (v.ctx c).imgUsed
      ∧ (let w := (v.setRec c i { r with
          st := RecSt.running, core := core, slot := slot, held := false, saved := none, savedScr := [], rings := [], resume := 0 }).occSet (occImg core) c
        s.startRec core slot c i = (if L.tiles.isEmpty then w else w.occSet (occOctet (coreOctet core)) c).mxRejoin core slot))
  ∧ ∀ (s s' : State) (die c va : Nat) (L M : Leaf), readImage die c va L s = .ok M s' →
    ∃ low vec s1 s2 s3, nestRead die c va 0x800 .image s = .ok low s1 ∧ nestRead die c (va + 0x2000) 0x4000 .image s2 = .ok vec s3
      ∧ (∀ i : Fin 64, M.s[i] = imageQuad low (8 * i.val)) ∧ M.pc = imageQuad low 0x200
      ∧ M.flags = (imageQuad low 0x250).setWidth 6 ∧ M.trapEn = (imageQuad low 0x258).setWidth 6 ∧ M.dropMag = imageQuad low 0x260
      ∧ M.wrr = (imageQuad low 0x268).setWidth 4 ∧ (∀ i : Fin 16, M.thresh[i] = imageQuad low (0x270 + 8 * i.val))
      ∧ (∀ i : Fin 8, M.p[i] = BitVec.ofNat 1024 (ofBytes ((low.drop (0x400 + 128 * i.val)).take 128)))
      ∧ ∀ i : Fin 32, M.v[i] = BitVec.ofNat 4096 (ofBytes ((vec.drop (512 * i.val)).take 512))

/-- The events of a context: BUDGET_EXHAUSTED makes a stop pending for a holder that has used its budget; after 1,500 cycles the leaves are suspended; the stop completes when no leaf is left in a slot, and the context is STOPPED, or RUNNING where it was preempted, and holds no partition; a launch that is over has its status written; a merge, a decision and a pickup act where their condition holds, and a pickup leaves what R47, R148 and R35 say (R161, R366, R370, R371, R374). The model's readings: COHORT_SPACE also where image slots are short, and what is read of the pool and when (log 46); where the control area of an image holds flags, trap enables, DROP_MAG, WRR and thresholds, 0x250 to 0x2EF (log 5), and that a pickup takes the lowest free image slot (log 4); a status that cannot be written kills and frees the launch slot, and the status takes the sticky flags of record 0 (log 50). -/
def Obligations.ContextEvents : Prop :=
  (∀ (s : State) (c : Nat), s.on →
    let x := s.ctx c
    let spent := x.budget = 0 ∧ (∃ e ∈ s.holders, e.2 = c) ∧ x.st = CtxSt.running
    (spent → x.stop = some Stop.preempt → exec (.budgetExhausted c) s = .next (s.setCtx c { x with stop := some Stop.budget }).settle)
    ∧ (spent → x.stop = some Stop.request ∨ x.stop = some Stop.budget → exec (.budgetExhausted c) s = .next s.settle)
    ∧ (spent → x.stop = none → (∀ e ∈ s.leaves, e.2.ctx ≠ c ∨ e.2.mode = Mode.idle ∨ e.2.mode = Mode.running) →
        exec (.budgetExhausted c) s = .next (s.setCtx c { x with stop := some Stop.budget, stopAge := 0 }).settle)
    ∧ (¬ spent → exec (.budgetExhausted c) s = .next s.settle)
    ∧ (x.stop ≠ none → 16 * 1500 ≤ x.stopAge → exec (.stopForceSuspend c) s = .next (s.forceSuspend c).settle)
    ∧ (x.stop = none ∨ x.stopAge < 16 * 1500 → exec (.stopForceSuspend c) s = .next s.settle)
    ∧ (x.stop = none ∨ s.ctxActive c = true → exec (.stopComplete c) s = .next s.settle)
    ∧ (∀ why, x.stop = some why → s.ctxActive c = false →
        let u := s.saveReady c
        let t : State := { u.setCtx c { u.ctx c with stop := none, stopAge := 0, st := if why = Stop.preempt then (u.ctx c).st else CtxSt.stopped } with
          holders := u.holders.filter fun e => e.2 ≠ c }
        let v : State := if why = Stop.preempt then t else t.wakeStops c 0
        exec (.stopComplete c) s = .next (if why = Stop.budget then
          v.postNotice (v.ctxDie c) { word := noticeWord .sliceBudget 2 c 0 0 0, pos := 0, frec := 0, event := none } else v).settle)
    ∧ (x.launch = none ∨ s.launchOver c = false → exec (.launchStatusWrite c) s = .next s.settle)
    ∧ (∀ l s', x.launch = some l → s.launchOver c = true →
        let u := (s.packetOrder c l.rel true).carriedRelease c l.rules
        (attempt (writeStatus l.die c l.sig l.seq ((u.ctx c).finalStatus l)) u = .ok (.ok ()) s' → exec (.launchStatusWrite c) s = .next (s'.endLaunch c).settle)
        ∧ (∀ e, attempt (writeStatus l.die c l.sig l.seq ((u.ctx c).finalStatus l)) u = .ok (.error e) s' →
            exec (.launchStatusWrite c) s = .next ((s'.endLaunch c).kill c .faultDelivery).settle))
    ∧ (∀ i r, x.record i = some r → r.st ≠ RecSt.joining ∨ r.mergeDone = true → exec (.jigsawMerge c i) s = .next s.settle)
    ∧ (∀ i l r a b, x.launch = some l → x.record i = some r → r.st = RecSt.joining → r.mergeDone = false → tfind x.faulted i = none →
        x.st ≠ CtxSt.draining → r.children = some (a, b) →
        let op (n : Nat) : Nat := ((l.rules[r.rule]?).map fun ru => ru.opOf n).getD 0
        let u := s.setCtx c { x with recs := tset x.recs i { r with chunks := [] } }
        let run := mergeViews (coreDie r.core) c i op (x.childViews a) (x.childViews b) r.pre u
        (∀ f s', run = .ok (.ok f) s' → exec (.jigsawMerge c i) s = .next (s'.mergeEnd c i l f).settle)
        ∧ ∀ k e s', run = .ok (.error (k, e)) s' → exec (.jigsawMerge c i) s = .next (s'.mergeFault c i (k / 2 ^ 22) e).settle)
    ∧ (∀ i l r a b f, l.dead = false →
        let w0 := s.refresh c i
        let x := w0.ctx c
        x.record i = some r → r.children = some (a, b) →
        let m : Rec := { r with sticky := r.sticky ||| f, mergeDone := true, children := none }
        let kid (e : Nat) : Prop := (a.gone = false ∧ a.idx = e) ∨ (b.gone = false ∧ b.idx = e)
        ∃ u, (let w := u.saveRec c i
            (w.leafAt r.core r.slot).mode ≠ Mode.merging → s.mergeEnd c i l f =
              let z := (w.setCtx c { w.ctx c with
                joining := (w.ctx c).joining ++ [i], imgUsed := (w.ctx c).imgUsed.filter (· ≠ r.img.getD 0) }).setRec c i { m with img := none }
              if z.holders.any (fun e => e.2 = c) then z.featureCheck c else z)
          ∧ u = w0.setCtx c { x with recs := (u.ctx c).recs } ∧ (u.ctx c).record i = some m
          ∧ (∀ e, kid e → e ≠ 0 → e ≠ i → (u.ctx c).record e = none) ∧ ∀ e, ¬ kid e → e ≠ i → (u.ctx c).record e = x.record e)
    ∧ (∀ core slot, s.fillPick core slot = none → exec (.recordPickup core slot) s = .next s.settle)
    ∧ (∀ core slot c' i, s.fillPick core slot = some (c', i) → exec (.recordPickup core slot) s = .next (s.startRec core slot c' i).settle)
    ∧ (∀ node, s.bestOf node = none → tfind s.holders node = none → exec (.schedDecision node) s = .next s.settle)
    ∧ (∀ node h b, tfind s.holders node = some h → s.bestOf node = some b → s.ctxReady h = true ∨ s.ctxActive h = true ∨ (s.ctx h).stop ≠ none →
        exec (.schedDecision node) s = .next (if b = h then s else s.pendStop h Stop.preempt).settle)
    ∧ (∀ node b, tfind s.holders node = none → s.bestOf node = some b →
        let h : State := { s with holders := tset s.holders node b }
        let r := h.readReady b
        let u := ((r.setCtx b (r.ctx b).restoreReady).refreshAll b).featureCheck b
        let v := (u.ctx b).deques.foldl (fun s e => s.occSet (occNest (coreDie e.1)) b) u
        let t := v.startAll b
        let z := v.saveReady b
        let y : State := { z.setCtx b { z.ctx b with st := CtxSt.stopped } with holders := terase z.holders node }
        ((v.ctx b).cohort = false → exec (.schedDecision node) s = .next v.settle)
        ∧ ((v.ctx b).cohort = true → (t.ctx b).allStarted = true → exec (.schedDecision node) s = .next t.settle)
        ∧ ((v.ctx b).cohort = true → (t.ctx b).allStarted = false → exec (.schedDecision node) s =
            .next (y.postNotice (y.ctxDie b) { word := noticeWord .cohortSpace 2 b 0 0 0, pos := 0, frec := 0, event := none }).settle)))
  ∧ pickupDoes
  ∧ (∀ (die c i op k : Nat) (l r p : Tbl Chunk) (s s' : State) (fresh : Chunk), (∀ t ∈ [l, r, p], ∀ ch, tfind t k = some ch → ch.spill = none) →
    let at' (t : Tbl Chunk) : Chunk := (tfind t k).getD (blankChunk op)
    let lr := if (tfind l k).isSome || (tfind r k).isSome then mergeChunk op (at' l) (at' r) else (blankChunk op, 0)
    let m := if p.isEmpty then (lr.1, 0) else mergeChunk op (at' p) lr.1
    chunkOpen die c i k op true s = .ok fresh s' → fresh.spill = none →
    mergeKey die c i op k l r p s = .ok (lr.2 ||| m.2) (s'.setChunk c i k { fresh with val := m.1.val, taint := m.1.taint }))
  ∧ (∀ (op i : Nat) (a b : Chunk), i < 128 →
    let e (v : VWord) : BitVec 32 := v.extractLsb' (32 * i) 32
    let m := mergeChunk op a b
    e m.1.val = (viewMerge op (e a.val) (e b.val)).1 ∧ m.1.taint.getLsbD i = (a.taint.getLsbD i || b.taint.getLsbD i)
      ∧ (viewMerge op (e a.val) (e b.val)).2 &&& ~~~m.2 = 0)

/-! ## Events: containment -/

/-- The contexts of a list are killed in order, each that is not FREE (R391, R393). -/
def killsAll (s t : State) (cs : List Nat) (c : Cause) (core : Nat) : Prop := t = cs.foldl (fun s k => s.kill k c core) s

/-- Kill (R393): a context that is FREE or DRAINING already is as it was, with the first cause; any other is DRAINING with this cause, has no stop pending, holds no partition, and has no leaf in a slot, no ring, no job, no matrix job, no combining-buffer entry, no dirty byte in an L1, no view chunk (R394) and no message; what its jobs had joined ends, and the other jobs joined there fail with COLL_ABORT (R228); the offers that it has not taken, and what waits for it to stop, are settled, and a notice of KIND 2 names the cause and the core that reported it. -/
def killDoes : Prop :=
  ∀ (s : State) (c core : Nat) (cause : Cause),
    let x := s.ctx c
    (x.st = CtxSt.free ∨ x.st = CtxSt.draining → s.kill c cause core = s)
    ∧ (x.st ≠ CtxSt.free → x.st ≠ CtxSt.draining → ∃ u : State,
        let w := (((u.dropNotices c).clearOffers c).orphanOffers c).wakeStops c 6
        s.kill c cause core = w.postNotice (w.ctxDie c) { word := noticeWord cause 2 c 0 core 0, pos := 0, frec := 0, event := none }
        ∧ (u.ctx c).st = CtxSt.draining ∧ (u.ctx c).killCause = some cause ∧ (u.ctx c).killStatus = x.launch.isSome
        ∧ (u.ctx c).stop = none ∧ (u.ctx c).faulted = [] ∧ (u.ctx c).suspended = [] ∧ (u.ctx c).joining = []
        ∧ (u.ctx c).deques = [] ∧ (u.ctx c).ready = []
        ∧ (∀ k, k ≠ c → u.ctx k = s.ctx k)
        ∧ (∀ m ∈ s.colls, ∀ k i j, m.job = some (k, i) → s.job k i = some j → j.ctx ≠ c → (m.tenant, m.tag) ∈ s.deadTags c →
            ∃ j', u.job k i = some j' ∧ j'.fail = some .collAbort ∧ j'.pend = [])
        ∧ (∀ m, m ∈ u.colls ↔ m ∈ s.colls ∧ (m.tenant, m.tag) ∉ s.deadTags c)
        ∧ (∀ e ∈ u.leaves, e.2.mode ≠ Mode.idle → e.2.ctx ≠ c)
        ∧ (∀ e ∈ u.holders, e.2 ≠ c) ∧ (∀ e ∈ u.msgs, e.2.ctx ≠ c)
        ∧ (∀ e ∈ (u.ctx c).recs, e.2.allChunks = [])
        ∧ ∀ e ∈ u.cores, (∀ r ∈ e.2.rings, r.ctx ≠ c) ∧ (∀ j ∈ e.2.jobs, j.2.ctx ≠ c) ∧ (∀ j ∈ e.2.mxq, j.ctx ≠ c) ∧ (∀ r ∈ e.2.cbuf, r.ctx ≠ c)
            ∧ ∀ l ∈ e.2.l1, l.2.owner = c → l.2.dirty = 0)

/-- Errors in the structures of a core and in view chunks (R391, Table 14-9): a tile row of a leaf that runs, a matrix queue entry and the state of a job whose unit has committed are dropped, their owner killed where it is trusted, else the contexts of the instance's bitmap; a job with writes of its unit left, or none committed, runs its unit again; an error in a scratchpad word kills the context whose allocation holds it, whose owner is kept in triplicate; one in a view chunk that is on chip drops the chunk and kills its owner, or the contexts of its slice and the partition of its way. -/
def ueDoes : Prop :=
  ∀ (s : State) (core slot tile row word m jid ctx box port chunk : Nat), s.on →
    let go (site : UeSite) (t : State) : Prop := exec (.ueDetected site) s = .next t.settle
    let counted (k d : Nat) : State := s.updTele d fun t => { t with uncorrected := tset t.uncorrected k (tget 0 t.uncorrected k + 1) }
    let c := s.core core
    let L := s.leafAt core slot
    let contained (site : Bool → UeSite) (n : State) (owner inst : Nat) (cause : Cause) (core : Nat) : Prop :=
      go (site true) (n.kill owner .ueDomain core) ∧ ∃ u, go (site false) u ∧ killsAll n u (n.occupants inst) cause core
    (L.mode ≠ Mode.idle → contained (.tileRow core slot tile row)
        ((counted 5 (coreDie core)).setLeafAt core slot { L with tiles := terase L.tiles (tile * 128 + row) }) L.ctx (occOctet (coreOctet core)) .ueOccupancy core)
    ∧ (let n := (counted 6 (coreDie core)).setScrWord core word ⟨0, 0, false⟩
       (∀ a, s.allocOf core (word / 0x10000) = some a → go (.scratch core word) (n.kill a.1 .ueDomain core))
       ∧ (s.allocOf core (word / 0x10000) = none → go (.scratch core word) n))
    ∧ (∀ j, c.mxq[m]? = some j → contained (.mxEntry core m)
        ((counted 7 (coreDie core)).setCore core { c with mxq := c.mxq.eraseIdx m }) j.ctx (occBuf core) .ueOccupancy core)
    ∧ (∀ j, s.job core jid = some j →
        (j.pend ≠ [] ∨ (j.unit = 0 ∧ j.fail = none) → ∀ b, go (.job core jid b) (counted 8 (coreDie core)))
        ∧ (j.pend = [] → j.unit ≠ 0 ∨ j.fail ≠ none → contained (.job core jid)
            ((counted 8 (coreDie core)).setCore core { c with jobs := terase c.jobs jid }) j.ctx (occJob core) .ueOccupancy (if core < 1024 then core else 0)))
    ∧ (∀ r ch, (s.ctx ctx).record box = some r → tfind r.allChunks (ueChunk port chunk) = some ch →
        let n := counted 1 (ch.slice / 32)
        (ch.spill ≠ none → ∀ b, go (.view ctx box port chunk b) n)
        ∧ (ch.spill = none → contained (.view ctx box port chunk)
            (n.setCtx ctx { s.ctx ctx with recs := tset (s.ctx ctx).recs box (r.putChunk (ueChunk port chunk) none) }) ctx (occL2 ch.slice ch.part) .uePartition 0))

/-- UE_DETECTED: telemetry counts the error in its structure's class; a clean line of the L1 or the L2 is dropped and nothing else happens; one that is dirty, or whose clean state is not trusted, kills its owner where that is trusted, else the contexts that its instance's bitmap names; the same for an image, a combining-buffer entry and what a Nest holds; an RDC line and a translation are dropped, a control core halts, a granule's error waits for its next check (the model's choice, log 44), a key slot's key is gone and reported, its granules' lines dropped and quarantined (log 31) (R391, R392, R415, Tables 14-8 and 14-9). Kill is as R393 says. Corrected errors and retries change nothing but what telemetry and the KiteLink ports count; that links from 18 are numbered by die is the model's choice (log 26) (R395, R413, R415); a failed result check replays the leaf of a box that may be replayed and kills the context of another, and a merge restarts by itself (R396, R397); the loss of a link is taken once, is reported by both dies, by one at boot stage 1 also as that stage's failure (R411), and treats every context that is not FREE (R398). A DRAINING context whose drain is complete is FREE, and nothing of it is left in the L1 lines, the combining buffers, the translations or the occupancy bitmaps (R394). -/
def Obligations.ContainmentAndDrain : Prop :=
  ((∀ (s : State) (core line d slot pa ctx unit page box : Nat) (owner addr ok : Bool), s.on →
    let go (site : UeSite) (t : State) : Prop := exec (.ueDetected site) s = .next t.settle
    let counted (k d : Nat) : State := s.updTele d fun t => { t with uncorrected := tset t.uncorrected k (tget 0 t.uncorrected k + 1) }
    let c := s.core core
    (∀ l, tfind c.l1 line = some l →
      let t := (counted 0 (coreDie core)).setCore core { c with l1 := terase c.l1 line }
      (l.dirty = 0 → go (.l1 core line owner true) t)
      ∧ (l.dirty ≠ 0 ∨ ok = false → go (.l1 core line true ok) (t.kill l.owner .ueDomain core)
          ∧ ∃ u, go (.l1 core line false ok) u ∧ killsAll t u (t.occupants (occL1 core)) .ueOccupancy core))
    ∧ (tfind c.l1 line = none → go (.l1 core line owner ok) (counted 0 (coreDie core)))
    ∧ (∀ l, tfind s.l2 line = some l →
      let n := counted 1 (s.homeDie (line * 128))
      let drop : State := { n with l2 := terase s.l2 line }
      let gone (addr : Bool) : State := if addr then n.quarantine (granBase (line * 128) l.attr.g512) l.attr.g512 else drop
      (l.dirty = 0 → go (.l2 line owner addr true) drop)
      ∧ (l.dirty ≠ 0 ∨ ok = false → go (.l2 line true addr ok) ((gone addr).kill l.owner .ueDomain)
          ∧ ∃ u, go (.l2 line false addr ok) u ∧ killsAll (gone addr) u (s.occupants (occL2 (s.sliceOf (line * 128)) l.attr.part)) .uePartition 0))
    ∧ (tfind s.l2 line = none → go (.l2 line owner addr ok) (counted 1 (s.homeDie (line * 128))))
    ∧ (let n := counted 2 d
       go (.rdc d line) (n.setDie d { n.die d with rdc := (n.die d).rdc.filter fun e => e.1 != line }))
    ∧ (let n := counted 3 (coreDie unit)
       go (.tlb unit ctx page) { n with tlb := tset n.tlb unit (terase (tget [] n.tlb unit) (ctx * 2 ^ 32 + page)) })
    ∧ (let n := counted 4 (coreDie core)
       go (.image core ctx box true) (n.kill ctx .ueDomain core)
        ∧ ∃ u, go (.image core ctx box false) u ∧ killsAll n u (n.occupants (occImg core)) .ueOccupancy core)
    ∧ (∀ e, c.cbuf.find? (fun e => e.pa = pa) = some e →
       let n := (counted 7 (coreDie core)).setCore core { c with cbuf := c.cbuf.erase e }
       go (.combining core pa true) (n.kill e.ctx .ueDomain core)
        ∧ ∃ u, go (.combining core pa false) u ∧ killsAll n u (n.occupants (occBuf core)) .ueOccupancy core)
    ∧ (let n := counted 9 d
       go (.nest d ctx true) (n.kill ctx .ueDomain) ∧ ∃ u, go (.nest d ctx false) u ∧ killsAll n u (n.occupants (occNest d)) .ueOccupancy 0)
    ∧ go (.dcc d) (s.haltDcc d)
    ∧ go (.keySlot slot) ((s.loseKey slot).postEvent 0 .keySlotUe 0 0)
    ∧ ∀ p ∈ [(UeSite.data pa, 1), (.sealRecord pa, 2), (.anchor pa, 3), (.sealEngine pa, 4)],
        go p.1 { s with ueMarks := tset s.ueMarks (granBase pa (s.gran512 pa) / 512) p.2 })
  ∧ killDoes ∧ ueDoes
  ∧ (∀ (s : State) (core slot n a b : Nat), s.on →
    let L := s.leafAt core slot
    let named := s.updTele (coreDie core) fun t => { t with errCore := some core }
    exec (.channelRetrain n) s = .next s.settle
    ∧ exec (.stringSoftError core) s = .next (s.updTele (coreDie core) fun t => { t with corrected := tset t.corrected 8 (tget 0 t.corrected 8 + 1) }).settle
    ∧ (n < 18 → exec (.linkCrcReplay n) s = .next (s.setPort n { s.pkg.port n with replays := ((s.pkg.port n).replays + 1) % 2 ^ 32 }).settle)
    ∧ (18 ≤ n → exec (.linkCrcReplay n) s = .next (s.updTele (n - 18) fun t => { t with replays := t.replays + 1 }).settle)
    ∧ (L.mode = Mode.idle ∨ L.mode = Mode.merging → exec (.coreLogicError core slot) s = .next named.settle)
    ∧ (∀ r, L.mode = Mode.running ∨ L.mode = Mode.waiting → (s.ctx L.ctx).record L.recIdx = some r →
        let ok := r.replay = true ∧ L.noReplay = false ∧ r.snap ≠ none
        (ok → exec (.coreLogicError core slot) s = .next (named.replayLeaf core slot L .replayRefused).settle)
        ∧ (¬ ok → exec (.coreLogicError core slot) s = .next (named.kill L.ctx .replayRefused core).settle))
    ∧ (a = b ∨ 4 ≤ a ∨ 4 ≤ b ∨ (min a b, max a b) ∈ s.pkg.linksLost → exec (.dieLinkLost a b) s = .next s.settle)
    ∧ (a ≠ b → a < 4 → b < 4 → (min a b, max a b) ∉ s.pkg.linksLost →
        let f := [a, b].foldl (fun s d => if (s.die d).boot = 1 && !(s.die d).bootHalted then s.bootFailed d else s) s
        let u := (({ f with pkg := { f.pkg with linksLost := (min a b, max a b) :: f.pkg.linksLost } } : State).postEvent a .dieLinkLost 0 0).postEvent b .dieLinkLost 0 0
        exec (.dieLinkLost a b) s = .next (((u.ctxs.filter fun e => e.2.st ≠ CtxSt.free).map (·.1)).foldl (fun s c => s.linkLostCtx c) u).settle)))
  ∧ (∀ (s : State) (c : Nat), s.on → c < 1024 →
    ((s.ctx c).st ≠ CtxSt.draining → exec (.drainComplete c) s = .next s.settle)
    ∧ ((s.ctx c).st = CtxSt.draining → ∃ t : State, exec (.drainComplete c) s = .next t.settle
        ∧ (t.ctx c).st = CtxSt.free
        ∧ (∀ i, (tget 0 t.occ i).getLsbD c = false)
        ∧ (∀ k l x, tfind (t.core k).l1 l = some x → x.owner ≠ c)
        ∧ (∀ k, ∀ e ∈ (t.core k).cbuf, e.ctx ≠ c)
        ∧ ∀ u k x, tfind (tget [] t.tlb u) k = some x → k / 2 ^ 32 ≠ c))

/-- The exception of a die control core (R139): SV_EPC takes the PC, or the next word's for `trap`; SV_CAUSE the cause's number; SV_INFO the code or the address; SV_FREC takes SV_FAREA; the level is saved to PREV_SV and raised; the PC goes to SV_VEC; the other registers stay. The fault of a leaf (R379, R384): the leaf leaves its slot, the fault record is written into its image, its record is in the faulted set with the cause, and a notice names it; where the record cannot be written the context is killed. The model's readings: that an image that cannot be written kills too, and with which core (log 22), and the trap of a control core that runs with SV 0 (log 58). -/
def Obligations.TakingAnException : Prop :=
  (∀ (s : State) (d : Nat) (tr : Trap), s.cur = .dcc d →
    let c := (s.die d).dcc
    let t := s.takeTrap tr
    let u := (t.die d).dcc
    u.epc = (if tr.next then c.leaf.pc + 16 else c.leaf.pc)
    ∧ u.cause = BitVec.ofNat 64 (causeCode tr.cause)
    ∧ u.info = (if tr.cause = .userTrap then tr.info else BitVec.ofNat 64 tr.addr)
    ∧ u.frec = BitVec.ofNat 64 c.farea.toNat
    ∧ u.prevSv = c.sv ∧ u.sv = true ∧ u.leaf = { c.leaf with pc := c.vec, card := none }
    ∧ u.vec = c.vec ∧ u.scratch = c.scratch ∧ u.farea = c.farea ∧ u.noteEn = c.noteEn ∧ u.evarea = c.evarea)
  ∧ (∀ (s u v : State) (core slot : Nat) (tr : Trap), s.cur = .leaf core slot → tr.mx = none →
    let L := s.leaf
    let epc := if tr.next then L.pc + 16 else L.pc
    let r : FaultRec := {
      cause := tr.cause, kind := 0, ctx := L.ctx, elem := tr.elem, pc := epc, addr := tr.addr
      word := if tr.cause = .pcAlign then 0 else ({ s with cur := .leaf core slot } : State).wordAt L.pc
      box := L.recIdx, step := 0, core := core, mxpc := 0, info := tr.info, cycle := s.cycle }
    let at' (w : State) : Nat := (w.ctx L.ctx).imgAddr L.img + 0xC000
    (s.suspendLeaf core slot epc = (u, none) → attempt (nestWrite (coreDie core) L.ctx (at' u) r.bytes .image) u = .ok (.ok ()) v →
      s.takeTrap tr = (v.setCtx L.ctx { v.ctx L.ctx with faulted := tset (v.ctx L.ctx).faulted L.recIdx ⟨tr.cause, false⟩ }).postNotice (coreDie core)
        { word := noticeWord tr.cause 0 L.ctx L.recIdx core 0, pos := 0
          frec := (v.setCtx L.ctx { v.ctx L.ctx with faulted := tset (v.ctx L.ctx).faulted L.recIdx ⟨tr.cause, false⟩ }).nestPa (coreDie core) L.ctx (at' u)
          event := none })
    ∧ (∀ e, s.suspendLeaf core slot epc = (u, none) → attempt (nestWrite (coreDie core) L.ctx (at' u) r.bytes .image) u = .ok (.error e) v →
      s.takeTrap tr = v.kill L.ctx .faultDelivery core)
    ∧ (∀ e, s.suspendLeaf core slot epc = (u, some e) → (∃ w, attempt (nestWrite (coreDie core) L.ctx (at' u) r.bytes .image) u = .ok w v) →
      s.takeTrap tr = v.kill L.ctx .faultDelivery core))

/-! ## Events: memory, links, registers of the package -/

/-- A fill and its checks (R329, R331, R337, Table 11-5): behind a CXL port that is down it fails with CXL_DOWN (R310); elsewhere, where no uncorrectable error is marked, a quarantined record, one with reserved bits, one of another slot, a slot with no key, an anchor record that disagrees, a tag that does not match fail in this order, and all but the first, the third and the fourth quarantine the granule; else a Z granule is zeros, and any other is its stored bytes decrypted. A fill leaves every line of the granule whole under the requester's slot, with the plaintext wherever no byte was present, each sector of a new line tainted as T says; no other byte changes, and neither the stored bytes nor the records. -/
def granuleFills : Prop :=
  (∀ (s : State) (base slot : Nat) (g anchor : Bool),
    let rec0 := s.sealRec base
    let same (a : BitVec 128) : Prop := recSlot rec0 = recSlot a ∧ recGen rec0 = recGen a ∧ recCtr rec0 = recCtr a ∧ recZ rec0 = recZ a
    let ends (x : Except (Cause × Bool) (List Byte × BitVec 128)) : Prop := s.checkGranule base slot g anchor = x
    let whole := recQ rec0 = false ∧ field rec0.toNat 107 21 = 0
    let mine := whole ∧ recSlot rec0 = slot ∧ (tfind s.pkg.ks.keys (recSlot rec0)).isSome = true
    (s.cxlGone base = true → ends (.error (.cxlDown, false)))
    ∧ (s.cxlGone base = false → tget 0 s.ueMarks (base / 512) = 0 →
    (recQ rec0 = true → ends (.error (.sealQuarantined, false)))
    ∧ (recQ rec0 = false → field rec0.toNat 107 21 ≠ 0 → ends (.error (.sealRecordBad, true)))
    ∧ (whole → recSlot rec0 ≠ slot → ends (.error (.sealTenant, false)))
    ∧ (whole → recSlot rec0 = slot → tfind s.pkg.ks.keys (recSlot rec0) = none → ends (.error (.sealKeyAbsent, false)))
    ∧ (∀ a, mine → anchor = true → tfind s.anchors (base / 512) = some a → ¬ same a → ends (.error (.sealRollback, true)))
    ∧ (∀ r, mine → (anchor = false ∧ r = rec0) ∨ (anchor = true ∧ tfind s.anchors (base / 512) = some r ∧ same r) →
        (recZ r = true → ends (.ok (List.replicate (granSize g) 0, r)))
        ∧ ∀ ks, recZ r = false → s.keyOf (recSlot r) (recGen r) = some ks →
          let ct := bytesToBlocks (readBytes s.dram base (granSize g))
          let good := sealTag ks r.toNat (recSlot r) (recGen r) (recCtr r) base g ct = recTag r
          (¬ good → ends (.error (.sealTagFail, true)))
          ∧ (good → ends (.ok (blocksToBytes (ctrCrypt ks (recSlot r) (recGen r) (recCtr r) base g ct), r))))))
  ∧ ∀ (s t : State) (w : Who) (pa : Nat) (at' : Attr), Memory.wf s.mem → fillGranule w pa at' s = .ok () t →
    let base := granBase pa at'.g512
    let n := granSize at'.g512
    let held (a : Nat) : Bool := ((tfind s.l2 (a / 128)).map fun l => l.present.getLsbD (a % 128)).getD false
    ∃ data r, s.checkGranule base w.slot at'.g512 at'.anchor = .ok (data, r)
      ∧ (∀ k, base / 128 ≤ k → k < (base + n) / 128 → ∃ l, tfind t.l2 k = some l ∧ l.present = BitVec.allOnes 128 ∧ l.slot = w.slot
          ∧ (tfind s.l2 k = none → l.dirty = 0 ∧ l.owner = w.owner ∧ l.taint = if recT r then 0b1111#4 else 0))
      ∧ (∀ i, i < n → readByte t.mem (base + i) = if held (base + i) then readByte s.mem (base + i) else data.getD i 0)
      ∧ (∀ a, a < base ∨ base + n ≤ a → readByte t.mem a = readByte s.mem a)
      ∧ t.dram = s.dram ∧ t.seals = s.seals ∧ t.anchors = s.anchors

/-- A write-back of a granule with dirty bytes whose record is not quarantined and whose key is loaded (R332, R333, Table 11-7). At the last counter of the last generation the lines freeze and nothing is written. Else the counter advances, or the generation with the counter at 0; the stored bytes are the encryption, under the new generation and counter, of the bytes present where the granule is whole in the L2, else of its verified plaintext with the dirty bytes merged in; the record, and the anchor record where there is one, has Z 0, Q 0, the slot, the new generation and counter, T where the old plaintext or a present sector is tainted, and the new TAG; the dirty masks are cleared, and the lines stay. Behind a CXL port that is down the write-back fails (the model's choice, log 72). -/
def granuleWrites : Prop :=
  (∀ (t : Bool) (slot gen ctr tag : Nat), slot < 256 → gen < 256 → ctr < 2 ^ 24 → tag < 2 ^ 64 →
    let r := recMake t slot gen ctr tag
    recZ r = false ∧ recQ r = false ∧ recT r = t ∧ recSlot r = slot ∧ recGen r = gen ∧ recCtr r = ctr ∧ recTag r = tag)
  ∧ ∀ (s : State) (base : Nat) (g anchor : Bool),
    let n := granSize g
    let rec0 := (if anchor then tfind s.anchors (base / 512) else none).getD (s.sealRec base)
    let slot := recSlot rec0
    let lines := s.l2.filter fun e => base / 128 ≤ e.1 && e.1 < (base + n) / 128
    let full := lines.length = n / 128 ∧ ∀ e ∈ lines, e.2.present = BitVec.allOnes 128
    let dirty (i : Nat) : Bool := ((tfind s.l2 (base / 128 + i / 128)).map fun l => l.dirty.getLsbD (i % 128)).getD false
    let last := recGen rec0 = 0xFF ∧ recCtr rec0 = 0xFFFFFF
    let roll := recCtr rec0 = 0xFFFFFF
    let gen := if roll then recGen rec0 + 1 else recGen rec0
    let ctr := if roll then 0 else recCtr rec0 + 1
    let t := (s.writeBack base g anchor false).1
    let lines' (f : L2Line → L2Line) : Prop := ∀ k, tfind t.l2 k =
      if base / 128 ≤ k ∧ k < (base + n) / 128 then (tfind s.l2 k).map f else tfind s.l2 k
    base % n = 0 → Memory.wf s.dram → s.dirtyLines base g ≠ [] → recQ rec0 = false → (tfind s.pkg.ks.keys slot).isSome = true →
    (s.cxlGone base = true → s.writeBack base g anchor false = (s.wbFail base g, .failed .cxlDown))
    ∧ (s.cxlGone base = false → last → lines' (fun l => { l with frozen := true }) ∧ t.dram = s.dram ∧ t.seals = s.seals ∧ t.anchors = s.anchors)
    ∧ ∀ ks data told, s.cxlGone base = false → ¬ last → s.keyOf slot gen = some ks →
      (full ∧ data = readBytes s.mem base n ∧ told = false)
        ∨ (¬ full ∧ ∃ old r, s.checkGranule base ((lines.head?.map (·.2.slot)).getD slot) g anchor = .ok (old, r) ∧ told = recT r
            ∧ data.length = n ∧ ∀ i, i < n → data.getD i 0 = if dirty i then readByte s.mem (base + i) else old.getD i 0) →
      let tn := told || lines.any fun e => e.2.taint ≠ 0
      let ct := ctrCrypt ks slot gen ctr base g (bytesToBlocks data)
      let r := recMake tn slot gen ctr (sealTag ks (recMake tn slot gen ctr 0).toNat slot gen ctr base g ct)
      readBytes t.dram base n = blocksToBytes ct ∧ (∀ a, a < base ∨ base + n ≤ a → readByte t.dram a = readByte s.dram a)
      ∧ (∀ k, tfind t.seals k = if k = base / 512 then some r else tfind s.seals k)
      ∧ (∀ k, tfind t.anchors k = if k = base / 512 ∧ (tfind s.anchors k).isSome then some r else tfind s.anchors k)
      ∧ lines' (fun l => { l with dirty := 0, frozen := false }) ∧ t.mem = s.mem

/-- A stale notice makes the die's copy STALE and is gone; a fill and a write-back act on a granule, and leave what granuleFills and granuleWrites say; a scrub that finds an error quarantines its granule and reports it; a CXL link goes down; a host module is removed (R331, R332, R357, R403, R406, R414). A host read enters the line in the snoop filter, a host write is performed at the home under the key slot of the function, a slot mismatch is counted as a refusal and reported (R404, R405); a request of another package is performed under its tenant's slot, an atomic add waits for its home, a member of a collective for the others; a member that leaves ends its collective, and a package says which tenants are resident there (R228, R401, R408, R409). The model's readings: a request of another package needs a KiteLink port up (log 33), the granule size that a scrub takes (log 25), what is held of the pod's memory and copies (log 42), and that a write-back behind a CXL port that is down fails (log 72). -/
def Obligations.MemoryAndLinkEvents : Prop :=
  granuleFills ∧ granuleWrites ∧
  (∀ (s : State) (d line pa slot m : Nat) (g anchor : Bool), s.on →
    let D := s.die d
    let base := granBase pa g
    let present := ∃ e ∈ s.l2, base / 128 ≤ e.1 ∧ e.1 < (base + granSize g) / 128
    (∃ t : State, exec (.staleNotice d line) s = .next t.settle
      ∧ ((d, line) ∉ s.staleNotices → t = s)
      ∧ ((d, line) ∈ s.staleNotices → t.staleNotices = s.staleNotices.erase (d, line)
          ∧ (∀ l, tfind (t.die d).rdc l = if l = line then (tfind D.rdc line).map (fun r => { r with stale := true }) else tfind D.rdc l)))
    ∧ (s.isSealed pa = false ∨ present → exec (.granuleFill pa slot g anchor) s = .next s.settle)
    ∧ (∀ t, s.isSealed pa = true → ¬ present →
        let at' : Attr := { s.plainAt pa with g512 := g, anchor := anchor }
        fillGranule { whoDcc (s.homeDie pa) with slot := slot } pa at' s = .ok () t →
        exec (.granuleFill pa slot g anchor) s = .next (t.settleAlloc s pa at').settle)
    ∧ (∀ l, tfind s.l2 (pa / 128) = some l →
        exec (.granuleWriteback pa) s = .next (s.writeBack (granBase pa l.attr.g512) l.attr.g512 l.attr.anchor false).1.settle)
    ∧ (tfind s.l2 (pa / 128) = none → exec (.granuleWriteback pa) s = .next s.settle)
    ∧ (let h := s.gran512 pa
       (s.isSealed pa = true → exec (.patrolScrub pa true) s =
          .next ((s.quarantine (granBase pa h) h).postEvent (s.homeDie pa) .sealScrubUe (granBase pa h) 0).settle)
       ∧ (s.isSealed pa = false ∨ (tget 0 s.ueMarks (granBase pa h / 512) ≠ 1 ∧ tget 0 s.ueMarks (granBase pa h / 512) ≠ 2) →
          exec (.patrolScrub pa false) s = .next s.settle))
    ∧ (∃ t : State, exec (.cxlLinkDown d) s = .next t.settle ∧ t = s.setDie d { D with cxl := (t.die d).cxl, cxlTrained := false }
        ∧ (t.die d).cxl.getLsbD 0 = false ∧ ∀ b, 1 ≤ b → b < 64 → (t.die d).cxl.getLsbD b = D.cxl.getLsbD b)
    ∧ (m < 4 → ∃ t : State, exec (.hostModuleDegrade m) s = .next t.settle ∧ t = { s with pkg := { s.pkg with hostMods := t.pkg.hostMods } }
        ∧ ∀ b, b < 4 → t.pkg.hostMods.getLsbD b = (s.pkg.hostMods.getLsbD b && decide (b ≠ m))))
  ∧ (∀ (s t : State) (fn pa pkg tenant : Nat) (v : Quad), s.on →
    let w := s.whoHost fn pa
    let up := s.pkg.hostMods ≠ 0 ∧ pa < 0xF800000000 ∧ pa % 8 = 0
    let st := homeStore w plainAttr pa (toBytes 8 v.toNat) false
    let p := s.whoPod pkg tenant pa
    (¬ up → ∀ i ∈ [Instr.hostCxlmemRead fn pa, .hostCxlmemWrite fn pa v], exec i s = .next s.settle)
    ∧ (∀ r, up → attempt (homeRead w plainAttr pa 8) s = .ok (.ok r) t →
        exec (.hostCxlmemRead fn pa) s = .next ({ t with pkg := { t.pkg with
          hostHeld := (pa / 128) :: t.pkg.hostHeld.filter (· ≠ pa / 128) } } : State).settle)
    ∧ (up → attempt st s = .ok (.ok ()) t → exec (.hostCxlmemWrite fn pa v) s = .next t.settle)
    ∧ (∀ e, up → attempt st s = .ok (.error e) t → e.cause = .sealTenant →
        exec (.hostCxlmemWrite fn pa v) s = .next ((t.refuse (t.sliceOf pa) w.id).postEvent (t.homeDie pa) .sealTenant pa 0).settle)
    ∧ (∀ e, up → attempt st s = .ok (.error e) t → e.cause ≠ .sealTenant → exec (.hostCxlmemWrite fn pa v) s = .next t.settle)
    ∧ (s.kiteUp = false → ∀ req, exec (.kitelinkIngressRequest pkg req) s = .next s.settle)
    ∧ (s.kiteUp = true →
        (∀ r, attempt (homeRead p plainAttr (pa - pa % 8) 8) s = .ok (.ok r) t →
          exec (.kitelinkIngressRequest pkg (.read pa tenant)) s = .next (t.podCopy (pa / 128) pkg).settle)
        ∧ ((homeStore p plainAttr (pa - pa % 8) (toBytes 8 v.toNat) false) s = .ok () t →
          exec (.kitelinkIngressRequest pkg (.write pa tenant v)) s = .next t.settle)
        ∧ (∀ d sc, (s.homeOf pa).place = some (d, sc) →
          exec (.kitelinkIngressRequest pkg (.atomAdd pa tenant v)) s = .next ({ s with
            atomQ := tset s.atomQ (d * 32 + sc) ((tget [] s.atomQ (d * 32 + sc)) ++ [⟨pkg, tenant, pa - pa % 8, v⟩]) } : State).settle)
        ∧ (∀ resident, ∃ u : State, exec (.kitelinkIngressRequest pkg (.residence tenant resident)) s = .next u.settle ∧ u = { s with podResident := u.podResident }
            ∧ ∀ e, e ∈ u.podResident ↔ (if e = (pkg % 32, tenant) then resident = true else e ∈ s.podResident))
        ∧ (∀ tag,
            let ms := s.joins tenant tag
            let f := s.collFail ms .collAbort
            ((∃ m ∈ ms, m.group.testBit (pkg % 32) = true) → exec (.kitelinkIngressRequest pkg (.collLeave tenant tag)) s =
              .next ({ f with colls := f.colls.filter fun m => !(m.tenant = tenant && m.tag = tag) } : State).settle)
            ∧ ((∀ m ∈ ms, m.group.testBit (pkg % 32) = false) → exec (.kitelinkIngressRequest pkg (.collLeave tenant tag)) s = .next s.settle))
        ∧ ∀ tag idx count op kind root group src,
          exec (.kitelinkIngressRequest pkg (.collJoin tenant tag idx count op kind root group src)) s = .next ({ s with
            colls := s.colls ++ [⟨none, idx % 32, tenant, tag, count, op, kind, root, group, src⟩] } : State).settle))

/-- Every row that writes a register is a write by the host, which the register's access table admits or refuses, or by the board's management controller, which writes none but BMC_CAP (R399, R401, R402, R404, R415). Translation invalidation sends the reductions that wait on a named translation, then drops, in every unit of the package, the entry, the context's or all entries (R325); the window into the host's memory is not for a host's write (R404); a window register takes its defined bits and the lines of its aperture are dropped (R342); ATCTL keeps LOCK once set, and 1 in VVALID clears VVALID and VCOUNT and keeps VMASTER (R402); a write outside the control space or not of an aligned quad does nothing (R399). KS_CMD makes the key store busy with a command, and one written while it is busy, or of no command, only sets ERR; a command is performed while it is the one that the key store is busy with, ends BUSY, and leaves an ERR set meanwhile. LOAD fills a free slot other than 0 and clears the key registers, else ERR; CLEAR empties it; RESEAL reseals every granule of the range; KS_RDATA writes the record of the granule at KS_RADDR but for its read-only bits (Table 11-5); KS_TAMPER does nothing with the fuse off, and only sets ERR while the key store is busy (R407, R428, R429, Table 15-3). The model's readings: that these rows are writes by State.master (log 32), that only LOCK governs a table's own registers (log 62), that KS_RDATA is two writes of a quad, each admitted or refused, and RESEAL goes through the granules in rising order (log 31), and the granule size that KS_TAMPER and RESEAL take for an address (log 25). With the fuse on and nothing busy, on a sealed granule with nothing dirty, it flips the bits of the mask in one byte of the stored ciphertext, or of the TAG in the record and in the anchor record where there is one, and the lines of the granule are gone from the L2. -/
def Obligations.RegisterAndKeyEvents : Prop :=
  ((∀ (s : State) (d c va sc win reg target addr : Nat) (v : Quad), s.on → d < 4 → c < 1024 → va < 2 ^ 32 → sc < 32 → win < 16 → reg < 8 →
    (∀ p ∈ ([(Instr.tlbInvalRange d c va, c + va * 2 ^ 16, fun k => k == c * 2 ^ 32 + va), (.tlbInvalContext d c, c + 2 ^ 10, fun k => k / 2 ^ 32 == c),
             (.tlbInvalAll d, 2 ^ 11, fun _ => true)] : List (Instr × Nat × (Nat → Bool))),
      let sent := (s.cores.map (·.1)).foldl (fun s k => s.sendEntries k fun e => p.2.2 (tlbKey e.ctx e.va)) s
      ∃ t : State, rowWrites s (dieCtrl d + 0x100) (BitVec.ofNat 64 p.2.1) p.1 t ∧ t = { sent with tlb := t.tlb }
        ∧ (∀ u k, tfind (tget [] t.tlb u) k = if p.2.2 k then none else tfind (tget [] sent.tlb u) k)
        ∧ ((∀ e ∈ s.cores, ∀ r ∈ e.2.cbuf, p.2.2 (tlbKey r.ctx r.va) = false) → sent = s))
    ∧ (let lo := (0x8000000000000 + d * 2 ^ 49 + sc * 2 ^ 44 + win * 2 ^ 40) / 128
       let n := sc * 128 + win * 8 + reg
       ∃ t : State, rowWrites s (fwinAddr d sc win reg) v (.fwinRegWrite d sc win reg v) t
        ∧ (∀ b, b < 64 → (tget 0 (t.die d).fwin n).getLsbD b =
            (v.getLsbD b && (if reg = 5 then decide (b < 24 ∨ (32 ≤ b ∧ b < 35)) else if reg = 7 then decide (b < 10) else true)))
        ∧ (∀ m, m ≠ n → tget 0 (t.die d).fwin m = tget 0 (s.die d).fwin m)
        ∧ ∀ l, tfind t.l2 l = if lo ≤ l ∧ l < lo + 2 ^ 33 then none else tfind s.l2 l)
    ∧ (target ≤ tgtKey →
       let k := target * 64 + 32
       let old := tget 0 s.atab k
       ∃ new, rowWrites s (tableAddr target) v (.atctlWrite target v) { s with atab := tset s.atab k new }
        ∧ new.getLsbD 63 = (old.getLsbD 63 || v.getLsbD 63)
        ∧ ∀ b, b < 63 → new.getLsbD b = (old.getLsbD b && (!v.getLsbD 31 || decide (32 ≤ b ∧ b < 44))))
    ∧ (isControl addr = false ∨ addr % 8 ≠ 0 → exec (.ctrlRegWrite addr v) s = .next s.settle)
    ∧ (isControl addr = true → addr % 8 = 0 →
        let b := (addr - 0x3000000000000) / 2 ^ 40
        let off := (addr - 0x3000000000000) % 2 ^ 40
        (b < 4 → hostWrites s addr v (.ctrlRegWrite addr v) (s.dieWrite b off v))
        ∧ (b = 4 → off < 0x40000000 → hostWrites s addr v (.ctrlRegWrite addr v) (s.pkgWrite off v))
        ∧ (b = 4 → 0x40000000 ≤ off → ∀ fn, s.master = .host fn → exec (.ctrlRegWrite addr v) s = .next s.settle))
    ∧ (s.master = .bmc →
        (addr ≠ pkgCtrl + 0x3008 → exec (.ctrlRegWrite addr v) s = .next s.settle)
        ∧ exec (.ctrlRegWrite (pkgCtrl + 0x3008) v) s = .next ({ s with pkg := { s.pkg with bmcCap := field v.toNat 0 12 } } : State).settle))
  ∧ (∀ (s : State) (v : BitVec 128) (q : Quad), s.on →
    let k := s.pkg.ks
    let put (k' : KeyStore) : State := { s with pkg := { s.pkg with ks := k' } }
    let n := field q.toNat 0 3
    (s.pkgWrite 0x1010 q = put (if k.busy = 0 ∧ 1 ≤ n ∧ n ≤ 3 then { k with busy := n, err := false } else { k with err := true }))
    ∧ (∀ p ∈ [(Instr.ksLoad, 1), (.ksClear, 2), (.ksReseal, 3)], k.busy ≠ p.2 → exec p.1 s = .next s.settle)
    ∧ (k.busy = 1 → k.sel = 0 ∨ (tfind k.keys k.sel).isSome = true → exec .ksLoad s = .next (put { k with err := true, busy := 0 }).settle)
    ∧ (k.busy = 1 → k.sel ≠ 0 → tfind k.keys k.sel = none →
        exec .ksLoad s = .next (put { k with keys := tset k.keys k.sel k.key, key := 0, busy := 0 }).settle)
    ∧ (k.busy = 2 → k.sel = 0 → exec .ksClear s = .next (put { k with err := true, busy := 0 }).settle)
    ∧ (k.busy = 2 → k.sel ≠ 0 → (∀ e ∈ s.l2, e.2.slot ≠ k.sel ∨ e.2.dirty = 0) →
        exec .ksClear s = .next (put { k with keys := terase k.keys k.sel, busy := 0 }).settle)
    ∧ (k.busy = 3 →
       let gs := s.granulesOf (k.rlen / 512 + 1) k.rbase (k.rbase + k.rlen)
       let r := gs.foldl (fun (y : State × Bool) (e : Nat × Bool) =>
         ((y.1.resealOne e.1 e.2 k.newslot).1, y.2 || !(y.1.resealOne e.1 e.2 k.newslot).2)) (s, false)
       exec .ksReseal s = .next (r.1.setKs { r.1.pkg.ks with err := r.1.pkg.ks.err || r.2, busy := 0 }).settle)
    ∧ (∃ t : State,
        (s.master = .bmc → exec (.ksRdataWrite v) s = .next s.settle)
        ∧ (∀ fn, s.master = .host fn →
            let id := 3 * 512 + fn % 16
            let admits := s.ctrlAdmits id (pkgCtrl + 0x1060) (some (v.extractLsb' 0 64)) = true
            (s.pkg.hostMods = 0 → exec (.ksRdataWrite v) s = .next s.settle)
            ∧ (s.pkg.hostMods ≠ 0 → admits → exec (.ksRdataWrite v) s = .next t.settle)
            ∧ (s.pkg.hostMods ≠ 0 → ¬ admits → exec (.ksRdataWrite v) s =
                .next ((s.ctrlRefuse id (pkgCtrl + 0x1060)).ctrlRefuse id (pkgCtrl + 0x1068)).settle))
        ∧ ∃ r : BitVec 128, (∀ b, b < 107 → r.getLsbD b = v.getLsbD b) ∧ (∀ b, 107 ≤ b → r.getLsbD b = (s.recordOf k.raddr).getLsbD b)
        ∧ tfind t.seals (k.raddr / 512) = some r
        ∧ (∀ n, n ≠ k.raddr / 512 → tfind t.seals n = tfind s.seals n)
        ∧ ∀ n, tfind t.anchors n = if n = k.raddr / 512 ∧ (tfind s.anchors n).isSome then some r else tfind s.anchors n)
    ∧ (k.testMode = true → k.busy ≠ 0 → rowWrites s (pkgCtrl + 0x1070) q (.ksTamper q) (put { k with err := true }))
    ∧ (k.testMode = false → rowWrites s (pkgCtrl + 0x1070) q (.ksTamper q) s)))
  ∧ (∀ (s : State) (q : Quad), s.on → s.pkg.ks.testMode = true → s.pkg.ks.busy = 0 →
    let pa := field q.toNat 0 52
    let mask := field q.toNat 56 8
    let g := s.gran512 pa
    let base := granBase pa g
    s.isSealed pa = true → mask ≠ 0 → field q.toNat 52 3 = 0 → q.getLsbD 55 = false → s.dirtyLines base g = [] → Memory.wf s.dram →
    ∃ t : State, rowWrites s (pkgCtrl + 0x1070) q (.ksTamper q) t
      ∧ (∀ a, readByte t.dram a = if a = pa then readByte s.dram pa ^^^ BitVec.ofNat 8 mask else readByte s.dram a)
      ∧ (∀ l, tfind t.l2 l = if base / 128 ≤ l ∧ l < (base + granSize g) / 128 then none else tfind s.l2 l)
      ∧ t.mem = s.mem ∧ t.seals = s.seals ∧ t.anchors = s.anchors)
  ∧ (∀ (s : State) (q : Quad), s.on → s.pkg.ks.testMode = true → s.pkg.ks.busy = 0 →
    let pa := field q.toNat 0 52
    let mask := field q.toNat 56 8
    let g := s.gran512 pa
    let base := granBase pa g
    let flip (r : BitVec 128) : BitVec 128 := r ^^^ BitVec.ofNat 128 (mask <<< (8 * (pa % 8)))
    s.isSealed pa = true → mask ≠ 0 → field q.toNat 52 3 = 0 → q.getLsbD 55 = true → s.dirtyLines base g = [] →
    ∃ t : State, rowWrites s (pkgCtrl + 0x1070) q (.ksTamper q) t
      ∧ t.sealRec base = flip (s.sealRec base) ∧ (∀ m, m ≠ base / 512 → tfind t.seals m = tfind s.seals m)
      ∧ (∀ m, tfind t.anchors m = if m = base / 512 then (tfind s.anchors m).map flip else tfind s.anchors m)
      ∧ (∀ l, tfind t.l2 l = if base / 128 ≤ l ∧ l < (base + granSize g) / 128 then none else tfind s.l2 l)
      ∧ t.mem = s.mem ∧ t.dram = s.dram)

/-- A KiteLink port that has trained is up with its peer, in conflict where the peer has the package's own index; one that has not, or goes down, is not up (R408); the boot stages advance a die, stage 0 locking the key store's table and starting the firmware or halting the die, stage 1 losing a link of the die where its training fails and staying where the host link has no module, stage 2 loading slot 0 and giving every seal record and anchor entry of the die's memory its reset value, stage 3 training the CXL port, and telemetry holds the stage that failed last (R406, R407, R411, R412, R415); package reset sets every register to its reset value and keeps what lies outside the package (R411); throttling sets the clock step, and at the critical temperature the power goes, and every context with it: after it nothing runs but the reset of the next power-up, which reports the event (R416, R418). The model's choices: what package reset keeps, the fuse too (log 21); that a boot failure's code is its stage (log 26); which link fails at stage 1, a free value (log 52); the fault powerRemoved of what does not run without power (log 53). -/
def Obligations.LinkBootAndPowerEvents : Prop :=
  (∀ (s : State) (port peer d n : Nat), s.on →
    let P := s.pkg.port port
    let D := s.die d
    (port < 18 → exec (.klRetrain port peer true) s =
        .next (s.setPort port { P with up := true, conflict := decide (peer % 32 = s.pkg.index), peer := peer % 32 }).settle)
    ∧ (port < 18 → ∀ i ∈ [Instr.klRetrain port peer false, .klPortDown port], exec i s =
        .next (s.setPort port { P with up := false }).abortUnrouted.settle)
    ∧ (18 ≤ port → ∀ i ∈ [Instr.klRetrain port peer true, .klRetrain port peer false, .klPortDown port], exec i s = .next s.settle)
    ∧ (d < 4 →
        let failed (t : State) : State := { t with pkg := { t.pkg with reports := t.pkg.reports ++ [.bootFailed d D.boot] } }
        let bad := failed (s.setDie d { D with tele := { D.tele with bootFail := some D.boot } })
        (D.bootHalted = true ∨ 5 ≤ D.boot → ∀ b, exec (.bootStage d b) s = .next s.settle)
        ∧ (D.bootHalted = false → D.boot = 0 → exec (.bootStage d false) s = .next (bad.bootHalt d).settle
            ∧ ∃ t : State, exec (.bootStage d true) s = .next t.settle ∧ (t.die d).boot = 1 ∧ (t.die d).dcc.started = true
              ∧ (t.die d).dcc.vec = Config.firmwareEntry d &&& ~~~15#64 ∧ (t.die d).dcc.leaf.pc = Config.firmwareEntry d &&& ~~~15#64
              ∧ t.atLocked tgtKey = true)
        ∧ (D.bootHalted = false → D.boot = 1 → s.pkg.hostMods = 0 → exec (.bootStage d true) s = .next bad.settle)
        ∧ (D.bootHalted = false → D.boot = 1 → s.pkg.hostMods ≠ 0 → exec (.bootStage d true) s = .next (s.setDie d { D with boot := 2 }).settle)
        ∧ (D.bootHalted = false → D.boot = 1 → ∀ e, e < 4 → e ≠ d → (min e d, max e d) ∉ s.pkg.linksLost →
            ∃ e', e' < 4 ∧ e' ≠ d ∧ (min e' d, max e' d) ∉ s.pkg.linksLost ∧
              let t := ({ bad with free := s.free + 1 } : State).loseLink d e'
              exec (.bootStage d false) s = .next (if s.pkg.hostMods = 0 then t else t.setDie d { t.die d with boot := 2 }).settle)
        ∧ (D.bootHalted = false → D.boot = 1 → (∀ e, e < 4 → e ≠ d → (min e d, max e d) ∈ s.pkg.linksLost) →
            exec (.bootStage d false) s = .next (if s.pkg.hostMods = 0 then bad else bad.setDie d { bad.die d with boot := 2 }).settle)
        ∧ (D.bootHalted = false → D.boot = 2 → exec (.bootStage d false) s = .next bad.settle)
        ∧ (D.bootHalted = false → D.boot = 2 → ∃ t : State, exec (.bootStage d true) s = .next t.settle ∧ (t.die d).boot = 3
            ∧ tfind t.pkg.ks.keys 0 = some Config.slot0Key ∧ (∀ m, m ≠ 0 → tfind t.pkg.ks.keys m = tfind s.pkg.ks.keys m)
            ∧ (∀ g, s.homeDie (g * 512) = d → tfind t.seals g = none ∧ tfind t.anchors g = (tfind s.anchors g).map fun _ => recInit)
            ∧ ∀ g, s.homeDie (g * 512) ≠ d → tfind t.seals g = tfind s.seals g ∧ tfind t.anchors g = tfind s.anchors g)
        ∧ (D.bootHalted = false → D.boot = 3 → ∃ t : State, exec (.bootStage d true) s = .next t.settle ∧ (t.die d).boot = 4
            ∧ field (t.die d).cxl.toNat 0 32 = 3 ∧ field (t.die d).cxl.toNat 32 32 ≤ 2048 ∧ (t.die d).cxlTrained = true)
        ∧ (D.bootHalted = false → D.boot = 4 → exec (.bootStage d true) s = .next (s.setDie d { D with boot := 5 }).settle)
        ∧ (D.bootHalted = false → D.boot = 3 ∨ D.boot = 4 → exec (.bootStage d false) s =
            .next (failed (s.setDie d { D with boot := D.boot + 1, tele := { D.tele with bootFail := some D.boot } })).settle))
    ∧ (8 ≤ n → n ≤ 16 →
        exec (.powerThrottle n) s = .next ({ s with pkg := { s.pkg with thrStep := n, thrPower := decide (n < 16) } } : State).settle
        ∧ exec (.thermalThrottle d n) s = .next ({ s with pkg := { s.pkg with thrStep := n, thrTemp := decide (n < 16) } } : State).settle)
    ∧ (n < 8 ∨ 16 < n → ∀ i ∈ [Instr.powerThrottle n, .thermalThrottle d n], exec i s = .next s.settle)
    ∧ exec (.thermalCritical d) s = .next ({ s with pkg := { s.pkg with off := true }, ctxs := [], leaves := [], holders := [] } : State).settle)
  ∧ (∀ (s : State),
    let t : State := { State.reset with
      turns := s.turns, free := s.free, dram := s.dram, podMem := s.podMem, podDirty := s.podDirty, hostMem := s.hostMem, slowVec := s.slowVec
      pkg := { State.reset.pkg with
        ks := { State.reset.pkg.ks with testMode := s.pkg.ks.testMode }
        reports := if s.pkg.off then [.powerEvent] else [] } }
    exec .packageReset s = .next t
    ∧ (s.pkg.off = true →
        (∀ i, i ≠ Instr.packageReset → exec i s = .fault .powerRemoved)
        ∧ ((∀ ts, s.turns ≠ .act .packageReset :: ts) → step s = .fault .powerRemoved)
        ∧ ∀ ts, s.turns = .act .packageReset :: ts → step s = .next { t with turns := ts }))
end

