-- ==== Sys2Proof/Laws/Tables.lean ====
section
/-! SUPPORT. Laws of the tables by number: what reading an entry gives after an entry is set, erased or mapped. -/

namespace Sys2Proof

variable {α : Type}

/-- Reading back the entry that was set. -/
@[simp] theorem tfind_tset_self (t : Tbl α) (k : Nat) (v : α) : tfind (tset t k v) k = some v := by
  induction t with
  | nil => simp [tset, tfind]
  | cons e t ih =>
    obtain ⟨j, a⟩ := e
    unfold tset
    split
    · simp [tfind]
    · split
      · simp [tfind]
      · simp [tfind, *]

/-- Setting an entry leaves every other entry. -/
theorem tfind_tset_other (t : Tbl α) {k j : Nat} (v : α) (h : j ≠ k) : tfind (tset t k v) j = tfind t j := by
  induction t with
  | nil => simp [tset, tfind, Ne.symm h]
  | cons e t ih =>
    obtain ⟨i, a⟩ := e
    unfold tset
    split
    · rename_i hi
      simp [tfind, hi, Ne.symm h]
    · split
      · simp [tfind, Ne.symm h]
      · simp [tfind, ih]

/-- Setting an entry twice is setting it last. -/
@[simp] theorem tset_tset (t : Tbl α) (k : Nat) (u v : α) : tset (tset t k u) k v = tset t k v := by
  induction t with
  | nil => simp [tset]
  | cons e t ih =>
    obtain ⟨j, a⟩ := e
    by_cases h : j = k
    · simp [tset, h]
    · by_cases g : k < j
      · simp [tset, h, g]
      · simp [tset, h, g, ih]

/-- `tget` of the entry that was set. -/
@[simp] theorem tget_tset_self (d : α) (t : Tbl α) (k : Nat) (v : α) : tget d (tset t k v) k = v := by
  simp [tget]

/-- `tget` of another entry. -/
theorem tget_tset_other (d : α) (t : Tbl α) {k j : Nat} (v : α) (h : j ≠ k) : tget d (tset t k v) j = tget d t j := by
  simp [tget, tfind_tset_other t v h]

/-- An erased entry is absent. -/
@[simp] theorem tfind_terase_self (t : Tbl α) (k : Nat) : tfind (terase t k) k = none := by
  induction t with
  | nil => rfl
  | cons e t ih =>
    obtain ⟨j, a⟩ := e
    by_cases h : j = k
    · simpa [terase, h] using ih
    · simpa [terase, h, tfind] using ih

/-- Erasing an entry leaves every other entry. -/
theorem tfind_terase_other (t : Tbl α) {k j : Nat} (h : j ≠ k) : tfind (terase t k) j = tfind t j := by
  induction t with
  | nil => rfl
  | cons e t ih =>
    obtain ⟨i, a⟩ := e
    by_cases hi : i = k
    · simpa [terase, hi, tfind, Ne.symm h] using ih
    · by_cases hj : i = j
      · subst hj; simp [terase, hi, tfind]
      · simpa [terase, hi, tfind, hj] using ih

/-- Reading a mapped table. -/
theorem tfind_tmap (f : Nat → α → α) (t : Tbl α) (k : Nat) : tfind (tmap f t) k = (tfind t k).map (f k) := by
  induction t with
  | nil => rfl
  | cons e t ih =>
    obtain ⟨j, a⟩ := e
    by_cases h : j = k
    · subst h; simp [tmap, tfind]
    · simpa [tmap, tfind, h] using ih

end Sys2Proof
end

