-- ==== Sys2Proof/Laws/Memory.lean ====
section
/-! SUPPORT. Laws of the memories: the canonical form, which `writeBytes` keeps, and what a byte reads as after a write. -/

namespace Sys2Proof.Machine

/-- The canonical form as a statement about the list: addresses rise strictly and no cell holds the byte an unlisted address reads as. -/
theorem memWf_iff (m : List Host.Cell) :
    memWf m = true ↔ m.Pairwise (fun a b => a.1 < b.1) ∧ ∀ c ∈ m, c.2 ≠ 0 := by
  induction m with
  | nil => simp [memWf]
  | cons c m ih =>
    obtain ⟨a, b⟩ := c
    cases m with
    | nil => simp [memWf]
    | cons d m =>
      obtain ⟨a', b'⟩ := d
      simp only [memWf, Bool.and_eq_true, decide_eq_true_eq, bne_iff_ne, ih, List.pairwise_cons, List.mem_cons,
        forall_eq_or_imp]
      constructor
      · rintro ⟨⟨hb, hlt⟩, ⟨hall, hp⟩, hb', hm⟩
        exact ⟨⟨⟨hlt, fun c hc => Nat.lt_trans hlt (hall c hc)⟩, hall, hp⟩, hb, hb', hm⟩
      · rintro ⟨⟨⟨hlt, _⟩, hall, hp⟩, hb, hb', hm⟩
        exact ⟨⟨hb, hlt⟩, ⟨hall, hp⟩, hb', hm⟩

/-- A cell that `cellsFrom` makes lies among the bytes and is not 0. -/
theorem mem_cellsFrom (a : Nat) (bs : List Byte) :
    ∀ c ∈ cellsFrom a bs, a ≤ c.1 ∧ c.1 < a + bs.length ∧ c.2 ≠ 0 := by
  induction bs generalizing a with
  | nil => simp [cellsFrom]
  | cons b bs ih =>
    intro c hc
    unfold cellsFrom at hc
    split at hc
    · have := ih (a + 1) c hc
      simp only [List.length_cons]
      exact ⟨by omega, by omega, this.2.2⟩
    · rcases List.mem_cons.mp hc with rfl | hc
      · simp_all
      · have := ih (a + 1) c hc
        simp only [List.length_cons]
        exact ⟨by omega, by omega, this.2.2⟩

/-- The cells that `cellsFrom` makes rise. -/
theorem cellsFrom_pairwise (a : Nat) (bs : List Byte) : (cellsFrom a bs).Pairwise (fun x y => x.1 < y.1) := by
  induction bs generalizing a with
  | nil => simp [cellsFrom]
  | cons b bs ih =>
    unfold cellsFrom
    split
    · exact ih _
    · refine List.pairwise_cons.mpr ⟨fun c hc => ?_, ih _⟩
      have := mem_cellsFrom (a + 1) bs c hc
      show a < c.1
      omega

/-- A write keeps the canonical form. -/
theorem writeBytes_wf (m : List Host.Cell) (a : Nat) (bs : List Byte) (h : Memory.wf m) :
    Memory.wf (writeBytes m a bs) := by
  rw [Memory.wf, memWf_iff] at *
  obtain ⟨hp, hz⟩ := h
  refine ⟨?_, fun c hc => ?_⟩
  · unfold writeBytes
    refine List.pairwise_append.mpr ⟨List.pairwise_append.mpr ⟨hp.filter _, cellsFrom_pairwise a bs, ?_⟩, hp.filter _, ?_⟩
    · intro x hx y hy
      have := mem_cellsFrom a bs y hy
      have hx := (List.mem_filter.mp hx).2
      simp only [decide_eq_true_eq] at hx
      omega
    · intro x hx y hy
      have hy := (List.mem_filter.mp hy).2
      simp only [decide_eq_true_eq] at hy
      rcases List.mem_append.mp hx with hx | hx
      · have hx := (List.mem_filter.mp hx).2
        simp only [decide_eq_true_eq] at hx
        omega
      · have := mem_cellsFrom a bs x hx
        omega
  · unfold writeBytes at hc
    rcases List.mem_append.mp hc with hc | hc
    · rcases List.mem_append.mp hc with hc | hc
      · exact hz c (List.mem_filter.mp hc).1
      · exact (mem_cellsFrom a bs c hc).2.2
    · exact hz c (List.mem_filter.mp hc).1

/-- The empty memory is canonical. -/
theorem nil_wf : Memory.wf [] := rfl

/-- An address that no cell lists reads as 0. -/
theorem readByte_of_forall_ne (m : List Host.Cell) (x : Nat) (h : ∀ c ∈ m, c.1 ≠ x) : readByte m x = 0 := by
  unfold readByte tget
  induction m with
  | nil => rfl
  | cons c m ih =>
    obtain ⟨j, b⟩ := c
    have hj : j ≠ x := h (j, b) List.mem_cons_self
    simp only [tfind, hj, if_false]
    exact ih fun c hc => h c (List.mem_cons_of_mem _ hc)

/-- Reading from two joined memories. -/
theorem readByte_append (m n : List Host.Cell) (x : Nat) (h : ∀ c ∈ m, c.1 ≠ x) : readByte (m ++ n) x = readByte n x := by
  induction m with
  | nil => rfl
  | cons c m ih =>
    obtain ⟨j, b⟩ := c
    have hj : j ≠ x := h (j, b) List.mem_cons_self
    have := ih fun c hc => h c (List.mem_cons_of_mem _ hc)
    simpa [readByte, tget, tfind, hj] using this

/-- Reading from two joined memories where the second has no cell for the address. -/
theorem readByte_append_left (m n : List Host.Cell) (x : Nat) (h : ∀ c ∈ n, c.1 ≠ x) : readByte (m ++ n) x = readByte m x := by
  induction m with
  | nil => simpa [readByte, tget, tfind] using readByte_of_forall_ne n x h
  | cons c m ih =>
    obtain ⟨j, b⟩ := c
    by_cases hj : j = x
    · simp [readByte, tget, tfind, hj]
    · simpa [readByte, tget, tfind, hj] using ih

/-- Reading from the cells that keep a test which the address passes. -/
theorem readByte_filter (m : List Host.Cell) (p : Nat → Bool) (x : Nat) (h : p x = true) :
    readByte (m.filter fun c => p c.1) x = readByte m x := by
  induction m with
  | nil => rfl
  | cons c m ih =>
    obtain ⟨j, b⟩ := c
    by_cases hj : j = x
    · subst hj; simp [h, readByte, tget, tfind]
    · by_cases hp : p j = true
      · simpa [hp, readByte, tget, tfind, hj] using ih
      · simpa [hp, readByte, tget, tfind, hj] using ih

/-- Reading a byte from `cellsFrom`. -/
theorem readByte_cellsFrom (a : Nat) (bs : List Byte) (i : Nat) (h : i < bs.length) :
    readByte (cellsFrom a bs) (a + i) = bs[i] := by
  induction bs generalizing a i with
  | nil => simp at h
  | cons b bs ih =>
    cases i with
    | zero =>
      unfold cellsFrom
      split
      · rename_i hb
        rw [readByte_of_forall_ne]
        · simp [hb]
        · intro c hc
          have := mem_cellsFrom (a + 1) bs c hc
          omega
      · simp [readByte, tget, tfind]
    | succ i =>
      have hi : i < bs.length := by simpa using h
      have e : a + (i + 1) = a + 1 + i := by omega
      unfold cellsFrom
      split
      · rw [e, ih (a + 1) i hi]; simp
      · have ha : a ≠ a + 1 + i := by omega
        have := ih (a + 1) i hi
        rw [e]
        simpa [readByte, tget, tfind, ha] using this

/-- A byte inside a write reads as what was written (R5). -/
theorem readByte_writeBytes_inside (m : List Host.Cell) (a : Nat) (bs : List Byte) (i : Nat) (h : i < bs.length) :
    readByte (writeBytes m a bs) (a + i) = bs[i] := by
  unfold writeBytes
  rw [readByte_append_left, readByte_append, readByte_cellsFrom a bs i h]
  · intro c hc
    have := (List.mem_filter.mp hc).2
    simp only [decide_eq_true_eq] at this
    omega
  · intro c hc
    have := (List.mem_filter.mp hc).2
    simp only [decide_eq_true_eq] at this
    omega

/-- A byte outside a write reads as before. -/
theorem readByte_writeBytes_outside (m : List Host.Cell) (a : Nat) (bs : List Byte) (x : Nat)
    (h : x < a ∨ a + bs.length ≤ x) : readByte (writeBytes m a bs) x = readByte m x := by
  have hc : ∀ c ∈ cellsFrom a bs, c.1 ≠ x := by
    intro c hc
    have := mem_cellsFrom a bs c hc
    omega
  unfold writeBytes
  rcases h with h | h
  · rw [readByte_append_left, readByte_append_left _ _ _ hc]
    · exact readByte_filter m (fun j => decide (j < a)) x (by simpa using h)
    · intro c hc
      have := (List.mem_filter.mp hc).2
      simp only [decide_eq_true_eq] at this
      omega
  · rw [readByte_append]
    · exact readByte_filter m (fun j => decide (a + bs.length ≤ j)) x (by simpa using h)
    · intro c hc'
      rcases List.mem_append.mp hc' with hc' | hc'
      · have := (List.mem_filter.mp hc').2
        simp only [decide_eq_true_eq] at this
        omega
      · exact hc c hc'

/-- Reading n bytes gives each byte. -/
theorem readBytes_eq (m : List Host.Cell) (a n : Nat) : readBytes m a n = (List.range n).map fun i => readByte m (a + i) := by
  unfold readBytes
  refine List.map_congr_left fun i hi => ?_
  have hi := List.mem_range.mp hi
  exact readByte_filter m (fun j => decide (a ≤ j) && decide (j < a + n)) (a + i) (by simp; omega)

end Sys2Proof.Machine
end

