-- ==== Sys2Proof/Laws/State.lean ====
section
/-! SUPPORT. One lemma per field of State for each update of one part of it, and per register of a leaf for each update of a leaf: no later proof unfolds a record update. -/

namespace Sys2Proof.Machine

/-! ## Setting a leaf slot -/

@[simp] theorem State.setLeafAt_cur (s : State) (core slot : Nat) (L : Leaf) : (s.setLeafAt core slot L).cur = s.cur := rfl
@[simp] theorem State.setLeafAt_turns (s : State) (core slot : Nat) (L : Leaf) : (s.setLeafAt core slot L).turns = s.turns := rfl
@[simp] theorem State.setLeafAt_master (s : State) (core slot : Nat) (L : Leaf) : (s.setLeafAt core slot L).master = s.master := rfl
@[simp] theorem State.setLeafAt_cycle (s : State) (core slot : Nat) (L : Leaf) : (s.setLeafAt core slot L).cycle = s.cycle := rfl
@[simp] theorem State.setLeafAt_free (s : State) (core slot : Nat) (L : Leaf) : (s.setLeafAt core slot L).free = s.free := rfl
@[simp] theorem State.setLeafAt_nextEntry (s : State) (core slot : Nat) (L : Leaf) : (s.setLeafAt core slot L).nextEntry = s.nextEntry := rfl
@[simp] theorem State.setLeafAt_leaves (s : State) (core slot : Nat) (L : Leaf) : (s.setLeafAt core slot L).leaves = tset s.leaves (leafKey core slot) L := rfl
@[simp] theorem State.setLeafAt_cores (s : State) (core slot : Nat) (L : Leaf) : (s.setLeafAt core slot L).cores = s.cores := rfl
@[simp] theorem State.setLeafAt_lastSlot (s : State) (core slot : Nat) (L : Leaf) : (s.setLeafAt core slot L).lastSlot = s.lastSlot := rfl
@[simp] theorem State.setLeafAt_dies (s : State) (core slot : Nat) (L : Leaf) : (s.setLeafAt core slot L).dies = s.dies := rfl
@[simp] theorem State.setLeafAt_ctxs (s : State) (core slot : Nat) (L : Leaf) : (s.setLeafAt core slot L).ctxs = s.ctxs := rfl
@[simp] theorem State.setLeafAt_parts (s : State) (core slot : Nat) (L : Leaf) : (s.setLeafAt core slot L).parts = s.parts := rfl
@[simp] theorem State.setLeafAt_holders (s : State) (core slot : Nat) (L : Leaf) : (s.setLeafAt core slot L).holders = s.holders := rfl
@[simp] theorem State.setLeafAt_offers (s : State) (core slot : Nat) (L : Leaf) : (s.setLeafAt core slot L).offers = s.offers := rfl
@[simp] theorem State.setLeafAt_mem (s : State) (core slot : Nat) (L : Leaf) : (s.setLeafAt core slot L).mem = s.mem := rfl
@[simp] theorem State.setLeafAt_l2 (s : State) (core slot : Nat) (L : Leaf) : (s.setLeafAt core slot L).l2 = s.l2 := rfl
@[simp] theorem State.setLeafAt_dram (s : State) (core slot : Nat) (L : Leaf) : (s.setLeafAt core slot L).dram = s.dram := rfl
@[simp] theorem State.setLeafAt_podMem (s : State) (core slot : Nat) (L : Leaf) : (s.setLeafAt core slot L).podMem = s.podMem := rfl
@[simp] theorem State.setLeafAt_podDirty (s : State) (core slot : Nat) (L : Leaf) : (s.setLeafAt core slot L).podDirty = s.podDirty := rfl
@[simp] theorem State.setLeafAt_podTaint (s : State) (core slot : Nat) (L : Leaf) : (s.setLeafAt core slot L).podTaint = s.podTaint := rfl
@[simp] theorem State.setLeafAt_hostMem (s : State) (core slot : Nat) (L : Leaf) : (s.setLeafAt core slot L).hostMem = s.hostMem := rfl
@[simp] theorem State.setLeafAt_podDenied (s : State) (core slot : Nat) (L : Leaf) : (s.setLeafAt core slot L).podDenied = s.podDenied := rfl
@[simp] theorem State.setLeafAt_podResident (s : State) (core slot : Nat) (L : Leaf) : (s.setLeafAt core slot L).podResident = s.podResident := rfl
@[simp] theorem State.setLeafAt_rdcHeld (s : State) (core slot : Nat) (L : Leaf) : (s.setLeafAt core slot L).rdcHeld = s.rdcHeld := rfl
@[simp] theorem State.setLeafAt_podHeld (s : State) (core slot : Nat) (L : Leaf) : (s.setLeafAt core slot L).podHeld = s.podHeld := rfl
@[simp] theorem State.setLeafAt_stamp (s : State) (core slot : Nat) (L : Leaf) : (s.setLeafAt core slot L).stamp = s.stamp := rfl
@[simp] theorem State.setLeafAt_seals (s : State) (core slot : Nat) (L : Leaf) : (s.setLeafAt core slot L).seals = s.seals := rfl
@[simp] theorem State.setLeafAt_anchors (s : State) (core slot : Nat) (L : Leaf) : (s.setLeafAt core slot L).anchors = s.anchors := rfl
@[simp] theorem State.setLeafAt_ueMarks (s : State) (core slot : Nat) (L : Leaf) : (s.setLeafAt core slot L).ueMarks = s.ueMarks := rfl
@[simp] theorem State.setLeafAt_pending (s : State) (core slot : Nat) (L : Leaf) : (s.setLeafAt core slot L).pending = s.pending := rfl
@[simp] theorem State.setLeafAt_tlb (s : State) (core slot : Nat) (L : Leaf) : (s.setLeafAt core slot L).tlb = s.tlb := rfl
@[simp] theorem State.setLeafAt_staleNotices (s : State) (core slot : Nat) (L : Leaf) : (s.setLeafAt core slot L).staleNotices = s.staleNotices := rfl
@[simp] theorem State.setLeafAt_msgs (s : State) (core slot : Nat) (L : Leaf) : (s.setLeafAt core slot L).msgs = s.msgs := rfl
@[simp] theorem State.setLeafAt_atomQ (s : State) (core slot : Nat) (L : Leaf) : (s.setLeafAt core slot L).atomQ = s.atomQ := rfl
@[simp] theorem State.setLeafAt_colls (s : State) (core slot : Nat) (L : Leaf) : (s.setLeafAt core slot L).colls = s.colls := rfl
@[simp] theorem State.setLeafAt_arbLast (s : State) (core slot : Nat) (L : Leaf) : (s.setLeafAt core slot L).arbLast = s.arbLast := rfl
@[simp] theorem State.setLeafAt_arbCredit (s : State) (core slot : Nat) (L : Leaf) : (s.setLeafAt core slot L).arbCredit = s.arbCredit := rfl
@[simp] theorem State.setLeafAt_occ (s : State) (core slot : Nat) (L : Leaf) : (s.setLeafAt core slot L).occ = s.occ := rfl
@[simp] theorem State.setLeafAt_atab (s : State) (core slot : Nat) (L : Leaf) : (s.setLeafAt core slot L).atab = s.atab := rfl
@[simp] theorem State.setLeafAt_slowVec (s : State) (core slot : Nat) (L : Leaf) : (s.setLeafAt core slot L).slowVec = s.slowVec := rfl
@[simp] theorem State.setLeafAt_svMap (s : State) (core slot : Nat) (L : Leaf) : (s.setLeafAt core slot L).svMap = s.svMap := rfl
@[simp] theorem State.setLeafAt_pkg (s : State) (core slot : Nat) (L : Leaf) : (s.setLeafAt core slot L).pkg = s.pkg := rfl

/-! ## Setting a core -/

@[simp] theorem State.setCore_cur (s : State) (c : Nat) (x : Core) : (s.setCore c x).cur = s.cur := rfl
@[simp] theorem State.setCore_turns (s : State) (c : Nat) (x : Core) : (s.setCore c x).turns = s.turns := rfl
@[simp] theorem State.setCore_master (s : State) (c : Nat) (x : Core) : (s.setCore c x).master = s.master := rfl
@[simp] theorem State.setCore_cycle (s : State) (c : Nat) (x : Core) : (s.setCore c x).cycle = s.cycle := rfl
@[simp] theorem State.setCore_free (s : State) (c : Nat) (x : Core) : (s.setCore c x).free = s.free := rfl
@[simp] theorem State.setCore_nextEntry (s : State) (c : Nat) (x : Core) : (s.setCore c x).nextEntry = s.nextEntry := rfl
@[simp] theorem State.setCore_leaves (s : State) (c : Nat) (x : Core) : (s.setCore c x).leaves = s.leaves := rfl
@[simp] theorem State.setCore_cores (s : State) (c : Nat) (x : Core) : (s.setCore c x).cores = tset s.cores c x := rfl
@[simp] theorem State.setCore_lastSlot (s : State) (c : Nat) (x : Core) : (s.setCore c x).lastSlot = s.lastSlot := rfl
@[simp] theorem State.setCore_dies (s : State) (c : Nat) (x : Core) : (s.setCore c x).dies = s.dies := rfl
@[simp] theorem State.setCore_ctxs (s : State) (c : Nat) (x : Core) : (s.setCore c x).ctxs = s.ctxs := rfl
@[simp] theorem State.setCore_parts (s : State) (c : Nat) (x : Core) : (s.setCore c x).parts = s.parts := rfl
@[simp] theorem State.setCore_holders (s : State) (c : Nat) (x : Core) : (s.setCore c x).holders = s.holders := rfl
@[simp] theorem State.setCore_offers (s : State) (c : Nat) (x : Core) : (s.setCore c x).offers = s.offers := rfl
@[simp] theorem State.setCore_mem (s : State) (c : Nat) (x : Core) : (s.setCore c x).mem = s.mem := rfl
@[simp] theorem State.setCore_l2 (s : State) (c : Nat) (x : Core) : (s.setCore c x).l2 = s.l2 := rfl
@[simp] theorem State.setCore_dram (s : State) (c : Nat) (x : Core) : (s.setCore c x).dram = s.dram := rfl
@[simp] theorem State.setCore_podMem (s : State) (c : Nat) (x : Core) : (s.setCore c x).podMem = s.podMem := rfl
@[simp] theorem State.setCore_podDirty (s : State) (c : Nat) (x : Core) : (s.setCore c x).podDirty = s.podDirty := rfl
@[simp] theorem State.setCore_podTaint (s : State) (c : Nat) (x : Core) : (s.setCore c x).podTaint = s.podTaint := rfl
@[simp] theorem State.setCore_hostMem (s : State) (c : Nat) (x : Core) : (s.setCore c x).hostMem = s.hostMem := rfl
@[simp] theorem State.setCore_podDenied (s : State) (c : Nat) (x : Core) : (s.setCore c x).podDenied = s.podDenied := rfl
@[simp] theorem State.setCore_podResident (s : State) (c : Nat) (x : Core) : (s.setCore c x).podResident = s.podResident := rfl
@[simp] theorem State.setCore_rdcHeld (s : State) (c : Nat) (x : Core) : (s.setCore c x).rdcHeld = s.rdcHeld := rfl
@[simp] theorem State.setCore_podHeld (s : State) (c : Nat) (x : Core) : (s.setCore c x).podHeld = s.podHeld := rfl
@[simp] theorem State.setCore_stamp (s : State) (c : Nat) (x : Core) : (s.setCore c x).stamp = s.stamp := rfl
@[simp] theorem State.setCore_seals (s : State) (c : Nat) (x : Core) : (s.setCore c x).seals = s.seals := rfl
@[simp] theorem State.setCore_anchors (s : State) (c : Nat) (x : Core) : (s.setCore c x).anchors = s.anchors := rfl
@[simp] theorem State.setCore_ueMarks (s : State) (c : Nat) (x : Core) : (s.setCore c x).ueMarks = s.ueMarks := rfl
@[simp] theorem State.setCore_pending (s : State) (c : Nat) (x : Core) : (s.setCore c x).pending = s.pending := rfl
@[simp] theorem State.setCore_tlb (s : State) (c : Nat) (x : Core) : (s.setCore c x).tlb = s.tlb := rfl
@[simp] theorem State.setCore_staleNotices (s : State) (c : Nat) (x : Core) : (s.setCore c x).staleNotices = s.staleNotices := rfl
@[simp] theorem State.setCore_msgs (s : State) (c : Nat) (x : Core) : (s.setCore c x).msgs = s.msgs := rfl
@[simp] theorem State.setCore_atomQ (s : State) (c : Nat) (x : Core) : (s.setCore c x).atomQ = s.atomQ := rfl
@[simp] theorem State.setCore_colls (s : State) (c : Nat) (x : Core) : (s.setCore c x).colls = s.colls := rfl
@[simp] theorem State.setCore_arbLast (s : State) (c : Nat) (x : Core) : (s.setCore c x).arbLast = s.arbLast := rfl
@[simp] theorem State.setCore_arbCredit (s : State) (c : Nat) (x : Core) : (s.setCore c x).arbCredit = s.arbCredit := rfl
@[simp] theorem State.setCore_occ (s : State) (c : Nat) (x : Core) : (s.setCore c x).occ = s.occ := rfl
@[simp] theorem State.setCore_atab (s : State) (c : Nat) (x : Core) : (s.setCore c x).atab = s.atab := rfl
@[simp] theorem State.setCore_slowVec (s : State) (c : Nat) (x : Core) : (s.setCore c x).slowVec = s.slowVec := rfl
@[simp] theorem State.setCore_svMap (s : State) (c : Nat) (x : Core) : (s.setCore c x).svMap = s.svMap := rfl
@[simp] theorem State.setCore_pkg (s : State) (c : Nat) (x : Core) : (s.setCore c x).pkg = s.pkg := rfl

/-! ## Setting a context -/

@[simp] theorem State.setCtx_cur (s : State) (c : Nat) (x : Ctx) : (s.setCtx c x).cur = s.cur := rfl
@[simp] theorem State.setCtx_turns (s : State) (c : Nat) (x : Ctx) : (s.setCtx c x).turns = s.turns := rfl
@[simp] theorem State.setCtx_master (s : State) (c : Nat) (x : Ctx) : (s.setCtx c x).master = s.master := rfl
@[simp] theorem State.setCtx_cycle (s : State) (c : Nat) (x : Ctx) : (s.setCtx c x).cycle = s.cycle := rfl
@[simp] theorem State.setCtx_free (s : State) (c : Nat) (x : Ctx) : (s.setCtx c x).free = s.free := rfl
@[simp] theorem State.setCtx_nextEntry (s : State) (c : Nat) (x : Ctx) : (s.setCtx c x).nextEntry = s.nextEntry := rfl
@[simp] theorem State.setCtx_leaves (s : State) (c : Nat) (x : Ctx) : (s.setCtx c x).leaves = s.leaves := rfl
@[simp] theorem State.setCtx_cores (s : State) (c : Nat) (x : Ctx) : (s.setCtx c x).cores = s.cores := rfl
@[simp] theorem State.setCtx_lastSlot (s : State) (c : Nat) (x : Ctx) : (s.setCtx c x).lastSlot = s.lastSlot := rfl
@[simp] theorem State.setCtx_dies (s : State) (c : Nat) (x : Ctx) : (s.setCtx c x).dies = s.dies := rfl
@[simp] theorem State.setCtx_ctxs (s : State) (c : Nat) (x : Ctx) : (s.setCtx c x).ctxs = tset s.ctxs c x := rfl
@[simp] theorem State.setCtx_parts (s : State) (c : Nat) (x : Ctx) : (s.setCtx c x).parts = s.parts := rfl
@[simp] theorem State.setCtx_holders (s : State) (c : Nat) (x : Ctx) : (s.setCtx c x).holders = s.holders := rfl
@[simp] theorem State.setCtx_offers (s : State) (c : Nat) (x : Ctx) : (s.setCtx c x).offers = s.offers := rfl
@[simp] theorem State.setCtx_mem (s : State) (c : Nat) (x : Ctx) : (s.setCtx c x).mem = s.mem := rfl
@[simp] theorem State.setCtx_l2 (s : State) (c : Nat) (x : Ctx) : (s.setCtx c x).l2 = s.l2 := rfl
@[simp] theorem State.setCtx_dram (s : State) (c : Nat) (x : Ctx) : (s.setCtx c x).dram = s.dram := rfl
@[simp] theorem State.setCtx_podMem (s : State) (c : Nat) (x : Ctx) : (s.setCtx c x).podMem = s.podMem := rfl
@[simp] theorem State.setCtx_podDirty (s : State) (c : Nat) (x : Ctx) : (s.setCtx c x).podDirty = s.podDirty := rfl
@[simp] theorem State.setCtx_podTaint (s : State) (c : Nat) (x : Ctx) : (s.setCtx c x).podTaint = s.podTaint := rfl
@[simp] theorem State.setCtx_hostMem (s : State) (c : Nat) (x : Ctx) : (s.setCtx c x).hostMem = s.hostMem := rfl
@[simp] theorem State.setCtx_podDenied (s : State) (c : Nat) (x : Ctx) : (s.setCtx c x).podDenied = s.podDenied := rfl
@[simp] theorem State.setCtx_podResident (s : State) (c : Nat) (x : Ctx) : (s.setCtx c x).podResident = s.podResident := rfl
@[simp] theorem State.setCtx_rdcHeld (s : State) (c : Nat) (x : Ctx) : (s.setCtx c x).rdcHeld = s.rdcHeld := rfl
@[simp] theorem State.setCtx_podHeld (s : State) (c : Nat) (x : Ctx) : (s.setCtx c x).podHeld = s.podHeld := rfl
@[simp] theorem State.setCtx_stamp (s : State) (c : Nat) (x : Ctx) : (s.setCtx c x).stamp = s.stamp := rfl
@[simp] theorem State.setCtx_seals (s : State) (c : Nat) (x : Ctx) : (s.setCtx c x).seals = s.seals := rfl
@[simp] theorem State.setCtx_anchors (s : State) (c : Nat) (x : Ctx) : (s.setCtx c x).anchors = s.anchors := rfl
@[simp] theorem State.setCtx_ueMarks (s : State) (c : Nat) (x : Ctx) : (s.setCtx c x).ueMarks = s.ueMarks := rfl
@[simp] theorem State.setCtx_pending (s : State) (c : Nat) (x : Ctx) : (s.setCtx c x).pending = s.pending := rfl
@[simp] theorem State.setCtx_tlb (s : State) (c : Nat) (x : Ctx) : (s.setCtx c x).tlb = s.tlb := rfl
@[simp] theorem State.setCtx_staleNotices (s : State) (c : Nat) (x : Ctx) : (s.setCtx c x).staleNotices = s.staleNotices := rfl
@[simp] theorem State.setCtx_msgs (s : State) (c : Nat) (x : Ctx) : (s.setCtx c x).msgs = s.msgs := rfl
@[simp] theorem State.setCtx_atomQ (s : State) (c : Nat) (x : Ctx) : (s.setCtx c x).atomQ = s.atomQ := rfl
@[simp] theorem State.setCtx_colls (s : State) (c : Nat) (x : Ctx) : (s.setCtx c x).colls = s.colls := rfl
@[simp] theorem State.setCtx_arbLast (s : State) (c : Nat) (x : Ctx) : (s.setCtx c x).arbLast = s.arbLast := rfl
@[simp] theorem State.setCtx_arbCredit (s : State) (c : Nat) (x : Ctx) : (s.setCtx c x).arbCredit = s.arbCredit := rfl
@[simp] theorem State.setCtx_occ (s : State) (c : Nat) (x : Ctx) : (s.setCtx c x).occ = s.occ := rfl
@[simp] theorem State.setCtx_atab (s : State) (c : Nat) (x : Ctx) : (s.setCtx c x).atab = s.atab := rfl
@[simp] theorem State.setCtx_slowVec (s : State) (c : Nat) (x : Ctx) : (s.setCtx c x).slowVec = s.slowVec := rfl
@[simp] theorem State.setCtx_svMap (s : State) (c : Nat) (x : Ctx) : (s.setCtx c x).svMap = s.svMap := rfl
@[simp] theorem State.setCtx_pkg (s : State) (c : Nat) (x : Ctx) : (s.setCtx c x).pkg = s.pkg := rfl

/-! ## Setting a die -/

@[simp] theorem State.setDie_cur (s : State) (d : Nat) (x : Die) : (s.setDie d x).cur = s.cur := rfl
@[simp] theorem State.setDie_turns (s : State) (d : Nat) (x : Die) : (s.setDie d x).turns = s.turns := rfl
@[simp] theorem State.setDie_master (s : State) (d : Nat) (x : Die) : (s.setDie d x).master = s.master := rfl
@[simp] theorem State.setDie_cycle (s : State) (d : Nat) (x : Die) : (s.setDie d x).cycle = s.cycle := rfl
@[simp] theorem State.setDie_free (s : State) (d : Nat) (x : Die) : (s.setDie d x).free = s.free := rfl
@[simp] theorem State.setDie_nextEntry (s : State) (d : Nat) (x : Die) : (s.setDie d x).nextEntry = s.nextEntry := rfl
@[simp] theorem State.setDie_leaves (s : State) (d : Nat) (x : Die) : (s.setDie d x).leaves = s.leaves := rfl
@[simp] theorem State.setDie_cores (s : State) (d : Nat) (x : Die) : (s.setDie d x).cores = s.cores := rfl
@[simp] theorem State.setDie_lastSlot (s : State) (d : Nat) (x : Die) : (s.setDie d x).lastSlot = s.lastSlot := rfl
@[simp] theorem State.setDie_dies (s : State) (d : Nat) (x : Die) : (s.setDie d x).dies = s.dies.set (d % 4) x (Nat.mod_lt _ (by decide)) := rfl
@[simp] theorem State.setDie_ctxs (s : State) (d : Nat) (x : Die) : (s.setDie d x).ctxs = s.ctxs := rfl
@[simp] theorem State.setDie_parts (s : State) (d : Nat) (x : Die) : (s.setDie d x).parts = s.parts := rfl
@[simp] theorem State.setDie_holders (s : State) (d : Nat) (x : Die) : (s.setDie d x).holders = s.holders := rfl
@[simp] theorem State.setDie_offers (s : State) (d : Nat) (x : Die) : (s.setDie d x).offers = s.offers := rfl
@[simp] theorem State.setDie_mem (s : State) (d : Nat) (x : Die) : (s.setDie d x).mem = s.mem := rfl
@[simp] theorem State.setDie_l2 (s : State) (d : Nat) (x : Die) : (s.setDie d x).l2 = s.l2 := rfl
@[simp] theorem State.setDie_dram (s : State) (d : Nat) (x : Die) : (s.setDie d x).dram = s.dram := rfl
@[simp] theorem State.setDie_podMem (s : State) (d : Nat) (x : Die) : (s.setDie d x).podMem = s.podMem := rfl
@[simp] theorem State.setDie_podDirty (s : State) (d : Nat) (x : Die) : (s.setDie d x).podDirty = s.podDirty := rfl
@[simp] theorem State.setDie_podTaint (s : State) (d : Nat) (x : Die) : (s.setDie d x).podTaint = s.podTaint := rfl
@[simp] theorem State.setDie_hostMem (s : State) (d : Nat) (x : Die) : (s.setDie d x).hostMem = s.hostMem := rfl
@[simp] theorem State.setDie_podDenied (s : State) (d : Nat) (x : Die) : (s.setDie d x).podDenied = s.podDenied := rfl
@[simp] theorem State.setDie_podResident (s : State) (d : Nat) (x : Die) : (s.setDie d x).podResident = s.podResident := rfl
@[simp] theorem State.setDie_rdcHeld (s : State) (d : Nat) (x : Die) : (s.setDie d x).rdcHeld = s.rdcHeld := rfl
@[simp] theorem State.setDie_podHeld (s : State) (d : Nat) (x : Die) : (s.setDie d x).podHeld = s.podHeld := rfl
@[simp] theorem State.setDie_stamp (s : State) (d : Nat) (x : Die) : (s.setDie d x).stamp = s.stamp := rfl
@[simp] theorem State.setDie_seals (s : State) (d : Nat) (x : Die) : (s.setDie d x).seals = s.seals := rfl
@[simp] theorem State.setDie_anchors (s : State) (d : Nat) (x : Die) : (s.setDie d x).anchors = s.anchors := rfl
@[simp] theorem State.setDie_ueMarks (s : State) (d : Nat) (x : Die) : (s.setDie d x).ueMarks = s.ueMarks := rfl
@[simp] theorem State.setDie_pending (s : State) (d : Nat) (x : Die) : (s.setDie d x).pending = s.pending := rfl
@[simp] theorem State.setDie_tlb (s : State) (d : Nat) (x : Die) : (s.setDie d x).tlb = s.tlb := rfl
@[simp] theorem State.setDie_staleNotices (s : State) (d : Nat) (x : Die) : (s.setDie d x).staleNotices = s.staleNotices := rfl
@[simp] theorem State.setDie_msgs (s : State) (d : Nat) (x : Die) : (s.setDie d x).msgs = s.msgs := rfl
@[simp] theorem State.setDie_atomQ (s : State) (d : Nat) (x : Die) : (s.setDie d x).atomQ = s.atomQ := rfl
@[simp] theorem State.setDie_colls (s : State) (d : Nat) (x : Die) : (s.setDie d x).colls = s.colls := rfl
@[simp] theorem State.setDie_arbLast (s : State) (d : Nat) (x : Die) : (s.setDie d x).arbLast = s.arbLast := rfl
@[simp] theorem State.setDie_arbCredit (s : State) (d : Nat) (x : Die) : (s.setDie d x).arbCredit = s.arbCredit := rfl
@[simp] theorem State.setDie_occ (s : State) (d : Nat) (x : Die) : (s.setDie d x).occ = s.occ := rfl
@[simp] theorem State.setDie_atab (s : State) (d : Nat) (x : Die) : (s.setDie d x).atab = s.atab := rfl
@[simp] theorem State.setDie_slowVec (s : State) (d : Nat) (x : Die) : (s.setDie d x).slowVec = s.slowVec := rfl
@[simp] theorem State.setDie_svMap (s : State) (d : Nat) (x : Die) : (s.setDie d x).svMap = s.svMap := rfl
@[simp] theorem State.setDie_pkg (s : State) (d : Nat) (x : Die) : (s.setDie d x).pkg = s.pkg := rfl

/-! ## Setting a die control core -/

@[simp] theorem State.setDcc_cur (s : State) (d : Nat) (c : Dcc) : (s.setDcc d c).cur = s.cur := rfl
@[simp] theorem State.setDcc_turns (s : State) (d : Nat) (c : Dcc) : (s.setDcc d c).turns = s.turns := rfl
@[simp] theorem State.setDcc_master (s : State) (d : Nat) (c : Dcc) : (s.setDcc d c).master = s.master := rfl
@[simp] theorem State.setDcc_cycle (s : State) (d : Nat) (c : Dcc) : (s.setDcc d c).cycle = s.cycle := rfl
@[simp] theorem State.setDcc_free (s : State) (d : Nat) (c : Dcc) : (s.setDcc d c).free = s.free := rfl
@[simp] theorem State.setDcc_nextEntry (s : State) (d : Nat) (c : Dcc) : (s.setDcc d c).nextEntry = s.nextEntry := rfl
@[simp] theorem State.setDcc_leaves (s : State) (d : Nat) (c : Dcc) : (s.setDcc d c).leaves = s.leaves := rfl
@[simp] theorem State.setDcc_cores (s : State) (d : Nat) (c : Dcc) : (s.setDcc d c).cores = s.cores := rfl
@[simp] theorem State.setDcc_lastSlot (s : State) (d : Nat) (c : Dcc) : (s.setDcc d c).lastSlot = s.lastSlot := rfl
@[simp] theorem State.setDcc_dies (s : State) (d : Nat) (c : Dcc) : (s.setDcc d c).dies = s.dies.set (d % 4) { s.die d with dcc := c } (Nat.mod_lt _ (by decide)) := rfl
@[simp] theorem State.setDcc_ctxs (s : State) (d : Nat) (c : Dcc) : (s.setDcc d c).ctxs = s.ctxs := rfl
@[simp] theorem State.setDcc_parts (s : State) (d : Nat) (c : Dcc) : (s.setDcc d c).parts = s.parts := rfl
@[simp] theorem State.setDcc_holders (s : State) (d : Nat) (c : Dcc) : (s.setDcc d c).holders = s.holders := rfl
@[simp] theorem State.setDcc_offers (s : State) (d : Nat) (c : Dcc) : (s.setDcc d c).offers = s.offers := rfl
@[simp] theorem State.setDcc_mem (s : State) (d : Nat) (c : Dcc) : (s.setDcc d c).mem = s.mem := rfl
@[simp] theorem State.setDcc_l2 (s : State) (d : Nat) (c : Dcc) : (s.setDcc d c).l2 = s.l2 := rfl
@[simp] theorem State.setDcc_dram (s : State) (d : Nat) (c : Dcc) : (s.setDcc d c).dram = s.dram := rfl
@[simp] theorem State.setDcc_podMem (s : State) (d : Nat) (c : Dcc) : (s.setDcc d c).podMem = s.podMem := rfl
@[simp] theorem State.setDcc_podDirty (s : State) (d : Nat) (c : Dcc) : (s.setDcc d c).podDirty = s.podDirty := rfl
@[simp] theorem State.setDcc_podTaint (s : State) (d : Nat) (c : Dcc) : (s.setDcc d c).podTaint = s.podTaint := rfl
@[simp] theorem State.setDcc_hostMem (s : State) (d : Nat) (c : Dcc) : (s.setDcc d c).hostMem = s.hostMem := rfl
@[simp] theorem State.setDcc_podDenied (s : State) (d : Nat) (c : Dcc) : (s.setDcc d c).podDenied = s.podDenied := rfl
@[simp] theorem State.setDcc_podResident (s : State) (d : Nat) (c : Dcc) : (s.setDcc d c).podResident = s.podResident := rfl
@[simp] theorem State.setDcc_rdcHeld (s : State) (d : Nat) (c : Dcc) : (s.setDcc d c).rdcHeld = s.rdcHeld := rfl
@[simp] theorem State.setDcc_podHeld (s : State) (d : Nat) (c : Dcc) : (s.setDcc d c).podHeld = s.podHeld := rfl
@[simp] theorem State.setDcc_stamp (s : State) (d : Nat) (c : Dcc) : (s.setDcc d c).stamp = s.stamp := rfl
@[simp] theorem State.setDcc_seals (s : State) (d : Nat) (c : Dcc) : (s.setDcc d c).seals = s.seals := rfl
@[simp] theorem State.setDcc_anchors (s : State) (d : Nat) (c : Dcc) : (s.setDcc d c).anchors = s.anchors := rfl
@[simp] theorem State.setDcc_ueMarks (s : State) (d : Nat) (c : Dcc) : (s.setDcc d c).ueMarks = s.ueMarks := rfl
@[simp] theorem State.setDcc_pending (s : State) (d : Nat) (c : Dcc) : (s.setDcc d c).pending = s.pending := rfl
@[simp] theorem State.setDcc_tlb (s : State) (d : Nat) (c : Dcc) : (s.setDcc d c).tlb = s.tlb := rfl
@[simp] theorem State.setDcc_staleNotices (s : State) (d : Nat) (c : Dcc) : (s.setDcc d c).staleNotices = s.staleNotices := rfl
@[simp] theorem State.setDcc_msgs (s : State) (d : Nat) (c : Dcc) : (s.setDcc d c).msgs = s.msgs := rfl
@[simp] theorem State.setDcc_atomQ (s : State) (d : Nat) (c : Dcc) : (s.setDcc d c).atomQ = s.atomQ := rfl
@[simp] theorem State.setDcc_colls (s : State) (d : Nat) (c : Dcc) : (s.setDcc d c).colls = s.colls := rfl
@[simp] theorem State.setDcc_arbLast (s : State) (d : Nat) (c : Dcc) : (s.setDcc d c).arbLast = s.arbLast := rfl
@[simp] theorem State.setDcc_arbCredit (s : State) (d : Nat) (c : Dcc) : (s.setDcc d c).arbCredit = s.arbCredit := rfl
@[simp] theorem State.setDcc_occ (s : State) (d : Nat) (c : Dcc) : (s.setDcc d c).occ = s.occ := rfl
@[simp] theorem State.setDcc_atab (s : State) (d : Nat) (c : Dcc) : (s.setDcc d c).atab = s.atab := rfl
@[simp] theorem State.setDcc_slowVec (s : State) (d : Nat) (c : Dcc) : (s.setDcc d c).slowVec = s.slowVec := rfl
@[simp] theorem State.setDcc_svMap (s : State) (d : Nat) (c : Dcc) : (s.setDcc d c).svMap = s.svMap := rfl
@[simp] theorem State.setDcc_pkg (s : State) (d : Nat) (c : Dcc) : (s.setDcc d c).pkg = s.pkg := rfl

/-! ## The PC and the flags of a leaf -/

@[simp] theorem Leaf.advance_s (L : Leaf) : (L.advance).s = L.s := rfl
@[simp] theorem Leaf.advance_sT (L : Leaf) : (L.advance).sT = L.sT := rfl
@[simp] theorem Leaf.advance_v (L : Leaf) : (L.advance).v = L.v := rfl
@[simp] theorem Leaf.advance_vT (L : Leaf) : (L.advance).vT = L.vT := rfl
@[simp] theorem Leaf.advance_p (L : Leaf) : (L.advance).p = L.p := rfl
@[simp] theorem Leaf.advance_pT (L : Leaf) : (L.advance).pT = L.pT := rfl
@[simp] theorem Leaf.advance_q (L : Leaf) : (L.advance).q = L.q := rfl
@[simp] theorem Leaf.advance_tiles (L : Leaf) : (L.advance).tiles = L.tiles := rfl
@[simp] theorem Leaf.advance_pc (L : Leaf) : (L.advance).pc = L.pc + 16 := rfl
@[simp] theorem Leaf.advance_calls (L : Leaf) : (L.advance).calls = L.calls := rfl
@[simp] theorem Leaf.advance_flags (L : Leaf) : (L.advance).flags = L.flags := rfl
@[simp] theorem Leaf.advance_trapEn (L : Leaf) : (L.advance).trapEn = L.trapEn := rfl
@[simp] theorem Leaf.advance_dropMag (L : Leaf) : (L.advance).dropMag = L.dropMag := rfl
@[simp] theorem Leaf.advance_wrr (L : Leaf) : (L.advance).wrr = L.wrr := rfl
@[simp] theorem Leaf.advance_thresh (L : Leaf) : (L.advance).thresh = L.thresh := rfl
@[simp] theorem Leaf.advance_ctlTaint (L : Leaf) : (L.advance).ctlTaint = L.ctlTaint := rfl
@[simp] theorem Leaf.advance_ctx (L : Leaf) : (L.advance).ctx = L.ctx := rfl
@[simp] theorem Leaf.advance_recIdx (L : Leaf) : (L.advance).recIdx = L.recIdx := rfl
@[simp] theorem Leaf.advance_img (L : Leaf) : (L.advance).img = L.img := rfl
@[simp] theorem Leaf.advance_inJoin (L : Leaf) : (L.advance).inJoin = L.inJoin := rfl
@[simp] theorem Leaf.advance_mode (L : Leaf) : (L.advance).mode = L.mode := rfl
@[simp] theorem Leaf.advance_entry (L : Leaf) : (L.advance).entry = L.entry := rfl
@[simp] theorem Leaf.advance_nextTicket (L : Leaf) : (L.advance).nextTicket = L.nextTicket := rfl
@[simp] theorem Leaf.advance_tickets (L : Leaf) : (L.advance).tickets = L.tickets := rfl
@[simp] theorem Leaf.advance_committed (L : Leaf) : (L.advance).committed = L.committed := rfl
@[simp] theorem Leaf.advance_card (L : Leaf) : (L.advance).card = L.card := rfl
@[simp] theorem Leaf.advance_fitting (L : Leaf) : (L.advance).fitting = L.fitting := rfl
@[simp] theorem Leaf.advance_mxIssued (L : Leaf) : (L.advance).mxIssued = L.mxIssued := rfl
@[simp] theorem Leaf.advance_msg (L : Leaf) : (L.advance).msg = L.msg := rfl
@[simp] theorem Leaf.advance_mxFault (L : Leaf) : (L.advance).mxFault = L.mxFault := rfl
@[simp] theorem Leaf.advance_parked (L : Leaf) : (L.advance).parked = L.parked := rfl
@[simp] theorem Leaf.advance_noReplay (L : Leaf) : (L.advance).noReplay = L.noReplay := rfl

@[simp] theorem Leaf.raise_s (L : Leaf) (f : Flags) : (L.raise f).s = L.s := rfl
@[simp] theorem Leaf.raise_sT (L : Leaf) (f : Flags) : (L.raise f).sT = L.sT := rfl
@[simp] theorem Leaf.raise_v (L : Leaf) (f : Flags) : (L.raise f).v = L.v := rfl
@[simp] theorem Leaf.raise_vT (L : Leaf) (f : Flags) : (L.raise f).vT = L.vT := rfl
@[simp] theorem Leaf.raise_p (L : Leaf) (f : Flags) : (L.raise f).p = L.p := rfl
@[simp] theorem Leaf.raise_pT (L : Leaf) (f : Flags) : (L.raise f).pT = L.pT := rfl
@[simp] theorem Leaf.raise_q (L : Leaf) (f : Flags) : (L.raise f).q = L.q := rfl
@[simp] theorem Leaf.raise_tiles (L : Leaf) (f : Flags) : (L.raise f).tiles = L.tiles := rfl
@[simp] theorem Leaf.raise_pc (L : Leaf) (f : Flags) : (L.raise f).pc = L.pc := rfl
@[simp] theorem Leaf.raise_calls (L : Leaf) (f : Flags) : (L.raise f).calls = L.calls := rfl
@[simp] theorem Leaf.raise_flags (L : Leaf) (f : Flags) : (L.raise f).flags = L.flags ||| f := rfl
@[simp] theorem Leaf.raise_trapEn (L : Leaf) (f : Flags) : (L.raise f).trapEn = L.trapEn := rfl
@[simp] theorem Leaf.raise_dropMag (L : Leaf) (f : Flags) : (L.raise f).dropMag = L.dropMag := rfl
@[simp] theorem Leaf.raise_wrr (L : Leaf) (f : Flags) : (L.raise f).wrr = L.wrr := rfl
@[simp] theorem Leaf.raise_thresh (L : Leaf) (f : Flags) : (L.raise f).thresh = L.thresh := rfl
@[simp] theorem Leaf.raise_ctlTaint (L : Leaf) (f : Flags) : (L.raise f).ctlTaint = L.ctlTaint := rfl
@[simp] theorem Leaf.raise_ctx (L : Leaf) (f : Flags) : (L.raise f).ctx = L.ctx := rfl
@[simp] theorem Leaf.raise_recIdx (L : Leaf) (f : Flags) : (L.raise f).recIdx = L.recIdx := rfl
@[simp] theorem Leaf.raise_img (L : Leaf) (f : Flags) : (L.raise f).img = L.img := rfl
@[simp] theorem Leaf.raise_inJoin (L : Leaf) (f : Flags) : (L.raise f).inJoin = L.inJoin := rfl
@[simp] theorem Leaf.raise_mode (L : Leaf) (f : Flags) : (L.raise f).mode = L.mode := rfl
@[simp] theorem Leaf.raise_entry (L : Leaf) (f : Flags) : (L.raise f).entry = L.entry := rfl
@[simp] theorem Leaf.raise_nextTicket (L : Leaf) (f : Flags) : (L.raise f).nextTicket = L.nextTicket := rfl
@[simp] theorem Leaf.raise_tickets (L : Leaf) (f : Flags) : (L.raise f).tickets = L.tickets := rfl
@[simp] theorem Leaf.raise_committed (L : Leaf) (f : Flags) : (L.raise f).committed = L.committed := rfl
@[simp] theorem Leaf.raise_card (L : Leaf) (f : Flags) : (L.raise f).card = L.card := rfl
@[simp] theorem Leaf.raise_fitting (L : Leaf) (f : Flags) : (L.raise f).fitting = L.fitting := rfl
@[simp] theorem Leaf.raise_mxIssued (L : Leaf) (f : Flags) : (L.raise f).mxIssued = L.mxIssued := rfl
@[simp] theorem Leaf.raise_msg (L : Leaf) (f : Flags) : (L.raise f).msg = L.msg := rfl
@[simp] theorem Leaf.raise_mxFault (L : Leaf) (f : Flags) : (L.raise f).mxFault = L.mxFault := rfl
@[simp] theorem Leaf.raise_parked (L : Leaf) (f : Flags) : (L.raise f).parked = L.parked := rfl
@[simp] theorem Leaf.raise_noReplay (L : Leaf) (f : Flags) : (L.raise f).noReplay = L.noReplay := rfl

/-! ## Registers -/

@[simp] theorem Leaf.writeS_v (L : Leaf) (n : Fin 64) (x : Quad) (t : Bool) : (L.writeS n x t).v = L.v := by
  unfold Leaf.writeS; split <;> rfl
@[simp] theorem Leaf.writeS_vT (L : Leaf) (n : Fin 64) (x : Quad) (t : Bool) : (L.writeS n x t).vT = L.vT := by
  unfold Leaf.writeS; split <;> rfl
@[simp] theorem Leaf.writeS_p (L : Leaf) (n : Fin 64) (x : Quad) (t : Bool) : (L.writeS n x t).p = L.p := by
  unfold Leaf.writeS; split <;> rfl
@[simp] theorem Leaf.writeS_pT (L : Leaf) (n : Fin 64) (x : Quad) (t : Bool) : (L.writeS n x t).pT = L.pT := by
  unfold Leaf.writeS; split <;> rfl
@[simp] theorem Leaf.writeS_q (L : Leaf) (n : Fin 64) (x : Quad) (t : Bool) : (L.writeS n x t).q = L.q := by
  unfold Leaf.writeS; split <;> rfl
@[simp] theorem Leaf.writeS_tiles (L : Leaf) (n : Fin 64) (x : Quad) (t : Bool) : (L.writeS n x t).tiles = L.tiles := by
  unfold Leaf.writeS; split <;> rfl
@[simp] theorem Leaf.writeS_pc (L : Leaf) (n : Fin 64) (x : Quad) (t : Bool) : (L.writeS n x t).pc = L.pc := by
  unfold Leaf.writeS; split <;> rfl
@[simp] theorem Leaf.writeS_calls (L : Leaf) (n : Fin 64) (x : Quad) (t : Bool) : (L.writeS n x t).calls = L.calls := by
  unfold Leaf.writeS; split <;> rfl
@[simp] theorem Leaf.writeS_flags (L : Leaf) (n : Fin 64) (x : Quad) (t : Bool) : (L.writeS n x t).flags = L.flags := by
  unfold Leaf.writeS; split <;> rfl
@[simp] theorem Leaf.writeS_trapEn (L : Leaf) (n : Fin 64) (x : Quad) (t : Bool) : (L.writeS n x t).trapEn = L.trapEn := by
  unfold Leaf.writeS; split <;> rfl
@[simp] theorem Leaf.writeS_dropMag (L : Leaf) (n : Fin 64) (x : Quad) (t : Bool) : (L.writeS n x t).dropMag = L.dropMag := by
  unfold Leaf.writeS; split <;> rfl
@[simp] theorem Leaf.writeS_wrr (L : Leaf) (n : Fin 64) (x : Quad) (t : Bool) : (L.writeS n x t).wrr = L.wrr := by
  unfold Leaf.writeS; split <;> rfl
@[simp] theorem Leaf.writeS_thresh (L : Leaf) (n : Fin 64) (x : Quad) (t : Bool) : (L.writeS n x t).thresh = L.thresh := by
  unfold Leaf.writeS; split <;> rfl
@[simp] theorem Leaf.writeS_ctlTaint (L : Leaf) (n : Fin 64) (x : Quad) (t : Bool) : (L.writeS n x t).ctlTaint = L.ctlTaint := by
  unfold Leaf.writeS; split <;> rfl
@[simp] theorem Leaf.writeS_ctx (L : Leaf) (n : Fin 64) (x : Quad) (t : Bool) : (L.writeS n x t).ctx = L.ctx := by
  unfold Leaf.writeS; split <;> rfl
@[simp] theorem Leaf.writeS_recIdx (L : Leaf) (n : Fin 64) (x : Quad) (t : Bool) : (L.writeS n x t).recIdx = L.recIdx := by
  unfold Leaf.writeS; split <;> rfl
@[simp] theorem Leaf.writeS_img (L : Leaf) (n : Fin 64) (x : Quad) (t : Bool) : (L.writeS n x t).img = L.img := by
  unfold Leaf.writeS; split <;> rfl
@[simp] theorem Leaf.writeS_inJoin (L : Leaf) (n : Fin 64) (x : Quad) (t : Bool) : (L.writeS n x t).inJoin = L.inJoin := by
  unfold Leaf.writeS; split <;> rfl
@[simp] theorem Leaf.writeS_mode (L : Leaf) (n : Fin 64) (x : Quad) (t : Bool) : (L.writeS n x t).mode = L.mode := by
  unfold Leaf.writeS; split <;> rfl
@[simp] theorem Leaf.writeS_entry (L : Leaf) (n : Fin 64) (x : Quad) (t : Bool) : (L.writeS n x t).entry = L.entry := by
  unfold Leaf.writeS; split <;> rfl
@[simp] theorem Leaf.writeS_nextTicket (L : Leaf) (n : Fin 64) (x : Quad) (t : Bool) : (L.writeS n x t).nextTicket = L.nextTicket := by
  unfold Leaf.writeS; split <;> rfl
@[simp] theorem Leaf.writeS_tickets (L : Leaf) (n : Fin 64) (x : Quad) (t : Bool) : (L.writeS n x t).tickets = L.tickets := by
  unfold Leaf.writeS; split <;> rfl
@[simp] theorem Leaf.writeS_committed (L : Leaf) (n : Fin 64) (x : Quad) (t : Bool) : (L.writeS n x t).committed = L.committed := by
  unfold Leaf.writeS; split <;> rfl
@[simp] theorem Leaf.writeS_card (L : Leaf) (n : Fin 64) (x : Quad) (t : Bool) : (L.writeS n x t).card = L.card := by
  unfold Leaf.writeS; split <;> rfl
@[simp] theorem Leaf.writeS_fitting (L : Leaf) (n : Fin 64) (x : Quad) (t : Bool) : (L.writeS n x t).fitting = L.fitting := by
  unfold Leaf.writeS; split <;> rfl
@[simp] theorem Leaf.writeS_mxIssued (L : Leaf) (n : Fin 64) (x : Quad) (t : Bool) : (L.writeS n x t).mxIssued = L.mxIssued := by
  unfold Leaf.writeS; split <;> rfl
@[simp] theorem Leaf.writeS_msg (L : Leaf) (n : Fin 64) (x : Quad) (t : Bool) : (L.writeS n x t).msg = L.msg := by
  unfold Leaf.writeS; split <;> rfl
@[simp] theorem Leaf.writeS_mxFault (L : Leaf) (n : Fin 64) (x : Quad) (t : Bool) : (L.writeS n x t).mxFault = L.mxFault := by
  unfold Leaf.writeS; split <;> rfl
@[simp] theorem Leaf.writeS_parked (L : Leaf) (n : Fin 64) (x : Quad) (t : Bool) : (L.writeS n x t).parked = L.parked := by
  unfold Leaf.writeS; split <;> rfl
@[simp] theorem Leaf.writeS_noReplay (L : Leaf) (n : Fin 64) (x : Quad) (t : Bool) : (L.writeS n x t).noReplay = L.noReplay := by
  unfold Leaf.writeS; split <;> rfl

@[simp] theorem Leaf.writeP_s (L : Leaf) (n : Fin 8) (x t : PWord) : (L.writeP n x t).s = L.s := by
  unfold Leaf.writeP; split <;> rfl
@[simp] theorem Leaf.writeP_sT (L : Leaf) (n : Fin 8) (x t : PWord) : (L.writeP n x t).sT = L.sT := by
  unfold Leaf.writeP; split <;> rfl
@[simp] theorem Leaf.writeP_v (L : Leaf) (n : Fin 8) (x t : PWord) : (L.writeP n x t).v = L.v := by
  unfold Leaf.writeP; split <;> rfl
@[simp] theorem Leaf.writeP_vT (L : Leaf) (n : Fin 8) (x t : PWord) : (L.writeP n x t).vT = L.vT := by
  unfold Leaf.writeP; split <;> rfl
@[simp] theorem Leaf.writeP_q (L : Leaf) (n : Fin 8) (x t : PWord) : (L.writeP n x t).q = L.q := by
  unfold Leaf.writeP; split <;> rfl
@[simp] theorem Leaf.writeP_tiles (L : Leaf) (n : Fin 8) (x t : PWord) : (L.writeP n x t).tiles = L.tiles := by
  unfold Leaf.writeP; split <;> rfl
@[simp] theorem Leaf.writeP_pc (L : Leaf) (n : Fin 8) (x t : PWord) : (L.writeP n x t).pc = L.pc := by
  unfold Leaf.writeP; split <;> rfl
@[simp] theorem Leaf.writeP_calls (L : Leaf) (n : Fin 8) (x t : PWord) : (L.writeP n x t).calls = L.calls := by
  unfold Leaf.writeP; split <;> rfl
@[simp] theorem Leaf.writeP_flags (L : Leaf) (n : Fin 8) (x t : PWord) : (L.writeP n x t).flags = L.flags := by
  unfold Leaf.writeP; split <;> rfl
@[simp] theorem Leaf.writeP_trapEn (L : Leaf) (n : Fin 8) (x t : PWord) : (L.writeP n x t).trapEn = L.trapEn := by
  unfold Leaf.writeP; split <;> rfl
@[simp] theorem Leaf.writeP_dropMag (L : Leaf) (n : Fin 8) (x t : PWord) : (L.writeP n x t).dropMag = L.dropMag := by
  unfold Leaf.writeP; split <;> rfl
@[simp] theorem Leaf.writeP_wrr (L : Leaf) (n : Fin 8) (x t : PWord) : (L.writeP n x t).wrr = L.wrr := by
  unfold Leaf.writeP; split <;> rfl
@[simp] theorem Leaf.writeP_thresh (L : Leaf) (n : Fin 8) (x t : PWord) : (L.writeP n x t).thresh = L.thresh := by
  unfold Leaf.writeP; split <;> rfl
@[simp] theorem Leaf.writeP_ctlTaint (L : Leaf) (n : Fin 8) (x t : PWord) : (L.writeP n x t).ctlTaint = L.ctlTaint := by
  unfold Leaf.writeP; split <;> rfl
@[simp] theorem Leaf.writeP_ctx (L : Leaf) (n : Fin 8) (x t : PWord) : (L.writeP n x t).ctx = L.ctx := by
  unfold Leaf.writeP; split <;> rfl
@[simp] theorem Leaf.writeP_recIdx (L : Leaf) (n : Fin 8) (x t : PWord) : (L.writeP n x t).recIdx = L.recIdx := by
  unfold Leaf.writeP; split <;> rfl
@[simp] theorem Leaf.writeP_img (L : Leaf) (n : Fin 8) (x t : PWord) : (L.writeP n x t).img = L.img := by
  unfold Leaf.writeP; split <;> rfl
@[simp] theorem Leaf.writeP_inJoin (L : Leaf) (n : Fin 8) (x t : PWord) : (L.writeP n x t).inJoin = L.inJoin := by
  unfold Leaf.writeP; split <;> rfl
@[simp] theorem Leaf.writeP_mode (L : Leaf) (n : Fin 8) (x t : PWord) : (L.writeP n x t).mode = L.mode := by
  unfold Leaf.writeP; split <;> rfl
@[simp] theorem Leaf.writeP_entry (L : Leaf) (n : Fin 8) (x t : PWord) : (L.writeP n x t).entry = L.entry := by
  unfold Leaf.writeP; split <;> rfl
@[simp] theorem Leaf.writeP_nextTicket (L : Leaf) (n : Fin 8) (x t : PWord) : (L.writeP n x t).nextTicket = L.nextTicket := by
  unfold Leaf.writeP; split <;> rfl
@[simp] theorem Leaf.writeP_tickets (L : Leaf) (n : Fin 8) (x t : PWord) : (L.writeP n x t).tickets = L.tickets := by
  unfold Leaf.writeP; split <;> rfl
@[simp] theorem Leaf.writeP_committed (L : Leaf) (n : Fin 8) (x t : PWord) : (L.writeP n x t).committed = L.committed := by
  unfold Leaf.writeP; split <;> rfl
@[simp] theorem Leaf.writeP_card (L : Leaf) (n : Fin 8) (x t : PWord) : (L.writeP n x t).card = L.card := by
  unfold Leaf.writeP; split <;> rfl
@[simp] theorem Leaf.writeP_fitting (L : Leaf) (n : Fin 8) (x t : PWord) : (L.writeP n x t).fitting = L.fitting := by
  unfold Leaf.writeP; split <;> rfl
@[simp] theorem Leaf.writeP_mxIssued (L : Leaf) (n : Fin 8) (x t : PWord) : (L.writeP n x t).mxIssued = L.mxIssued := by
  unfold Leaf.writeP; split <;> rfl
@[simp] theorem Leaf.writeP_msg (L : Leaf) (n : Fin 8) (x t : PWord) : (L.writeP n x t).msg = L.msg := by
  unfold Leaf.writeP; split <;> rfl
@[simp] theorem Leaf.writeP_mxFault (L : Leaf) (n : Fin 8) (x t : PWord) : (L.writeP n x t).mxFault = L.mxFault := by
  unfold Leaf.writeP; split <;> rfl
@[simp] theorem Leaf.writeP_parked (L : Leaf) (n : Fin 8) (x t : PWord) : (L.writeP n x t).parked = L.parked := by
  unfold Leaf.writeP; split <;> rfl
@[simp] theorem Leaf.writeP_noReplay (L : Leaf) (n : Fin 8) (x t : PWord) : (L.writeP n x t).noReplay = L.noReplay := by
  unfold Leaf.writeP; split <;> rfl

@[simp] theorem Leaf.writeV_s (L : Leaf) (n : Fin 32) (x : VWord) (t : BitVec 128) : (L.writeV n x t).s = L.s := rfl
@[simp] theorem Leaf.writeV_sT (L : Leaf) (n : Fin 32) (x : VWord) (t : BitVec 128) : (L.writeV n x t).sT = L.sT := rfl
@[simp] theorem Leaf.writeV_p (L : Leaf) (n : Fin 32) (x : VWord) (t : BitVec 128) : (L.writeV n x t).p = L.p := rfl
@[simp] theorem Leaf.writeV_pT (L : Leaf) (n : Fin 32) (x : VWord) (t : BitVec 128) : (L.writeV n x t).pT = L.pT := rfl
@[simp] theorem Leaf.writeV_q (L : Leaf) (n : Fin 32) (x : VWord) (t : BitVec 128) : (L.writeV n x t).q = L.q := rfl
@[simp] theorem Leaf.writeV_tiles (L : Leaf) (n : Fin 32) (x : VWord) (t : BitVec 128) : (L.writeV n x t).tiles = L.tiles := rfl
@[simp] theorem Leaf.writeV_pc (L : Leaf) (n : Fin 32) (x : VWord) (t : BitVec 128) : (L.writeV n x t).pc = L.pc := rfl
@[simp] theorem Leaf.writeV_calls (L : Leaf) (n : Fin 32) (x : VWord) (t : BitVec 128) : (L.writeV n x t).calls = L.calls := rfl
@[simp] theorem Leaf.writeV_flags (L : Leaf) (n : Fin 32) (x : VWord) (t : BitVec 128) : (L.writeV n x t).flags = L.flags := rfl
@[simp] theorem Leaf.writeV_trapEn (L : Leaf) (n : Fin 32) (x : VWord) (t : BitVec 128) : (L.writeV n x t).trapEn = L.trapEn := rfl
@[simp] theorem Leaf.writeV_dropMag (L : Leaf) (n : Fin 32) (x : VWord) (t : BitVec 128) : (L.writeV n x t).dropMag = L.dropMag := rfl
@[simp] theorem Leaf.writeV_wrr (L : Leaf) (n : Fin 32) (x : VWord) (t : BitVec 128) : (L.writeV n x t).wrr = L.wrr := rfl
@[simp] theorem Leaf.writeV_thresh (L : Leaf) (n : Fin 32) (x : VWord) (t : BitVec 128) : (L.writeV n x t).thresh = L.thresh := rfl
@[simp] theorem Leaf.writeV_ctlTaint (L : Leaf) (n : Fin 32) (x : VWord) (t : BitVec 128) : (L.writeV n x t).ctlTaint = L.ctlTaint := rfl
@[simp] theorem Leaf.writeV_ctx (L : Leaf) (n : Fin 32) (x : VWord) (t : BitVec 128) : (L.writeV n x t).ctx = L.ctx := rfl
@[simp] theorem Leaf.writeV_recIdx (L : Leaf) (n : Fin 32) (x : VWord) (t : BitVec 128) : (L.writeV n x t).recIdx = L.recIdx := rfl
@[simp] theorem Leaf.writeV_img (L : Leaf) (n : Fin 32) (x : VWord) (t : BitVec 128) : (L.writeV n x t).img = L.img := rfl
@[simp] theorem Leaf.writeV_inJoin (L : Leaf) (n : Fin 32) (x : VWord) (t : BitVec 128) : (L.writeV n x t).inJoin = L.inJoin := rfl
@[simp] theorem Leaf.writeV_mode (L : Leaf) (n : Fin 32) (x : VWord) (t : BitVec 128) : (L.writeV n x t).mode = L.mode := rfl
@[simp] theorem Leaf.writeV_entry (L : Leaf) (n : Fin 32) (x : VWord) (t : BitVec 128) : (L.writeV n x t).entry = L.entry := rfl
@[simp] theorem Leaf.writeV_nextTicket (L : Leaf) (n : Fin 32) (x : VWord) (t : BitVec 128) : (L.writeV n x t).nextTicket = L.nextTicket := rfl
@[simp] theorem Leaf.writeV_tickets (L : Leaf) (n : Fin 32) (x : VWord) (t : BitVec 128) : (L.writeV n x t).tickets = L.tickets := rfl
@[simp] theorem Leaf.writeV_committed (L : Leaf) (n : Fin 32) (x : VWord) (t : BitVec 128) : (L.writeV n x t).committed = L.committed := rfl
@[simp] theorem Leaf.writeV_card (L : Leaf) (n : Fin 32) (x : VWord) (t : BitVec 128) : (L.writeV n x t).card = L.card := rfl
@[simp] theorem Leaf.writeV_fitting (L : Leaf) (n : Fin 32) (x : VWord) (t : BitVec 128) : (L.writeV n x t).fitting = L.fitting := rfl
@[simp] theorem Leaf.writeV_mxIssued (L : Leaf) (n : Fin 32) (x : VWord) (t : BitVec 128) : (L.writeV n x t).mxIssued = L.mxIssued := rfl
@[simp] theorem Leaf.writeV_msg (L : Leaf) (n : Fin 32) (x : VWord) (t : BitVec 128) : (L.writeV n x t).msg = L.msg := rfl
@[simp] theorem Leaf.writeV_mxFault (L : Leaf) (n : Fin 32) (x : VWord) (t : BitVec 128) : (L.writeV n x t).mxFault = L.mxFault := rfl
@[simp] theorem Leaf.writeV_parked (L : Leaf) (n : Fin 32) (x : VWord) (t : BitVec 128) : (L.writeV n x t).parked = L.parked := rfl
@[simp] theorem Leaf.writeV_noReplay (L : Leaf) (n : Fin 32) (x : VWord) (t : BitVec 128) : (L.writeV n x t).noReplay = L.noReplay := rfl

/-- s0 reads as zero (Table 1-9). -/
@[simp] theorem Leaf.readS_zero (L : Leaf) : L.readS 0 = 0 := rfl
/-- s0 is never tainted. -/
@[simp] theorem Leaf.taintS_zero (L : Leaf) : L.taintS 0 = false := rfl
/-- p0 reads as all ones (Table 1-9). -/
@[simp] theorem Leaf.readP_zero (L : Leaf) : L.readP 0 = BitVec.allOnes 1024 := rfl
/-- p0 is never tainted. -/
@[simp] theorem Leaf.taintP_zero (L : Leaf) : L.taintP 0 = 0 := rfl
/-- A write to s0 is discarded. -/
@[simp] theorem Leaf.writeS_zero (L : Leaf) (x : Quad) (t : Bool) : L.writeS 0 x t = L := rfl
/-- A write to p0 is discarded. -/
@[simp] theorem Leaf.writeP_zero (L : Leaf) (x t : PWord) : L.writeP 0 x t = L := rfl

/-- An s-register reads back what was written to it. -/
theorem Leaf.readS_writeS_self (L : Leaf) {n : Fin 64} (x : Quad) (t : Bool) (h : n ≠ 0) : (L.writeS n x t).readS n = x := by
  simp [Leaf.writeS, Leaf.readS, h]

/-- A write to an s-register leaves the others. -/
theorem Leaf.readS_writeS_other (L : Leaf) {n m : Fin 64} (x : Quad) (t : Bool) (h : m ≠ n) : (L.writeS n x t).readS m = L.readS m := by
  have hv : n.val ≠ m.val := fun e => h (Fin.ext e.symm)
  unfold Leaf.writeS Leaf.readS
  split
  · rfl
  · split
    · rfl
    · simp [hv]

/-- The taint of an s-register reads back as written. -/
theorem Leaf.taintS_writeS_self (L : Leaf) {n : Fin 64} (x : Quad) (t : Bool) (h : n ≠ 0) : (L.writeS n x t).taintS n = t := by
  cases t <;> simp [Leaf.writeS, Leaf.taintS, h]

/-- Bit m of a one shifted to bit n. -/
theorem getLsbD_one_shiftLeft {n m : Nat} (h : m ≠ n) : (1#64 <<< n).getLsbD m = false := by
  simp [BitVec.getLsbD_shiftLeft, BitVec.getLsbD_one]; omega

/-- A write to an s-register leaves the taint of the others. -/
theorem Leaf.taintS_writeS_other (L : Leaf) {n m : Fin 64} (x : Quad) (t : Bool) (h : m ≠ n) : (L.writeS n x t).taintS m = L.taintS m := by
  have hb := getLsbD_one_shiftLeft (fun e => h (Fin.ext e) : m.val ≠ n.val)
  unfold Leaf.writeS Leaf.taintS
  by_cases hn : n = 0
  · simp [hn]
  · cases t
    · rw [if_neg hn, if_neg (by simp)]
      show (m ≠ 0 && (L.sT &&& ~~~(1#64 <<< n.val)).getLsbD m.val) = _
      rw [BitVec.getLsbD_and, BitVec.getLsbD_not, hb]; simp
    · rw [if_neg hn, if_pos rfl]
      show (m ≠ 0 && (L.sT ||| (1#64 <<< n.val)).getLsbD m.val) = _
      rw [BitVec.getLsbD_or, hb]; simp

/-- A predicate reads back what was written to it. -/
theorem Leaf.readP_writeP_self (L : Leaf) {n : Fin 8} (x t : PWord) (h : n ≠ 0) : (L.writeP n x t).readP n = x := by
  simp [Leaf.writeP, Leaf.readP, h]

/-- A write to a predicate leaves the others. -/
theorem Leaf.readP_writeP_other (L : Leaf) {n m : Fin 8} (x t : PWord) (h : m ≠ n) : (L.writeP n x t).readP m = L.readP m := by
  have hv : n.val ≠ m.val := fun e => h (Fin.ext e.symm)
  unfold Leaf.writeP Leaf.readP
  split
  · rfl
  · split
    · rfl
    · simp [hv]

/-! ## Parts of the state read back -/

/-- A leaf slot reads back what was set. -/
@[simp] theorem State.leafAt_setLeafAt_self (s : State) (c k : Nat) (L : Leaf) : (s.setLeafAt c k L).leafAt c k = L := by
  simp [State.leafAt, State.setLeafAt]

/-- Setting a leaf slot leaves the others. -/
theorem State.leafAt_setLeafAt_other (s : State) {c k c' k' : Nat} (L : Leaf) (h : leafKey c' k' ≠ leafKey c k) :
    (s.setLeafAt c k L).leafAt c' k' = s.leafAt c' k' := by
  simp [State.leafAt, State.setLeafAt, tget_tset_other _ _ _ h]

/-- A core reads back what was set. -/
@[simp] theorem State.core_setCore_self (s : State) (c : Nat) (x : Core) : (s.setCore c x).core c = x := by
  simp [State.core, State.setCore]

/-- Setting a core leaves the others. -/
theorem State.core_setCore_other (s : State) {c c' : Nat} (x : Core) (h : c' ≠ c) : (s.setCore c x).core c' = s.core c' := by
  simp [State.core, State.setCore, tget_tset_other _ _ _ h]

/-- A context reads back what was set. -/
@[simp] theorem State.ctx_setCtx_self (s : State) (c : Nat) (x : Ctx) : (s.setCtx c x).ctx c = x := by
  simp [State.ctx, State.setCtx]

/-- Setting a context leaves the others. -/
theorem State.ctx_setCtx_other (s : State) {c c' : Nat} (x : Ctx) (h : c' ≠ c) : (s.setCtx c x).ctx c' = s.ctx c' := by
  simp [State.ctx, State.setCtx, tget_tset_other _ _ _ h]

/-- A die reads back what was set. -/
@[simp] theorem State.die_setDie_self (s : State) (d : Nat) (x : Die) : (s.setDie d x).die d = x := by
  simp [State.die, State.setDie]

/-- Setting a die leaves the others. -/
theorem State.die_setDie_other (s : State) {d e : Nat} (x : Die) (h : e % 4 ≠ d % 4) : (s.setDie d x).die e = s.die e := by
  simp [State.die, State.setDie, Ne.symm h]

/-- The executing agent's registers read back what was set. -/
@[simp] theorem State.leaf_setLeaf (s : State) (L : Leaf) : (s.setLeaf L).leaf = L := by
  unfold State.leaf State.setLeaf
  cases h : s.cur with
  | leaf c k => simp [State.setLeafOf, State.leafOf, h]
  | dcc d => simp [State.setLeafOf, State.leafOf, State.setDcc, State.setDie, State.die, h]

@[simp] theorem State.setLeaf_cur (s : State) (L : Leaf) : (s.setLeaf L).cur = s.cur := by
  unfold State.setLeaf State.setLeafOf; split <;> rfl
@[simp] theorem State.setLeaf_turns (s : State) (L : Leaf) : (s.setLeaf L).turns = s.turns := by
  unfold State.setLeaf State.setLeafOf; split <;> rfl
@[simp] theorem State.setLeaf_master (s : State) (L : Leaf) : (s.setLeaf L).master = s.master := by
  unfold State.setLeaf State.setLeafOf; split <;> rfl
@[simp] theorem State.setLeaf_cycle (s : State) (L : Leaf) : (s.setLeaf L).cycle = s.cycle := by
  unfold State.setLeaf State.setLeafOf; split <;> rfl
@[simp] theorem State.setLeaf_free (s : State) (L : Leaf) : (s.setLeaf L).free = s.free := by
  unfold State.setLeaf State.setLeafOf; split <;> rfl
@[simp] theorem State.setLeaf_nextEntry (s : State) (L : Leaf) : (s.setLeaf L).nextEntry = s.nextEntry := by
  unfold State.setLeaf State.setLeafOf; split <;> rfl
@[simp] theorem State.setLeaf_cores (s : State) (L : Leaf) : (s.setLeaf L).cores = s.cores := by
  unfold State.setLeaf State.setLeafOf; split <;> rfl
@[simp] theorem State.setLeaf_lastSlot (s : State) (L : Leaf) : (s.setLeaf L).lastSlot = s.lastSlot := by
  unfold State.setLeaf State.setLeafOf; split <;> rfl
@[simp] theorem State.setLeaf_ctxs (s : State) (L : Leaf) : (s.setLeaf L).ctxs = s.ctxs := by
  unfold State.setLeaf State.setLeafOf; split <;> rfl
@[simp] theorem State.setLeaf_parts (s : State) (L : Leaf) : (s.setLeaf L).parts = s.parts := by
  unfold State.setLeaf State.setLeafOf; split <;> rfl
@[simp] theorem State.setLeaf_holders (s : State) (L : Leaf) : (s.setLeaf L).holders = s.holders := by
  unfold State.setLeaf State.setLeafOf; split <;> rfl
@[simp] theorem State.setLeaf_offers (s : State) (L : Leaf) : (s.setLeaf L).offers = s.offers := by
  unfold State.setLeaf State.setLeafOf; split <;> rfl
@[simp] theorem State.setLeaf_mem (s : State) (L : Leaf) : (s.setLeaf L).mem = s.mem := by
  unfold State.setLeaf State.setLeafOf; split <;> rfl
@[simp] theorem State.setLeaf_l2 (s : State) (L : Leaf) : (s.setLeaf L).l2 = s.l2 := by
  unfold State.setLeaf State.setLeafOf; split <;> rfl
@[simp] theorem State.setLeaf_dram (s : State) (L : Leaf) : (s.setLeaf L).dram = s.dram := by
  unfold State.setLeaf State.setLeafOf; split <;> rfl
@[simp] theorem State.setLeaf_podMem (s : State) (L : Leaf) : (s.setLeaf L).podMem = s.podMem := by
  unfold State.setLeaf State.setLeafOf; split <;> rfl
@[simp] theorem State.setLeaf_podDirty (s : State) (L : Leaf) : (s.setLeaf L).podDirty = s.podDirty := by
  unfold State.setLeaf State.setLeafOf; split <;> rfl
@[simp] theorem State.setLeaf_podTaint (s : State) (L : Leaf) : (s.setLeaf L).podTaint = s.podTaint := by
  unfold State.setLeaf State.setLeafOf; split <;> rfl
@[simp] theorem State.setLeaf_hostMem (s : State) (L : Leaf) : (s.setLeaf L).hostMem = s.hostMem := by
  unfold State.setLeaf State.setLeafOf; split <;> rfl
@[simp] theorem State.setLeaf_podDenied (s : State) (L : Leaf) : (s.setLeaf L).podDenied = s.podDenied := by
  unfold State.setLeaf State.setLeafOf; split <;> rfl
@[simp] theorem State.setLeaf_podResident (s : State) (L : Leaf) : (s.setLeaf L).podResident = s.podResident := by
  unfold State.setLeaf State.setLeafOf; split <;> rfl
@[simp] theorem State.setLeaf_rdcHeld (s : State) (L : Leaf) : (s.setLeaf L).rdcHeld = s.rdcHeld := by
  unfold State.setLeaf State.setLeafOf; split <;> rfl
@[simp] theorem State.setLeaf_podHeld (s : State) (L : Leaf) : (s.setLeaf L).podHeld = s.podHeld := by
  unfold State.setLeaf State.setLeafOf; split <;> rfl
@[simp] theorem State.setLeaf_stamp (s : State) (L : Leaf) : (s.setLeaf L).stamp = s.stamp := by
  unfold State.setLeaf State.setLeafOf; split <;> rfl
@[simp] theorem State.setLeaf_seals (s : State) (L : Leaf) : (s.setLeaf L).seals = s.seals := by
  unfold State.setLeaf State.setLeafOf; split <;> rfl
@[simp] theorem State.setLeaf_anchors (s : State) (L : Leaf) : (s.setLeaf L).anchors = s.anchors := by
  unfold State.setLeaf State.setLeafOf; split <;> rfl
@[simp] theorem State.setLeaf_ueMarks (s : State) (L : Leaf) : (s.setLeaf L).ueMarks = s.ueMarks := by
  unfold State.setLeaf State.setLeafOf; split <;> rfl
@[simp] theorem State.setLeaf_pending (s : State) (L : Leaf) : (s.setLeaf L).pending = s.pending := by
  unfold State.setLeaf State.setLeafOf; split <;> rfl
@[simp] theorem State.setLeaf_tlb (s : State) (L : Leaf) : (s.setLeaf L).tlb = s.tlb := by
  unfold State.setLeaf State.setLeafOf; split <;> rfl
@[simp] theorem State.setLeaf_staleNotices (s : State) (L : Leaf) : (s.setLeaf L).staleNotices = s.staleNotices := by
  unfold State.setLeaf State.setLeafOf; split <;> rfl
@[simp] theorem State.setLeaf_msgs (s : State) (L : Leaf) : (s.setLeaf L).msgs = s.msgs := by
  unfold State.setLeaf State.setLeafOf; split <;> rfl
@[simp] theorem State.setLeaf_atomQ (s : State) (L : Leaf) : (s.setLeaf L).atomQ = s.atomQ := by
  unfold State.setLeaf State.setLeafOf; split <;> rfl
@[simp] theorem State.setLeaf_colls (s : State) (L : Leaf) : (s.setLeaf L).colls = s.colls := by
  unfold State.setLeaf State.setLeafOf; split <;> rfl
@[simp] theorem State.setLeaf_arbLast (s : State) (L : Leaf) : (s.setLeaf L).arbLast = s.arbLast := by
  unfold State.setLeaf State.setLeafOf; split <;> rfl
@[simp] theorem State.setLeaf_arbCredit (s : State) (L : Leaf) : (s.setLeaf L).arbCredit = s.arbCredit := by
  unfold State.setLeaf State.setLeafOf; split <;> rfl
@[simp] theorem State.setLeaf_occ (s : State) (L : Leaf) : (s.setLeaf L).occ = s.occ := by
  unfold State.setLeaf State.setLeafOf; split <;> rfl
@[simp] theorem State.setLeaf_atab (s : State) (L : Leaf) : (s.setLeaf L).atab = s.atab := by
  unfold State.setLeaf State.setLeafOf; split <;> rfl
@[simp] theorem State.setLeaf_slowVec (s : State) (L : Leaf) : (s.setLeaf L).slowVec = s.slowVec := by
  unfold State.setLeaf State.setLeafOf; split <;> rfl
@[simp] theorem State.setLeaf_svMap (s : State) (L : Leaf) : (s.setLeaf L).svMap = s.svMap := by
  unfold State.setLeaf State.setLeafOf; split <;> rfl
@[simp] theorem State.setLeaf_pkg (s : State) (L : Leaf) : (s.setLeaf L).pkg = s.pkg := by
  unfold State.setLeaf State.setLeafOf; split <;> rfl

end Sys2Proof.Machine
end

