-- ==== Sys2Proof/Laws/Outcome.lean ====
section
/-! SUPPORT. What the monad of instructions, the shared endings of a meaning and the updates of the executing agent's registers do, said once: a proof about an instruction cites these and never unfolds the monad. -/

namespace Sys2Proof.Machine

/-! ## The monad -/

section Monad
variable {α β : Type}

/-- A meaning followed by another: the second runs in the state the first leaves; a trap or a wait ends both. -/
@[simp] theorem bind_run (m : M α) (f : α → M β) (s : State) :
    (m >>= f) s = match m s with | .ok a t => f a t | .error e t => .error e t := by
  show EStateM.bind m f s = _
  unfold EStateM.bind; cases m s <;> rfl

@[simp] theorem pure_run (a : α) (s : State) : (pure a : M α) s = .ok a s := rfl
@[simp] theorem get_run (s : State) : (get : M State) s = .ok s s := rfl
@[simp] theorem set_run (s t : State) : (set t : M Unit) s = .ok () t := rfl
@[simp] theorem upd_run (f : State → State) (s : State) : upd f s = .ok () (f s) := rfl
@[simp] theorem throw_run (h : Halt) (s : State) : (throw h : M α) s = .error h s := rfl
@[simp] theorem fail_run (c : Cause) (a : Nat) (s : State) : (fail c a : M α) s = .error (.trap { cause := c, addr := a }) s := rfl
@[simp] theorem wait_run (s : State) : (waitHere : M α) s = .error .wait s := rfl
@[simp] theorem updLeaf_run (f : Leaf → Leaf) (s : State) : updLeaf f s = .ok () (s.setLeaf (f s.leaf)) := rfl
@[simp] theorem updCtx_run (c : Nat) (f : Ctx → Ctx) (s : State) : updCtx c f s = .ok () (s.setCtx c (f (s.ctx c))) := rfl

/-- `attempt` turns a trap into a value and leaves a wait a wait. -/
theorem attempt_ok {m : M α} {s t : State} {a : α} (h : m s = .ok a t) : attempt m s = .ok (.ok a) t := by
  simp [attempt, h]
theorem attempt_trap {m : M α} {s t : State} {e : Trap} (h : m s = .error (.trap e) t) : attempt m s = .ok (.error e) t := by
  simp [attempt, h]
theorem attempt_wait {m : M α} {s t : State} (h : m s = .error .wait t) : attempt m s = .error .wait t := by
  simp [attempt, h]

/-- What completes completes with the faults' address replaced. -/
theorem atAddr_ok {m : M α} {s t : State} {a : α} (ea : Nat) (h : m s = .ok a t) : atAddr ea m s = .ok a t := by
  simp [atAddr, attempt_ok h]

end Monad

/-! ## The endings of a meaning -/

/-- A meaning that completes answers its state, settled. -/
theorem finish_ok {m : M Unit} {s t : State} (hp : s.pkg.off = false) (h : m s = .ok () t) : finish m s = .next t.settle := by
  simp [finish, hp, h]
/-- A meaning that traps takes the exception in the state it had reached. -/
theorem finish_trap {m : M Unit} {s t : State} {e : Trap} (hp : s.pkg.off = false) (h : m s = .error (.trap e) t) :
    finish m s = .next (t.takeTrap e).settle := by
  simp [finish, hp, h]
/-- A meaning that waits leaves the agent waiting. -/
theorem finish_wait {m : M Unit} {s t : State} (hp : s.pkg.off = false) (h : m s = .error .wait t) :
    finish m s = .next t.markWaiting.settle := by
  simp [finish, hp, h]

theorem regStep_on {s : State} (f : Leaf → Leaf) (hp : s.pkg.off = false) : regStep f s = .next (s.setLeaf (f s.leaf)) := by
  simp [regStep, hp]
theorem eventStep_on {s : State} (f : State → State) (hp : s.pkg.off = false) : eventStep f s = .next (f s).settle := by
  simp [eventStep, hp]
theorem scalarStep_active {s : State} {x : Args} (f : State → Leaf → Leaf) (hp : s.pkg.off = false) (ha : s.leaf.active x.guard = true) :
    scalarStep x f s = .next (s.setLeaf (f s s.leaf).advance) := by
  simp [scalarStep, regStep, hp, ha]
theorem scalarStep_inactive {s : State} {x : Args} (f : State → Leaf → Leaf) (hp : s.pkg.off = false) (ha : s.leaf.active x.guard = false) :
    scalarStep x f s = .next (s.setLeaf s.leaf.advance) := by
  simp [scalarStep, regStep, hp, ha]
theorem guardedStep_active {s : State} {x : Args} (m : M Unit) (ha : s.leaf.active x.guard = true) : guardedStep x m s = finish m s := by
  simp [guardedStep, ha]
theorem guardedStep_inactive {s : State} {x : Args} (m : M Unit) (hp : s.pkg.off = false) (ha : s.leaf.active x.guard = false) :
    guardedStep x m s = .next (s.setLeaf s.leaf.advance) := by
  simp [guardedStep, regStep, hp, ha]

/-! ## The executing agent's registers -/

/-- Setting the registers twice is setting them last. -/
@[simp] theorem State.setLeafAt_setLeafAt (s : State) (c k : Nat) (L M : Leaf) : (s.setLeafAt c k L).setLeafAt c k M = s.setLeafAt c k M := by
  simp [State.setLeafAt]
@[simp] theorem State.setDie_setDie (s : State) (d : Nat) (x y : Die) : (s.setDie d x).setDie d y = s.setDie d y := by
  simp [State.setDie]
@[simp] theorem State.setDcc_setDcc (s : State) (d : Nat) (x y : Dcc) : (s.setDcc d x).setDcc d y = s.setDcc d y := by
  simp [State.setDcc]
@[simp] theorem State.setCtx_setCtx (s : State) (c : Nat) (x y : Ctx) : (s.setCtx c x).setCtx c y = s.setCtx c y := by
  simp [State.setCtx]
@[simp] theorem State.setCore_setCore (s : State) (c : Nat) (x y : Core) : (s.setCore c x).setCore c y = s.setCore c y := by
  simp [State.setCore]
@[simp] theorem State.setLeaf_setLeaf (s : State) (L M : Leaf) : (s.setLeaf L).setLeaf M = s.setLeaf M := by
  cases h : s.cur with
  | leaf c k => simp [State.setLeaf, State.setLeafOf, h]
  | dcc d => simp [State.setLeaf, State.setLeafOf, h, State.setDcc]

theorem State.setLeaf_of_leaf {s : State} {c k : Nat} (h : s.cur = .leaf c k) (L : Leaf) : s.setLeaf L = s.setLeafAt c k L := by
  simp [State.setLeaf, State.setLeafOf, h]
theorem State.setLeaf_of_dcc {s : State} {d : Nat} (h : s.cur = .dcc d) (L : Leaf) : s.setLeaf L = s.setDcc d { (s.die d).dcc with leaf := L } := by
  simp [State.setLeaf, State.setLeafOf, h]
theorem State.leaf_of_leaf {s : State} {c k : Nat} (h : s.cur = .leaf c k) : s.leaf = s.leafAt c k := by
  simp [State.leaf, State.leafOf, h]
theorem State.leaf_of_dcc {s : State} {d : Nat} (h : s.cur = .dcc d) : s.leaf = (s.die d).dcc.leaf := by
  simp [State.leaf, State.leafOf, h]

@[simp] theorem State.leaf_setCtx (s : State) (c : Nat) (x : Ctx) : (s.setCtx c x).leaf = s.leaf := rfl
@[simp] theorem State.leaf_setCore (s : State) (c : Nat) (x : Core) : (s.setCore c x).leaf = s.leaf := rfl
@[simp] theorem State.ctx_setLeaf (s : State) (c : Nat) (L : Leaf) : (s.setLeaf L).ctx c = s.ctx c := by simp [State.ctx]
@[simp] theorem State.core_setLeaf (s : State) (c : Nat) (L : Leaf) : (s.setLeaf L).core c = s.core c := by simp [State.core]
@[simp] theorem State.die_setCtx (s : State) (c d : Nat) (x : Ctx) : (s.setCtx c x).die d = s.die d := rfl
@[simp] theorem State.die_setCore (s : State) (c d : Nat) (x : Core) : (s.setCore c x).die d = s.die d := rfl
@[simp] theorem State.ctx_setCore (s : State) (c d : Nat) (x : Core) : (s.setCore c x).ctx d = s.ctx d := rfl
@[simp] theorem State.core_setCtx (s : State) (c d : Nat) (x : Ctx) : (s.setCtx c x).core d = s.core d := rfl
@[simp] theorem State.ctx_setDie (s : State) (c d : Nat) (x : Die) : (s.setDie d x).ctx c = s.ctx c := rfl
@[simp] theorem State.core_setDie (s : State) (c d : Nat) (x : Die) : (s.setDie d x).core c = s.core c := rfl
@[simp] theorem State.leafAt_setCtx (s : State) (c k i : Nat) (x : Ctx) : (s.setCtx i x).leafAt c k = s.leafAt c k := rfl
@[simp] theorem State.leafAt_setCore (s : State) (c k i : Nat) (x : Core) : (s.setCore i x).leafAt c k = s.leafAt c k := rfl
@[simp] theorem State.leafAt_setDie (s : State) (c k i : Nat) (x : Die) : (s.setDie i x).leafAt c k = s.leafAt c k := rfl
@[simp] theorem State.die_setDcc_self (s : State) (d : Nat) (c : Dcc) : (s.setDcc d c).die d = { s.die d with dcc := c } := by
  simp [State.setDcc]

/-- Only the registers of the executing agent differ after they are set. -/
theorem State.setLeaf_memories (s : State) (L : Leaf) :
    (s.setLeaf L).mem = s.mem ∧ (s.setLeaf L).dram = s.dram ∧ (s.setLeaf L).podMem = s.podMem ∧ (s.setLeaf L).hostMem = s.hostMem := by
  simp

/-! ## Launches and allocation -/

/-- A failure of a launch that is dead changes nothing (R29, R160). -/
theorem failLaunch_of_dead {s : State} {c : Nat} (h : (s.ctx c).dead = true) (code : Option Nat) (cause : Option Cause) :
    s.failLaunch c code cause = s := by simp [State.failLaunch, h]

/-- `sameKeys` says that the keys are equal. -/
theorem sameKeys_iff {α : Type} (t u : Tbl α) : sameKeys t u = true ↔ t.map (·.1) = u.map (·.1) := by
  induction t generalizing u with
  | nil => cases u <;> simp [sameKeys]
  | cons e t ih => cases u with
    | nil => simp [sameKeys]
    | cons f u => simp [sameKeys, ih]

/-- A record that a leaf has saved has no snapshot to start at (R35, R396). -/
theorem replayAt_of_saved {r : Rec} (h : r.saved.isSome = true) : r.replayAt = none := by
  cases hs : r.saved <;> simp_all [Rec.replayAt]

/-! ## View chunks, and memory behind a port that is down -/

/-- A record without its view chunks keeps none, in its snapshot neither (R394). -/
@[simp] theorem Rec.noViews_allChunks (r : Rec) : r.noViews.allChunks = [] := by
  cases h : r.snap <;> simp [Rec.noViews, Rec.allChunks, h]

/-- A record's chunk that has been set is read back, in its views, its prefix views, and its snapshot where it has one. -/
theorem Rec.chunkAt_putChunk (r : Rec) (k : Nat) (ch : Option Chunk) (h : k < 2 ^ 41 ∨ r.snap.isSome = true) :
    (r.putChunk k ch).chunkAt k = ch := by
  have put : ∀ (t : Tbl Chunk) (n : Nat), tfind (tput t n ch) n = ch := by
    intro t n; cases ch <;> simp [tput]
  by_cases h1 : k < 2 ^ 40
  · simp only [Rec.chunkAt, Rec.putChunk, if_pos h1, put]
  · by_cases h2 : k < 2 ^ 41
    · simp only [Rec.chunkAt, Rec.putChunk, if_neg h1, if_pos h2, put]
    · obtain ⟨sn, hs⟩ := Option.isSome_iff_exists.mp (h.resolve_left h2)
      simp only [Rec.chunkAt, Rec.putChunk, if_neg h1, if_neg h2, hs, Option.map_some, Option.bind_some, put]

/-- Only what lies behind a CXL port can be behind one that is down (R310). -/
theorem State.cxlGone_home {s : State} {pa : Nat} (h : s.cxlGone pa = true) :
    ∃ d sc off, s.homeOf pa = .cxl d sc off ∧ ¬((s.die d).cxl.toNat.testBit 0 = true ∧ (s.die d).cxl.toNat.testBit 1 = true) := by
  unfold State.cxlGone at h
  split at h
  next d sc off e => exact ⟨d, sc, off, e, by intro ⟨a, b⟩; simp [a, b] at h⟩
  next => simp at h

/-- A granule behind a port that is down is not read: its check fails with CXL_DOWN, and it is not quarantined for it (R310, R331). -/
theorem State.checkGranule_of_gone {s : State} {base : Nat} (h : s.cxlGone base = true) (slot : Nat) (g512 anchor : Bool) :
    s.checkGranule base slot g512 anchor = .error (.cxlDown, false) := by
  simp [State.checkGranule, h]

end Sys2Proof.Machine
end

