-- ==== Sys2Proof/Laws/PerInstr.lean ====
section
/-! SUPPORT. One lemma per instruction: the decoder's opcode map gives an instruction back from the (OP, SUB) and the fields that the encoder writes (Table 3-7). An event has no code. -/

/-- The opcode map of the decoder inverts that of the encoder. -/
def Sys2Proof.Laws.Encoding.Statement (i : Sys2Proof.Instr) : Prop :=
  ∀ c, Sys2Proof.instrCode i = some c → Sys2Proof.instrOfCode c.1 c.2.1 c.2.2 = some i

theorem Sys2Proof.Laws.Encoding.add (x : Sys2Proof.Args) : Sys2Proof.Laws.Encoding.Statement (.add x) := by
  intro p h; cases h; rfl
theorem Sys2Proof.Laws.Encoding.addSat (x : Sys2Proof.Args) : Sys2Proof.Laws.Encoding.Statement (.addSat x) := by
  intro p h; cases h; rfl
theorem Sys2Proof.Laws.Encoding.sub (x : Sys2Proof.Args) : Sys2Proof.Laws.Encoding.Statement (.sub x) := by
  intro p h; cases h; rfl
theorem Sys2Proof.Laws.Encoding.subSat (x : Sys2Proof.Args) : Sys2Proof.Laws.Encoding.Statement (.subSat x) := by
  intro p h; cases h; rfl
theorem Sys2Proof.Laws.Encoding.mul (x : Sys2Proof.Args) : Sys2Proof.Laws.Encoding.Statement (.mul x) := by
  intro p h; cases h; rfl
theorem Sys2Proof.Laws.Encoding.mulHi (x : Sys2Proof.Args) : Sys2Proof.Laws.Encoding.Statement (.mulHi x) := by
  intro p h; cases h; rfl
theorem Sys2Proof.Laws.Encoding.div (x : Sys2Proof.Args) : Sys2Proof.Laws.Encoding.Statement (.div x) := by
  intro p h; cases h; rfl
theorem Sys2Proof.Laws.Encoding.rem (x : Sys2Proof.Args) : Sys2Proof.Laws.Encoding.Statement (.rem x) := by
  intro p h; cases h; rfl
theorem Sys2Proof.Laws.Encoding.and (x : Sys2Proof.Args) : Sys2Proof.Laws.Encoding.Statement (.and x) := by
  intro p h; cases h; rfl
theorem Sys2Proof.Laws.Encoding.or (x : Sys2Proof.Args) : Sys2Proof.Laws.Encoding.Statement (.or x) := by
  intro p h; cases h; rfl
theorem Sys2Proof.Laws.Encoding.xor (x : Sys2Proof.Args) : Sys2Proof.Laws.Encoding.Statement (.xor x) := by
  intro p h; cases h; rfl
theorem Sys2Proof.Laws.Encoding.andn (x : Sys2Proof.Args) : Sys2Proof.Laws.Encoding.Statement (.andn x) := by
  intro p h; cases h; rfl
theorem Sys2Proof.Laws.Encoding.orn (x : Sys2Proof.Args) : Sys2Proof.Laws.Encoding.Statement (.orn x) := by
  intro p h; cases h; rfl
theorem Sys2Proof.Laws.Encoding.xnor (x : Sys2Proof.Args) : Sys2Proof.Laws.Encoding.Statement (.xnor x) := by
  intro p h; cases h; rfl
theorem Sys2Proof.Laws.Encoding.shl (x : Sys2Proof.Args) : Sys2Proof.Laws.Encoding.Statement (.shl x) := by
  intro p h; cases h; rfl
theorem Sys2Proof.Laws.Encoding.shr (x : Sys2Proof.Args) : Sys2Proof.Laws.Encoding.Statement (.shr x) := by
  intro p h; cases h; rfl
theorem Sys2Proof.Laws.Encoding.sra (x : Sys2Proof.Args) : Sys2Proof.Laws.Encoding.Statement (.sra x) := by
  intro p h; cases h; rfl
theorem Sys2Proof.Laws.Encoding.rol (x : Sys2Proof.Args) : Sys2Proof.Laws.Encoding.Statement (.rol x) := by
  intro p h; cases h; rfl
theorem Sys2Proof.Laws.Encoding.ror (x : Sys2Proof.Args) : Sys2Proof.Laws.Encoding.Statement (.ror x) := by
  intro p h; cases h; rfl
theorem Sys2Proof.Laws.Encoding.min (x : Sys2Proof.Args) : Sys2Proof.Laws.Encoding.Statement (.min x) := by
  intro p h; cases h; rfl
theorem Sys2Proof.Laws.Encoding.max (x : Sys2Proof.Args) : Sys2Proof.Laws.Encoding.Statement (.max x) := by
  intro p h; cases h; rfl
theorem Sys2Proof.Laws.Encoding.clz (x : Sys2Proof.Args) : Sys2Proof.Laws.Encoding.Statement (.clz x) := by
  intro p h; cases h; rfl
theorem Sys2Proof.Laws.Encoding.ctz (x : Sys2Proof.Args) : Sys2Proof.Laws.Encoding.Statement (.ctz x) := by
  intro p h; cases h; rfl
theorem Sys2Proof.Laws.Encoding.popc (x : Sys2Proof.Args) : Sys2Proof.Laws.Encoding.Statement (.popc x) := by
  intro p h; cases h; rfl
theorem Sys2Proof.Laws.Encoding.bswap (x : Sys2Proof.Args) : Sys2Proof.Laws.Encoding.Statement (.bswap x) := by
  intro p h; cases h; rfl
theorem Sys2Proof.Laws.Encoding.bfx (x : Sys2Proof.Args) : Sys2Proof.Laws.Encoding.Statement (.bfx x) := by
  intro p h; cases h; rfl
theorem Sys2Proof.Laws.Encoding.bfi (x : Sys2Proof.Args) : Sys2Proof.Laws.Encoding.Statement (.bfi x) := by
  intro p h; cases h; rfl
theorem Sys2Proof.Laws.Encoding.sel (x : Sys2Proof.Args) : Sys2Proof.Laws.Encoding.Statement (.sel x) := by
  intro p h; cases h; rfl
theorem Sys2Proof.Laws.Encoding.mov (x : Sys2Proof.Args) : Sys2Proof.Laws.Encoding.Statement (.mov x) := by
  intro p h; cases h; rfl
theorem Sys2Proof.Laws.Encoding.lea (x : Sys2Proof.Args) : Sys2Proof.Laws.Encoding.Statement (.lea x) := by
  intro p h; cases h; rfl
theorem Sys2Proof.Laws.Encoding.cmp (c : Sys2Proof.Cond) (x : Sys2Proof.Args) : Sys2Proof.Laws.Encoding.Statement (.cmp c x) := by
  intro p h; cases c <;> cases h <;> rfl
theorem Sys2Proof.Laws.Encoding.fadd (x : Sys2Proof.Args) : Sys2Proof.Laws.Encoding.Statement (.fadd x) := by
  intro p h; cases h; rfl
theorem Sys2Proof.Laws.Encoding.fsub (x : Sys2Proof.Args) : Sys2Proof.Laws.Encoding.Statement (.fsub x) := by
  intro p h; cases h; rfl
theorem Sys2Proof.Laws.Encoding.fmul (x : Sys2Proof.Args) : Sys2Proof.Laws.Encoding.Statement (.fmul x) := by
  intro p h; cases h; rfl
theorem Sys2Proof.Laws.Encoding.ffma (x : Sys2Proof.Args) : Sys2Proof.Laws.Encoding.Statement (.ffma x) := by
  intro p h; cases h; rfl
theorem Sys2Proof.Laws.Encoding.ffnma (x : Sys2Proof.Args) : Sys2Proof.Laws.Encoding.Statement (.ffnma x) := by
  intro p h; cases h; rfl
theorem Sys2Proof.Laws.Encoding.fcvtTo (x : Sys2Proof.Args) : Sys2Proof.Laws.Encoding.Statement (.fcvtTo x) := by
  intro p h; cases h; rfl
theorem Sys2Proof.Laws.Encoding.fcvtFrom (x : Sys2Proof.Args) : Sys2Proof.Laws.Encoding.Statement (.fcvtFrom x) := by
  intro p h; cases h; rfl
theorem Sys2Proof.Laws.Encoding.fcmp (c : Sys2Proof.Cond) (x : Sys2Proof.Args) : Sys2Proof.Laws.Encoding.Statement (.fcmp c x) := by
  intro p h; cases c <;> cases h <;> rfl
theorem Sys2Proof.Laws.Encoding.pand (x : Sys2Proof.Args) : Sys2Proof.Laws.Encoding.Statement (.pand x) := by
  intro p h; cases h; rfl
theorem Sys2Proof.Laws.Encoding.por (x : Sys2Proof.Args) : Sys2Proof.Laws.Encoding.Statement (.por x) := by
  intro p h; cases h; rfl
theorem Sys2Proof.Laws.Encoding.pxor (x : Sys2Proof.Args) : Sys2Proof.Laws.Encoding.Statement (.pxor x) := by
  intro p h; cases h; rfl
theorem Sys2Proof.Laws.Encoding.pandn (x : Sys2Proof.Args) : Sys2Proof.Laws.Encoding.Statement (.pandn x) := by
  intro p h; cases h; rfl
theorem Sys2Proof.Laws.Encoding.pnot (x : Sys2Proof.Args) : Sys2Proof.Laws.Encoding.Statement (.pnot x) := by
  intro p h; cases h; rfl
theorem Sys2Proof.Laws.Encoding.prd (x : Sys2Proof.Args) : Sys2Proof.Laws.Encoding.Statement (.prd x) := by
  intro p h; cases h; rfl
theorem Sys2Proof.Laws.Encoding.pwr (x : Sys2Proof.Args) : Sys2Proof.Laws.Encoding.Statement (.pwr x) := by
  intro p h; cases h; rfl
theorem Sys2Proof.Laws.Encoding.br (x : Sys2Proof.Args) : Sys2Proof.Laws.Encoding.Statement (.br x) := by
  intro p h; cases h; rfl
theorem Sys2Proof.Laws.Encoding.call (x : Sys2Proof.Args) : Sys2Proof.Laws.Encoding.Statement (.call x) := by
  intro p h; cases h; rfl
theorem Sys2Proof.Laws.Encoding.ret (x : Sys2Proof.Args) : Sys2Proof.Laws.Encoding.Statement (.ret x) := by
  intro p h; cases h; rfl
theorem Sys2Proof.Laws.Encoding.yield (x : Sys2Proof.Args) : Sys2Proof.Laws.Encoding.Statement (.yield x) := by
  intro p h; cases h; rfl
theorem Sys2Proof.Laws.Encoding.csrrd (x : Sys2Proof.Args) : Sys2Proof.Laws.Encoding.Statement (.csrrd x) := by
  intro p h; cases h; rfl
theorem Sys2Proof.Laws.Encoding.csrwr (x : Sys2Proof.Args) : Sys2Proof.Laws.Encoding.Statement (.csrwr x) := by
  intro p h; cases h; rfl
theorem Sys2Proof.Laws.Encoding.csrset (x : Sys2Proof.Args) : Sys2Proof.Laws.Encoding.Statement (.csrset x) := by
  intro p h; cases h; rfl
theorem Sys2Proof.Laws.Encoding.csrclr (x : Sys2Proof.Args) : Sys2Proof.Laws.Encoding.Statement (.csrclr x) := by
  intro p h; cases h; rfl
theorem Sys2Proof.Laws.Encoding.tfence (x : Sys2Proof.Args) : Sys2Proof.Laws.Encoding.Statement (.tfence x) := by
  intro p h; cases h; rfl
theorem Sys2Proof.Laws.Encoding.trap (x : Sys2Proof.Args) : Sys2Proof.Laws.Encoding.Statement (.trap x) := by
  intro p h; cases h; rfl
theorem Sys2Proof.Laws.Encoding.eret (x : Sys2Proof.Args) : Sys2Proof.Laws.Encoding.Statement (.eret x) := by
  intro p h; cases h; rfl
theorem Sys2Proof.Laws.Encoding.ctxstop (x : Sys2Proof.Args) : Sys2Proof.Laws.Encoding.Statement (.ctxstop x) := by
  intro p h; cases h; rfl
theorem Sys2Proof.Laws.Encoding.ctxstart (x : Sys2Proof.Args) : Sys2Proof.Laws.Encoding.Statement (.ctxstart x) := by
  intro p h; cases h; rfl
theorem Sys2Proof.Laws.Encoding.ctxkill (x : Sys2Proof.Args) : Sys2Proof.Laws.Encoding.Statement (.ctxkill x) := by
  intro p h; cases h; rfl
theorem Sys2Proof.Laws.Encoding.ctxevict (x : Sys2Proof.Args) : Sys2Proof.Laws.Encoding.Statement (.ctxevict x) := by
  intro p h; cases h; rfl
theorem Sys2Proof.Laws.Encoding.partsplit (x : Sys2Proof.Args) : Sys2Proof.Laws.Encoding.Statement (.partsplit x) := by
  intro p h; cases h; rfl
theorem Sys2Proof.Laws.Encoding.partmerge (x : Sys2Proof.Args) : Sys2Proof.Laws.Encoding.Statement (.partmerge x) := by
  intro p h; cases h; rfl
theorem Sys2Proof.Laws.Encoding.partbind (x : Sys2Proof.Args) : Sys2Proof.Laws.Encoding.Statement (.partbind x) := by
  intro p h; cases h; rfl
theorem Sys2Proof.Laws.Encoding.sliceset (x : Sys2Proof.Args) : Sys2Proof.Laws.Encoding.Statement (.sliceset x) := by
  intro p h; cases h; rfl
theorem Sys2Proof.Laws.Encoding.split (x : Sys2Proof.Args) : Sys2Proof.Laws.Encoding.Statement (.split x) := by
  intro p h; cases h; rfl
theorem Sys2Proof.Laws.Encoding.fit (x : Sys2Proof.Args) : Sys2Proof.Laws.Encoding.Statement (.fit x) := by
  intro p h; cases h; rfl
theorem Sys2Proof.Laws.Encoding.walk (x : Sys2Proof.Args) : Sys2Proof.Laws.Encoding.Statement (.walk x) := by
  intro p h; cases h; rfl
theorem Sys2Proof.Laws.Encoding.prune (x : Sys2Proof.Args) : Sys2Proof.Laws.Encoding.Statement (.prune x) := by
  intro p h; cases h; rfl
theorem Sys2Proof.Laws.Encoding.pruneMag (x : Sys2Proof.Args) : Sys2Proof.Laws.Encoding.Statement (.pruneMag x) := by
  intro p h; cases h; rfl
theorem Sys2Proof.Laws.Encoding.done (x : Sys2Proof.Args) : Sys2Proof.Laws.Encoding.Statement (.done x) := by
  intro p h; cases h; rfl
theorem Sys2Proof.Laws.Encoding.abort (x : Sys2Proof.Args) : Sys2Proof.Laws.Encoding.Statement (.abort x) := by
  intro p h; cases h; rfl
theorem Sys2Proof.Laws.Encoding.port (x : Sys2Proof.Args) : Sys2Proof.Laws.Encoding.Statement (.port x) := by
  intro p h; cases h; rfl
theorem Sys2Proof.Laws.Encoding.vwaddr (x : Sys2Proof.Args) : Sys2Proof.Laws.Encoding.Statement (.vwaddr x) := by
  intro p h; cases h; rfl
theorem Sys2Proof.Laws.Encoding.capgive (x : Sys2Proof.Args) : Sys2Proof.Laws.Encoding.Statement (.capgive x) := by
  intro p h; cases h; rfl
theorem Sys2Proof.Laws.Encoding.captake (x : Sys2Proof.Args) : Sys2Proof.Laws.Encoding.Statement (.captake x) := by
  intro p h; cases h; rfl
theorem Sys2Proof.Laws.Encoding.ld (x : Sys2Proof.Args) : Sys2Proof.Laws.Encoding.Statement (.ld x) := by
  intro p h; cases h; rfl
theorem Sys2Proof.Laws.Encoding.st (x : Sys2Proof.Args) : Sys2Proof.Laws.Encoding.Statement (.st x) := by
  intro p h; cases h; rfl
theorem Sys2Proof.Laws.Encoding.vld (x : Sys2Proof.Args) : Sys2Proof.Laws.Encoding.Statement (.vld x) := by
  intro p h; cases h; rfl
theorem Sys2Proof.Laws.Encoding.vldStr (x : Sys2Proof.Args) : Sys2Proof.Laws.Encoding.Statement (.vldStr x) := by
  intro p h; cases h; rfl
theorem Sys2Proof.Laws.Encoding.vst (x : Sys2Proof.Args) : Sys2Proof.Laws.Encoding.Statement (.vst x) := by
  intro p h; cases h; rfl
theorem Sys2Proof.Laws.Encoding.vstStr (x : Sys2Proof.Args) : Sys2Proof.Laws.Encoding.Statement (.vstStr x) := by
  intro p h; cases h; rfl
theorem Sys2Proof.Laws.Encoding.vgath (x : Sys2Proof.Args) : Sys2Proof.Laws.Encoding.Statement (.vgath x) := by
  intro p h; cases h; rfl
theorem Sys2Proof.Laws.Encoding.vscat (x : Sys2Proof.Args) : Sys2Proof.Laws.Encoding.Statement (.vscat x) := by
  intro p h; cases h; rfl
theorem Sys2Proof.Laws.Encoding.pref (x : Sys2Proof.Args) : Sys2Proof.Laws.Encoding.Statement (.pref x) := by
  intro p h; cases h; rfl
theorem Sys2Proof.Laws.Encoding.clean (x : Sys2Proof.Args) : Sys2Proof.Laws.Encoding.Statement (.clean x) := by
  intro p h; cases h; rfl
theorem Sys2Proof.Laws.Encoding.inval (x : Sys2Proof.Args) : Sys2Proof.Laws.Encoding.Statement (.inval x) := by
  intro p h; cases h; rfl
theorem Sys2Proof.Laws.Encoding.ldw (x : Sys2Proof.Args) : Sys2Proof.Laws.Encoding.Statement (.ldw x) := by
  intro p h; cases h; rfl
theorem Sys2Proof.Laws.Encoding.ldc (x : Sys2Proof.Args) : Sys2Proof.Laws.Encoding.Statement (.ldc x) := by
  intro p h; cases h; rfl
theorem Sys2Proof.Laws.Encoding.stf (x : Sys2Proof.Args) : Sys2Proof.Laws.Encoding.Statement (.stf x) := by
  intro p h; cases h; rfl
theorem Sys2Proof.Laws.Encoding.ste (x : Sys2Proof.Args) : Sys2Proof.Laws.Encoding.Statement (.ste x) := by
  intro p h; cases h; rfl
theorem Sys2Proof.Laws.Encoding.feSet (x : Sys2Proof.Args) : Sys2Proof.Laws.Encoding.Statement (.feSet x) := by
  intro p h; cases h; rfl
theorem Sys2Proof.Laws.Encoding.feRd (x : Sys2Proof.Args) : Sys2Proof.Laws.Encoding.Statement (.feRd x) := by
  intro p h; cases h; rfl
theorem Sys2Proof.Laws.Encoding.atomAdd (x : Sys2Proof.Args) : Sys2Proof.Laws.Encoding.Statement (.atomAdd x) := by
  intro p h; cases h; rfl
theorem Sys2Proof.Laws.Encoding.atomMin (x : Sys2Proof.Args) : Sys2Proof.Laws.Encoding.Statement (.atomMin x) := by
  intro p h; cases h; rfl
theorem Sys2Proof.Laws.Encoding.atomMax (x : Sys2Proof.Args) : Sys2Proof.Laws.Encoding.Statement (.atomMax x) := by
  intro p h; cases h; rfl
theorem Sys2Proof.Laws.Encoding.atomAnd (x : Sys2Proof.Args) : Sys2Proof.Laws.Encoding.Statement (.atomAnd x) := by
  intro p h; cases h; rfl
theorem Sys2Proof.Laws.Encoding.atomOr (x : Sys2Proof.Args) : Sys2Proof.Laws.Encoding.Statement (.atomOr x) := by
  intro p h; cases h; rfl
theorem Sys2Proof.Laws.Encoding.atomXor (x : Sys2Proof.Args) : Sys2Proof.Laws.Encoding.Statement (.atomXor x) := by
  intro p h; cases h; rfl
theorem Sys2Proof.Laws.Encoding.atomSwap (x : Sys2Proof.Args) : Sys2Proof.Laws.Encoding.Statement (.atomSwap x) := by
  intro p h; cases h; rfl
theorem Sys2Proof.Laws.Encoding.atomCas (x : Sys2Proof.Args) : Sys2Proof.Laws.Encoding.Statement (.atomCas x) := by
  intro p h; cases h; rfl
theorem Sys2Proof.Laws.Encoding.redAdd (x : Sys2Proof.Args) : Sys2Proof.Laws.Encoding.Statement (.redAdd x) := by
  intro p h; cases h; rfl
theorem Sys2Proof.Laws.Encoding.redMin (x : Sys2Proof.Args) : Sys2Proof.Laws.Encoding.Statement (.redMin x) := by
  intro p h; cases h; rfl
theorem Sys2Proof.Laws.Encoding.redMax (x : Sys2Proof.Args) : Sys2Proof.Laws.Encoding.Statement (.redMax x) := by
  intro p h; cases h; rfl
theorem Sys2Proof.Laws.Encoding.redAnd (x : Sys2Proof.Args) : Sys2Proof.Laws.Encoding.Statement (.redAnd x) := by
  intro p h; cases h; rfl
theorem Sys2Proof.Laws.Encoding.redOr (x : Sys2Proof.Args) : Sys2Proof.Laws.Encoding.Statement (.redOr x) := by
  intro p h; cases h; rfl
theorem Sys2Proof.Laws.Encoding.redXor (x : Sys2Proof.Args) : Sys2Proof.Laws.Encoding.Statement (.redXor x) := by
  intro p h; cases h; rfl
theorem Sys2Proof.Laws.Encoding.fence (x : Sys2Proof.Args) : Sys2Proof.Laws.Encoding.Statement (.fence x) := by
  intro p h; cases h; rfl
theorem Sys2Proof.Laws.Encoding.vadd (x : Sys2Proof.Args) : Sys2Proof.Laws.Encoding.Statement (.vadd x) := by
  intro p h; cases h; rfl
theorem Sys2Proof.Laws.Encoding.vaddSat (x : Sys2Proof.Args) : Sys2Proof.Laws.Encoding.Statement (.vaddSat x) := by
  intro p h; cases h; rfl
theorem Sys2Proof.Laws.Encoding.vsub (x : Sys2Proof.Args) : Sys2Proof.Laws.Encoding.Statement (.vsub x) := by
  intro p h; cases h; rfl
theorem Sys2Proof.Laws.Encoding.vsubSat (x : Sys2Proof.Args) : Sys2Proof.Laws.Encoding.Statement (.vsubSat x) := by
  intro p h; cases h; rfl
theorem Sys2Proof.Laws.Encoding.vmul (x : Sys2Proof.Args) : Sys2Proof.Laws.Encoding.Statement (.vmul x) := by
  intro p h; cases h; rfl
theorem Sys2Proof.Laws.Encoding.vmulHi (x : Sys2Proof.Args) : Sys2Proof.Laws.Encoding.Statement (.vmulHi x) := by
  intro p h; cases h; rfl
theorem Sys2Proof.Laws.Encoding.vfma (x : Sys2Proof.Args) : Sys2Proof.Laws.Encoding.Statement (.vfma x) := by
  intro p h; cases h; rfl
theorem Sys2Proof.Laws.Encoding.vfnma (x : Sys2Proof.Args) : Sys2Proof.Laws.Encoding.Statement (.vfnma x) := by
  intro p h; cases h; rfl
theorem Sys2Proof.Laws.Encoding.vmin (x : Sys2Proof.Args) : Sys2Proof.Laws.Encoding.Statement (.vmin x) := by
  intro p h; cases h; rfl
theorem Sys2Proof.Laws.Encoding.vmax (x : Sys2Proof.Args) : Sys2Proof.Laws.Encoding.Statement (.vmax x) := by
  intro p h; cases h; rfl
theorem Sys2Proof.Laws.Encoding.vabs (x : Sys2Proof.Args) : Sys2Proof.Laws.Encoding.Statement (.vabs x) := by
  intro p h; cases h; rfl
theorem Sys2Proof.Laws.Encoding.vneg (x : Sys2Proof.Args) : Sys2Proof.Laws.Encoding.Statement (.vneg x) := by
  intro p h; cases h; rfl
theorem Sys2Proof.Laws.Encoding.vand (x : Sys2Proof.Args) : Sys2Proof.Laws.Encoding.Statement (.vand x) := by
  intro p h; cases h; rfl
theorem Sys2Proof.Laws.Encoding.vor (x : Sys2Proof.Args) : Sys2Proof.Laws.Encoding.Statement (.vor x) := by
  intro p h; cases h; rfl
theorem Sys2Proof.Laws.Encoding.vxor (x : Sys2Proof.Args) : Sys2Proof.Laws.Encoding.Statement (.vxor x) := by
  intro p h; cases h; rfl
theorem Sys2Proof.Laws.Encoding.vandn (x : Sys2Proof.Args) : Sys2Proof.Laws.Encoding.Statement (.vandn x) := by
  intro p h; cases h; rfl
theorem Sys2Proof.Laws.Encoding.vshl (x : Sys2Proof.Args) : Sys2Proof.Laws.Encoding.Statement (.vshl x) := by
  intro p h; cases h; rfl
theorem Sys2Proof.Laws.Encoding.vshr (x : Sys2Proof.Args) : Sys2Proof.Laws.Encoding.Statement (.vshr x) := by
  intro p h; cases h; rfl
theorem Sys2Proof.Laws.Encoding.vsra (x : Sys2Proof.Args) : Sys2Proof.Laws.Encoding.Statement (.vsra x) := by
  intro p h; cases h; rfl
theorem Sys2Proof.Laws.Encoding.vcmp (c : Sys2Proof.Cond) (x : Sys2Proof.Args) : Sys2Proof.Laws.Encoding.Statement (.vcmp c x) := by
  intro p h; cases c <;> cases h <;> rfl
theorem Sys2Proof.Laws.Encoding.vsel (x : Sys2Proof.Args) : Sys2Proof.Laws.Encoding.Statement (.vsel x) := by
  intro p h; cases h; rfl
theorem Sys2Proof.Laws.Encoding.vcvt (x : Sys2Proof.Args) : Sys2Proof.Laws.Encoding.Statement (.vcvt x) := by
  intro p h; cases h; rfl
theorem Sys2Proof.Laws.Encoding.vwid (k : Sys2Proof.Wid) (x : Sys2Proof.Args) : Sys2Proof.Laws.Encoding.Statement (.vwid k x) := by
  intro p h; cases k <;> cases h <;> rfl
theorem Sys2Proof.Laws.Encoding.vnar (k : Sys2Proof.Wid) (x : Sys2Proof.Args) : Sys2Proof.Laws.Encoding.Statement (.vnar k x) := by
  intro p h; cases k <;> cases h <;> rfl
theorem Sys2Proof.Laws.Encoding.vredAdd (x : Sys2Proof.Args) : Sys2Proof.Laws.Encoding.Statement (.vredAdd x) := by
  intro p h; cases h; rfl
theorem Sys2Proof.Laws.Encoding.vredMin (x : Sys2Proof.Args) : Sys2Proof.Laws.Encoding.Statement (.vredMin x) := by
  intro p h; cases h; rfl
theorem Sys2Proof.Laws.Encoding.vredMax (x : Sys2Proof.Args) : Sys2Proof.Laws.Encoding.Statement (.vredMax x) := by
  intro p h; cases h; rfl
theorem Sys2Proof.Laws.Encoding.vredAnd (x : Sys2Proof.Args) : Sys2Proof.Laws.Encoding.Statement (.vredAnd x) := by
  intro p h; cases h; rfl
theorem Sys2Proof.Laws.Encoding.vredOr (x : Sys2Proof.Args) : Sys2Proof.Laws.Encoding.Statement (.vredOr x) := by
  intro p h; cases h; rfl
theorem Sys2Proof.Laws.Encoding.vredXor (x : Sys2Proof.Args) : Sys2Proof.Laws.Encoding.Statement (.vredXor x) := by
  intro p h; cases h; rfl
theorem Sys2Proof.Laws.Encoding.vperm (x : Sys2Proof.Args) : Sys2Proof.Laws.Encoding.Statement (.vperm x) := by
  intro p h; cases h; rfl
theorem Sys2Proof.Laws.Encoding.vshuf (x : Sys2Proof.Args) : Sys2Proof.Laws.Encoding.Statement (.vshuf x) := by
  intro p h; cases h; rfl
theorem Sys2Proof.Laws.Encoding.vcompress (x : Sys2Proof.Args) : Sys2Proof.Laws.Encoding.Statement (.vcompress x) := by
  intro p h; cases h; rfl
theorem Sys2Proof.Laws.Encoding.vexpand (x : Sys2Proof.Args) : Sys2Proof.Laws.Encoding.Statement (.vexpand x) := by
  intro p h; cases h; rfl
theorem Sys2Proof.Laws.Encoding.vbcast (x : Sys2Proof.Args) : Sys2Proof.Laws.Encoding.Statement (.vbcast x) := by
  intro p h; cases h; rfl
theorem Sys2Proof.Laws.Encoding.vbmm8 (x : Sys2Proof.Args) : Sys2Proof.Laws.Encoding.Statement (.vbmm8 x) := by
  intro p h; cases h; rfl
theorem Sys2Proof.Laws.Encoding.vpdep (x : Sys2Proof.Args) : Sys2Proof.Laws.Encoding.Statement (.vpdep x) := by
  intro p h; cases h; rfl
theorem Sys2Proof.Laws.Encoding.vpext (x : Sys2Proof.Args) : Sys2Proof.Laws.Encoding.Statement (.vpext x) := by
  intro p h; cases h; rfl
theorem Sys2Proof.Laws.Encoding.vbperm (x : Sys2Proof.Args) : Sys2Proof.Laws.Encoding.Statement (.vbperm x) := by
  intro p h; cases h; rfl
theorem Sys2Proof.Laws.Encoding.vthz (x : Sys2Proof.Args) : Sys2Proof.Laws.Encoding.Statement (.vthz x) := by
  intro p h; cases h; rfl
theorem Sys2Proof.Laws.Encoding.vqblk (x : Sys2Proof.Args) : Sys2Proof.Laws.Encoding.Statement (.vqblk x) := by
  intro p h; cases h; rfl
theorem Sys2Proof.Laws.Encoding.vdqblk (x : Sys2Proof.Args) : Sys2Proof.Laws.Encoding.Statement (.vdqblk x) := by
  intro p h; cases h; rfl
theorem Sys2Proof.Laws.Encoding.vstp (x : Sys2Proof.Args) : Sys2Proof.Laws.Encoding.Statement (.vstp x) := by
  intro p h; cases h; rfl
theorem Sys2Proof.Laws.Encoding.vldp (x : Sys2Proof.Args) : Sys2Proof.Laws.Encoding.Statement (.vldp x) := by
  intro p h; cases h; rfl
theorem Sys2Proof.Laws.Encoding.vexp2 (x : Sys2Proof.Args) : Sys2Proof.Laws.Encoding.Statement (.vexp2 x) := by
  intro p h; cases h; rfl
theorem Sys2Proof.Laws.Encoding.vlog2 (x : Sys2Proof.Args) : Sys2Proof.Laws.Encoding.Statement (.vlog2 x) := by
  intro p h; cases h; rfl
theorem Sys2Proof.Laws.Encoding.vrcp (x : Sys2Proof.Args) : Sys2Proof.Laws.Encoding.Statement (.vrcp x) := by
  intro p h; cases h; rfl
theorem Sys2Proof.Laws.Encoding.vrsq (x : Sys2Proof.Args) : Sys2Proof.Laws.Encoding.Statement (.vrsq x) := by
  intro p h; cases h; rfl
theorem Sys2Proof.Laws.Encoding.vtanh (x : Sys2Proof.Args) : Sys2Proof.Laws.Encoding.Statement (.vtanh x) := by
  intro p h; cases h; rfl
theorem Sys2Proof.Laws.Encoding.vget (x : Sys2Proof.Args) : Sys2Proof.Laws.Encoding.Statement (.vget x) := by
  intro p h; cases h; rfl
theorem Sys2Proof.Laws.Encoding.vset (x : Sys2Proof.Args) : Sys2Proof.Laws.Encoding.Statement (.vset x) := by
  intro p h; cases h; rfl
theorem Sys2Proof.Laws.Encoding.mxmul (x : Sys2Proof.Args) : Sys2Proof.Laws.Encoding.Statement (.mxmul x) := by
  intro p h; cases h; rfl
theorem Sys2Proof.Laws.Encoding.mxrd (x : Sys2Proof.Args) : Sys2Proof.Laws.Encoding.Statement (.mxrd x) := by
  intro p h; cases h; rfl
theorem Sys2Proof.Laws.Encoding.mxwr (x : Sys2Proof.Args) : Sys2Proof.Laws.Encoding.Statement (.mxwr x) := by
  intro p h; cases h; rfl
theorem Sys2Proof.Laws.Encoding.mxst (x : Sys2Proof.Args) : Sys2Proof.Laws.Encoding.Statement (.mxst x) := by
  intro p h; cases h; rfl
theorem Sys2Proof.Laws.Encoding.mxwait (x : Sys2Proof.Args) : Sys2Proof.Laws.Encoding.Statement (.mxwait x) := by
  intro p h; cases h; rfl
theorem Sys2Proof.Laws.Encoding.engCopy (x : Sys2Proof.Args) : Sys2Proof.Laws.Encoding.Statement (.engCopy x) := by
  intro p h; cases h; rfl
theorem Sys2Proof.Laws.Encoding.engGath (x : Sys2Proof.Args) : Sys2Proof.Laws.Encoding.Statement (.engGath x) := by
  intro p h; cases h; rfl
theorem Sys2Proof.Laws.Encoding.engScat (x : Sys2Proof.Args) : Sys2Proof.Laws.Encoding.Statement (.engScat x) := by
  intro p h; cases h; rfl
theorem Sys2Proof.Laws.Encoding.engWin (x : Sys2Proof.Args) : Sys2Proof.Laws.Encoding.Statement (.engWin x) := by
  intro p h; cases h; rfl
theorem Sys2Proof.Laws.Encoding.engDec (x : Sys2Proof.Args) : Sys2Proof.Laws.Encoding.Statement (.engDec x) := by
  intro p h; cases h; rfl
theorem Sys2Proof.Laws.Encoding.engSeal (x : Sys2Proof.Args) : Sys2Proof.Laws.Encoding.Statement (.engSeal x) := by
  intro p h; cases h; rfl
theorem Sys2Proof.Laws.Encoding.engRing (x : Sys2Proof.Args) : Sys2Proof.Laws.Encoding.Statement (.engRing x) := by
  intro p h; cases h; rfl
theorem Sys2Proof.Laws.Encoding.engColl (x : Sys2Proof.Args) : Sys2Proof.Laws.Encoding.Statement (.engColl x) := by
  intro p h; cases h; rfl
theorem Sys2Proof.Laws.Encoding.engWait (x : Sys2Proof.Args) : Sys2Proof.Laws.Encoding.Statement (.engWait x) := by
  intro p h; cases h; rfl
theorem Sys2Proof.Laws.Encoding.engStat (x : Sys2Proof.Args) : Sys2Proof.Laws.Encoding.Statement (.engStat x) := by
  intro p h; cases h; rfl
theorem Sys2Proof.Laws.Encoding.engJobStart (core jid : Nat) : Sys2Proof.Laws.Encoding.Statement (.engJobStart core jid) := by
  intro p h; cases h
theorem Sys2Proof.Laws.Encoding.engWsWordWrite (core jid : Nat) : Sys2Proof.Laws.Encoding.Statement (.engWsWordWrite core jid) := by
  intro p h; cases h
theorem Sys2Proof.Laws.Encoding.engJobComplete (core jid : Nat) : Sys2Proof.Laws.Encoding.Statement (.engJobComplete core jid) := by
  intro p h; cases h
theorem Sys2Proof.Laws.Encoding.collStart (tenant tag : Nat) : Sys2Proof.Laws.Encoding.Statement (.collStart tenant tag) := by
  intro p h; cases h
theorem Sys2Proof.Laws.Encoding.mxTileStep (octet : Nat) : Sys2Proof.Laws.Encoding.Statement (.mxTileStep octet) := by
  intro p h; cases h
theorem Sys2Proof.Laws.Encoding.mxJobPark (core : Nat) : Sys2Proof.Laws.Encoding.Statement (.mxJobPark core) := by
  intro p h; cases h
theorem Sys2Proof.Laws.Encoding.atomHomeStep (home : Nat) : Sys2Proof.Laws.Encoding.Statement (.atomHomeStep home) := by
  intro p h; cases h
theorem Sys2Proof.Laws.Encoding.redHomeStep (core pa : Nat) : Sys2Proof.Laws.Encoding.Statement (.redHomeStep core pa) := by
  intro p h; cases h
theorem Sys2Proof.Laws.Encoding.remoteWsOp (msg : Nat) : Sys2Proof.Laws.Encoding.Statement (.remoteWsOp msg) := by
  intro p h; cases h
theorem Sys2Proof.Laws.Encoding.remoteWsCancel (msg : Nat) : Sys2Proof.Laws.Encoding.Statement (.remoteWsCancel msg) := by
  intro p h; cases h
theorem Sys2Proof.Laws.Encoding.staleNotice (die line : Nat) : Sys2Proof.Laws.Encoding.Statement (.staleNotice die line) := by
  intro p h; cases h
theorem Sys2Proof.Laws.Encoding.jigsawMerge (ctx rec : Nat) : Sys2Proof.Laws.Encoding.Statement (.jigsawMerge ctx rec) := by
  intro p h; cases h
theorem Sys2Proof.Laws.Encoding.launchStatusWrite (ctx : Nat) : Sys2Proof.Laws.Encoding.Statement (.launchStatusWrite ctx) := by
  intro p h; cases h
theorem Sys2Proof.Laws.Encoding.recordPickup (core slot : Nat) : Sys2Proof.Laws.Encoding.Statement (.recordPickup core slot) := by
  intro p h; cases h
theorem Sys2Proof.Laws.Encoding.schedDecision (node : Nat) : Sys2Proof.Laws.Encoding.Statement (.schedDecision node) := by
  intro p h; cases h
theorem Sys2Proof.Laws.Encoding.budgetExhausted (ctx : Nat) : Sys2Proof.Laws.Encoding.Statement (.budgetExhausted ctx) := by
  intro p h; cases h
theorem Sys2Proof.Laws.Encoding.stopForceSuspend (ctx : Nat) : Sys2Proof.Laws.Encoding.Statement (.stopForceSuspend ctx) := by
  intro p h; cases h
theorem Sys2Proof.Laws.Encoding.stopComplete (ctx : Nat) : Sys2Proof.Laws.Encoding.Statement (.stopComplete ctx) := by
  intro p h; cases h
theorem Sys2Proof.Laws.Encoding.queueWridxWrite (die queue : Nat) (value : BitVec 64) : Sys2Proof.Laws.Encoding.Statement (.queueWridxWrite die queue value) := by
  intro p h; cases h
theorem Sys2Proof.Laws.Encoding.qctlErrSkip (die queue : Nat) : Sys2Proof.Laws.Encoding.Statement (.qctlErrSkip die queue) := by
  intro p h; cases h
theorem Sys2Proof.Laws.Encoding.packetServe (die queue : Nat) : Sys2Proof.Laws.Encoding.Statement (.packetServe die queue) := by
  intro p h; cases h
theorem Sys2Proof.Laws.Encoding.noticePost (die : Nat) : Sys2Proof.Laws.Encoding.Statement (.noticePost die) := by
  intro p h; cases h
theorem Sys2Proof.Laws.Encoding.noticeTrap (die : Nat) : Sys2Proof.Laws.Encoding.Statement (.noticeTrap die) := by
  intro p h; cases h
theorem Sys2Proof.Laws.Encoding.fresolveRetry (die ctx rec : Nat) : Sys2Proof.Laws.Encoding.Statement (.fresolveRetry die ctx rec) := by
  intro p h; cases h
theorem Sys2Proof.Laws.Encoding.fresolveFail (die ctx rec : Nat) : Sys2Proof.Laws.Encoding.Statement (.fresolveFail die ctx rec) := by
  intro p h; cases h
theorem Sys2Proof.Laws.Encoding.ueDetected (site : Sys2Proof.UeSite) : Sys2Proof.Laws.Encoding.Statement (.ueDetected site) := by
  intro p h; cases h
theorem Sys2Proof.Laws.Encoding.drainComplete (ctx : Nat) : Sys2Proof.Laws.Encoding.Statement (.drainComplete ctx) := by
  intro p h; cases h
theorem Sys2Proof.Laws.Encoding.coreLogicError (core slot : Nat) : Sys2Proof.Laws.Encoding.Statement (.coreLogicError core slot) := by
  intro p h; cases h
theorem Sys2Proof.Laws.Encoding.stringSoftError (core : Nat) : Sys2Proof.Laws.Encoding.Statement (.stringSoftError core) := by
  intro p h; cases h
theorem Sys2Proof.Laws.Encoding.linkCrcReplay (link : Nat) : Sys2Proof.Laws.Encoding.Statement (.linkCrcReplay link) := by
  intro p h; cases h
theorem Sys2Proof.Laws.Encoding.dieLinkLost (a b : Nat) : Sys2Proof.Laws.Encoding.Statement (.dieLinkLost a b) := by
  intro p h; cases h
theorem Sys2Proof.Laws.Encoding.granuleFill (pa slot : Nat) (g512 anchor : Bool) : Sys2Proof.Laws.Encoding.Statement (.granuleFill pa slot g512 anchor) := by
  intro p h; cases h
theorem Sys2Proof.Laws.Encoding.granuleWriteback (pa : Nat) : Sys2Proof.Laws.Encoding.Statement (.granuleWriteback pa) := by
  intro p h; cases h
theorem Sys2Proof.Laws.Encoding.patrolScrub (pa : Nat) (uncorrectable : Bool) : Sys2Proof.Laws.Encoding.Statement (.patrolScrub pa uncorrectable) := by
  intro p h; cases h
theorem Sys2Proof.Laws.Encoding.channelRetrain (channel : Nat) : Sys2Proof.Laws.Encoding.Statement (.channelRetrain channel) := by
  intro p h; cases h
theorem Sys2Proof.Laws.Encoding.cxlLinkDown (die : Nat) : Sys2Proof.Laws.Encoding.Statement (.cxlLinkDown die) := by
  intro p h; cases h
theorem Sys2Proof.Laws.Encoding.hostCxlmemRead (fn pa : Nat) : Sys2Proof.Laws.Encoding.Statement (.hostCxlmemRead fn pa) := by
  intro p h; cases h
theorem Sys2Proof.Laws.Encoding.hostCxlmemWrite (fn pa : Nat) (value : BitVec 64) : Sys2Proof.Laws.Encoding.Statement (.hostCxlmemWrite fn pa value) := by
  intro p h; cases h
theorem Sys2Proof.Laws.Encoding.hostModuleDegrade (module : Nat) : Sys2Proof.Laws.Encoding.Statement (.hostModuleDegrade module) := by
  intro p h; cases h
theorem Sys2Proof.Laws.Encoding.tlbInvalRange (die ctx va : Nat) : Sys2Proof.Laws.Encoding.Statement (.tlbInvalRange die ctx va) := by
  intro p h; cases h
theorem Sys2Proof.Laws.Encoding.tlbInvalContext (die ctx : Nat) : Sys2Proof.Laws.Encoding.Statement (.tlbInvalContext die ctx) := by
  intro p h; cases h
theorem Sys2Proof.Laws.Encoding.tlbInvalAll (die : Nat) : Sys2Proof.Laws.Encoding.Statement (.tlbInvalAll die) := by
  intro p h; cases h
theorem Sys2Proof.Laws.Encoding.fwinRegWrite (die sc win reg : Nat) (value : BitVec 64) : Sys2Proof.Laws.Encoding.Statement (.fwinRegWrite die sc win reg value) := by
  intro p h; cases h
theorem Sys2Proof.Laws.Encoding.atctlWrite (target : Nat) (value : BitVec 64) : Sys2Proof.Laws.Encoding.Statement (.atctlWrite target value) := by
  intro p h; cases h
theorem Sys2Proof.Laws.Encoding.ksLoad : Sys2Proof.Laws.Encoding.Statement (.ksLoad) := by
  intro p h; cases h
theorem Sys2Proof.Laws.Encoding.ksClear : Sys2Proof.Laws.Encoding.Statement (.ksClear) := by
  intro p h; cases h
theorem Sys2Proof.Laws.Encoding.ksReseal : Sys2Proof.Laws.Encoding.Statement (.ksReseal) := by
  intro p h; cases h
theorem Sys2Proof.Laws.Encoding.ksRdataWrite (value : BitVec 128) : Sys2Proof.Laws.Encoding.Statement (.ksRdataWrite value) := by
  intro p h; cases h
theorem Sys2Proof.Laws.Encoding.ksTamper (value : BitVec 64) : Sys2Proof.Laws.Encoding.Statement (.ksTamper value) := by
  intro p h; cases h
theorem Sys2Proof.Laws.Encoding.klRetrain (port peer : Nat) (trained : Bool) : Sys2Proof.Laws.Encoding.Statement (.klRetrain port peer trained) := by
  intro p h; cases h
theorem Sys2Proof.Laws.Encoding.klPortDown (port : Nat) : Sys2Proof.Laws.Encoding.Statement (.klPortDown port) := by
  intro p h; cases h
theorem Sys2Proof.Laws.Encoding.bootStage (die : Nat) (good : Bool) : Sys2Proof.Laws.Encoding.Statement (.bootStage die good) := by
  intro p h; cases h
theorem Sys2Proof.Laws.Encoding.packageReset : Sys2Proof.Laws.Encoding.Statement (.packageReset) := by
  intro p h; cases h
theorem Sys2Proof.Laws.Encoding.powerThrottle (step : Nat) : Sys2Proof.Laws.Encoding.Statement (.powerThrottle step) := by
  intro p h; cases h
theorem Sys2Proof.Laws.Encoding.thermalThrottle (die step : Nat) : Sys2Proof.Laws.Encoding.Statement (.thermalThrottle die step) := by
  intro p h; cases h
theorem Sys2Proof.Laws.Encoding.thermalCritical (die : Nat) : Sys2Proof.Laws.Encoding.Statement (.thermalCritical die) := by
  intro p h; cases h
theorem Sys2Proof.Laws.Encoding.ctrlRegWrite (addr : Nat) (value : BitVec 64) : Sys2Proof.Laws.Encoding.Statement (.ctrlRegWrite addr value) := by
  intro p h; cases h
theorem Sys2Proof.Laws.Encoding.kitelinkIngressRequest (pkg : Nat) (req : Sys2Proof.IngressReq) : Sys2Proof.Laws.Encoding.Statement (.kitelinkIngressRequest pkg req) := by
  intro p h; cases h
end

