-- ==== Sys2Proof/Tests/Slice0.lean ====
section
/-! SUPPORT. Tests and witnesses: words of the spec and the instructions they decode to, ill-formed words for each check, values of the spec's tables, and for each statement a state and operands that meet its hypotheses. -/

open Sys2Proof Sys2Proof.Machine

namespace Sys2Proof.Tests

set_option Elab.async false

/-! ## Helpers -/

/-- A 128-bit word from its upper and lower halves. -/
def wordN (hi lo : Nat) : Nat := hi * 2 ^ 64 + lo

def gd (p1 : Fin 8 := 0) (neg1 : Bool := false) (p2 : Fin 8 := 0) (neg2 : Bool := false) (orr : Bool := false) : Guard := ⟨p1, neg1, p2, neg2, orr⟩

/-- Fields of a word, with everything not named 0. -/
def args (g : Guard := gd) (ety : Ety := .n4) (d a b c e : Opnd := .s 0) (imm : BitVec 48 := 0) (hint : BitVec 4 := 0)
    (ctl : Ctl := ⟨0, 0, false⟩) : Args := ⟨g, ety, d, a, b, c, e, imm, hint, ctl⟩

/-- A leaf of core 0 about to run the plain guarded word at the fetch address. -/
def S0 : State := State.reset.withFetchWord 128 0x4000

/-- Die control core 0 at supervisor level about to run `eret`. -/
def D0 : State := State.reset.withFetchWord 128 0x7E

/-- The leaf with s-register values. -/
def S (f : Leaf → Leaf) : State := S0.setLeaf (f S0.leaf)

/-- Does an action complete, with a result and a state that meet p? -/
def okB {α : Type} (r : EStateM.Result Halt State α) (p : α → State → Bool) : Bool :=
  match r with | .ok a t => p a t | .error _ _ => false

theorem ok_of_okB {α : Type} {r : EStateM.Result Halt State α} {p : α → State → Bool} (h : okB r p = true) :
    ∃ a t, r = .ok a t ∧ p a t = true := by
  cases r with
  | ok a t => exact ⟨a, t, rfl, h⟩
  | error e t => simp [okB] at h

/-- Does a step end in a next state that meets p? -/
def nextB (r : Host.Outcome State Fault Refusal) (p : State → Bool) : Bool :=
  match r with | .next t => p t | _ => false
/-- `cmp.gt.n32 p1, s1, 2`; `lea.n32.sh3 s3, s2, b0, 0`; `bfi.n32 s8, s9, 16, 16`; `cmp.eq.n32 p1, b0, 0`; `(p6 & p7) mov.n64 s8, q1`. -/
theorem test_decode_int : ∀ p ∈ ([
    (0x20000, 0xC0018100320C, .cmp .gt (args (ety := .n32) (d := .p 1) (a := .s 1) (b := .imm .sx) (imm := 0x2))),
    (0x300000000000000, 0xC0A8020300300B, .lea (args (ety := .n32) (d := .s 3) (a := .s 2) (b := .b 0) (c := .imm .sx) (imm := 0x30000000000))),
    (0x10100000, 0xC00908003088, .bfi (args (ety := .n32) (d := .s 8) (a := .s 9) (b := .imm .sx) (imm := 0x1010))),
    (0x0, 0xC0A88100300C, .cmp .eq (args (ety := .n32) (d := .p 1) (a := .b 0) (b := .imm .sx))),
    (0x0, 0x91083B400A, .mov (args (g := gd 6 false 7 false) (ety := .n64) (d := .s 8) (a := .q 1)))] : List (Nat × Nat × Instr)),
    decodeTableWord 128 (wordN p.1 p.2.1) = some p.2.2 := by decide +kernel

/-- `pwr p1, s4, s2`; `por p7, p4, p2`. -/
theorem test_decode_float_pred_control : ∀ p ∈ ([
    (0x0, 0x20481000096, .pwr (args (d := .p 1) (a := .s 4) (b := .s 2))),
    (0x0, 0x828487000095, .por (args (d := .p 7) (a := .p 4) (b := .p 2)))] : List (Nat × Nat × Instr)),
    decodeTableWord 128 (wordN p.1 p.2.1) = some p.2.2 := by decide +kernel

/-- `split 1`; `(p3) fit 0`; `prune.mag s9`; `abort 3`; `port.bytes s4, 2`; `vwaddr s6, s5, 0`; `capgive s7, 1`; `(p2) prune`; `walk 0`; `captake 0`. -/
theorem test_decode_box : ∀ p ∈ ([
    (0x10000, 0x20, .split (args (imm := 0x1))),
    (0x0, 0x18021, .fit (args (g := gd 3 false 0 false))),
    (0x0, 0x9000000A3, .pruneMag (args (a := .s 9))),
    (0x30000, 0x25, .abort (args (imm := 0x3))),
    (0x7200000000000000, 0x4000026, .port (args (d := .s 4) (imm := 0x720000000000))),
    (0x0, 0x506000027, .vwaddr (args (d := .s 6) (a := .s 5))),
    (0x100000000000000, 0x700000028, .capgive (args (a := .s 7) (imm := 0x10000000000))),
    (0x0, 0x10023, .prune (args (g := gd 2 false 0 false))),
    (0x0, 0x22, .walk (args)),
    (0x0, 0x29, .captake (args))] : List (Nat × Nat × Instr)),
    decodeTableWord 128 (wordN p.1 p.2.1) = some p.2.2 := by decide +kernel

/-- `st.s32 s4, 0, s1`; `stf.n32.rel.octet s5, 0, s7`; `ldw.n32.acq.octet s2, s6, 0`; `ld.s32 s3, s4, 0`; `(p3) vst.n64 s20, 0, v1`; `(p1) vld.bf16 v1, s5, 0`; `ldc.n32 s3, s2, 0, end=p2`; `(p2) ste.n32 s7, 0, s22`. -/
theorem test_decode_memory : ∀ p ∈ ([
    (0x0, 0x1C00400003831, .st (args (ety := .s32) (a := .s 4) (b := .imm .sx) (c := .s 1))),
    (0x2100000000000000, 0x7C0050000303B, .stf (args (ety := .n32) (a := .s 5) (b := .imm .sx) (c := .s 7) (imm := 0x210000000000))),
    (0x1100000000000000, 0xC00602003039, .ldw (args (ety := .n32) (d := .s 2) (a := .s 6) (b := .imm .sx) (imm := 0x110000000000))),
    (0x0, 0xC00403003830, .ld (args (ety := .s32) (d := .s 3) (a := .s 4) (b := .imm .sx))),
    (0x0, 0x41C0140001C033, .vst (args (g := gd 3 false 0 false) (ety := .n64) (a := .s 20) (b := .imm .sx) (c := .v 1))),
    (0x0, 0xC0054100E832, .vld (args (g := gd 1 false 0 false) (ety := .bf16) (d := .v 1) (a := .s 5) (b := .imm .sx))),
    (0x0, 0x82C0020300303A, .ldc (args (ety := .n32) (d := .s 3) (a := .s 2) (b := .imm .sx) (c := .p 2))),
    (0x0, 0x16C0070001303C, .ste (args (g := gd 2 false 0 false) (ety := .n32) (a := .s 7) (b := .imm .sx) (c := .s 22)))] : List (Nat × Nat × Instr)),
    decodeTableWord 128 (wordN p.1 p.2.1) = some p.2.2 := by decide +kernel

/-- `fence.acq.all.pkg`. -/
theorem test_decode_fence : ∀ p ∈ ([
    (0x1B00000000000000, 0x42, .fence (args (imm := 0x1B0000000000)))] : List (Nat × Nat × Instr)),
    decodeTableWord 128 (wordN p.1 p.2.1) = some p.2.2 := by decide +kernel

/-- `vfma.bf16.rdn v1, v2, v3, v4`; `vcmp.lt.s16 p2, v4, 0`; `vcvt.s32.from_f32.rtz v4, v5`; `vwid.w4.s32.from_s8 v8, v3`; `vbmm8.n64 v2, v3, v4`; `vthz.s8.th3 v1, v2, s5`; `vstp.s8 s3, 0, v6`; `vexp2.f32 v5, v6`; `vqblk.s8.from_bf16 v6, v1, v7`. -/
theorem test_decode_vector : ∀ p ∈ ([
    (0x300000000000000, 0x44434241006853, .vfma (args (ety := .bf16) (d := .v 1) (a := .v 2) (b := .v 3) (c := .v 4) (imm := 0x30000000000))),
    (0x0, 0xC04482002958, .vcmp .lt (args (ety := .s16) (d := .p 2) (a := .v 4) (b := .imm .sx))),
    (0xE100000000000000, 0x454400385A, .vcvt (args (ety := .s32) (d := .v 4) (a := .v 5) (imm := 0xE10000000000))),
    (0x3000000000000000, 0x43480038DB, .vwid .w4 (args (ety := .s32) (d := .v 8) (a := .v 3) (imm := 0x300000000000))),
    (0x0, 0x444342004063, .vbmm8 (args (ety := .n64) (d := .v 2) (a := .v 3) (b := .v 4))),
    (0x3000000000000000, 0x5004241001867, .vthz (args (ety := .s8) (d := .v 1) (a := .v 2) (c := .s 5) (imm := 0x300000000000))),
    (0x0, 0x46C0030000186A, .vstp (args (ety := .s8) (a := .s 3) (b := .imm .sx) (c := .v 6))),
    (0x0, 0x464500706C, .vexp2 (args (ety := .f32) (d := .v 5) (a := .v 6))),
    (0xD000000000000000, 0x47004146001868, .vqblk (args (ety := .s8) (d := .v 6) (a := .v 1) (c := .v 7) (imm := 0xD00000000000)))] : List (Nat × Nat × Instr)),
    decodeTableWord 128 (wordN p.1 p.2.1) = some p.2.2 := by decide +kernel

/-- `mxmul.na8.nw8.init a0, s4, s5, s6`; `mxrd.f32 v3, a1, 5`; `mxwr.f32 a1, v3, s2`; `mxst.bf16 s3, 256, a0, s7`; `mxwait`. -/
theorem test_decode_matrix : ∀ p ∈ ([
    (0x400000000770000, 0x60504A0000070, .mxmul (args (d := .a 0) (a := .s 4) (b := .s 5) (c := .s 6) (imm := 0x40000000077))),
    (0x50000, 0xC0A143007071, .mxrd (args (ety := .f32) (d := .v 3) (a := .a 1) (b := .imm .sx) (imm := 0x5))),
    (0x0, 0x243A1007072, .mxwr (args (ety := .f32) (d := .a 1) (a := .v 3) (b := .s 2))),
    (0x1000000, 0x7A0C00300006873, .mxst (args (ety := .bf16) (a := .s 3) (b := .imm .sx) (c := .a 0) (e := .s 7) (imm := 0x100))),
    (0x0, 0x74, .mxwait (args))] : List (Nat × Nat × Instr)),
    decodeTableWord 128 (wordN p.1 p.2.1) = some p.2.2 := by decide +kernel

/-- `eng.copy q0, s10, s0`; `eng.dec s7, s3, 0x200`; `eng.wait s5, 0`; `eng.stat s6, s9`; `eng.win s13, s20, s12`; `(p1) eng.ring s11, s10, s0`; `eng.seal s4, s3, s0`. -/
theorem test_decode_engine : ∀ p ∈ ([
    (0x0, 0xA90000078, .engCopy (args (d := .q 0) (a := .s 10))),
    (0x2000000, 0xC00307000278, .engDec (args (d := .s 7) (a := .s 3) (b := .imm .sx) (imm := 0x200))),
    (0x0, 0xC005000478, .engWait (args (d := .s 5) (a := .imm .sx))),
    (0x0, 0x9060004F8, .engStat (args (d := .s 6) (a := .s 9))),
    (0x0, 0xC140D0001F8, .engWin (args (d := .s 13) (a := .s 20) (b := .s 12))),
    (0x0, 0xA0B008378, .engRing (args (g := gd 1 false 0 false) (d := .s 11) (a := .s 10))),
    (0x0, 0x3040002F8, .engSeal (args (d := .s 4) (a := .s 3)))] : List (Nat × Nat × Instr)),
    decodeTableWord 128 (wordN p.1 p.2.1) = some p.2.2 := by decide +kernel

/-- `sliceset s2, s10, s11, s12`; `ctxstart s3, s10`; `(p5) trap 1`. -/
theorem test_decode_system : ∀ p ∈ ([
    (0x0, 0xC0B0A020003FF, .sliceset (args (d := .s 2) (a := .s 10) (b := .s 11) (c := .s 12))),
    (0x0, 0xA030000FF, .ctxstart (args (d := .s 3) (a := .s 10))),
    (0x10000, 0x2807D, .trap (args (g := gd 5 false 0 false) (imm := 0x1)))] : List (Nat × Nat × Instr)),
    decodeTableWord 128 (wordN p.1 p.2.1) = some p.2.2 := by decide +kernel

/-- Words of the worked encodings of files 03, 04 and 06 for the families above that have none there: `fcvt.to.s32.rtz s4, s5`; `(p2) br +3`; `csrrd s3, CYCLE`; `ctxstop s2, s9`; `atom.cas.n64.rel.acq.octet`; and a plain word with its guard on p0. -/
theorem test_decode_others : ∀ p ∈ ([
    (0x0100000000000000, 0x0000000504003813, .fcvtTo (args (ety := .s32) (d := .s 4) (a := .s 5) (imm := 0x010000000000))),
    (0x30000, 0x10017, .br (args (g := gd 2) (imm := 3))),
    (0x180000, 0x300001B, .csrrd (args (d := .s 3) (imm := 0x18))),
    (0, 0x000000090200007F, .ctxstop (args (d := .s 2) (a := .s 9))),
    (0x3300000000000000, 0x0403C002010043C0, .atomCas (args (ety := .n64) (d := .s 1) (a := .s 2) (b := .imm .sx) (c := .s 3) (e := .s 4) (imm := 0x330000000000))),
    (0, 0x4000, .add (args (ety := .n64)))] : List (Nat × Nat × Instr)),
    decodeTableWord 128 (wordN p.1 p.2.1) = some p.2.2 := by decide +kernel

/-- The 16 bytes of `(p2) br +3`, in memory order: two little-endian quads, the low one first (R87). -/
theorem test_decode_bytes : decodeBytes false false ([0x17, 0, 1, 0, 0, 0, 0, 0, 0, 0, 3, 0, 0, 0, 0, 0].map (BitVec.ofNat 8))
    = some (.ok (.br (args (g := gd 2) (imm := 3)))) := by rfl

/-- The cause with which a user word of a compute core fails the checks of R107. -/
def refusedWith (hi lo : Nat) : Option Cause :=
  match decode false false (BitVec.ofNat 128 (wordN hi lo)) with
  | .error c => some c
  | .ok _ => none

/-- One ill-formed word for each check of R107: OP 0x0D unassigned; SUB 6 of OP 0x04; a privileged OP in user code; CTL[79:78] not 0; ETY 0 of a scalar add; a vector register as A of a scalar add; a vector register number 32; vwid.w2 to an odd vD; a shift count of 64 for n64; a branch of 0 words; CSR 0x005; a write of CYCLE. -/
theorem test_ill_formed_words : ∀ p ∈ ([
    (0, 0x000D, .opUndef), (0, 0x4304, .subUndef), (0, 0x7E, .privInsn), (0x8000, 0x4000, .rsvdField), (0, 0x0000, .etyUndef),
    (0, 0x4000 + 0x41 * 2 ^ 32, .operandClass),
    (0, 0x50 + 0x7000 + 0x41 * 2 ^ 24 + 0x6042 * 2 ^ 32, .operandIndex),
    (0x2000000000000000, 0x5B + 0x2000 + 0x41 * 2 ^ 24 + 0x42 * 2 ^ 32, .vregAlign),
    (64 * 2 ^ 16, 0x05 + 0x4000 + 0xC0 * 2 ^ 40, .immRange), (0, 0x17, .backBranch),
    (5 * 2 ^ 16, 0x1B, .csrUndef), (0x18 * 2 ^ 16, 0x1B + 0x80, .csrRo)] : List (Nat × Nat × Cause)),
    refusedWith p.1 p.2.1 = some p.2.2 := by decide +kernel

/-- The matrix instructions on a string core have no unit to run on (R13). -/
theorem test_no_matrix : (match decode false true (BitVec.ofNat 128 0x74) with | .error c => some c | .ok _ => none) = some .noMatrix := by decide +kernel

/-- Instructions that the well-formedness check refuses: a compare of integers as unordered, a reserved hint, an element type, an operand class, a register group, an immediate, a branch of 0 words, a CSR, an event on a unit the package lacks. -/
theorem test_ill_formed_instructions : ∀ i ∈ [
    Instr.cmp .unord (args (ety := .n64) (d := .p 1)), .add (args (ety := .n64) (hint := 1)), .mxwait (args (imm := 1)), .add args,
    .ld (args (ety := .n4) (b := .imm .sx)), .add (args (ety := .n64) (d := .p 1)), .engWait (args (d := .s 0) (a := .s 1)),
    .vwid .w2 (args (ety := .n8) (d := .v 1) (a := .v 2)), .vwid .w4 (args (ety := .n64) (d := .v 4) (a := .v 3)),
    .shl (args (ety := .n8) (b := .imm .zx) (imm := 8)), .br args, .csrrd (args (imm := 0x15)), .csrwr (args (imm := 0x10)),
    .engCopy (args (d := .s 1) (imm := 0x010000000000)), .mxTileStep 64, .schedDecision 0, .bootStage 4 true, .powerThrottle 7],
    wellFormed i = false := by decide +kernel

/-- Instructions that it accepts. -/
theorem test_well_formed_instructions : ∀ i ∈ [
    Instr.add (args (ety := .n64) (d := .s 1) (a := .s 2) (b := .b 3)), .shl (args (ety := .n8) (b := .imm .zx) (imm := 7)),
    .cmp .ge (args (ety := .s8) (d := .p 7)), .vwid .w4 (args (ety := .n16) (d := .v 28) (a := .v 31)), .br (args (imm := -1)),
    .csrwr (args (d := .s 0) (a := .s 1) (imm := 0x001)), .mxTileStep 63, .schedDecision 127, .bootStage 3 true, .packageReset],
    wellFormed i = true := by decide +kernel

/-- Encoding gives the word back, and decoding the encoding the instruction. -/
theorem test_encode : encode (.br (args (g := gd 2) (imm := 3))) = some (BitVec.ofNat 128 (wordN 0x30000 0x10017)) := by decide +kernel


/-! ## One instruction on a small state -/

/-- A leaf with s-registers set, and vector registers given as numbers. -/
def leafWith (ss : List (Fin 64 × Nat)) (vs : List (Fin 32 × Nat)) (L : Leaf) : Leaf :=
  let L := ss.foldl (fun L e => L.writeS e.1 (BitVec.ofNat 64 e.2) false) L
  { L with v := vs.foldl (fun v e => v.set e.1.val (BitVec.ofNat 4096 e.2) e.1.isLt) L.v }

/-- Elements of width w packed low first. -/
def packed (w : Nat) (xs : List Nat) : Nat := xs.foldr (fun x n => x + 2 ^ w * n) 0

/-- One instruction on the leaf of S0 with registers set: what its registers are afterwards meets p. -/
def runs (i : Instr) (ss : List (Fin 64 × Nat)) (vs : List (Fin 32 × Nat)) (p : Leaf → Bool) : Bool :=
  nextB (exec i (S (leafWith ss vs))) fun t => p t.leaf

/-- s3 and the flags after a scalar instruction on s1, s2 whose destination is s3. -/
def s3After (i : Instr) (a b : Nat) (v : Nat) (fl : Flags) : Bool :=
  runs i [(1, a), (2, b)] [] fun L => L.readS 3 = BitVec.ofNat 64 v && L.flags = fl && L.pc = 0x10010

/-- s3 := s1 op s2 of a type. -/
def r3 (t : Ety) (imm : BitVec 48 := 0) : Args := args (ety := t) (d := .s 3) (a := .s 1) (b := .s 2) (imm := imm)

/-! ### Scalar integers: Table 4-3 -/

theorem test_div_most_negative : s3After (.div (r3 .s32)) 0xFFFFFFFF80000000 (2 ^ 64 - 1) 0xFFFFFFFF80000000 flagOF = true := by decide +kernel
theorem test_div_by_zero : s3After (.div (r3 .n32)) 0x80000000 0 0xFFFFFFFF flagDZ = true := by decide +kernel
theorem test_rem_sign : s3After (.rem (r3 .s64)) (2 ^ 64 - 7) 2 (2 ^ 64 - 1) 0 = true := by decide +kernel
theorem test_rem_by_zero : s3After (.rem (r3 .s8)) 0x80 0 0xFFFFFFFFFFFFFF80 flagDZ = true := by decide +kernel
theorem test_mulHi : s3After (.mulHi (r3 .s8)) 0x80 0x80 0x40 0 = true := by decide +kernel
theorem test_add_wraps : s3After (.add (r3 .s8)) 0x17F 1 0xFFFFFFFFFFFFFF80 0 = true := by decide +kernel
theorem test_addSat : s3After (.addSat (r3 .n8)) 0xFF 1 0xFF flagSAT = true := by decide +kernel
theorem test_subSat_natural : s3After (.subSat (r3 .n8)) 1 2 0 flagSAT = true := by decide +kernel
theorem test_sra_past_width : s3After (.sra (r3 .s16)) 0x8000 40 (2 ^ 64 - 1) 0 = true := by decide +kernel
theorem test_clz_of_zero : s3After (.clz (r3 .n16)) 0x10000 0 16 0 = true := by decide +kernel
/-- POS 28 and WID 8 of 0x9000_0000 as s32: bits [35:28] of the sign-extended operand are 0xF9. -/
theorem test_bfx_past_width : s3After (.bfx (r3 .s32)) 0x90000000 (28 + 8 * 256) 0xFFFFFFFFFFFFFFF9 0 = true := by decide +kernel
theorem test_sel_p0 : s3After (.sel (args (ety := .n64) (d := .s 3) (a := .p 0) (b := .s 1) (c := .s 2))) 5 6 5 0 = true := by decide +kernel
/-- An immediate is sign-extended from its 48 bits (R96). -/
theorem test_sub_immediate : s3After (.sub (args (ety := .n64) (d := .s 3) (a := .s 1) (b := .imm .sx) (imm := -1))) 5 0 6 0 = true := by decide +kernel
theorem test_cmp_signed : runs (.cmp .lt (args (ety := .s8) (d := .p 1) (a := .s 1) (b := .s 2))) [(1, 0x80), (2, 0x7F)] [] (fun L => L.readP 1 = 1#1024) = true := by decide +kernel
/-- `mov` from a reply queue with nothing reserved traps Q_UNDERRUN: the leaf leaves its slot (R42). -/
theorem test_mov_underrun : nextB (exec (.mov (args (ety := .n64) (d := .s 3) (a := .q 5))) S0) (fun t => (t.leafAt 0 0).mode = .idle) = true := by decide +kernel

/-! ### Scalar floats: the examples of file 04 -/

theorem test_fcvtTo_rtz : s3After (.fcvtTo (r3 .s32 0x010000000000)) 0xC2F6E666 0 0xFFFFFFFFFFFFFF85 flagNX = true := by decide +kernel
theorem test_fcvtTo_clamps : s3After (.fcvtTo (r3 .s32 0x010000000000)) 0x4F000000 0 0x7FFFFFFF flagSAT = true := by decide +kernel
theorem test_fadd_overflow : s3After (.fadd (r3 .f32)) 0x7F7FFFFF 0x7F7FFFFF 0x7F800000 0x14 = true := by decide +kernel
/-- 0 times an infinity is invalid though C is a quiet NaN (R126). -/
theorem test_ffma_invalid : runs (.ffma (args (ety := .f32) (d := .s 3) (a := .s 1) (b := .s 2) (c := .s 4))) [(1, 0), (2, 0x7F800000), (4, 0x7FC00000)] []
    (fun L => L.readS 3 = 0x7FC00000 && L.flags = flagIV) = true := by decide +kernel
theorem test_fcmp_unordered : runs (.fcmp .ne (args (ety := .f32) (d := .p 1) (a := .s 1) (b := .s 2))) [(1, 0x7FC00000), (2, 0)] []
    (fun L => L.readP 1 = 1#1024 && L.flags = 0) = true := by decide +kernel
theorem test_fcmp_order_invalid : runs (.fcmp .lt (args (ety := .f32) (d := .p 1) (a := .s 1) (b := .s 2))) [(1, 0x7FC00000), (2, 0)] []
    (fun L => L.readP 1 = 0#1024 && L.flags = flagIV) = true := by decide +kernel
/-- Table 4-6: with the overflow flag enabled and raised, `tfence` traps; with only IV enabled it does nothing. -/
theorem test_tfence_traps : nextB (exec (.tfence args) (S fun L => { L with flags := 0x14, trapEn := 0x04 })) (fun t => (t.leafAt 0 0).mode = .idle) = true := by decide +kernel
theorem test_tfence_passes : nextB (exec (.tfence args) (S fun L => { L with flags := 0x14, trapEn := 0x01 }))
    (fun t => t.leaf.pc = 0x10010 && t.leaf.flags = 0x14) = true := by decide +kernel

/-! ### Predicates, control, CSRs -/

theorem test_pwr_prd : runs (.pwr (args (d := .p 1) (a := .s 1) (b := .imm .zx) (imm := 15))) [(1, 0xA5)] []
    (fun L => L.readP 1 = 0xA5#1024 <<< 960) = true := by decide +kernel
theorem test_call_pushes : runs (.call (args (imm := 3))) [] [] (fun L => L.pc = 0x10030 && L.calls = [0x10010]) = true := by decide +kernel
/-- A WRR weight of 0 becomes 1 (Table 1-10). -/
theorem test_csrwr_wrr : runs (.csrwr (args (d := .s 3) (a := .s 1) (imm := 8))) [(1, 0x10)] [] (fun L => L.wrr = 1 && L.readS 3 = 1) = true := by decide +kernel
/-- `eret` sets the PC to SV_EPC and the level to PREV_SV (R140). -/
theorem test_eret : nextB (exec (.eret args) (D0.setDcc 0 { (D0.die 0).dcc with epc := 0x5550 }))
    (fun t => t.leaf.pc = 0x5550 && !(t.die 0).dcc.sv) = true := by decide +kernel

/-! ### Vectors: Tables 8-8, 8-10, 8-11, 8-12 -/

/-- v3 := v1 op v2 of a type. -/
def v3 (t : Ety) (imm : BitVec 48 := 0) : Args := args (ety := t) (d := .v 3) (a := .v 1) (b := .v 2) (imm := imm)

/-- The first elements of v3 and the flags after an instruction on v1, v2. -/
def v3After (i : Instr) (w : Nat) (a b r : List Nat) (fl : Flags) : Bool :=
  runs i [] [(1, packed w a), (2, packed w b)] fun L => (List.range r.length).all (fun k => elem w k (L.v[(3 : Fin 32)]).toNat = r.getD k 0) && L.flags = fl

theorem test_vred_tree : nextB (exec (.vredAdd (args (g := gd 1) (ety := .f32) (d := .s 4) (a := .v 1)))
    (S fun L => (leafWith [] [(1, packed 32 (0x3F800000 :: List.replicate 127 0x33800000))] L).writeP 1 0xF 0))
    (fun t => t.leaf.readS 4 = 0x3F800001 && t.leaf.flags = flagNX) = true := by decide +kernel
/-- With every lane inactive the sum of a float type is −0.0. -/
theorem test_vred_inactive : nextB (exec (.vredAdd (args (g := gd 1) (ety := .bf16) (d := .s 4) (a := .v 1))) S0)
    (fun t => t.leaf.readS 4 = 0x80000000) = true := by decide +kernel
theorem test_vqblk : runs (.vqblk (args (ety := .s8) (d := .v 6) (a := .v 1) (c := .v 7) (imm := 0xE00000000000))) []
    [(1, packed 32 [0x3F800000, 0xBF400000, 0x3DCCCCCD])]
    (fun L => (L.v[(6 : Fin 32)]).toNat = 0x06D040 && (L.v[(7 : Fin 32)]).toNat = 0x79 && L.flags = 0) = true := by decide +kernel
theorem test_vdqblk : runs (.vdqblk (args (ety := .f32) (d := .v 8) (a := .v 6) (b := .v 7) (imm := 0x300000000000))) []
    [(6, 0x06D040), (7, 0x79)]
    (fun L => (L.v[(8 : Fin 32)]).toNat = packed 32 [0x3F800000, 0xBF400000, 0x3DC00000] && L.flags = 0) = true := by decide +kernel
theorem test_vsra_past_width : v3After (.vsra (v3 .s8)) 8 [0x80, 0x7F] [200, 200] [0xFF, 0] 0 = true := by decide +kernel
theorem test_vsub_wraps : v3After (.vsub (v3 .n4)) 4 [0, 9] [1, 2] [15, 7, 0] 0 = true := by decide +kernel
theorem test_vadd_f16 : v3After (.vadd (v3 .f16)) 16 [0x3C00, 0x7BFF] [0x3C00, 0x7BFF] [0x4000, 0x7C00] 0x14 = true := by decide +kernel
theorem test_vget_modulo : runs (.vget (args (ety := .s8) (d := .s 1) (a := .v 2) (b := .s 3))) [(3, 600)] [(2, 0x85 * 2 ^ (88 * 8))]
    (fun L => L.readS 1 = 0xFFFFFFFFFFFFFF85) = true := by decide +kernel
theorem test_vthz_negative_threshold : nextB (exec (.vthz (args (ety := .s8) (d := .v 1) (a := .v 2) (c := .s 5) (imm := 0x900000000000)))
    (S fun L => leafWith [(5, 7)] [(2, 0x0003)] { L with thresh := L.thresh.set 9 (-1) }))
    (fun t => t.leaf.readS 5 = 0 && (t.leaf.v[(1 : Fin 32)]).toNat = 3) = true := by decide +kernel
theorem test_vexp2_overflow : v3After (.vexp2 (v3 .f16)) 16 [0x4C00, 0x8000] [] [0x7C00, 0x3C00] 0x14 = true := by decide +kernel
theorem test_vlog2_special : v3After (.vlog2 (v3 .f32)) 32 [0x41000000, 0, 0xBF800000] [] [0x40400000, 0xFF800000, 0x7FC00000] (flagDZ ||| flagIV) = true := by decide +kernel
theorem test_vrcp_zero : v3After (.vrcp (v3 .f32)) 32 (0x80000000 :: List.replicate 127 0x40000000) [] [0xFF800000, 0x3F000000] flagDZ = true := by decide +kernel
theorem test_vrsq_exact : v3After (.vrsq (v3 .f32)) 32 (List.replicate 128 0x40800000) [] [0x3F000000] 0 = true := by decide +kernel
theorem test_vtanh_infinity : v3After (.vtanh (v3 .f16)) 16 (List.replicate 256 0xFC00) [] [0xBC00] 0 = true := by decide +kernel

/-! ### Splits: Table 1-2 -/

theorem test_canonical_midpoints : canonicalMid 3 23 4 = 19 ∧ canonicalMid 3 22 4 = 19 ∧ canonicalMid 3 11 4 = 7 ∧ canonicalMid 3 15 4 = 11 := by decide +kernel

/-! ### The codebook: the examples of R73 -/

theorem test_default_entry : defaultEntry 0x35 = 0x0612 := by decide +kernel
theorem test_codebook_stage : codebookStage defaultEntry 0x3523 = [-5, 1, 3, 1, -5, 3, 1, 1] := by decide +kernel


/-! ## A state with a box, data and services -/

/-- An input port over 4 KiB at 0x20000, and a view over 512 bytes of space at 0x40000. -/
def port0 : Port := { kind := 0, op := 0, ety := 6, esize := 4, axmask := 1, bind := 0, base := 0x20000, bytes := 0x1000, str := Vector.replicate 4 0 }
def port1 : Port := { port0 with kind := 2, op := 1, base := 0x40000, bytes := 0x200 }

/-- A rule of rank 1 with grain 4, 32 KiB of scratch and two ports. -/
def rule0 : Rule :=
  { entry := 0, join := none, grain := Vector.replicate 4 4, rank := 1, red := some 0, replay := true, cohort := false, onString := false
    scratch := 0x8000, feat := 1, budget := 0, ports := [port0, port1] }

def launch0 : Launch :=
  { die := 0, queue := 0, seq := 0, sig := 0, rel := 0, text := 0x10000, rules := [rule0], rootLo := Vector.replicate 4 0
    rootHi := Vector.replicate 4 16, abort := none, fail := none, ended := false }

/-- The box [3, 23) of Table 1-2, running. -/
def rec0 : Rec :=
  { Rec.fresh (Vector.replicate 4 3) (Vector.replicate 4 23) 0 0 0 1 false true 0 with st := RecSt.running }

/-- The granule of an address whole in the L2. -/
def granule (a : Nat) (t : Tbl L2Line) : Tbl L2Line := (List.range 32).foldl (fun t i => tset t (a / 128 + i) presentLine) t

/-- Context 1 runs it with a pool of eight records; 16 KiB of the page at PA 0x10000 is also data at VA 0x20000, in a region that context 1 holds. -/
def B0 : State :=
  let x := S0.ctx 1
  let s := S0.setCtx 1 { x with launch := some launch0, recs := [(0, rec0)], desc := { x.desc with poolN := 8, slot := 0 } }
  { s with
    mem := writeBytes (writeBytes (writeBytes s.mem (fetchTab + 16) (toBytes 8 0x800000018000)) 0x10100 (toBytes 8 0x1122334455667788)) 0x12080 (toBytes 1 1)
    l2 := granule 0x10000 (granule 0x12000 s.l2)
    atab := [tgtString 0 0x10, tgtString 0 0x12, tgtL2 0 0x11].foldl (fun t k => tset t (k * 64) admitAll) s.atab
    tlb := tset s.tlb 0 (tset (tget [] s.tlb 0) (tlbKey 1 0x20000) ⟨BitVec.ofNat 64 (2 ^ 52 + 0x10000 + 0x1B), 3⟩) }

/-- The leaf of B0 with registers set. -/
def B (ss : List (Fin 64 × Nat)) (vs : List (Fin 32 × Nat) := []) : State := B0.setLeaf (leafWith ss vs B0.leaf)

/-- Addresses of the leaf's scratchpad (local alias) and of its data. -/
def scrA : Nat := 0xFFFE00000000
def datA : Nat := 0x20100

/-- Access with A in s1, B an immediate 0. -/
def mem1 (t : Ety) (d c : Opnd := .s 0) (e : Opnd := .s 0) (imm : BitVec 48 := 0) : Args := args (ety := t) (d := d) (a := .s 1) (b := .imm .sx) (c := c) (e := e) (imm := imm)

/-! ## Witnesses: a state and operands that meet the hypotheses of each statement -/

/-- Of a leaf: its word decodes, or is refused. -/
theorem witness_StepRunsTheDecodedInstruction : S0.on ∧ S0.turns = [] ∧ (S0.passTime 1).nextAgent = .leaf 0 0 ∧ (S0.passTime 1).canIssue (.leaf 0 0) = true
   ∧ okB (fetchWord { S0.passTime 1 with cur := .leaf 0 0, lastSlot := tset (S0.passTime 1).lastSlot 0 0 }) (fun w t => (decode t.priv t.noMatrix w).toOption.isSome) = true
   ∧ okB (fetchWord ((State.reset.withFetchWord 128 0x17).passTime 1)) (fun w t => !(decode t.priv t.noMatrix w).toOption.isSome) = true := by decide +kernel
/-- Of a control core, with no notice. -/
theorem witness_StepRunsTheDecodedInstruction_dcc : D0.on ∧ D0.turns = [] ∧ (D0.passTime 1).nextAgent = .dcc 0 ∧ (D0.passTime 1).canIssue (.dcc 0) = true
    ∧ ((D0.passTime 1).die 0).noteReady = false
    ∧ okB (fetchWord { D0.passTime 1 with cur := .dcc 0 }) (fun w t => (decode t.priv t.noMatrix w).toOption.isSome) = true := by decide +kernel
theorem witness_DecodeOfEncode : ∃ i w, WellFormed i ∧ encode i = some w :=
  ⟨.add (args (ety := .n64)), 0x4000, by decide +kernel, by decide +kernel⟩
theorem witness_EncodeOfDecode : ∃ i, decode false false 0x4000 = .ok i := ⟨.add (args (ety := .n64)), rfl⟩
theorem witness_StepKeepsMemoriesCanonical : S0.memInv ∧ nextB (step S0) (fun _ => true) = true := by decide +kernel
theorem witness_WriteChangesItsBytesOnly : Memory.wf [(5, 1), (2 ^ 52, 7)] ∧ readByte (writeBytes [(5, 1), (2 ^ 52, 7)] 5 [0]) 5 = 0 := by decide +kernel
theorem witness_FalseGuardOnlyAdvances : S0.on ∧ S0.leaf.active (args (g := gd 1)).guard = false
    ∧ Instr.engStat (args (g := gd 1)) ∈ oneElementInstrs (args (g := gd 1)) .eq := by decide +kernel
/-- For the statements whose hypotheses are power and a true guard (the integer, logical, bit-field, move, compare and float statements), and, with every element active, the vector statements. -/
theorem witness_scalars_and_vectors : S0.on ∧ S0.leaf.active (r3 .s32).guard = true ∧ S0.leaf.guardMask (r3 .s32).guard 128 = 2 ^ 128 - 1 := by decide +kernel
theorem witness_ControlTransfer : S0.on ∧ S0.leaf.active (args).guard = true ∧ S0.leaf.calls.length < 8
    ∧ (S fun L => { L with calls := List.replicate 8 16 }).leaf.calls.length = 8 ∧ S0.leaf.active (args (g := gd 1)).guard = false := by decide +kernel
/-- A stop is pending for the context of the leaf. -/
theorem witness_YieldFenceAndTrap : S0.on ∧ S0.leaf.active (args).guard = true ∧ S0.myCtx.stop = none ∧ S0.leaf.mxFault = [] ∧ S0.mxBusy none = false
    ∧ (S0.setCtx 1 { S0.myCtx with stop := some .request }).myCtx.stop.isSome = true ∧ S0.canSuspend 0 0 = true
    ∧ S0.leaf.flags &&& S0.leaf.trapEn = 0 ∧ ((4 : Flags) &&& 4 ≠ 0) := by decide +kernel
theorem witness_ReturnFromTrap : D0.on ∧ D0.cur = .dcc 0 ∧ (D0.die 0).dcc.sv = true ∧ D0.leaf.active (args).guard = true
    ∧ (D0.setDcc 0 { (D0.die 0).dcc with epc := 8 }).on ∧ (8#64).toNat % 16 ≠ 0 := by decide +kernel
theorem witness_PrivilegeAndMatrixRefusals : field (0x3FF : InsnWord).toNat 0 7 = 0x7F ∧ field (0x3FF : InsnWord).toNat 7 4 < 8
    ∧ field (BitVec.ofNat 128 (0x800 * 2 ^ 80 + 0x1B) : InsnWord).toNat 80 16 = 0x800 ∧ field (0x74 : InsnWord).toNat 0 7 = 0x74
    ∧ S0.on ∧ S0.priv = false ∧ 0x800 ≤ field (0x800 : BitVec 48).toNat 0 16 := by decide +kernel
theorem witness_UserCsrs : S0.on ∧ S0.cur = .leaf 0 0 ∧ S0.leaf.active (args (imm := 0x04F)).guard = true ∧ S0.leaf.mxFault = [] ∧ S0.mxBusy none = false
    ∧ S0.leaf.ctx < 1024 ∧ (userCsrs 15).any (fun r => r.1 = field (0x04F : BitVec 48).toNat 0 16) = true := by decide +kernel
theorem witness_PrivilegedCsrs : D0.on ∧ D0.cur = .dcc 0 ∧ (D0.die 0).dcc.sv = true ∧ D0.leaf.active (args (imm := 0x80B)).guard = true
    ∧ privCsrs.any (fun r => r.1 = field (0x80B : BitVec 48).toNat 0 16) = true := by decide +kernel

/-! ### Contexts and partitions -/

/-- The control core with s1, s2, s3 set, context 1 in a state at node 1. -/
def D (st : CtxSt) (a : Nat) (b : Nat := 1) (c : Nat := 1) : State :=
  let s := D0.setCtx 1 { Ctx.free with st := st, node := 1 }
  s.setLeaf (leafWith [(1, a), (2, b), (3, c)] [] s.leaf)

def ctl3 : Args := args (d := .s 4) (a := .s 1) (b := .s 2) (c := .s 3)

theorem witness_PartitionsAndContexts_nodes : ((D .free 0).on ∧ (D .free 0).cur = .dcc 0 ∧ ((D .free 0).die 0).dcc.sv = true ∧ (D .free 0).leaf.active ctl3.guard = true)
    ∧ (srcOf ctl3 (D .free 0) false ctl3.a).1 = 0 ∧ (srcOf ctl3 (D .free 128) false ctl3.a).1 = 128
    ∧ 1 ∈ (D .free 1).parts ∧ 127 ∉ (D .free 127).parts
    ∧ (D .running 1).nodeIdle 1 = false ∧ (D .free 1).nodeIdle 1 = true
    ∧ ((D .free 1).nodeIdle 2 && (D .free 1).nodeIdle 3) = true ∧ 2 ∉ (D .free 1).parts := by decide +kernel
theorem witness_PartitionsAndContexts_contexts : (srcOf ctl3 (D .bound 1) false ctl3.a).1 = 1 ∧ (srcOf ctl3 (D .bound 1024) false ctl3.a).1 = 1024
    ∧ ((D .running 1).ctx 1).st = .running ∧ ((D .draining 1).ctx 1).st = .draining ∧ ((D .running 1).ctx 2).st = .free ∧ (D .running 1).offers = []
    ∧ (srcOf ctl3 (D .bound 1 5 (2 ^ 40 - 1)) false ctl3.c).1 < 2 ^ 40 ∧ ((D .running 1).ctx 1).stop ≠ some Stop.request
    ∧ ((D .running 1).ctx 1).waiters = [] := by decide +kernel

/-- The descriptor of context 1 at the context table: slot 1, a pool of 3, one image. -/
def descBytes : List Byte := toBytes 128 (3 * 2 ^ (8 * 0x18) + 2 ^ (8 * 0x1C) + 2 ^ (8 * 0x28))
def DD (st : CtxSt) : State :=
  let s := D st 1
  { s with mem := writeBytes s.mem 0x12080 descBytes, l2 := granule 0x12000 s.l2, pkg := { s.pkg with ctxTab := 0x12000 } }
theorem witness_BindStartAndStop_bind : (DD .stopped).on ∧ (srcOf ctl3 (DD .stopped) false ctl3.b).1 ∈ (DD .stopped).parts
    ∧ okB (readDesc 0 1 (DD .stopped)) (fun r _ => match r with | .ok d => d.poolN = 3 | .error _ => false) = true
    ∧ okB (readDesc 0 1 (DD .bound)) (fun r _ => match r with | .ok d => d.slot = 1 | .error _ => false) = true := by decide +kernel
theorem witness_BindStartAndStop_stop : (((D .running 1).pendStop 1 Stop.request).completeStop 1 |>.ctx 1).stop = none
    ∧ (D .running 1).leaf.committed ≠ some 1
    ∧ ((D .running 1).setLeaf { (D .running 1).leaf with committed := some 1 }).leaf.committed = some 1 := by decide +kernel

/-! ### Boxes -/

theorem witness_CanonicalMidpoint : (3 : Nat) + 4 < 23 ∧ B0.on ∧ B0.leaf.active (args).guard = true ∧ B0.boxView = some ⟨0, 0, 1, rec0, rule0, launch0⟩
    ∧ (⟨0, 0, 1, { rec0 with hi := Vector.replicate 4 7 }, rule0, launch0⟩ : BoxView).grains 0 = 1
    ∧ B0.leaf.inJoin = false ∧ rec0.walk = false ∧ (axisOf (args)).val ≤ rec0.rankM1 := by decide +kernel
def bv0 : BoxView := ⟨0, 0, 1, rec0, rule0, launch0⟩
theorem witness_SplitFitAndWalk : B0.boxView = some bv0 ∧ 2 ≤ bv0.grains 0 ∧ bv0.l.dead = false ∧ B0.poolPair 1 = some (1, 2) ∧ B0.canTake bv0 = true
    ∧ bv0.ru.cohort = false ∧ B0.leaf.repliesOpen = false ∧ bv0.ru.red = some 0
    ∧ B0.scratchBusy 0 0 = false ∧ B0.leaf.mxFault = [] ∧ B0.mxBusy none = false
    ∧ B0.ringAwaited 1 B0.leaf = false := by decide +kernel
/-- `fit` of a free axis that fits its budget with no core idle. -/
theorem witness_fit_declines : (let s := B0.setCtx 1 { B0.myCtx with launch := some { launch0 with rules := [{ rule0 with red := none }] }, recs := [(0, rec0), (1, { rec0 with st := .ready })] }
    match s.boxView with | some b => b.ru.red = none && b.footprint ≤ b.budget && !s.idleDemand b | none => false) = true := by decide +kernel
theorem witness_TerminalsComplete : B0.boxView = some bv0 ∧ B0.scratchBusy 0 0 = false
    ∧ B0.ringAwaited 1 B0.leaf = false
    ∧ (let r := { rec0 with walk := true }
       (r.lo[0]).toNat + rule0.grain[0] < (r.hi[0]).toNat) := by decide +kernel
theorem witness_PortsAndCapabilities : rule0.ports[portNo (args)]? = some port0 ∧ rule0.ports[portNo (args (imm := 0x010000000000))]? = some port1
    ∧ port1.base ≤ 0x40000 ∧ 0x401FF < port1.base + port1.bytes ∧ port1.kind = 2
    ∧ okB (regionAt B0.who 1 port0.base B0) (fun r u =>
        regCtx (field r.2 16 16) = some 1 && okB (setCapability 1 r.1 0x8000 2 u) fun _ _ => true) = true
    ∧ okB (regionAt B0.who 1 0xFFFE00000000 B0) (fun _ _ => true) = false
    ∧ (B0.setCtx 2 { Ctx.free with st := .bound }).tenantOf 2 = B0.tenantOf 1 := by decide +kernel

/-! ### Memory -/

theorem witness_ScratchpadLoadAndStore : (B [(1, scrA + 0x7FF8)]).on ∧ (B [(1, scrA + 0x7FF8)]).cur = .leaf 0 0 ∧ coreIsString 0 = false
    ∧ (eaOf (mem1 .n64) (B [(1, scrA + 0x7FF8)])).1 - 0xFFFE00000000 < (B []).myCtx.scratchOf ((B []).leafAt 0 0).recIdx
    ∧ okB (ordAfter (mem1 .n64) (B [])) (fun _ _ => true) = true ∧ okB (ordBefore (mem1 .n64 (imm := 0x200000000000)) (B [])) (fun _ _ => true) = true := by decide +kernel

/-- A load at one state: its check, its access and its ordering complete. -/
def loadChain (x : Args) (s : State) (p : List Byte → Bool) : Bool :=
  okB (checkAccess s.actor (eaOf x s).1 (etyBits x.ety / 8) .load s) fun tg s1 =>
    okB (loadEl s.actor tg (eaOf x s).1 (etyBits x.ety / 8) (noAlloc x) s1) fun r s2 => p r.1 && okB (ordAfter x s2) fun _ _ => true
/-- And a store. -/
def storeChain (x : Args) (s : State) (p : State → Bool) : Bool :=
  let n := etyBits x.ety / 8
  okB (checkAccess s.actor (eaOf x s).1 n .store s) fun tg s1 => okB (ordBefore x s1) fun _ s2 => okB (fillFor s.actor tg n (noAlloc x) s2) fun _ s3 =>
    okB (storeEl s.actor tg (eaOf x s).1 (toBytes n (srcOf x s true x.c).1) false (noAlloc x) s3) fun _ t => p t
theorem witness_LoadAndStoreComplete : loadChain (mem1 .n32 (imm := 0x100000000000)) (B [(1, datA)]) (fun bs => ofBytes bs = 0x55667788) = true
    ∧ storeChain (mem1 .n16 (c := .s 2)) (B [(1, datA + 2), (2, 0xABCD)]) (fun _ => true) = true
    ∧ okB (checkAccess (B []).actor 0x20101 2 .load (B [])) (fun _ _ => true) = false ∧ 0x20101 % 2 ≠ 0 ∧ 2 ^ 48 < 2 ^ 64 := by decide +kernel

/-- A dirty line of the leaf's context in the L1 of core 0. -/
def lineB : L1Line := { data := 0x11, dirty := 1, taint := 0, raced := 0, raced8 := 0, owner := 1, slot := 0, attr := plainAttr, inPort := 0 }
def BL : State := B0.setCore 0 { B0.core 0 with l1 := [(0x10100 / 128, lineB)] }
def tr0 : Tr := { pa := 0x10104, pte := 0, attr := plainAttr, isOpen := false, holder := some 1, pend := none, regAddr := 0 }
theorem witness_StoreThenLoadInL1 : tr0.pa % 128 + 4 ≤ 128 ∧ tfind (BL.core BL.actor.who.core).l1 (tr0.pa / 128) = some lineB
    ∧ lineB.slot = BL.actor.who.slot ∧ lineB.owner = BL.actor.who.owner ∧ (BL.core BL.actor.who.core).cbuf = []
    ∧ 0x10100 % 128 + 128 ≤ 128 ∧ BL.isWindow 0x10100 = false := by decide +kernel

/-- 64 elements of the page of data, and of a scratchpad. -/
def vecArgs : Args := args (ety := .n64) (d := .v 3) (a := .s 1) (b := .imm .sx) (c := .v 2)
def lanes (s : State) : List (Nat × Nat) := contigEls .n64 (eaOf vecArgs s).1 (activeEls s vecArgs 64)
theorem witness_VectorLoadsAndStores : okB (checkAll 0 (lanes (B [(1, datA)])) 8 .load (B [(1, datA)])) (fun ts s1 =>
      okB (loadAll ts 8 false s1) fun got _ => tfind got 0 = some (0x1122334455667788, false)) = true
    ∧ okB (checkAll 0 (lanes (B [(1, datA)])) 8 .store (B [(1, datA)])) (fun ts s1 =>
      okB (storeAll ts 8 false (vstData vecArgs (B [(1, datA)]) false fun _ => false) false s1) fun _ _ => true) = true
    ∧ okB (checkAll 0 (lanes (B [(1, scrA)])) 8 .store (B [(1, scrA)])) (fun ts _ => ts.all fun e => match e.2.2 with | .scr _ _ => true | _ => false) = true := by decide +kernel

theorem witness_PlanesAndCacheOperations : okB (checkAll 0 (planeEls scrA) 32 .store (B [(1, scrA)])) (fun ts s1 =>
      okB (storeAll ts 32 false (fun _ => (fun _ => List.replicate 32 5, false)) false s1) fun _ _ => true) = true
    ∧ okB (checkAll 0 (planeEls datA) 32 .load (B [(1, datA)])) (fun ts s1 => okB (loadAll ts 32 false s1) fun _ _ => true) = true
    ∧ okB (attempt (prefetch (mem1 .n4) (B []).actor datA) (B [])) (fun _ _ => true) = true
    ∧ 2 ^ 48 < 2 ^ 48 - 1 + 2 ∧ datA + 128 ≤ 2 ^ 48 := by decide +kernel

/-! ### Word states and atoms -/

/-- A scratchpad word of the leaf in each state. -/
def W (st : BitVec 2) : State :=
  let s := B [(1, scrA + 8), (2, 7)]
  s.setScrWord 0 2 ⟨0x55, st, true⟩
theorem witness_WordStateInstructions : (W 1).leaf.msg = none ∧ (∀ st ∈ [0, 1, 2, 3], (W (BitVec.ofNat 2 st)).scrWord 0 2 = ⟨0x55, BitVec.ofNat 2 st, true⟩
      ∧ okB (checkAccess (W (BitVec.ofNat 2 st)).actor (eaOf (mem1 .n32) (W (BitVec.ofNat 2 st))).1 4 .ws (W (BitVec.ofNat 2 st))) (fun tg s1 => (match tg with | .scr 0 off => off = 8 | _ => false)
        && okB (ordBefore (mem1 .n32) s1) fun _ s2 => s2.cur = s1.cur && okB (ordAfter (mem1 .n32) s2) fun _ _ => true) = true) := by decide +kernel
/-- ldc empties a FULL word and takes its taint; ste leaves END; fe.rd reads 2 and the taint bit, tainted (R195, R198). -/
theorem test_ldc : nextB (exec (.ldc (mem1 .n32 (d := .s 3))) (W 1)) (fun t => t.leaf.readS 3 = 0x55 && t.leaf.taintS 3 && (t.scrWord 0 2).st = 0) = true := by decide +kernel
theorem test_ste : nextB (exec (.ste (mem1 .n32 (c := .s 2))) (W 0)) (fun t => t.scrWord 0 2 = ⟨7, 2, false⟩) = true := by decide +kernel
theorem test_feRd : nextB (exec (.feRd (args (d := .s 3) (a := .s 1) (b := .imm .sx))) (W 2))
    (fun t => t.leaf.readS 3 = 6 && t.leaf.taintS 3 && (t.ctx 1).taintCnt = 1) = true := by decide +kernel

/-- The string core of the home of the data. -/
theorem witness_AtomAtItsHome : B0.homeOf 0x10100 = .lpddr 0 16 0x100 ∧ B0.homeOf (0x10100 / 128 * 128) = .lpddr 0 16 (0x100 - 0x10100 % 128)
    ∧ B0.linkLost B0.who.die 0 = false ∧ B0.admits (tgtString 0 16) B0.who.id B0.who.dom false = true ∧ B0.admits (tgtString 0 16) B0.who.id B0.who.dom true = true
    ∧ B0.admits (tgtL2 0 16) (masterId (stringCore 0 16)) B0.who.dom true = true ∧ B0.admits (tgtL2 0 16) (masterId (stringCore 0 16)) B0.who.dom false = true
    ∧ tfind B0.l2 (0x10100 / 128) = some presentLine ∧ presentLine.slot = B0.who.slot ∧ 0x10100 % 128 + atomSize .n64 ≤ 128 ∧ Memory.wf B0.mem := by decide +kernel

def atomArgs : Args := mem1 .n32 (d := .s 3) (c := .s 2) (imm := 0x300000000000)
theorem witness_AtomsReductionsAndFence : let s := B [(1, datA), (2, 1)]
    okB (checkAccess s.actor (eaOf atomArgs s).1 4 .atom s) (fun tg s1 => match tg with
      | .mem tr => okB (ordBefore atomArgs s1) fun _ s2 => s2.cur = s.cur &&
          (let s3 := (s2.sendEntries 0 (·.meets tr.pa 4)).dropForAtom 0 (tr.pa / 128)
           okB (atomHome s3.who tr.pa .n32 .add 1 0 false (s3.inPort s3.leaf.ctx datA 4) tr.attr 1 s3) fun old s4 => old = 0x55667788
             && okB (ordAfter atomArgs (s4.countTaint s4.leaf.ctx 1)) fun _ _ => true)
      | _ => false) = true
    ∧ okB (ordBefore (args (imm := 0x300000000000)) s) (fun _ s1 => okB (ordAfter (args (imm := 0x300000000000)) (s1.sendEntries s1.curCore fun _ => true)) fun _ _ => true) = true := by decide +kernel
/-- The fetch-and-add of a type of 32 bits wraps within them, and its old value is tainted (R201). -/
theorem test_atomAdd : nextB (exec (.atomAdd atomArgs) (B [(1, datA + 4), (2, 0xFFFFFFFF)]))
    (fun t => t.leaf.readS 3 = 0x11223344 && t.leaf.taintS 3 && ofBytes (readBytes t.mem 0x10100 8) = 0x1122334355667788) = true := by decide +kernel
theorem test_atomMin_signed : nextB (exec (.atomMin (mem1 .s32 (d := .s 3) (c := .s 2))) (B [(1, datA), (2, 2 ^ 32 - 1)]))
    (fun t => ofBytes (readBytes t.mem 0x10100 4) = 0xFFFFFFFF) = true := by decide +kernel

/-! ### Vectors: hypotheses on types -/

theorem witness_vector_types : etyFmt .bf16 = some fmtBf16 ∧ etyFmt .s8 = none ∧ etyBits .n64 = 64
    ∧ etyBits .s32 = Wid.k .w4 * etyBits (modSty (args (ety := .s32) (d := .v 28) (imm := 0x300000000000))) ∧ 28 + Wid.k .w4 ≤ 32
    ∧ etyCount (modSty (args (ety := .s8) (d := .v 6) (a := .v 1) (c := .v 7) (imm := 0xE00000000000))) ≤ 4096 / etyBits .s8 := by decide +kernel

/-! ### Matrix jobs -/

/-- A descriptor of one row of one plane chunk, at the start of the scratchpad, for both operands. -/
def mxDescN : Nat := (0xFFFE00000000 + 0x100) + 2 ^ 64 * (0xFFFE00000000 + 0x80) + 2 ^ 128 * 1 + 2 ^ 144 * 4 + 2 ^ 160 * 1
def M0 : State := (B [(4, scrA), (5, scrA), (6, 1)]).setCore 0 { (B0.core 0) with
  scr := (List.range 8).foldl (fun t i => tset t i ⟨BitVec.ofNat 32 (elem 32 i mxDescN), 1, false⟩) [] }
def mxArgs (kb : Opnd := .s 6) : Args := args (d := .a 0) (a := .s 4) (b := .s 5) (c := kb) (imm := 0x040000000033)
def mxChain (s : State) (p : MxDesc → Bool) : Bool :=
  okB (mxCheck s.actor scrA 32 s) fun ta s1 => okB (mxCheck s.actor scrA 32 s1) fun tb s2 => okB (readMxDesc s.actor ta scrA s2) fun da s3 =>
    okB (readMxDesc s.actor tb scrA s3) fun db s4 => p da.1 && da.2 && db.2 && okB (mxCheckAll s.actor (da.1.pieces 4 1) s4) fun _ s5 =>
      okB (mxCheckAll s.actor (db.1.pieces 4 1) s5) fun _ s6 => (s6.core 0).mxq.length < Config.mxQueue
def mxJob0 : MxJob := { ctx := 1, entry := 1, tile := 0, da := ⟨0, 0, 1, 4, 1⟩, db := ⟨0, 0, 1, 4, 1⟩, kb := 1, period := 1, na := 4, nw := 4, init := true, weight := 1, pc := 0, step := 0, ctlTaint := false, hint := 0 }
def mxWait (n : Nat) : State := (S0.setLeaf { S0.leaf with mxIssued := some (mxJob0, []) }).setCore 0 { S0.core 0 with mxq := List.replicate n mxJob0 }
theorem witness_MatrixInstructions_mxmul_kept : ∀ n ∈ [7, 8], (mxWait n).leaf.mxIssued = some (mxJob0, []) ∧ ((mxWait n).core 0).mxq.length = n ∧ (mxWait n).leaf.parked = []
    ∧ (mxWait n).on ∧ (mxWait n).noMatrix = false ∧ (mxWait n).curCore = 0 := by decide +kernel
theorem witness_MatrixInstructions_mxmul : M0.on ∧ M0.noMatrix = false ∧ M0.leaf.active mxArgs.guard = true ∧ M0.leaf.mxIssued = none
    ∧ mxChain M0 (fun d => d.valid 4 && mxSteps 1 ≤ d.cstr) = true ∧ (srcOf (mxArgs (.s 0)) M0 false (.s 0)).1 = 0 := by decide +kernel
theorem witness_MatrixInstructions : (S0.on ∧ S0.noMatrix = false ∧ S0.leaf.mxFault = [] ∧ S0.mxBusy none = false ∧ S0.mxBusy (some 3) = false) ∧ D0.noMatrix = true := by decide +kernel
theorem witness_MatrixInstructions_mxst :
    (let x := args (ety := .f32) (a := .s 1) (b := .imm .sx) (c := .a 0) (e := .s 7)
     let s := B [(1, scrA), (7, 0x0101)]
     okB (checkAll 0 (mxstEls scrA 0 2 2 4) 4 .store s) fun ts s1 => okB (storeAll ts 4 (noAlloc x) (fun k => (fun _ => toBytes 4 k, false)) false s1) fun _ _ => true) = true := by decide +kernel
/-- A job of one step on blocks tagged ZERO: the queue takes it (R272). -/
theorem test_mxmul_enqueues : nextB (exec (.mxmul mxArgs) M0) (fun t => (t.core 0).mxq.length = 1 && t.leaf.pc = 0x10010) = true := by decide +kernel
/-- `mxwr` then `mxrd` of one element of a row (R279). -/
theorem test_mxwr : nextB (exec (.mxwr (args (ety := .f32) (d := .a 1) (a := .v 3) (b := .imm .zx) (imm := 127))) (S (leafWith [] [(3, 0x3F800000)])))
    (fun t => elem 32 0 (t.leaf.tileRow 1 127).val.toNat = 0x3F800000) = true := by decide +kernel

/-! ### Engine commands -/

/-- A copy card in the data: one row of 64 bytes from 0x20180 to 0x20200. -/
def copyCard : Nat := 0x1000 * 2 ^ 32 + 0x20000 * 2 ^ 64 + 0x20000 * 2 ^ 128 + 0x1000 * 2 ^ (8 * 0x18) + 0x20180 * 2 ^ (8 * 0x20) + 0x20200 * 2 ^ (8 * 0x28) + 64 * 2 ^ (8 * 0x30) + 2 ^ (8 * 0x34)
def E0 : State :=
  let s := B [(1, datA)]
  { s with mem := writeBytes s.mem 0x10100 (toBytes 128 copyCard) }
def engArgs (d : Opnd := .s 3) : Args := args (d := d) (a := .s 1) (b := .s 0)
theorem witness_EngineCommands_issue : E0.leaf.committed = none ∧ (srcOf engArgs E0 true engArgs.a).1 % 128 = 0
    ∧ okB (mxCheck E0.actor datA 128 E0) (fun t s1 => okB (loadEl E0.actor t datA 128 false s1) fun r _ =>
        cardValid (BitVec.ofNat 1024 (ofBytes r.1)) 0 0 E0.pkg.index && !cardValid (BitVec.ofNat 1024 (ofBytes r.1)) 1 0 E0.pkg.index) = true
    ∧ (E0.core 0).jobs.length < Config.tickets ∧ (E0.leaf.q[(0 : Fin 16)]).length < Config.queueDepth := by decide +kernel
/-- The command to a reply queue reserves its reply under ticket 1 and leaves a job (R211, R212). -/
theorem test_engCopy : nextB (exec (.engCopy (engArgs (.q 0))) E0) (fun t => (t.core 0).jobs.length = 1 && t.leaf.pc = 0x10010
    && (t.leaf.q[(0 : Fin 16)]).any (fun e => e.value.isNone)) = true := by decide +kernel

/-- A leaf with tickets 1, done without error, and 2, not done. -/
def T0 : State := (B [(1, 1), (2, 2)]).setLeaf { (leafWith [(1, 1), (2, 2)] [] B0.leaf) with tickets := [(1, ⟨BitVec.ofNat 64 (2 ^ 48 + 2 ^ 47 + 64), []⟩), (2, ⟨BitVec.ofNat 64 (2 ^ 49), []⟩)], nextTicket := 3 }
theorem witness_EngineCommands_wait : (T0.leaf.liveTicket 1).isSome = true ∧ (T0.leaf.liveTicket 2).isSome = true ∧ T0.leaf.liveTicket 3 = none
    ∧ replyDone (BitVec.ofNat 64 (2 ^ 48 + 2 ^ 47 + 64)) = true ∧ replyDone (BitVec.ofNat 64 (2 ^ 49)) = false
    ∧ (T0.setLeaf { T0.leaf with committed := some 1 }).leaf.committed = some 1 ∧ tfind T0.leaf.tickets 1 = some ⟨BitVec.ofNat 64 (2 ^ 48 + 2 ^ 47 + 64), []⟩ := by decide +kernel
theorem test_engWait : nextB (exec (.engWait (args (d := .s 5) (a := .s 1))) T0) (fun t => t.leaf.readS 5 = BitVec.ofNat 64 (2 ^ 48 + 2 ^ 47 + 64) && !t.leaf.taintS 5) = true := by decide +kernel
theorem test_engStat_tainted : nextB (exec (.engStat (args (d := .s 5) (a := .s 2))) T0) (fun t => t.leaf.readS 5 = BitVec.ofNat 64 (2 ^ 49) && t.leaf.taintS 5) = true := by decide +kernel

/-! ### Events -/

/-- The state after `eng.copy` on its card. -/
def EJ : State := match exec (.engCopy (engArgs (.q 0))) E0 with | .next t => t | _ => E0
/-- A job of context 1 on core 0 with a word still to write. -/
def jobW : Job :=
  { ctx := 1, entry := 0, ticket := 1, slot := 0, replyQ := none, fn := 0, card := BitVec.ofNat 1024 copyCard, delta := 0, reads := [], writes := [(0x20000, 0x21000)], preds := [], predFailed := false
    started := true, unit := 1, pend := [.bytes datA [(5, false)] 1], count := 0, fail := none, kept := none, hint := 0, row := none }
def EW (j : Job) : State := B0.setJob 0 7 j
theorem witness_EngineAndMatrixEvents : (EW jobW).job 0 7 = some jobW ∧ (EW jobW).job 0 8 = none ∧ (EW jobW).jobCancelled { jobW with started := false } = false
    ∧ okB (attempt (engWrite 0 jobW (.bytes datA [(5, false)] 1)) (EW jobW)) (fun r t => r.toOption.isSome && t.job 0 7 = some jobW) = true
    ∧ jobW.over = false ∧ { jobW with pend := [], fail := some .engPredFail }.over = true := by decide +kernel
/-- The copy job, started, has no predecessor left and moves the 64 bytes; its reply is then delivered to q0: DONE, ticket 1, COUNT 64 (R214, R215, Table 7-4). -/
theorem test_engJob : nextB (exec (.engJobStart 0 0) EJ) (fun t => nextB (exec (.engJobComplete 0 0) t) fun u =>
    (u.leaf.q[(0 : Fin 16)]).any (fun e => e.value = some (BitVec.ofNat 64 (2 ^ 48 + 2 ^ 47 + 64)))) = true := by decide +kernel
def member (pkg count : Nat) (job : Option (Nat × Nat)) : CollJoin := ⟨job, pkg, 0, 9, count, 0, 0, 0, 3, []⟩
theorem witness_EngineAndMatrixEvents_cancelled : (B0.setCtx 1 { B0.ctx 1 with launch := some { launch0 with abort := some 3 } }).jobCancelled jobW = true
    ∧ { jobW with preds := [3] }.preds ≠ [] ∧ { jobW with predFailed := true }.predFailed = true := by decide +kernel
theorem witness_EngineAndMatrixEvents_coll : collMismatch [member 0 4 (some (0, 7)), member 1 5 none] = true ∧ collMismatch [member 0 4 (some (0, 7)), member 1 4 none] = false
    ∧ ({ EW jobW with colls := [member 0 4 (some (0, 7))] } : State).joins 0 9 = [member 0 4 (some (0, 7))]
    ∧ (groupPkgs 3).any (fun p => p ≠ 0 && !B0.podRoute p) = true ∧ B0.joins 0 9 = [] := by decide +kernel
def MQ : State := match exec (.mxmul mxArgs) M0 with | .next t => t | _ => M0
theorem witness_EngineAndMatrixEvents_matrix : (MQ.mxTurn 0).isSome = true ∧ B0.mxTurn 0 = none := by decide +kernel
/-- The tile step of a job on a ZERO block ends it and leaves the tile as INIT makes it (R69, R274). -/
theorem test_mxTileStep : nextB (exec (.mxTileStep 0) MQ) (fun t => (t.core 0).mxq = [] && t.leaf.mxFault = []) = true := by decide +kernel

def msg0 : WsMsg := { core := 0, slot := 0, ctx := 1, entry := 0, op := 1, target := 1, word := 4, ety := .n32, value := 0, taint := false, addrTaint := false
                      dst := 3, endOut := 0, poisonOut := 0, acq := 0, addr := 0, cancel := false }
def G (st : BitVec 2) : State := { (B0.setScrWord 1 4 ⟨9, st, false⟩) with msgs := [(5, msg0)] }.setLeafAt 0 0 { B0.leaf with msg := some 5, mode := .waiting }
theorem witness_MessageAndHomeEvents : tfind (G 1).msgs 5 = some msg0 ∧ tfind (G 1).msgs 6 = none ∧ (G 1).msgLive msg0 = true ∧ ((G 1).ctx 1).stop = none
    ∧ (wsStep 1 0 0 0 false ((G 0).scrWord 1 4) = .wait) ∧ (wsStep 1 0 0 0 false ((G 2).scrWord 1 4) = .trap .ringEnd)
    ∧ (match wsStep 1 0 0 0 false ((G 1).scrWord 1 4) with | .go _ _ _ _ => true | _ => false) = true
    ∧ tget [] (G 1).atomQ 0 = [] ∧ (G 1).linkLost (coreDie msg0.core) (coreDie msg0.target) = false := by decide +kernel
/-- The message cancelled, and one whose way crosses a die link that is lost. -/
def GC (st : BitVec 2) : State := { G st with msgs := [(5, { msg0 with cancel := true })] }
def GLost : State := { G 0 with msgs := [(5, { msg0 with target := 130, cancel := true })], pkg := { (G 0).pkg with linksLost := [(0, 1)] } }
theorem witness_MessageAndHomeEvents_cancel : (∀ st ∈ [(0 : BitVec 2), 1], tfind (GC st).msgs 5 = some { msg0 with cancel := true } ∧ (GC st).msgLive { msg0 with cancel := true } = true
      ∧ (GC st).linkLost (coreDie 0) (coreDie 1) = false ∧ (wsStep 1 0 0 0 false ((GC st).scrWord 1 4) = .wait ↔ st = 0))
    ∧ GLost.linkLost (coreDie 0) (coreDie 130) = true ∧ GLost.msgLive { msg0 with target := 130, cancel := true } = true := by decide +kernel
/-- A lost link ends the operation at its leaf, which the trap takes out of its slot (R398, R379). -/
theorem test_remoteWsOp_lost : nextB (exec (.remoteWsCancel 5) GLost) (fun t => t.msgs = [] && (t.leafAt 0 0).mode = .idle) = true := by decide +kernel
theorem test_remoteWsOp : nextB (exec (.remoteWsOp 5) (G 1)) (fun t => (t.leafAt 0 0).readS 3 = 9 && (t.scrWord 1 4).st = 0 && t.msgs = [] && (t.leafAt 0 0).pc = 0x10010) = true := by decide +kernel
def Q0 : State := { B0 with atomQ := [(16, [⟨1, 0, 0x10100, 5⟩])] }
theorem witness_MessageAndHomeEvents_atom : (tget [] Q0.atomQ 16).length = 1
    ∧ okB (atomHome ⟨none, 1024, 0, 0, 4 * 512 + 1, false⟩ 0x10100 .n64 .add 5 0 false false plainAttr 1 { Q0 with atomQ := [] }) (fun old _ => old = 0x1122334455667788) = true := by decide +kernel

/-- A queue at PA 0x10100 for slot 0 of two packets, with one waiting. -/
def qlive : Queue := { base := 0x10100, ctl := BitVec.ofNat 64 (2 ^ 31 + 1), rdidx := 0, wridx := 1, inflight := 0 }
/-- A marker packet for context 1, with no ordering and with its status at 0x20180. -/
def markerN : Nat := 2 * 2 ^ 13 + 0x7E0 + 2 ^ 16 + 0x20180 * 2 ^ (8 * 0x38)
/-- The state with that queue, the launch of context 1 over, and what the Nest of die 0 needs to reach the data and the images: the page at VA 0x30000 is at PA 0x80000. -/
def N0 : State :=
  let x := B0.ctx 1
  let s := B0.setCtx 1 { x with launch := none, desc := { x.desc with imgVa := 0x30000 } }
  { s with
    mem := writeBytes s.mem 0x10100 (toBytes 64 markerN)
    l2 := granule 0x80000 s.l2
    atab := [0, 1, 2, 3, 4, 5, 12].foldl (fun t k => tset t (tgtL2 0 k * 64) admitAll) s.atab
    tlb := tset s.tlb 1088 (tset (tset [] (tlbKey 1 0x20000) ⟨BitVec.ofNat 64 (2 ^ 52 + 0x10000 + 0x1B), 3⟩)
      (tlbKey 1 0x30000) ⟨BitVec.ofNat 64 (2 ^ 52 + 0x80000 + 0x21B), 3⟩) }.setQueue 0 0 qlive
theorem witness_QueueAndNoticeEvents_packet : (N0.queue 0 0).live = true ∧ (N0.queue 0 0).rdidx ≠ (N0.queue 0 0).wridx ∧ (N0.queue 0 0).badIndex = false
    ∧ okB (attempt (readPacket 0 0) N0) (fun r t => match r with | .ok p => p.good && p.ctx = 1 && p.type = 2 && !p.barrier
        && (t.ctx 1).st = .running && (t.ctx 1).desc.slot = field (N0.queue 0 0).ctl.toNat 32 8 && (t.ctx 1).launch = none | .error _ => false) = true
    ∧ (({ qlive with wridx := 3 } : Queue).badIndex = true) ∧ ({ qlive with ctl := 0 } : Queue).live = false := by decide +kernel
/-- The host is admitted to a target. -/
def hostMay (t : Nat) (s : State) : State := { s with atab := tset s.atab (t * 64) admitAll }
/-- An index that is out of range halts the queue with LAUNCH_BAD_PKT (R362). -/
theorem test_wridx : nextB (exec (.queueWridxWrite 0 0 3) (hostMay (tgtDie 0) N0)) (fun t => (t.queue 0 0).ctl.getLsbD 30 && field (t.queue 0 0).ctl.toNat 23 7 = causeCode .launchBadPkt) = true := by decide +kernel
def note0 : Notice := { word := 0x10, pos := 3, frec := 0x77, event := none }
/-- Die 0 with its control core enabled and one notice queued or waiting for room. -/
def ND (queued : Bool) : State :=
  let d := D0.die 0
  D0.setDie 0 { d with notices := if queued then [note0] else [], notePend := if queued then [] else [note0], dcc := { d.dcc with noteEn := true } }
theorem witness_QueueAndNoticeEvents_notice : ((ND true).die 0).noteReady = true ∧ ((ND true).die 0).notices = [note0] ∧ (D0.die 0).noteReady = false
    ∧ ((ND false).die 0).notePend = [note0] ∧ ((ND false).die 0).noteRoom = true := by decide +kernel
/-- The notice trap saves the word and its record address and clears NOTE_EN (R381). -/
theorem test_noticeTrap : nextB (exec (.noticeTrap 0) (ND true)) (fun t => (t.die 0).dcc.info = 0x10 && (t.die 0).dcc.frec = 0x77 && !(t.die 0).dcc.noteEn
    && (t.die 0).dcc.epc = 0x10000) = true := by decide +kernel

/-- A stop of context 1 in progress, by its cause and age, its leaf out of its slot. -/
def CS (why : Option Stop) (age budget : Nat) : State :=
  (B0.setCtx 1 { B0.ctx 1 with stop := why, stopAge := age, budget := budget }).setLeafAt 0 0 { B0.leafAt 0 0 with mode := .idle }
theorem witness_ContextEvents_stop : ((CS none 0 0).ctx 1).budget = 0 ∧ (∃ e ∈ (CS none 0 0).holders, e.2 = 1) ∧ ((CS none 0 0).ctx 1).st = .running
    ∧ (∀ e ∈ (CS none 0 0).leaves, e.2.ctx ≠ 1 ∨ e.2.mode = .idle ∨ e.2.mode = .running)
    ∧ ((CS (some .preempt) 1500 0).ctx 1).stop = some .preempt ∧ (CS (some .budget) 1500 0).ctxActive 1 = false ∧ B0.ctxActive 1 = true := by decide +kernel
/-- A stop on BUDGET_EXHAUSTED leaves the context STOPPED and its partition free (R371, R376). -/
theorem test_stopComplete : nextB (exec (.stopComplete 1) (CS (some .budget) 10 0)) (fun t => (t.ctx 1).st = .stopped && t.holders = []) = true := by decide +kernel
def LO : State := N0.setCtx 1 { N0.ctx 1 with node := 64, launch := some { launch0 with ended := true, sig := 0x20180, rel := 7 } }
theorem witness_ContextEvents_status : LO.launchOver 1 = true
    ∧ okB (attempt (writeStatus 0 1 0x20180 0 ((LO.ctx 1).finalStatus { launch0 with ended := true, sig := 0x20180, rel := 7 })) ((LO.packetOrder 1 7 true).carriedRelease 1 launch0.rules)) (fun r _ => r.toOption.isSome) = true := by decide +kernel
/-- A parent whose pair is complete, with views of both halves in port 1. -/
def chunkOf (v : Nat) : Chunk := ⟨BitVec.ofNat 4096 v, 0, 0, 0, none, true⟩
def JM : State := B0.setCtx 1 { B0.ctx 1 with recs := [
  (0, { rec0 with st := .joining, children := some (⟨1, false⟩, ⟨2, false⟩) }), (1, { rec0 with parent := 0, chunks := [(chunkKey 1 0, chunkOf 3)] }),
  (2, { rec0 with parent := 0, side := true, chunks := [(chunkKey 1 0, chunkOf 4)] })] }
theorem witness_ContextEvents_merge : ((JM.ctx 1).record 0).isSome = true ∧ launch0.dead = false ∧ (tfind (JM.ctx 1).faulted 0).isNone = true
    ∧ ((JM.ctx 1).record 0).map (fun r => (r.st, r.mergeDone, r.children, r.pre.isEmpty)) = some (RecSt.joining, false, some (⟨1, false⟩, ⟨2, false⟩), true) := by decide +kernel
/-- A READY record in the deque of core 0; its slot 1 is free. -/
def RP : State := B0.setCtx 1 { B0.ctx 1 with recs := [(0, { rec0 with st := .waiting }), (1, { rec0 with st := .ready })], deques := [(0, [1])], desc := { (B0.ctx 1).desc with imgCnt := 4 } }
theorem witness_ContextEvents_schedule : (RP.fillPick 0 1).isSome = true ∧ RP.fillPick 1000 0 = none ∧ B0.bestOf 1 = some 1 ∧ B0.ctxReady 1 = true ∧ tfind B0.holders 1 = some 1
    ∧ ({ B0 with holders := [] } : State).bestOf 1 = some 1 ∧ (B0.ctx 1).cohort = false ∧ S0.bestOf 2 = none ∧ tfind S0.holders 2 = none := by decide +kernel

/-! ### Containment -/

def UL : State := { BL with l2 := tset BL.l2 (0x10180 / 128) { presentLine with dirty := 1, owner := 1 } }
theorem witness_ContainmentAndDrain : tfind (UL.core 0).l1 (0x10100 / 128) = some lineB ∧ lineB.dirty ≠ 0 ∧ { lineB with dirty := 0 }.dirty = 0 ∧ tfind (UL.core 0).l1 5 = none
    ∧ tfind UL.l2 (0x10180 / 128) = some { presentLine with dirty := 1, owner := 1 } ∧ presentLine.dirty = 0
    ∧ (B0.leafAt 0 0).mode = .running ∧ (B0.ctx 1).record 0 = some rec0 ∧ rec0.snap = none ∧ rec0.replay = true ∧ (B0.leafAt 0 0).noReplay = false
    ∧ ((S0.setCtx 1 { S0.ctx 1 with st := .draining }).ctx 1).st = .draining ∧ ((0, 1) : Nat × Nat) ∉ S0.pkg.linksLost := by decide +kernel
/-- A dirty L1 line whose owner cannot be trusted kills every context of the instance's bitmap (R391). -/
theorem test_ue_l1 : nextB (exec (.ueDetected (.l1 0 (0x10100 / 128) false true)) (UL.occSet (occL1 0) 1))
    (fun t => (t.ctx 1).st = .draining && (t.ctx 1).killCause = some .ueOccupancy && (t.core 0).l1 = []) = true := by decide +kernel

/-! ### The exception of a leaf: its image can be written -/

/-- The page of the images at an address of package 1, which port 0 reaches. -/
def X0 : State :=
  let s := N0.setPort 0 { S0.pkg.port 0 with up := true, enabled := true, route := 2 }
  { s with tlb := tset s.tlb 1088 (tset (tget [] s.tlb 1088) (tlbKey 1 0x30000) ⟨BitVec.ofNat 64 (2 ^ 52 + 0x4000000000000 + 2 ^ 45 + 0x80000 + 0x21B), 3⟩) }
theorem witness_TakingAnException : X0.cur = .leaf 0 0 ∧ (match X0.suspendLeaf 0 0 0x10000 with
    | (u, none) => okB (attempt (nestWrite 0 1 (0x30000 + 0xC000) (List.replicate 128 1) .image) u) fun r _ => r.toOption.isSome
    | (_, some _) => false) = true := by decide +kernel
/-- A leaf whose image cannot be written is killed with FAULT_DELIVERY (R379). -/
theorem test_fault_delivery : nextB (exec (.trap (args (imm := 5))) S0) (fun t => (t.ctx 1).killCause = some .faultDelivery) = true := by decide +kernel
/-- The exception of a control core: SV_CAUSE, SV_INFO and SV_EPC of `trap 5`, and the PC at SV_VEC (R138, R139). -/
theorem test_trap_dcc : nextB (exec (.trap (args (imm := 5))) (D0.setDcc 0 { (D0.die 0).dcc with vec := 0x7000 }))
    (fun t => (t.die 0).dcc.epc = 0x10010 && (t.die 0).dcc.info = 5 && t.leaf.pc = 0x7000 && (t.die 0).dcc.prevSv) = true := by decide +kernel

/-! ### Memory, links, registers -/

theorem witness_MemoryAndLinkEvents : (0, 5) ∈ ({ S0 with staleNotices := [(0, 5)] } : State).staleNotices ∧ (0, 5) ∉ S0.staleNotices
    ∧ B0.pkg.hostMods ≠ 0 ∧ (0x10100 : Nat) < 0xF800000000 ∧ (0x10100 : Nat) % 8 = 0
    ∧ okB (attempt (homeRead (B0.whoHost 0 0x10100) plainAttr 0x10100 8) B0) (fun r _ => r.toOption.isSome) = true
    ∧ okB (attempt (homeStore (B0.whoHost 0 0x10100) plainAttr 0x10100 (toBytes 8 5) false) B0) (fun r _ => r.toOption.isSome) = true
    ∧ B0.kiteUp = false ∧ (B0.setPort 3 { B0.pkg.port 3 with up := true, enabled := true }).kiteUp = true ∧ (B0.homeOf 0x10100).place = some (0, 16)
    ∧ okB (attempt (homeRead (B0.whoPod 1 0 0x10100) plainAttr 0x10100 8) B0) (fun r _ => r.toOption.isSome) = true
    ∧ tfind B0.l2 (0x10100 / 128) = some presentLine ∧ tfind B0.l2 7 = none ∧ B0.isSealed 0x10100 = true := by decide +kernel
theorem witness_RegisterAndKeyEvents : isControl 0x3000000000000 = true ∧ isControl 0x4000000000000 = false ∧ (0x3000000000000 : Nat) % 8 = 0
    ∧ S0.pkg.ks.sel = 0 ∧ tfind S0.pkg.ks.keys 1 = none ∧ S0.pkg.ks.testMode = false ∧ S0.isSealed 0x10000 = true ∧ S0.dirtyLines (granBase 0x10000 (S0.gran512 0x10000)) (S0.gran512 0x10000) = []
    ∧ Memory.wf S0.dram ∧ (∀ e ∈ S0.l2, e.2.slot ≠ 1 ∨ e.2.dirty = 0) := by decide +kernel
theorem witness_LinkBootAndPowerEvents : (State.reset.die 0).bootHalted = false ∧ (State.reset.die 0).boot = 0 ∧ State.reset.on ∧ State.reset.pkg.hostMods ≠ 0
    ∧ ({ State.reset with pkg := { State.reset.pkg with off := true } } : State).pkg.off = true := by decide +kernel
theorem test_bootStage0 : nextB (exec (.bootStage 0 true) State.reset) (fun t => (t.die 0).boot = 1 && (t.die 0).dcc.started && t.atLocked tgtKey) = true := by decide +kernel
theorem test_power_removed : (match step { State.reset with pkg := { State.reset.pkg with off := true } } with | .fault .powerRemoved => true | _ => false) = true := by decide +kernel
/-- LOAD of slot 0 sets ERR (Table 15-3). -/
theorem test_ksLoad_slot0 : nextB (exec .ksLoad (S0.setKs { S0.pkg.ks with busy := 1 })) (fun t => t.pkg.ks.err && t.pkg.ks.busy = 0) = true := by decide +kernel

/-! ### The privileged instructions -/

theorem test_partsplit : nextB (exec (.partsplit ctl3) (D .free 1)) (fun t => t.parts = [2, 3] && t.leaf.readS 4 = 0) = true := by decide +kernel
theorem test_partsplit_busy : nextB (exec (.partsplit ctl3) (D .running 1)) (fun t => t.parts = [1] && t.leaf.readS 4 = 4) = true := by decide +kernel
theorem test_partbind : nextB (exec (.partbind ctl3) (DD .bound)) (fun t => (t.ctx 1).st = .bound && (t.ctx 1).desc.poolN = 3 && t.leaf.readS 4 = 0) = true := by decide +kernel
theorem test_ctxkill : nextB (exec (.ctxkill ctl3) (D .running 1)) (fun t => (t.ctx 1).st = .draining && t.leaf.readS 4 = 0) = true := by decide +kernel
/-- A privileged instruction in user code takes PRIV_INSN: the leaf leaves its slot (R106). -/
theorem test_priv_in_user : nextB (exec (.ctxkill ctl3) S0) (fun t => (t.leafAt 0 0).mode = .idle) = true := by decide +kernel
/-- `split 0` of [3, 23) with grain 4: the left child is [3, 19), the right [19, 23) (Table 1-2, R150). -/
theorem test_split : nextB (exec (.split args) B0) (fun t =>
    ((t.ctx 1).record 1).map (fun r => ((r.lo[0]).toNat, (r.hi[0]).toNat, r.st)) = some (3, 19, RecSt.running)
    && ((t.ctx 1).record 2).map (fun r => ((r.lo[0]).toNat, (r.hi[0]).toNat, r.st)) = some (19, 23, RecSt.ready)
    && ((t.ctx 1).record 0).map (·.pend) = some 2) = true := by decide +kernel

/-! ### Further forms of the statements -/

/-- The cause of an action that traps. -/
def trapB {α : Type} (r : EStateM.Result Halt State α) : Option Cause := match r with | .error (.trap t) _ => some t.cause | _ => none
/-- A line of the L1 under another key slot: a store past the L1 faults SEAL_TENANT (R331). -/
theorem test_store_tenant : (let w := B0.who
    let s := B0.setCore w.core { B0.core w.core with l1 := [(0x10100 / 128, ⟨0, 0, 0, 0, 0, 1, 9, plainAttr, 0⟩)] }
    trapB (l1Tenant w 0x10100 s) = some .sealTenant ∧ trapB (l1Tenant w 0x20000 s) = none) := by decide +kernel
/-- The state of a control core in a ctxstop of context 1. -/
def stopW (s : State) : State :=
  let u := s.pendStop 1 Stop.request
  (u.setCtx 1 { u.ctx 1 with waiters := [0] }).completeStop 1
/-- A stop that completes at once, one that waits, and one that a kill ends (R146). -/
theorem witness_BindStartAndStop_waits : ((stopW (D .running 1)).die 0).dcc.stopRes = some 0
   ∧ ((stopW ((D .running 1).setLeafAt 0 0 { Leaf.idle with ctx := 1, mode := .running })).die 0).dcc.stopRes = none
   ∧ ((((stopW ((D .running 1).setLeafAt 0 0 { Leaf.idle with ctx := 1, mode := .running })).kill 1 .ctxKilled).die 0).dcc.stopRes = some 6) := by decide +kernel
/-- A leaf of the child 1 of record 0. -/
def JE (pend : Nat) : State := (B0.setCtx 1 { B0.ctx 1 with recs := [(0, { rec0 with st := .waiting, pend := pend, children := some (⟨1, false⟩, ⟨2, false⟩) }), (1, { rec0 with parent := 0, sticky := 2 })] }).setLeafAt 0 0 { B0.leafAt 0 0 with recIdx := 1, dropMag := 5, flags := 4 }
/-- The end of the last child makes the parent JOINING; an earlier one, pruned, frees the slot and its record (R26, R158, R164). -/
theorem test_endBox : (let t := (JE 1).endBox 0 0 false true
     ((t.ctx 1).record 0).map (fun r => (r.st, r.sticky, r.pend)) = some (RecSt.joining, 6, 0) ∧ (t.ctx 1).drop = 5 ∧ (t.ctx 1).dropTaint = true ∧ (((t.ctx 1).record 1).map (·.st)) = some .waiting)
   ∧ (let t := (JE 2).endBox 0 0 true false
     ((t.ctx 1).record 0).map (fun r => (r.st, r.sticky, r.pend)) = some (RecSt.waiting, 6, 1) ∧ (t.leafAt 0 0 = Leaf.idle) ∧ (t.ctx 1).record 1 = none) := by decide +kernel
/-- The checks of one element in their order, at the boundaries of each window (R178, R51, R168, R314). -/
theorem test_elementChecks : [(2 ^ 48, 1, Kind.load), (0x20101, 2, .load), (0xFFFE00007FFF, 1, .store), (0xFFFE00008000, 1, .store), (0xFFFE00100000, 1, .load), (0xFFFE00000000, 4, .atom),
    (0xFFFF00000000, 4, .ws), (0xFFFF00800000, 4, .load), (0xFFFF00200000, 4, .load), (0xFFFF10100000, 4, .load), (0xFFFF00180000, 4, .load),
    (0xFFF0800001FC, 4, .load), (0xFFF080000200, 4, .load), (0xFFF000000000, 4, .load), (0xFFF100000000, 4, .load), (0xFFF080000000, 4, .ws), (0xFFF080000000, 4, .atom),
    (0x20100, 4, .ws), (0x20100, 4, .load), (0x20100, 4, .store), (0x50000, 4, .load)].map (fun p => trapB (checkAccess (B []).actor p.1 p.2.1 p.2.2 (B []))) =
   [some .addrNoncanon, some .addrAlign, none, some .scrAddrBad, some .scrAddrBad, some .atomSpace,
    none, some .scrAddrBad, some .scrAddrBad, some .scrAddrBad, some .scrAddrBad,
    none, some .portRange, some .portKind, some .portKind, some .portKind, some .portKind,
    some .wsSpace, none, none, some .xlatWalkSeal] := by decide +kernel
theorem test_elementChecks_partition_and_capability : trapB (checkAccess (B []).actor 0xFFFF40000000 4 .load ((B []).setCtx 1 { (B []).ctx 1 with node := 4 })) = some .scrOutOfPart
    ∧ trapB (checkAccess { (B []).actor with ctx := 2 } 0x20100 4 .store { B [] with tlb := tset (B []).tlb 0 (tset (tget [] (B []).tlb 0) (tlbKey 2 0x20000) ⟨BitVec.ofNat 64 (2 ^ 52 + 0x10000 + 0x1B), 3⟩), ctxs := tset (B []).ctxs 2 ((B []).ctx 1) }) = some .capAbsent := by decide +kernel
/-- A control core with three pages: the control space, memory that is not written, an address that names nothing. -/
def DS : State := { D0 with svMap := [⟨0, 0x3000000000000, 0x1000, true, true, true⟩, ⟨0x1000, 0x10000, 0x1000, true, false, true⟩, ⟨0x2000, 0x1000000000000, 0x1000, true, true, true⟩] }
theorem test_elementChecks_supervisor : [(0, 8, Kind.ws), (0x5000, 8, .load), (0x1000, 8, .store), (0, 4, .load), (0, 8, .atom), (0, 8, .load), (0x1000, 4, .load), (0x2000, 8, .load)].map (fun p => trapB (checkAccess DS.actor p.1 p.2.1 p.2.2 DS)) =
    [some .wsSpace, some .xlatInvalid, some .xlatPerm, some .addrAlign, some .atomSpace, none, none, some .xlatPaRange] := by decide +kernel
/-- Entry 0 of a table at 0x10200. -/
def T1 (e : Nat) : State := { B0 with mem := writeBytes B0.mem 0x10200 (toBytes 8 e) }
/-- One level of a walk, by entry and level (R322). -/
theorem test_walk_levels : [(0, 3), (1 + 4, 3), (1, 3), (3, 0), (3 + 0x10000, 2), (3 + 0x10000, 3), (3 + 16, 3), (3 + 64, 3), (1 + 2 ^ 52, 2)].map (fun p => trapB (walk B0.who 0 1 p.2 0x10200 (T1 p.1))) =
    [some .xlatInvalid, some .xlatRsvd, some .xlatRsvd, some .xlatRsvd, some .xlatRsvd, none, some .xlatRsvd, some .xlatRsvd, some .xlatRsvd] := by decide +kernel
/-- The leaf entry of the page of data. -/
def TX (e : Nat) : State := { B0 with tlb := tset B0.tlb 0 (tset [] (tlbKey 1 0x20000) ⟨BitVec.ofNat 64 e, 3⟩) }
theorem test_translate_permissions : [(2 ^ 52 + 0x10000 + 0x1B, Acc.store), (2 ^ 52 + 0x10000 + 0x0B, .store), (2 ^ 52 + 0x10000 + 0x13, .load), (2 ^ 52 + 0x10000 + 0x13, .atom), (2 ^ 52 + 0x10000 + 0x1B, .fetch), (2 ^ 52 + 0x10000 + 0x21B, .load),
    (2 ^ 48 + 0x1B, .load), (2 ^ 52 + 2 ^ 51 + 0x1B, .store), (2 ^ 53 + 0x10000 + 0x1B, .load)].map (fun p => trapB (translate B0.who 1 0x20100 p.2 (TX p.1))) =
    [none, some .xlatPerm, some .xlatPerm, some .xlatPerm, some .xlatPerm, some .xlatPerm, some .xlatPaRange, some .xlatPerm, some .regionUndef] := by decide +kernel

/-- A launch that was aborted. -/
def BD : State := B0.setCtx 1 { B0.ctx 1 with launch := some { launch0 with abort := some 3 } }
theorem witness_SplitFitAndWalk_dead : (BD.boxView.map (·.l.dead)) = some true ∧ BD.ringAwaited 1 BD.leaf = false
    ∧ BD.scratchBusy 0 0 = false ∧ BD.leaf.mxFault = [] ∧ BD.mxBusy none = false := by decide +kernel
/-- In a launch that was aborted, walk ends the box: its leaf is gone (R29). -/
theorem test_walk_dead : nextB (exec (.walk args) BD) (fun t => (t.leafAt 0 0).mode = .idle) = true := by decide +kernel
/-- A translation of the page of data. -/
def trH : Tr := { tr0 with attr := { plainAttr with src := AttrSrc.page } }
theorem witness_StoreThenLoadInL1_home : B0.homeOf trH.pa = .lpddr 0 16 0x104 ∧ B0.linkLost 0 0 = false ∧ B0.admits (tgtL2 0 16) B0.actor.who.id B0.actor.who.dom true = true
    ∧ trH.attr.src = AttrSrc.page ∧ B0.waysOf 0 trH.attr.part ≠ 0 ∧ granBase trH.pa trH.attr.g512 = 0x10000 ∧ granSize trH.attr.g512 = 4096
    ∧ recQ (B0.sealRec 0x10000) = false ∧ (List.range 32).all (fun i => tfind B0.l2 (0x10000 / 128 + i) = some presentLine) = true
    ∧ tfind (B0.core 0).l1 (trH.pa / 128) = none := by decide +kernel
/-- A store past the L1 changes its bytes at the home (R187). -/
theorem test_st_noalloc : nextB (exec (.st { mem1 .n16 (c := .s 2) with hint := 3 }) (B [(1, datA + 2), (2, 0xABCD)])) (fun t => ofBytes (readBytes t.mem 0x10100 8) = 0x11223344ABCD7788) = true := by decide +kernel
/-- A leaf of context 1 on core 0 that names a word of the one on core 1. -/
def WR : State := (B [(1, 0xFFFF00800008), (2, 7)]).setLeafAt 1 0 { B0.leaf with mode := .running }
theorem witness_WordStateInstructions_remote : okB (checkAccess WR.actor (eaOf (mem1 .n32) WR).1 4 .ws WR) (fun tg s1 => tg = .scr 1 8 && okB (ordBefore (mem1 .n32) s1) fun _ s2 => s2.curCore ≠ 1) = true
   ∧ WR.leaf.msg = none := by decide +kernel
theorem test_remote_stf : nextB (exec (.stf (mem1 .n32 (c := .s 2))) WR) (fun t => (t.leafAt 0 0).mode = .waiting && nextB (exec (.remoteWsOp (leafKey 0 0)) t) fun u => u.scrWord 1 2 = ⟨7, 1, false⟩ && (u.leafAt 0 0).pc = 0x10010) = true := by decide +kernel
theorem witness_AtomAtItsHome_granule : recQ (B0.sealRec (granBase 0x10100 false)) = false ∧ B0.waysOf 0 0 ≠ 0 ∧ (B0.attrFor plainAttr 0x10100).g512 = false := by decide +kernel
/-- That state with a table that walks the page of the data; only one line of the table is present, and its granule cannot be read. -/
def BP : State := { BL.quarantine 0x13000 false with
  mem := writeBytes (writeBytes (writeBytes [] 0x10100 (toBytes 8 0x1122334455667788)) 0x13000 (toBytes 8 0x13001)) 0x13010 (toBytes 8 (2 ^ 52 + 0x10000 + 0x1B))
  l2 := [(0x10100 / 128, presentLine), (0x13000 / 128, presentLine)] }.setCtx 1 { BL.ctx 1 with desc := { (BL.ctx 1).desc with root := 0x13000 } }
theorem witness_orderingDoes : tfind (BL.core 0).l1 (0x10100 / 128) = some lineB ∧ lineB.dirty ≠ 0 ∧ BL.homeOf (0x10100 / 128 * 128) = .lpddr 0 16 0x100
   ∧ BL.linkLost (coreDie 0) 0 = false ∧ BL.admits (tgtL2 0 16) (masterId 0) (some lineB.owner) true = true ∧ tfind BL.l2 (0x10100 / 128) = some presentLine
   ∧ presentLine.slot = lineB.slot ∧ BL.waysOf 0 lineB.attr.part ≠ 0 ∧ BP.setPred false 1 (some rule0) (0x10100 / 128) = true ∧ BP.setPred false 1 (some rule0) (0x11000 / 128) = false := by decide +kernel
/-- A release of die scope with the ports' set cleans the line, and an acquire drops it (R182). -/
theorem test_release : (let t := BP.release 0 1 (some rule0) 1 false
   ofBytes (readBytes t.mem 0x10100 8) = 0x1122334455667711 ∧ (tfind (t.core 0).l1 (0x10100 / 128)).map (·.dirty) = some 0) := by decide +kernel
theorem test_acquire : tfind ((BP.acquire 0 1 (some rule0) 3 false).core 0).l1 (0x10100 / 128) = none := by decide +kernel
theorem test_swap_taint : nextB (exec (.atomSwap atomArgs) (B [(1, datA + 36), (2, 5)])) (fun t => (tfind t.l2 (0x10100 / 128)).map (·.taint) = some 0b0010#4) = true := by decide +kernel

/-- A field of a card. -/
def cf (off v : Nat) : Nat := v * 2 ^ (8 * off)
/-- A job of a function on a card, over the page of data. -/
def jobOf (fn card : Nat) : Job := { jobW with fn := fn, card := BitVec.ofNat 1024 (card ||| (cf 4 0x1000 + cf 8 0x20000 + cf 0x10 0x20000 + cf 0x18 0x1000)), reads := [(0x20000, 0x21000)], writes := [(0x20000, 0x21000)], unit := 0, pend := [] }
def copyJob : Job := jobOf 0 copyCard
def gathCard : Nat := cf 0x20 0x20180 + cf 0x28 0x20300 + cf 0x30 0x20200 + cf 0x38 2 + cf 0x3C 4 + cf 0x40 4 + cf 0x44 4 + cf 0x48 0xFFFFFFFF
/-- The data with an index list 2, 0xFFFFFFFF, 4 at 0x20200 and a table of words from 0x20180. -/
def GS : State := { B0 with mem := writeBytes (writeBytes B0.mem 0x10200 (toBytes 12 (2 + 0xFFFFFFFF * 2 ^ 32 + 4 * 2 ^ 64))) 0x10180 (toBytes 16 (0x33 * 2 ^ 64)) }
theorem witness_engineUnits_copy_and_gather : okB (unitCopy 0 copyJob E0) (fun r _ => r.2 = none && (r.1.map JobWrite.adds).sum = 64) = true
    ∧ okB (engRead 0 copyJob 64 0x20180 64 E0) (fun r _ => r.2 = none && r.1.length = 64) = true
    ∧ okB (engRead 0 { copyJob with card := BitVec.ofNat 1024 (cf 4 0x10 + cf 8 0x20180) } 64 0x20180 64 E0) (fun r _ => r.2 = some .engFootprint) = true
    ∧ [0, 1, 2].map (fun i => match idxAt 0 (jobOf 1 gathCard) i GS with | .ok r _ => r.1 | .error _ _ => 77) = [2, 0xFFFFFFFF, 4]
    ∧ okB (unitGath 0 (jobOf 1 gathCard) 0 GS) (fun r _ => (r.map writtenBytes).flatten = [(0x20300, 0x33), (0x20301, 0), (0x20302, 0), (0x20303, 0)]) = true
    ∧ okB (unitScat 0 (jobOf 2 gathCard) 1 GS) (fun r _ => r = []) = true ∧ okB (unitScat 0 (jobOf 2 gathCard) 0 GS) (fun r _ => r ≠ []) = true
    ∧ okB (unitGath 0 (jobOf 1 gathCard) 2 GS) (fun _ _ => true) = false := by decide +kernel
/-- Two runs of 4 bytes; the second is outside the limit of its bounded coordinate. -/
def winCard : Nat := cf 0x20 0x20180 + cf 0x28 0x20300 + cf 0x30 4 + cf 0x32 0xAB + cf 0x34 1 + cf 0x40 2 + cf 0x42 1 + cf 0x44 4 + cf 0x48 4 + cf 0x50 1 + cf 0x60 1 + cf 0x70 1
theorem witness_engineUnits_win : winInside (BitVec.ofNat 1024 winCard) 0 0x34 0x38 2 = true ∧ winInside (BitVec.ofNat 1024 winCard) 1 0x34 0x38 2 = false
    ∧ okB (unitWin 0 (jobOf 3 winCard) 0 GS) (fun r _ => ((r.map writtenBytes).flatten.map (·.1)) = [0x20300, 0x20301, 0x20302, 0x20303]) = true
    ∧ okB (unitWin 0 (jobOf 3 winCard) 1 GS) (fun r _ => (r.map writtenBytes).flatten = [(0x20304, 0xAB), (0x20305, 0xAB), (0x20306, 0xAB), (0x20307, 0xAB)]) = true
    ∧ (∀ k ∈ List.range 4, 1 ≤ winN (BitVec.ofNat 1024 winCard) k) := by decide +kernel
def decCard : Nat := cf 0x20 0x20180 + cf 0x28 0x20300 + cf 0x30 0x20500 + cf 0x38 32 + cf 0x40 1 + cf 0x44 32
/-- Window 0 of the string core of the data: rows of one block of 8 bytes from PA 0x10180, scales at 0x10400, for context 1. -/
def FW : State := { B0 with mem := writeBytes B0.mem 0x10400 (toBytes 2 0x7F) }.setDie 0 { B0.die 0 with
  fwin := ([0x10180, 0x80, 0x10400, 16, 32, 2 ^ 34 + 32, 0, 1] : List Nat).zipIdx.foldl (fun (t : Tbl Quad) (e : Nat × Nat) => tset t (16 * 128 + e.2) (BitVec.ofNat 64 e.1)) [] }
theorem witness_engineUnits_dec : okB (decRow 0 (jobOf 4 decCard) 0 FW) (fun r s1 => r = (0, 0x10180, 16 * 16) && (match s1.fwinOf 0 16 0 with
     | some f => f.rstr = 32 && f.bud = 8 && okB (decWord (s1.engActor 0 (jobOf 4 decCard)).who f 0x20180 0 0 s1) (fun w s2 => w.1 = 0x7F && scaleFault w.1 = none
        && okB (decPayload 0 (jobOf 4 decCard) f 0x20180 0 w.1 s2) fun p s3 => okB (fwinTable (s1.engActor 0 (jobOf 4 decCard)).who f false s3) fun tb _ =>
           match decodeChunk f.bud tb.1 [(p.1, w.1)] 32 with | .ok _ => true | .error _ => false)
     | none => false)) = true := by decide +kernel
theorem test_unitDec : okB (unitDec 0 (jobOf 4 decCard) 0 FW) (fun r _ => r.2 = planesOf 8 * 32 + 16) = true := by decide +kernel
/-- A word of the leaf's scratchpad as a job finds it. -/
def scrJob : Job := { jobOf 0 copyCard with writes := [(0xFFFF00000000, 0xFFFF00001000)], entry := B0.leaf.entry }
theorem witness_engineRuns : okB (engWord 0 scrJob 0xFFFE00000008 .store (W 1)) (fun r _ => r.1.st = 1 && r.2.isSome) = true
   ∧ B0.ownPlace 1 B0.leaf.entry = some (.slot 0 0, 0x8000) ∧ engInside 0 scrJob 0xFFFE00000008 4 = true ∧ engInside 0 scrJob 0xFFFE00002000 4 = false := by decide +kernel
/-- A job with WS waits at a FULL word, and its write makes an EMPTY one FULL (R217). -/
theorem test_engReady : [0, 1, 2, 3].map (fun st => match engReady 0 { scrJob with card := 0x100#1024 } (.word 0xFFFE00000008 7 false false 4) (W (BitVec.ofNat 2 st)) with
    | .ok _ _ => 0 | .error .wait _ => 1 | .error (.trap t) _ => causeCode t.cause) = [0, 1, causeCode .engWsEnd, causeCode .engWsPoison] := by decide +kernel
theorem witness_tileStep : ((MQ.core 0).mxq.map fun j => (MQ.jobSlot 0 j.ctx j.entry, j.step)) = [(some 0, 0)]
    ∧ ((MQ.core 0).mxq.all fun j => okB (mxRows (MQ.jobActor 0 0 j.hint) j.da j.na j.kb 0 MQ) fun ra s1 => ra.length ≤ 128 && okB (mxRows (MQ.jobActor 0 0 j.hint) j.db j.nw j.kb 0 s1) fun rb _ => rb.length ≤ 128) = true := by decide +kernel

/-- A launch packet for rule 0 of the kernel object at 0x20300, on the box [0, 16), with no ordering. -/
def launchN : Nat := 0x2000 + 0x7E0 + cf 2 1 + cf 8 0x20300 + cf 0x20 16 + cf 0x24 1 + cf 0x28 1 + cf 0x2C 1 + cf 0x38 0x20180
/-- A kernel object of one rule of rank 1, grain 4, with no port. -/
def kernelN : Nat := 0x4B584E31 + cf 4 1 + cf 6 1 + cf 8 0x10000 + cf 0x10 0x20340 + cf 0x18 0x20380 + cf 0x20 0x20380 + cf 0x28 0x1000
/-- Its rule. -/
def ruleN : Nat := cf 4 0xFFFFFFFF + cf 8 4 + cf 0xC 1 + cf 0x10 1 + cf 0x14 1 + cf 0x18 1
/-- The queue of N0 with that packet, its kernel object, and a record pool. -/
def NL : State :=
  let s := N0.setCtx 1 { N0.ctx 1 with node := 64, recs := [], desc := { (N0.ctx 1).desc with poolVa := 0x30000 } }
  { s with mem := writeBytes (writeBytes s.mem 0x10100 (toBytes 64 launchN)) 0x10300 (toBytes 128 (kernelN + 2 ^ 512 * ruleN)) }
theorem witness_QueueAndNoticeEvents_launch : NL.launchWinner 0 = some 0
    ∧ okB (attempt (readPacket 0 0) NL) (fun r t => match r with
      | .ok p => p.good && p.type = 1 && p.ctx = 1 && okB (attempt (launchCheck 0 1 p) t) fun r _ => match r with
        | .ok (text, rules) => text = 0x10000 && rules.length = 1 && (rules[p.at 4 4]?).isSome | .error _ => false
      | .error _ => false) = true := by decide +kernel
/-- The launch is accepted: RDIDX moves, and the root is READY in a deque (R365, R374). -/
theorem test_launch : nextB (exec (.packetServe 0 0) NL) (fun t => (t.queue 0 0).rdidx = 1 && (t.queue 0 0).inflight = 1
    && ((t.ctx 1).record 0).map (fun r => (r.st, (r.hi[0]).toNat)) = some (RecSt.ready, 16) && (t.ctx 1).deques.length = 1) = true := by decide +kernel
theorem witness_QueueAndNoticeEvents_fresolve : (let z := { B0.ctx 1 with faulted := [(0, ⟨.userTrap, false⟩)] }
   let s := B0.setCtx 1 z
   (s.fresolve 1 0 false).2 = 0 ∧ (s.fresolve 1 3 false).2 = 1 ∧ ((s.setCtx 1 { z with st := .draining }).fresolve 1 0 true).2 = 2 ∧ ((s.fresolve 1 0 true).1.ctx 1).launch.map (·.fail) = some (some .userTrap)) := by decide +kernel
/-- The merge of two halves of a view: 3 and 4 give the operator's result in the parent's chunk. -/
theorem test_merge : nextB (exec (.jigsawMerge 1 0) JM) (fun t => ((t.ctx 1).record 0).map (fun r => (r.mergeDone, r.children, (tfind r.chunks (chunkKey 1 0)).isSome)) = some (true, none, true)) = true := by decide +kernel
/-- A context whose view chunks have no slice and no spill area. -/
def JN : State := JM.setCtx 1 { JM.ctx 1 with desc := { (JM.ctx 1).desc with part := 1 } }
/-- The merge of its views. -/
def runOf (s : State) : EStateM.Result Halt State (Except (Nat × Trap) Flags) :=
  mergeViews 0 1 0 (fun n => rule0.opOf n) ((s.ctx 1).childViews ⟨1, false⟩) ((s.ctx 1).childViews ⟨2, false⟩) [] s
theorem witness_ContextEvents_mergeViews : okB (runOf JM) (fun r _ => r.toOption.isSome) = true
    ∧ okB (runOf JN) (fun r _ => match r with | .error e => e.2.cause = .viewSpace | .ok _ => false) = true
    ∧ okB (chunkOpen 0 1 0 (chunkKey 1 0) 1 true JM) (fun ch _ => ch.spill = none) = true := by decide +kernel
/-- A READY record of a cohort rule, at a partition that no context holds, with room and so many images. -/
def CH (imgs : Nat) (held : Tbl Nat := []) : State :=
  let s := RP.setCtx 1 { RP.ctx 1 with
    launch := some { launch0 with rules := [{ rule0 with cohort := true, ports := [] }] }
    node := 64
    desc := { (RP.ctx 1).desc with imgCnt := imgs } }
  { s with holders := held, leaves := [] }
/-- That state as a decision finds it: the ready list read, the deques dealt. -/
def CV (imgs : Nat) : State :=
  let r := (CH imgs [(64, 1)]).readReady 1
  ((r.setCtx 1 (r.ctx 1).restoreReady).refreshAll 1).featureCheck 1
theorem witness_ContextEvents_cohort : tfind (CH 4).holders 64 = none ∧ (CH 4).bestOf 64 = some 1
    ∧ ((CV 4).ctx 1).cohort = true ∧ (((CV 4).startAll 1).ctx 1).allStarted = true
    ∧ ((CV 0).ctx 1).cohort = true ∧ (((CV 0).startAll 1).ctx 1).allStarted = false := by decide +kernel

/-- Sums and products of finite values, zero and not; a group of blocks that align and are not ZERO. -/
theorem witness_RoundingToNearestEven : fvRat (.fin false 3 (-1)) = 3 / 2 ∧ fvRat (.fin false 3 (-1)) + fvRat (.fin true 1 0) ≠ 0
    ∧ fvRat (.fin false 1 0) + fvRat (.fin true 1 0) = 0 ∧ fvRat (.fin false 3 (-1)) * fvRat (.fin true 0 0) = 0
    ∧ fdecode fmtF32 0x3F800000 = .fin false 0x800000 (-23) ∧ (∀ b ∈ [((3 : Int), (-4 : Int), false), (5, 2, false)], b.2.2 = false ∧ ∀ d ∈ [((3 : Int), (-4 : Int), false), (5, 2, false)], d.2.1 ≤ b.2.1 + 16) := by decide +kernel
/-- A combining-buffer entry; an image that cannot be written; a granule that is absent. -/
def entry0 : CEntry := { pa := 0x10100, va := datA, op := .add, ety := .n32, value := 1, taint := false, ctx := 1, attr := plainAttr, inPort := false, count := 1, leaf := 0 }
theorem witness_ContainmentAndMemory : ((B0.setCore 0 { B0.core 0 with cbuf := [entry0] }).core 0).cbuf.find? (fun e => e.pa = 0x10100) = some entry0
    ∧ (S0.suspendLeaf 0 0 0x10000).2.isSome = true
    ∧ B0.isSealed 0x30000 = true ∧ (B0.l2.any fun e => 0x30000 / 128 ≤ e.1 && e.1 < 0x31000 / 128) = false
    ∧ okB (fillGranule { whoDcc (B0.homeDie 0x30000) with slot := 0 } 0x30000 { B0.plainAt 0x30000 with g512 := false, anchor := false } (B0.setKs { B0.pkg.ks with keys := [(0, 0)] })) (fun _ _ => true) = true := by decide +kernel
theorem witness_RegisterAndKeyEvents_admitted : (hostMay (tgtDie 0) S0).master = .host 0 ∧ S0.pkg.hostMods ≠ 0
    ∧ (hostMay (tgtDie 0) S0).ctrlAdmits (3 * 512) (dieCtrl 0 + 0x100) (some 0) = true ∧ S0.ctrlAdmits (3 * 512) (dieCtrl 0 + 0x100) (some 0) = false
    ∧ S0.ctrlAdmits (3 * 512) (pkgCtrl + 0x1010) (some 1) = true
    ∧ (let s := S0.setKs { S0.pkg.ks with testMode := true }
       s.pkg.ks.testMode = true ∧ s.isSealed 0x10000 = true ∧ s.dirtyLines (granBase 0x10000 (s.gran512 0x10000)) (s.gran512 0x10000) = []) := by decide +kernel

/-! ### Pickups -/

/-- The accepted launch, with images and a free slot, at a partition that context 1 holds; the images are in a page of package 1, which port 0 reaches. -/
def NP : State :=
  let s := (NL.setPort 0 { S0.pkg.port 0 with up := true, enabled := true, route := 2 }).setCtx 1 { NL.ctx 1 with desc := { (NL.ctx 1).desc with poolVa := 0x20600, imgCnt := 4 } }
  let s := { s with tlb := tset s.tlb 1088 (tset (tget [] s.tlb 1088) (tlbKey 1 0x30000) ⟨BitVec.ofNat 64 (2 ^ 52 + 0x4000000000000 + 2 ^ 45 + 0x80000 + 0x21B), 3⟩) }
  let t := match exec (.packetServe 0 0) s with | .next t => t | _ => s
  { t with holders := [(64, 1)] }
def pickReady : Bool :=
  match attempt (loadRec 1 0) (NP.setCtx 1 ((NP.ctx 1).unlist 0)) with
  | .ok (.ok r) t => r.st = RecSt.ready && r.resume = 0 && r.snap.isNone && (t.ctx 1).freeImg = some 0
    && (t.ctx 1).launch.any (fun l => !l.dead && (l.rules[r.rule]?).isSome) && r.rankM1 = 0 && (r.lo[0]).toNat < (r.hi[0]).toNat
  | _ => false
theorem witness_pickupDoes_ready : NP.fillPick 0 1 = some (1, 0) ∧ pickReady = true := by decide +kernel
/-- A READY record starts in the slot at its rule's entry, and takes an image slot (R47, R148, R368). -/
theorem test_pickup_ready : nextB (exec (.recordPickup 0 1) NP) (fun t => (t.leafAt 0 1).mode = .running && (t.leafAt 0 1).pc = 0x10000
    && ((t.ctx 1).record 0).map (fun r => (r.st, r.slot)) = some (.running, 1) && (t.ctx 1).imgUsed = [0]) = true := by decide +kernel
/-- The record SUSPENDED, its image naming the sixth word as its PC. -/
def NS : State :=
  let s := { NP with podMem := writeBytes NP.podMem (0x4000000000000 + 2 ^ 45 + 0x80200) (toBytes 8 0x10050) }
  match (s.ctx 1).record 0 with
  | some r => (s.setCtx 1 { (s.ctx 1).unlist 0 with suspended := [0], imgUsed := [0] }).setRec 1 0 { r with st := .suspended, resume := 0x30000, held := true, slot := 1 }
  | none => s
def pickSuspended : Bool :=
  match attempt (loadRec 1 0) (NS.setCtx 1 ((NS.ctx 1).unlist 0)) with
  | .ok (.ok r) s' =>
    let a := (s'.setCtx 1 { s'.ctx 1 with recs := tset (s'.ctx 1).recs 0 r }).acquire 0 1 none 3 true
    r.resume = 0x30000 && r.held && okB (readImage 0 1 0x30000 (a.resumeBase 1 0 r) a) (fun L _ => L.pc = 0x10050)
  | _ => false
theorem witness_pickupDoes_suspended : NS.fillPick 0 1 = some (1, 0) ∧ pickSuspended = true := by decide +kernel
/-- It resumes with the PC of its image, RESUME 0 (R35). -/
theorem test_pickup_suspended : nextB (exec (.recordPickup 0 1) NS) (fun t => (t.leafAt 0 1).mode = .running && (t.leafAt 0 1).pc = 0x10050
    && ((t.ctx 1).record 0).map (fun r => (r.st, r.resume)) = some (.running, 0)) = true := by decide +kernel

/-! ### Granules, keys, power -/

/-- The data with the key of slot 0 loaded, and with a line of it dirty. -/
def GF : State := B0.setKs { B0.pkg.ks with keys := [(0, 0)] }
def GD : State := { GF with l2 := tset GF.l2 (0x10100 / 128) { presentLine with dirty := 1, owner := 1 } }
theorem witness_granuleFills_and_writes : okB (fillGranule { whoDcc 0 with slot := 0 } 0x30000 { plainAttr with part := 0 } GF) (fun _ _ => true) = true
    ∧ GF.cxlGone 0x30000 = false ∧ GD.cxlGone 0x10000 = false ∧ tget 0 GF.ueMarks (0x30000 / 512) = 0 ∧ recQ (GF.sealRec 0x30000) = false ∧ recZ (GF.sealRec 0x30000) = true ∧ field (GF.sealRec 0x30000).toNat 107 21 = 0
    ∧ recSlot (GF.sealRec 0x30000) = 0 ∧ (tfind GF.pkg.ks.keys 0).isSome = true ∧ recSlot (GF.sealRec 0x30000) ≠ 5 ∧ Memory.wf GF.mem
    ∧ Memory.wf GD.dram ∧ GD.dirtyLines 0x10000 false ≠ [] ∧ (GD.keyOf 0 0).isSome = true ∧ 0x10000 % granSize false = 0 := by decide +kernel
/-- A write of KS_TAMPER while the key store is busy only sets ERR (R429). -/
theorem test_tamper_busy : nextB (exec (.ksTamper (BitVec.ofNat 64 (2 ^ 56))) (hostMay tgtKey (S0.setKs { S0.pkg.ks with testMode := true, busy := 1 })))
    (fun t => t.pkg.ks.err && t.pkg.ks.busy = 1) = true := by decide +kernel
/-- The next power-up after the critical temperature runs and reports the event (R418). -/
theorem test_power_up : nextB (exec (.thermalCritical 0) B0) (fun t => t.pkg.off && t.ctxs = [] && (match step t with | .fault .powerRemoved => true | _ => false)
    && nextB (step { t with turns := [.act .packageReset] }) fun u => !u.pkg.off && u.pkg.reports = [.powerEvent]) = true := by decide +kernel

/-! ### Members that die, rings of saved leaves, float terms -/

theorem witness_killDoes : ({ EW jobW with colls := [member 0 4 (some (0, 7))] } : State).deadTags 1 = [(0, 9)] := by decide +kernel
/-- A job of another context in the same rendezvous fails with COLL_ABORT when a member's context is killed (R228, R393). -/
theorem test_kill_members : (let s := ({ EW jobW with colls := [member 0 4 (some (0, 7)), member 0 4 (some (0, 8))] } : State).setJob 0 8 { jobW with ctx := 2 }
    let t := s.kill 1 .ctxKilled
    (t.job 0 8).map (·.fail) = some (some .collAbort) ∧ t.job 0 7 = none ∧ t.colls = []) := by decide +kernel
/-- A record whose leaf is saved. -/
def RS : State := RP.setCtx 1 { RP.ctx 1 with recs := [(0, { rec0 with st := .waiting }), (1, { rec0 with st := .suspended, core := 0, slot := 1 })] }
def ringJob (n : Nat) : Job := { jobW with card := BitVec.ofNat 1024 (cf 0x28 n) }
theorem witness_ringSaved : ((RS.ctx 1).record 1).isSome = true ∧ (0 + 4 * cardAt (ringJob 4).card 0x28 4 ≤ 0x1000) ∧ ¬ (0 + 4 * cardAt (ringJob 4096).card 0x28 4 ≤ 0x1000) := by decide +kernel
theorem test_ringSaved : (match RS.ringSaved 1 0x1000 0 (ringJob 4) with
    | .ok u => ((u.ctx 1).record 1).map (fun r => r.rings.length) = some 1
    | .error _ => false) = true := by decide +kernel
/-- An entry of a float sum; one leaf's 2^-24 twice combines to 2^-23, and another leaf's mixes with it (R205, R424). -/
def entryT : CEntry := { entry0 with ety := .f32, value := 0x33800000 }
def CB : State := B0.setCore 0 { B0.core 0 with cbuf := [entryT] }
theorem witness_redHome : (let d := CB.dropForAtom 0 (0x10100 / 128)
    okB (atomHome (d.whoFor 0 1) 0x10100 .f32 .add 0x33800000 0 false false plainAttr 1 d) fun _ _ => true) = true := by decide +kernel
theorem test_combine : (entryT.combine entryT).value = 0x34000000 ∧ (entryT.combine entryT).count = 2
    ∧ entryT.mixes { entryT with leaf := 1 } = true ∧ entryT.alike entryT = true ∧ entryT.mixes entryT = false := by decide +kernel
theorem test_packageReset_off : nextB (exec .packageReset { B0 with pkg := { B0.pkg with off := true } }) (fun t => t.pkg.reports = [.powerEvent]) = true := by decide +kernel

/-! ### Conversions, special functions, shuffles -/

/-- The conversions of R127's examples and of Table 8-6. -/
theorem test_conversions : cvtElem .f32 .s32 .rtz false false 0xC2F6E666 = (2 ^ 32 - 123, flagNX) ∧ cvtElem .f32 .s32 .rne false false 0x4F000000 = (0x7FFFFFFF, flagSAT)
    ∧ cvtElem .f32 .s32 .rne false false 0x7FC00000 = (0, flagIV) ∧ cvtElem .s8 .e4m3 .rne false false 100 = (0x6C, flagNX)
    ∧ cvtElem .s8 .n8 .rne false true 0xFF = (0xFF, 0) ∧ cvtElem .s8 .n8 .rne false false 0xFF = (0, flagSAT)
    ∧ cvtElem .f16 .e4m3 .rne false false 0x7C00 = (0x7E, flagSAT ||| flagNX) := by decide +kernel
/-- 2^16 overflows f16; log2 8 is 3; 1/2 and 1/√4 are exact. -/
theorem test_special : fexp2 fmtF16 false (fdecode fmtF16 0x4C00) = (0x7C00, flagOF ||| flagNX) ∧ flog2 fmtF32 false (fdecode fmtF32 0x41000000) = (0x40400000, 0)
    ∧ frcp fmtF32 false (fdecode fmtF32 0x40000000) = (0x3F000000, 0) ∧ frsq fmtF32 false (fdecode fmtF32 0x40800000) = (0x3F000000, 0) := by decide +kernel
theorem witness_specialFunctions : fdecode fmtF32 0x40800000 = .fin false 0x800000 (-21) ∧ (0x40800000 : Nat) < 2 ^ (fmtF32.bits - 1)
    ∧ fvRat (.fin false 4 0) = ((4 : Int) : Rat) ∧ fvRat (.fin false 4 0) = (2 : Rat) ^ (2 : Int) := by decide +kernel
/-- A reversal of groups of eight (KIND 5, N 3). -/
theorem witness_shuffle : field 0x35 0 4 = 5 ∧ 2 ^ field 0x35 4 12 ≤ etyCount .s32 := by decide +kernel

/-- A leaf with a matrix job queued whose context is to stop; an address in the window into the host's memory; terms that combine. -/
theorem witness_parks_window_combine : (MQ.leafAt 0 0).mode ≠ .idle ∧ (((MQ.setCtx 1 { MQ.ctx 1 with stop := some .request }).ctx (MQ.leafAt 0 0).ctx).stop.isSome = true)
    ∧ ((MQ.core 0).mxq.any fun j => j.ctx = (MQ.leafAt 0 0).ctx && j.entry = (MQ.leafAt 0 0).entry) = true ∧ ((MQ.core 0).mxq.any fun j => j.ctx = 77) = false
    ∧ 0x40000000 ≤ (pkgCtrl + 0x40000008 - 0x3000000000000) % 2 ^ 40 ∧ isControl (pkgCtrl + 0x40000008) = true ∧ (pkgCtrl + 0x40000008 - 0x3000000000000) / 2 ^ 40 = 4
    ∧ B0.master = .host 0 := by decide +kernel

/-! ### Waits and stops of box terminals, second failures, boot links -/

/-- B0 with a stop pending, and B0 with a matrix job of its leaf queued. -/
def BS : State := B0.setCtx 1 { B0.ctx 1 with stop := some .request }
def BQ : State := B0.setCore 0 { B0.core 0 with mxq := (MQ.core 0).mxq }
theorem witness_SplitFitAndWalk_waits : BS.boxView.isSome = true ∧ BS.leaf.msg = none ∧ BQ.boxView.isSome = true ∧ BQ.mxBusy none = true ∧ BQ.leaf.mxFault = []
    ∧ rec0.walk = false ∧ 2 ≤ bv0.grains 0 := by decide +kernel
/-- The completion of walk is a stop point (R371); walk waits for matrix jobs (R277). -/
theorem test_walk_stop : nextB (exec (.walk args) BS) (fun t => (t.leafAt 0 0).mode = .idle && ((t.ctx 1).record 0).map (·.st) = some .suspended) = true
    ∧ nextB (exec (.walk args) BQ) (fun t => t.leaf.mode = .waiting && ((t.ctx 1).record 0).map (·.walk) = some false) = true := by decide +kernel
/-- A second abort changes neither the code nor the jobs (R160). -/
theorem test_failLaunch_second : (let t := ({ BD with cores := BQ.cores } : State).failLaunch 1 (some 5) none
    ((t.ctx 1).launch.bind (·.abort)) = some 3 ∧ (t.core 0).mxq.length = 1) := by decide +kernel
/-- A kill drops the dirty bytes of the context in an L1 (R394). -/
theorem test_kill_l1 : (BL.kill 1 .ctxKilled).cores.all (fun e => e.2.l1.all fun l => l.2.owner ≠ 1 || l.2.dirty = 0) = true := by decide +kernel
/-- A die at boot stage 1, all of whose links are lost or none. -/
def boot1 (lost : List (Nat × Nat)) : State :=
  let s := State.reset.setDie 0 { State.reset.die 0 with boot := 1 }
  { s with pkg := { s.pkg with linksLost := lost } }
theorem witness_LinkBoot_stage1 : ((boot1 []).die 0).boot = 1 ∧ ((boot1 []).die 0).bootHalted = false ∧ (min 1 0, max 1 0) ∉ (boot1 []).pkg.linksLost
    ∧ (∀ e, e < 4 → e ≠ 0 → (min e 0, max e 0) ∈ (boot1 [(0, 1), (0, 2), (0, 3)]).pkg.linksLost) := by decide +kernel
/-- A link lost at stage 1 is that stage's failure too (R411). -/
theorem test_dieLinkLost_boot : nextB (exec (.dieLinkLost 0 2) (boot1 [])) (fun t => t.pkg.linksLost = [(0, 2)] && t.pkg.reports = [.bootFailed 0 1]) = true := by decide +kernel
/-- A suspended record is not replayed, whatever snapshot it keeps (R35, R396). -/
theorem test_replayAt : ∀ (r : Rec) (l : Leaf), ({ r with saved := some l } : Rec).replayAt = none := by intro r l; rfl

/-! ### View chunks, replayed records, ports that are down, rows of Tables 14-9 and 15-3 -/

/-- B0 with a chunk of its record's view 1 that no snapshot shares, on chip or in the spill area. -/
def VC (spill : Option Nat) : State := B0.setRec 1 0 { rec0 with chunks := [(chunkKey 1 0, { chunkOf 3 with spill := spill })] }
theorem witness_ueDoes : (B0.leafAt 0 0).mode ≠ Mode.idle ∧ (B0.allocOf 0 0).isSome = true ∧ (B0.allocOf 0 7).isNone = true ∧ (MQ.core 0).mxq[0]?.isSome = true
    ∧ ((EW jobW).job 0 7).any (fun j => !j.pend.isEmpty) = true ∧ ((EW { jobW with pend := [], unit := 1 }).job 0 7).any (fun j => j.pend.isEmpty && j.unit ≠ 0) = true
    ∧ [none, some 2].map (fun p => ((VC p).ctx 1).record 0 |>.bind fun r => tfind r.allChunks (ueChunk 1 0)) = [some (chunkOf 3), some { chunkOf 3 with spill := some 2 }] := by decide +kernel
/-- A kill leaves no view chunk (R394). -/
theorem test_kill_chunks : ((VC none).kill 1 .ctxKilled |>.ctx 1).recs.all (fun e => e.2.allChunks.isEmpty) = true := by decide +kernel
/-- What a record shares with its snapshot stands once in the slice; a chunk of its own beside the snapshot's makes two (R318, R396). -/
theorem test_shared_chunk : [false, true].map (fun own =>
    let t := [(chunkKey 1 0, { chunkOf 3 with own := own })]
    (({ rec0 with chunks := t, snap := some ⟨rec0.lo, rec0.hi, t, false, 0, 0, 0, 1, Vector.replicate 16 0, false, false⟩ } : Rec).onChip 0 0).length) = [1, 2] := by decide +kernel
/-- The record that a replay leaves of a snapshot with RULE 7, WAXIS 2, WALK, STICKY 3 and FEAT 5. -/
def RR : Rec := rec0.replayed ⟨rec0.lo, rec0.hi, [], false, 0, 0, 0, 1, Vector.replicate 16 0, false, false⟩
  (7 * 2 ^ 0x100 + 2 * 2 ^ 0x146 + 0x20 * 2 ^ 0x150 + 3 * 2 ^ 0x158 + 5 * 2 ^ 0x160)
/-- A replay restores them all, where Table 1-4 has them (R396). -/
theorem test_replayed : RR.rule = 7 ∧ RR.waxis = 2 ∧ RR.walk = true ∧ RR.sticky = 3 ∧ RR.feat = 5 ∧ RR.st = RecSt.ready := by decide +kernel
/-- The page of data behind the CXL port of die 0, down and up (R310). -/
def CX (up : Bool) : State :=
  let s := TX (2 ^ 52 + 2 ^ 48 + 0x10000 + 0x1B)
  s.setDie 0 { s.die 0 with cxl := if up then 0x100000003 else 0x100000000 }
theorem witness_elementChecks_cxl : [false, true].map (fun up => ((CX up).cxlGone (2 ^ 48 + 0x10100), trapB (checkAccess (B []).actor 0x20100 4 .load (CX up)))) = [(true, some .cxlDown), (false, none)] := by decide +kernel
/-- A dirty line behind the port that is down. -/
def CD : State := let s := CX false; { s with l2 := tset s.l2 ((2 ^ 48 + 0x10100) / 128) { presentLine with dirty := 1, owner := 1 } }.setKs { B0.pkg.ks with keys := [(0, 0)] }
theorem witness_granules_gone : CD.cxlGone (2 ^ 48 + 0x10000) = true ∧ CD.dirtyLines (2 ^ 48 + 0x10000) false ≠ [] ∧ recQ (CD.sealRec (2 ^ 48 + 0x10000)) = false
    ∧ recSlot (CD.sealRec (2 ^ 48 + 0x10000)) = 0 ∧ (tfind CD.pkg.ks.keys 0).isSome = true := by decide +kernel
/-- An image's line of ICLASS 0 keeps its pin while its context is bound, whatever its region's class (R373). -/
theorem test_iclass_pin : B0.pinnedBy (imgReg + 1) = true ∧ B0.pinnedBy (imgReg + 2) = false := by decide +kernel
/-- The host stores a byte of its own memory. -/
theorem test_hostStore : nextB (step { S0 with turns := [.hostStore 0x100 7] }) (fun t => t.hostMem = [(0x100, 7)]) = true := by decide +kernel
/-- A member of a broadcast that is not its root contributes nothing and reads no SRC (R228). -/
theorem test_broadcast_member : okB (collSource 0 { jobW with card := BitVec.ofNat 1024 (cf 0x30 4 + cf 0x35 3 + cf 0x36 1) } B0) (fun r _ => r = []) = true := by decide +kernel
/-- TGT 1: the bits of byte 2 of the TAG of the data's record (R429). -/
def KT : State := hostMay tgtKey (S0.setKs { S0.pkg.ks with testMode := true })
theorem witness_ksTamper_record : KT.isSealed 0x10002 = true ∧ field (2 ^ 55 + 0x81 * 2 ^ 56 + 0x10002) 52 3 = 0 ∧ KT.pkg.ks.busy = 0
    ∧ KT.dirtyLines (granBase 0x10002 (KT.gran512 0x10002)) (KT.gran512 0x10002) = [] := by decide +kernel
theorem test_ksTamper_record : nextB (exec (.ksTamper (BitVec.ofNat 64 (2 ^ 55 + 0x81 * 2 ^ 56 + 0x10002))) KT)
    (fun t => t.sealRec 0x10000 = KT.sealRec 0x10000 ^^^ 0x810000 && t.sealRec 0x20000 = KT.sealRec 0x20000) = true := by decide +kernel
/-- csrset of NOTE_EN sets the enable and sD takes the value before (R134, R381). -/
theorem test_csrset_noteEn : nextB (exec (.csrset (args (d := .s 4) (a := .s 1) (imm := 0x808))) (D .free 1)) (fun t => (t.die 0).dcc.noteEn && t.leaf.readS 4 = 0) = true := by decide +kernel
/-- vthz on floats: 1.0 is dropped under 2.0, a NaN and −3.0 stay; sC is 2^16 (R260). -/
theorem test_vthz_float : nextB (exec (.vthz (args (ety := .f32) (d := .v 1) (a := .v 2) (c := .s 5) (imm := 0x900000000000)))
    (S fun L => leafWith [(5, 7)] [(2, packed 32 [0x3F800000, 0x7FC00000, 0xC0400000])] { L with thresh := L.thresh.set 9 0x40000000 }))
    (fun t => t.leaf.readS 5 = 0x10000 && (t.leaf.v[(1 : Fin 32)]).toNat = packed 32 [0, 0x7FC00000, 0xC0400000]) = true := by decide +kernel

/-- A signalling NaN operand, a quiet one, and zeros of unlike sign (R57, R83, Table 2-9). -/
theorem witness_signAndOrder : fdecode fmtF32 0x7F800001 = .nan true ∧ fdecode fmtF16 0x7E00 = .nan false ∧ (fdecode fmtE4m3 0x80).isNaN = false
    ∧ fvBelow (fdecode fmtE4m3 0x80) (fdecode fmtE4m3 0) = true ∧ fvBelow (fdecode fmtE4m3 0) (fdecode fmtE4m3 0x80) = false
    ∧ fminmax fmtF32 true 0 0x80000000 (fdecode fmtF32 0) (fdecode fmtF32 0x80000000) = (0, 0) := by decide +kernel
/-- A NaN, an infinity and the limits of the scale word (R76, R262). -/
theorem witness_quantDoes : quantBlock 8 [.fin false 1 0, .nan false] = (0xFF, [0, 0], flagIV)
    ∧ quantBlock 8 [.inf true, .fin false 3 127] = (254, [-127, 3], flagSAT) ∧ quantBlock 4 [.fin true 15 (-1)] = (128, [-4], 0)
    ∧ dequant fmtF32 .rne false (-3) 0xFD = (0xFF400000, 0) ∧ dequant fmtF32 .rne false 3 0xFF = (fmtF32.nan, flagIV)
    ∧ dequant fmtF32 .rne false 3 0x2FF = (0, 0) ∧ dequant fmtF32 .rne true 1 0 = (0, flagUF ||| flagNX) := by decide +kernel
/-- `vsel` takes the taint of the operand taken and of the bit of pA alone (R246): lanes 0 and 1 of vB and vC are tainted, pA is 1. -/
theorem test_vsel_taint : nextB (exec (.vsel (args (ety := .n64) (d := .v 3) (a := .p 1) (b := .v 1) (c := .v 2)))
    (S fun L => { L with vT := (L.vT.set 1 3).set 2 0xC }.writeP 1 1 0)) (fun t => t.leaf.vT[(3 : Fin 32)] = 0xF#128) = true := by decide +kernel

end Sys2Proof.Tests
end

section
/-! PROOFS. The canonical split of a box (R17, R18) and the fault of `split` on a single grain (R150). -/

namespace Sys2Proof.Machine

/-! ## The canonical split -/

/-- Grain m of an axis of width w begins inside it just where m is below the grain count (R17). -/
theorem lt_grainCount_iff {g : Nat} (hg : 1 ≤ g) (m w : Nat) : m < (w + g - 1) / g ↔ m * g < w := by
  rw [Nat.lt_div_iff_mul_lt hg]
  omega

/-- The largest power of two below n is below n, and its double is not (R18). -/
theorem exists_largestPow2Below {n : Nat} (hn : 2 ≤ n) : ∃ k, largestPow2Below n = 2 ^ k ∧ 2 ^ k < n ∧ n ≤ 2 ^ (k + 1) := by
  have hle : 2 ^ (n - 1).log2 ≤ n - 1 := Nat.log2_self_le (by omega)
  have hlt : n - 1 < 2 ^ ((n - 1).log2 + 1) := Nat.lt_log2_self
  exact ⟨(n - 1).log2, rfl, by omega, by omega⟩

/-- The model's midpoint is the one of the pseudocode of R18. -/
theorem canonicalMid_eq (lo hi g : Nat) : canonicalMid lo hi g = lo + largestPow2Below ((hi - lo + g - 1) / g) * g := rfl

/-- A cut after m ≥ 1 grains, fewer than the box has, leaves a part of the box on each side. -/
theorem cut_between {lo hi g m : Nat} (hg : 1 ≤ g) (hm : 1 ≤ m) (h : m < (hi - lo + g - 1) / g) :
    lo < lo + m * g ∧ lo + m * g < hi := by
  have hw : m * g < hi - lo := (lt_grainCount_iff hg m _).mp h
  have hpos : 0 < m * g := Nat.mul_pos hm hg
  omega

/-- A box wider than a grain has at least two, and is cut after the largest power of two of them below their count (R18). -/
theorem canonicalMid_spec {lo hi g : Nat} (hg : 1 ≤ g) (h : lo + g < hi) :
    ∃ k, 2 ^ k < (hi - lo + g - 1) / g ∧ (hi - lo + g - 1) / g ≤ 2 ^ (k + 1) ∧ canonicalMid lo hi g = lo + 2 ^ k * g
      ∧ lo < canonicalMid lo hi g ∧ canonicalMid lo hi g < hi := by
  have two : 2 ≤ (hi - lo + g - 1) / g := (lt_grainCount_iff hg 1 _).mpr (by omega)
  obtain ⟨k, hk, hlt, hle⟩ := exists_largestPow2Below two
  have hmid : canonicalMid lo hi g = lo + 2 ^ k * g := by rw [canonicalMid_eq, hk]
  obtain ⟨hl, hr⟩ := cut_between hg Nat.one_le_two_pow hlt
  exact ⟨k, hlt, hle, hmid, hmid ▸ hl, hmid ▸ hr⟩

/-! ## `split` of a single grain -/

/-- A terminal of a leaf that holds box b, its guard true, does what it means for b. -/
theorem boxStep_of_holdsBox {x : Args} {s : State} {b : BoxView} (h : holdsBox s x b) (boxless : M Unit) (m : BoxView → M Unit) :
    boxStep x boxless m s = finish (m b) s := by
  obtain ⟨-, hguard, hbox⟩ := h
  rw [boxStep, guardedStep_active _ hguard, hbox]

/-- `split` of a box that passes the checks of axis, join body and walk faults where the axis has one grain, and splits it where it has more (R150). -/
theorem execSplit_of_holdsBox {x : Args} {s : State} {b : BoxView} (h : holdsBox s x b) (hrank : (axisOf x).val ≤ b.r.rankM1)
    (hjoin : s.leaf.inJoin = false) (hwalk : b.r.walk = false) :
    execSplit x s = finish (if b.grains (axisOf x) ≤ 1 then fail .boxUnsplit else splitNow b (axisOf x) false) s := by
  rw [execSplit, boxStep_of_holdsBox h]
  simp [Nat.not_lt.mpr hrank, hjoin, hwalk]

/-- `split` of a box of one grain on the axis traps with BOX_UNSPLIT, in the state it was issued in (R150). -/
theorem execSplit_boxUnsplit {x : Args} {s : State} {b : BoxView} (h : holdsBox s x b) (hrank : (axisOf x).val ≤ b.r.rankM1)
    (hjoin : s.leaf.inJoin = false) (hwalk : b.r.walk = false) (hone : b.grains (axisOf x) ≤ 1) :
    execSplit x s = .next (s.takeTrap { cause := .boxUnsplit }).settle := by
  rw [execSplit_of_holdsBox h hrank hjoin hwalk, if_pos hone]
  obtain ⟨hon, -, -⟩ := h
  exact finish_trap hon (fail_run .boxUnsplit 0 s)

/-- Settles O29: the cut lies after the power of two that `largestPow2Below` gives, and a single grain fails the last check of `split`. -/
theorem canonicalMidpoint : Obligations.CanonicalMidpoint := by
  unfold Obligations.CanonicalMidpoint
  constructor
  · intro lo hi g hg h
    exact canonicalMid_spec hg h
  · intro x s b h hrank hjoin hwalk hone
    exact execSplit_boxUnsplit h hrank hjoin hwalk hone

end Sys2Proof.Machine
end

section
/-! PROOFS. What a step on one element that writes an s-register or bit 0 of a predicate changes and leaves (R41, R91, R115, R116). -/

namespace Sys2Proof.Machine

/-- Setting the executing agent's registers leaves everything else, every memory included. -/
theorem onlyLeaf_setLeaf (s : State) (L : Leaf) : onlyLeaf s (s.setLeaf L) := by
  simp [onlyLeaf, sameBytes]

/-- Writing a predicate leaves the taint of the others. -/
theorem Leaf.taintP_writeP_other (L : Leaf) {n m : Fin 8} (y t : PWord) (h : m ≠ n) : (L.writeP n y t).taintP m = L.taintP m := by
  have hv : n.val ≠ m.val := fun e => h (Fin.ext e.symm)
  unfold Leaf.writeP Leaf.taintP
  split
  · rfl
  · split
    · rfl
    · simp [hv]

/-- The taint of a predicate reads back as written. -/
theorem Leaf.taintP_writeP_self (L : Leaf) {n : Fin 8} (y t : PWord) (h : n ≠ 0) : (L.writeP n y t).taintP n = t := by
  simp [Leaf.writeP, Leaf.taintP, h]

/-- Of a leaf that raises flags, writes an s-register and advances, only that register, the flags and the PC differ. -/
theorem sFrame_writeS (L : Leaf) (d : Fin 64) (v : Quad) (t : Bool) (r : Flags) :
    sFrame L ((L.raise r).writeS d v t).advance d r := by
  refine ⟨?_, fun n hn => ⟨?_, ?_⟩⟩
  · unfold Leaf.writeS
    split <;> rfl
  · exact Leaf.readS_writeS_other (L.raise r) v t hn
  · exact Leaf.taintS_writeS_other (L.raise r) v t hn

/-- Of a leaf that raises flags, writes a predicate and advances, only that predicate, the flags and the PC differ. -/
theorem pFrame_writeP (L : Leaf) (d : Fin 8) (y t : PWord) (r : Flags) :
    pFrame L ((L.raise r).writeP d y t).advance d r := by
  refine ⟨?_, fun n hn => ⟨?_, ?_⟩⟩
  · unfold Leaf.writeP
    split <;> rfl
  · exact Leaf.readP_writeP_other (L.raise r) y t hn
  · exact Leaf.taintP_writeP_other (L.raise r) y t hn

/-- An active step that raises flags and writes its result to the s-register D does just that (R115, R116). -/
theorem scalarStep_putsS {x : Args} {s : State} {f : State → Leaf → Leaf} {v : Quad} {t : Bool} {r : Flags} (hon : s.on)
    (hact : s.leaf.active x.guard = true) (hf : f s s.leaf = (s.leaf.raise r).putS x v t) :
    ∃ u, scalarStep x f s = .next u ∧ putsS s u x v t r := by
  refine ⟨_, scalarStep_active f hon hact, onlyLeaf_setLeaf s _, ?_⟩
  rw [hf, State.leaf_setLeaf]
  refine ⟨sFrame_writeS s.leaf _ v _ r, fun hd => ⟨?_, ?_⟩, fun _ => ⟨rfl, rfl⟩⟩
  · exact Leaf.readS_writeS_self (s.leaf.raise r) v _ hd
  · exact Leaf.taintS_writeS_self (s.leaf.raise r) v _ hd

/-- An active step that raises flags and writes bit 0 of the predicate D does just that (R41, R116). -/
theorem scalarStep_putsBit {x : Args} {s : State} {f : State → Leaf → Leaf} {b t : Bool} {r : Flags} (hon : s.on)
    (hact : s.leaf.active x.guard = true) (hf : f s s.leaf = (s.leaf.raise r).putBit x b t) :
    ∃ u, scalarStep x f s = .next u ∧ putsBit s u x b t r := by
  refine ⟨_, scalarStep_active f hon hact, onlyLeaf_setLeaf s _, ?_⟩
  rw [hf, State.leaf_setLeaf]
  refine ⟨pFrame_writeP s.leaf _ _ _ r, fun hd => ⟨?_, ?_⟩, fun _ => ⟨rfl, rfl⟩⟩
  · exact Leaf.readP_writeP_self (s.leaf.raise r) _ _ hd
  · exact Leaf.taintP_writeP_self (s.leaf.raise r) _ _ hd

/-- Raising no flag changes nothing. -/
@[simp] theorem Leaf.raise_zero (L : Leaf) : L.raise 0 = L := by
  simp [Leaf.raise]

end Sys2Proof.Machine
end

section
/-! PROOFS. Division (R120), the integer comparison (R124) and the return from a trap (R140). -/

namespace Sys2Proof.Machine

/-! ## `div` and `rem` -/

/-- An instruction on two typed integers writes the pattern and raises the flags of its operation (R114, R115, R117). -/
theorem scalarStep_putInt {x : Args} {s : State} (hon : s.on) (hact : s.leaf.active x.guard = true)
    (f : Nat → Bool → Int → Int → Nat × Flags) :
    let a := srcOf x s false x.a
    let b := srcOf x s false x.b
    let r := f (etyBits x.ety) (etySigned x.ety) (etyVal x.ety a.1) (etyVal x.ety b.1)
    ∃ t, scalarStep x (fun s L => putInt x s L f) s = .next t ∧ putsS s t x (etyExt x.ety r.1) (a.2 || b.2) r.2 :=
  scalarStep_putsS hon hact rfl

/-- The pattern 0 is written as 0, whatever the type. -/
theorem etyExt_zero (t : Ety) : etyExt t 0 = 0 := by
  cases t <;> rfl

/-- The quotient pattern by the three cases of DivRem (R120): by zero, the overflowing quotient, every other. -/
theorem divInt_fst (k : Nat) (sg : Bool) (a b : Int) : (divInt k sg a b).1 =
    if b = 0 then 2 ^ k - 1 else if sg && a == -(2 ^ (k - 1)) && b == -1 then (a % 2 ^ k).toNat
    else (Int.tdiv a b % 2 ^ k).toNat := by
  simp only [divInt, narrow, apply_ite Prod.fst]

/-- `div` raises DZ by zero and OF for the overflowing quotient (R120). -/
theorem divInt_snd (k : Nat) (sg : Bool) (a b : Int) : (divInt k sg a b).2 =
    if b = 0 then flagDZ else if sg && a == -(2 ^ (k - 1)) && b == -1 then flagOF else 0 := by
  simp only [divInt, apply_ite Prod.snd]

/-- The remainder pattern by the three cases of DivRem (R120). -/
theorem remInt_fst (k : Nat) (sg : Bool) (a b : Int) : (remInt k sg a b).1 =
    if b = 0 then (a % 2 ^ k).toNat else if sg && a == -(2 ^ (k - 1)) && b == -1 then 0
    else (Int.tmod a b % 2 ^ k).toNat := by
  simp only [remInt, narrow, apply_ite Prod.fst]

/-- `rem` raises DZ by zero and nothing else (R120). -/
theorem remInt_snd (k : Nat) (sg : Bool) (a b : Int) : (remInt k sg a b).2 = if b = 0 then flagDZ else 0 := by
  simp only [remInt, apply_ite Prod.snd, ite_self]

/-- Settles O10: both instructions write the pattern of their case of DivRem, extended by the type. -/
theorem divideAndRemainder : Obligations.DivideAndRemainder := by
  unfold Obligations.DivideAndRemainder
  intro x s hon hact a b k va vb wraps
  constructor
  · have h := scalarStep_putInt hon hact divInt
    simp only [divInt_fst, divInt_snd, apply_ite (etyExt x.ety)] at h
    exact h
  · have h := scalarStep_putInt hon hact remInt
    simp only [remInt_fst, remInt_snd, apply_ite (etyExt x.ety), etyExt_zero] at h
    exact h

/-! ## `cmp` -/

/-- An active `cmp` writes the comparison of the typed sources to bit 0 of pD and raises no flag (R124). -/
theorem execCmp_putsBit {x : Args} {s : State} (hon : s.on) (hact : s.leaf.active x.guard = true) (c : Cond) :
    let a := srcOf x s false x.a
    let b := srcOf x s false x.b
    ∃ t, execCmp c x s = .next t ∧ putsBit s t x (intCompare c (etyVal x.ety a.1) (etyVal x.ety b.1)) (a.2 || b.2) 0 := by
  unfold execCmp
  exact scalarStep_putsBit hon hact (by rw [Leaf.raise_zero])

/-- Settles O15: the six conditions of `intCompare` are the comparisons of the values. -/
theorem integerCompare : Obligations.IntegerCompare := by
  unfold Obligations.IntegerCompare
  intro x s hon hact a b va vb p hp
  have hcmp : intCompare p.1 va vb = p.2 := by
    simp only [List.mem_cons, List.not_mem_nil, or_false] at hp
    obtain rfl | rfl | rfl | rfl | rfl | rfl := hp <;> rfl
  rw [← hcmp]
  exact execCmp_putsBit hon hact p.1

/-! ## `eret` -/

/-- `eret` at supervisor level restores the PC and the level of the control core (R140). -/
theorem execEret_at_supervisor {x : Args} {s : State} {d : Nat} (hon : s.on) (hcur : s.cur = .dcc d)
    (hsv : (s.die d).dcc.sv = true) (hact : s.leaf.active x.guard = true) :
    execEret x s = .next (s.setDcc d (s.die d).dcc.eret).settle := by
  simp only [execEret, privStep, hcur, hsv, if_true]
  rw [guardedStep_active _ hact]
  exact finish_ok hon (upd_run _ s)

/-- A fetch at a PC that is not a multiple of 16 faults PC_ALIGN before anything else (R88, R89). -/
theorem fetchWord_pcAlign {s : State} (h : s.leaf.pc.toNat % 16 ≠ 0) :
    fetchWord s = .error (.trap { cause := .pcAlign, addr := s.leaf.pc.toNat }) s := by
  simp [fetchWord, h]

/-- Settles O22: `eret` is one update of the control core, whose PC the next fetch then reads. -/
theorem returnFromTrap : Obligations.ReturnFromTrap := by
  unfold Obligations.ReturnFromTrap
  intro x s d hon hcur hsv hact c t
  refine ⟨execEret_at_supervisor hon hcur hsv hact, fun halign => ?_⟩
  have hpc : t.leaf.pc = c.epc := by
    rw [State.leaf_of_dcc (s := t) hcur, State.die_setDcc_self]
  rw [← hpc] at halign ⊢
  exact fetchWord_pcAlign halign

end Sys2Proof.Machine
end

section
/-! PROOFS. `fcmp` (R128): the order of f32 patterns is the order of the values they stand for. -/

namespace Sys2Proof.Machine

/-! ## Magnitudes in units of the least subnormal -/

/-- The value of the magnitude bits m of an f32, in units of 2^-149; at the bits of the infinity it is what the next binade would begin with. -/
def f32Units (m : Nat) : Nat := if m < 2 ^ 23 then m else (2 ^ 23 + m % 2 ^ 23) * 2 ^ (m / 2 ^ 23 - 1)

/-- Below the first normal pattern the magnitude bits are the value. -/
theorem f32Units_of_lt {m : Nat} (h : m < 2 ^ 23) : f32Units m = m := if_pos h

/-- From the first normal pattern on the value has the hidden bit and the power of its exponent field. -/
theorem f32Units_of_le {m : Nat} (h : 2 ^ 23 ≤ m) : f32Units m = (2 ^ 23 + m % 2 ^ 23) * 2 ^ (m / 2 ^ 23 - 1) :=
  if_neg (Nat.not_lt.mpr h)

/-- The next magnitude bits stand for a greater value: within a binade by the fraction, over its end by the exponent. -/
theorem f32Units_lt_succ (m : Nat) : f32Units m < f32Units (m + 1) := by
  obtain hlt | rfl | hle : m + 1 < 2 ^ 23 ∨ m = 2 ^ 23 - 1 ∨ 2 ^ 23 ≤ m := by omega
  · rw [f32Units_of_lt hlt, f32Units_of_lt (by omega)]
    exact Nat.lt_succ_self m
  · decide
  · rw [f32Units_of_le hle, f32Units_of_le (by omega)]
    have hpos := Nat.two_pow_pos (m / 2 ^ 23 - 1)
    by_cases hend : m % 2 ^ 23 = 2 ^ 23 - 1
    · have hmod : (m + 1) % 2 ^ 23 = 0 := by omega
      have hdiv : (m + 1) / 2 ^ 23 - 1 = (m / 2 ^ 23 - 1) + 1 := by omega
      rw [hmod, hdiv, hend, Nat.pow_succ (m := m / 2 ^ 23 - 1)]
      generalize 2 ^ (m / 2 ^ 23 - 1) = p at hpos ⊢
      omega
    · have hmod : (m + 1) % 2 ^ 23 = m % 2 ^ 23 + 1 := by omega
      have hdiv : (m + 1) / 2 ^ 23 = m / 2 ^ 23 := by omega
      rw [hmod, hdiv]
      exact Nat.mul_lt_mul_of_pos_right (by omega) hpos

/-- Greater magnitude bits stand for a greater value. -/
theorem f32Units_lt {m n : Nat} (h : m < n) : f32Units m < f32Units n := by
  induction h with
  | refl => exact f32Units_lt_succ m
  | step _ ih => exact Nat.lt_trans ih (f32Units_lt_succ _)

/-- A number with a sign. -/
def withSign (neg : Bool) (m : Nat) : Int := if neg then -(m : Int) else m

/-- A number with a sign, times a natural number. -/
theorem withSign_mul (neg : Bool) (m p : Nat) : withSign neg m * (p : Int) = withSign neg (m * p) := by
  cases neg with
  | false => exact (Int.natCast_mul m p).symm
  | true => exact (Int.neg_mul m p).trans (congrArg Neg.neg (Int.natCast_mul m p).symm)

/-- `f32Units` continued to the places of negative patterns. -/
def keyUnits (z : Int) : Int := withSign (decide (z < 0)) (f32Units z.natAbs)

/-- The value of a place with a sign. -/
theorem keyUnits_withSign (neg : Bool) (m : Nat) : keyUnits (withSign neg m) = withSign neg (f32Units m) := by
  cases neg with
  | false => rfl
  | true =>
    cases m with
    | zero => rfl
    | succ m =>
      have hneg : -((m + 1 : Nat) : Int) < 0 := by omega
      show withSign (decide (-((m + 1 : Nat) : Int) < 0)) _ = _
      rw [decide_eq_true hneg]
      rfl

/-- A greater place stands for a greater value. -/
theorem keyUnits_lt {a b : Int} (h : a < b) : keyUnits a < keyUnits b := by
  unfold keyUnits withSign
  by_cases ha : a < 0
  · have hpos : f32Units 0 < f32Units a.natAbs := f32Units_lt (by omega)
    by_cases hb : b < 0
    · have hlt : f32Units b.natAbs < f32Units a.natAbs := f32Units_lt (by omega)
      rw [decide_eq_true ha, decide_eq_true hb, if_pos rfl, if_pos rfl]
      omega
    · rw [decide_eq_true ha, decide_eq_false hb, if_pos rfl, if_neg Bool.false_ne_true]
      omega
  · have hlt : f32Units a.natAbs < f32Units b.natAbs := f32Units_lt (by omega)
    have hb : ¬ b < 0 := by omega
    rw [decide_eq_false ha, decide_eq_false hb, if_neg Bool.false_ne_true, if_neg Bool.false_ne_true]
    omega

/-- Places are in the order of the values they stand for. -/
theorem keyUnits_lt_iff (a b : Int) : keyUnits a < keyUnits b ↔ a < b := by
  refine ⟨fun h => ?_, keyUnits_lt⟩
  obtain hlt | rfl | hgt := Int.lt_trichotomy a b
  · exact hlt
  · exact absurd h (Int.lt_irrefl _)
  · exact absurd h (Int.lt_asymm (keyUnits_lt hgt))

/-! ## The order of decoded values -/

/-- A decoded f32 in units of 2^-149, the infinities past the finite values. -/
def fvUnits : Fv → Int
  | .nan _ => 0
  | .inf n => withSign n (f32Units 0x7F800000)
  | .fin n m e => withSign n (m * 2 ^ (e + 149).toNat)

/-- A value that f32 has: no NaN, and if finite a multiple of 2^-149 below the infinity. -/
def IsF32 : Fv → Prop
  | .nan _ => False
  | .inf _ => True
  | .fin _ m e => -149 ≤ e ∧ m * 2 ^ (e + 149).toNat < f32Units 0x7F800000

/-- The order of two integers as -1, 0 or 1. -/
def intOrder (a b : Int) : Int := if a < b then -1 else if b < a then 1 else 0

/-- The order is -1 just where the first is less. -/
theorem intOrder_eq_neg_one (a b : Int) : intOrder a b = -1 ↔ a < b := by
  unfold intOrder
  split
  · omega
  · split <;> omega

/-- The order is 1 just where the second is less. -/
theorem intOrder_eq_one (a b : Int) : intOrder a b = 1 ↔ b < a := by
  unfold intOrder
  split
  · omega
  · split <;> omega

/-- The order is 0 just where the two are equal. -/
theorem intOrder_eq_zero (a b : Int) : intOrder a b = 0 ↔ a = b := by
  unfold intOrder
  split
  · omega
  · split <;> omega

/-- A common positive factor leaves the order. -/
theorem intOrder_mul_right (a b : Int) {p : Int} (hp : 0 < p) : intOrder (a * p) (b * p) = intOrder a b := by
  simp only [intOrder, Int.mul_lt_mul_right hp]

/-- A finite value aligned to an exponent e0 is its units divided by a power of two that depends on e0 alone. -/
theorem withSign_shiftLeft_mul {e e0 : Int} (h0 : -149 ≤ e0) (h : e0 ≤ e) (neg : Bool) (m : Nat) :
    withSign neg (m <<< (e - e0).toNat) * (2 ^ (e0 + 149).toNat : Nat) = withSign neg (m * 2 ^ (e + 149).toNat) := by
  have hexp : (e - e0).toNat + (e0 + 149).toNat = (e + 149).toNat := by omega
  rw [withSign_mul, Nat.shiftLeft_eq, Nat.mul_assoc, ← Nat.pow_add, hexp]

/-- The order of a number against a smaller magnitude is by its sign. -/
theorem intOrder_withSign_of_lt {u top : Nat} (h : u < top) (a n : Bool) :
    intOrder (withSign a top) (withSign n u) = (if a then -1 else 1)
      ∧ intOrder (withSign n u) (withSign a top) = if a then 1 else -1 := by
  cases a <;> cases n <;> simp [intOrder, withSign] <;> omega

/-- Two numbers of one magnitude are ordered by their signs. -/
theorem intOrder_withSign_self {top : Nat} (h : 0 < top) (a b : Bool) :
    intOrder (withSign a top) (withSign b top) = if a = b then 0 else if a then -1 else 1 := by
  cases a <;> cases b <;> simp [intOrder, withSign] <;> omega

/-- The model orders values of f32 as their units are ordered. -/
theorem fcmpVal_eq_intOrder {v w : Fv} (hv : IsF32 v) (hw : IsF32 w) : fcmpVal v w = intOrder (fvUnits v) (fvUnits w) := by
  match v, w, hv, hw with
  | .inf a, .inf b, _, _ =>
    exact (intOrder_withSign_self (f32Units_lt (show 0 < 0x7F800000 by decide)) a b).symm
  | .inf a, .fin n m e, _, ⟨_, hlt⟩ => exact (intOrder_withSign_of_lt hlt a n).1.symm
  | .fin n m e, .inf b, ⟨_, hlt⟩, _ => exact (intOrder_withSign_of_lt hlt b n).2.symm
  | .fin n1 m1 e1, .fin n2 m2 e2, ⟨h1, _⟩, ⟨h2, _⟩ =>
    have h0 : -149 ≤ min e1 e2 := by omega
    have hp : (0 : Int) < (2 ^ (min e1 e2 + 149).toNat : Nat) := Int.natCast_pos.mpr (Nat.two_pow_pos _)
    show intOrder (withSign n1 _) (withSign n2 _) = _
    rw [← intOrder_mul_right _ _ hp, withSign_shiftLeft_mul h0 (Int.min_le_left e1 e2),
      withSign_shiftLeft_mul h0 (Int.min_le_right e1 e2)]
    rfl

/-! ## The fields of an f32 pattern -/

/-- A field within the low n bits does not read past them. -/
theorem field_mod_two_pow (y : Nat) {lo k n : Nat} (h : lo + k ≤ n) : field (y % 2 ^ n) lo k = field y lo k := by
  refine Nat.eq_of_testBit_eq fun i => ?_
  simp only [field, Nat.testBit_mod_two_pow, Nat.testBit_shiftRight]
  by_cases hi : i < k
  · simp [hi, show lo + i < n by omega]
  · simp [hi]

/-- A field of one bit is that bit. -/
theorem field_one_beq (y lo : Nat) : (field y lo 1 == 1) = y.testBit lo := by
  rw [Nat.testBit_eq_decide_div_mod_eq, field, Nat.shiftRight_eq_div_pow]
  rfl

/-- The exponent field of an f32 is the high part of its magnitude bits. -/
theorem field_exponent (y : Nat) : field y 23 8 = field y 0 31 / 2 ^ 23 := by
  simp only [field, Nat.shiftRight_eq_div_pow]
  omega

/-- The fraction of an f32 is the low part of its magnitude bits. -/
theorem field_fraction (y : Nat) : field y 0 23 = field y 0 31 % 2 ^ 23 := by
  simp only [field, Nat.shiftRight_eq_div_pow]
  omega

/-- A pattern is a NaN when its magnitude bits are above those of the infinity. -/
theorem isNaN32_eq (y : Nat) : isNaN32 y = decide (0x7F800000 < field y 0 31) := by
  have hm : field y 0 31 < 2 ^ 31 := Nat.mod_lt _ (by decide)
  rw [isNaN32, field_exponent, field_fraction, ← Bool.decide_and, decide_eq_decide]
  omega

/-- The place of a pattern by its sign and magnitude bits. -/
theorem orderKey32_eq (ftz : Bool) (y : Nat) :
    orderKey32 ftz y = withSign (y.testBit 31) (if ftz && field y 0 31 < 2 ^ 23 then 0 else field y 0 31) := rfl

/-- Whether a pattern is a NaN depends on its low 32 bits. -/
@[simp] theorem isNaN32_mod (y : Nat) : isNaN32 (y % 2 ^ 32) = isNaN32 y := by
  simp only [isNaN32, field_mod_two_pow y (show 23 + 8 ≤ 32 by decide), field_mod_two_pow y (show 0 + 23 ≤ 32 by decide)]

/-- Whether a pattern is a signalling NaN depends on its low 32 bits. -/
@[simp] theorem isSNaN32_mod (y : Nat) : isSNaN32 (y % 2 ^ 32) = isSNaN32 y := by
  rw [isSNaN32, isSNaN32, isNaN32_mod, Nat.testBit_mod_two_pow]
  simp

/-- The place of a pattern depends on its low 32 bits. -/
@[simp] theorem orderKey32_mod (ftz : Bool) (y : Nat) : orderKey32 ftz (y % 2 ^ 32) = orderKey32 ftz y := by
  simp only [orderKey32_eq, field_mod_two_pow y (show 0 + 31 ≤ 32 by decide), Nat.testBit_mod_two_pow]
  simp

/-! ## Decoding an f32 -/

/-- Decoding of an f32 pattern by its fields (R55, R56). -/
theorem fdecode_f32 (y : Nat) : fdecode fmtF32 y =
    if field y 23 8 = 0xFF then
      if field y 0 23 = 0 then .inf (y.testBit 31) else .nan (!(field y 0 23).testBit 22)
    else if field y 23 8 = 0 then .fin (y.testBit 31) (field y 0 23) (-149)
    else .fin (y.testBit 31) (2 ^ 23 + field y 0 23) ((field y 23 8 : Int) - 127 - 23) := by
  rw [← field_one_beq]
  by_cases he : field y 23 8 = 0xFF <;> simp [fdecode, fmtF32, he] <;> rfl

/-- Flushing leaves the values of patterns that are not subnormal. -/
theorem fdecodeFtz_of_not_subnormal {ftz : Bool} {y : Nat} (h : (ftz && isSubnormal fmtF32 y) = false) :
    fdecodeFtz fmtF32 ftz y = fdecode fmtF32 y := by
  simp [fdecodeFtz, h]

/-- A subnormal pattern is flushed to a zero of its sign. -/
theorem fdecodeFtz_of_subnormal {y : Nat} (h : isSubnormal fmtF32 y = true) :
    fdecodeFtz fmtF32 true y = .fin (y.testBit 31) 0 0 := by
  rw [← field_one_beq, fdecodeFtz, h]
  rfl

/-- A pattern is subnormal where its magnitude bits lie between zero and the first normal pattern. -/
theorem isSubnormal_f32 (y : Nat) : isSubnormal fmtF32 y = decide (0 < field y 0 31 ∧ field y 0 31 < 2 ^ 23) := by
  have h : isSubnormal fmtF32 y = (decide (field y 23 8 = 0) && decide (field y 0 23 ≠ 0)) := rfl
  rw [h, field_exponent, field_fraction, ← Bool.decide_and, decide_eq_decide]
  omega

/-- A NaN pattern is decoded as a NaN, signalling by its quiet bit, with or without flushing. -/
theorem fdecodeFtz_of_isNaN32 (ftz : Bool) {y : Nat} (h : isNaN32 y = true) :
    fdecodeFtz fmtF32 ftz y = .nan (isSNaN32 y) := by
  have hm := h
  rw [isNaN32_eq, decide_eq_true_eq] at hm
  have hnorm : isSubnormal fmtF32 y = false := by rw [isSubnormal_f32, decide_eq_false_iff_not]; omega
  have hquiet : (field y 0 23).testBit 22 = y.testBit 22 := by
    rw [field, Nat.shiftRight_zero, Nat.testBit_mod_two_pow]
    rfl
  have ⟨he, hf⟩ : field y 23 8 = 0xFF ∧ field y 0 23 ≠ 0 := by simpa [isNaN32] using h
  rw [fdecodeFtz_of_not_subnormal (by simp [hnorm]), fdecode_f32, if_pos he, if_neg hf, hquiet, isSNaN32, h, Bool.true_and]

/-- A finite value whose units are those of finite magnitude bits is one that f32 has. -/
theorem isF32_fin {n : Bool} {m b : Nat} {e : Int} (he : -149 ≤ e) (hb : b < 0x7F800000)
    (hunits : m * 2 ^ (e + 149).toNat = f32Units b) :
    IsF32 (.fin n m e) ∧ fvUnits (.fin n m e) = withSign n (f32Units b) :=
  ⟨⟨he, hunits ▸ f32Units_lt hb⟩, congrArg (withSign n) hunits⟩

/-- Any other pattern is decoded, without flushing, to the value of its magnitude bits. -/
theorem fdecode_units {y : Nat} (h : isNaN32 y = false) :
    IsF32 (fdecode fmtF32 y) ∧ fvUnits (fdecode fmtF32 y) = withSign (y.testBit 31) (f32Units (field y 0 31)) := by
  rw [isNaN32_eq, decide_eq_false_iff_not, Nat.not_lt] at h
  rw [fdecode_f32, field_exponent, field_fraction]
  generalize field y 0 31 = m at h
  generalize y.testBit 31 = n
  obtain rfl | hlt | hle : m = 0x7F800000 ∨ m < 2 ^ 23 ∨ 2 ^ 23 ≤ m ∧ m < 0x7F800000 := by omega
  · exact ⟨trivial, rfl⟩
  · rw [if_neg (by omega), if_pos (by omega)]
    refine isF32_fin (Int.le_refl _) (by omega) ?_
    rw [f32Units_of_lt hlt, Nat.mod_eq_of_lt hlt]
    exact Nat.mul_one m
  · rw [if_neg (by omega), if_neg (by omega)]
    have hexp : ((m / 2 ^ 23 : Nat) - 127 - 23 + 149 : Int).toNat = m / 2 ^ 23 - 1 := by omega
    refine isF32_fin (by omega) hle.2 ?_
    rw [f32Units_of_le hle.1, hexp]

/-- A pattern that is no NaN is decoded to the value of its place in the order, flushed or not. -/
theorem fdecodeFtz_units (ftz : Bool) {y : Nat} (h : isNaN32 y = false) :
    IsF32 (fdecodeFtz fmtF32 ftz y) ∧ fvUnits (fdecodeFtz fmtF32 ftz y) = keyUnits (orderKey32 ftz y) := by
  rw [orderKey32_eq, keyUnits_withSign]
  cases hflush : ftz && isSubnormal fmtF32 y with
  | true =>
    obtain ⟨rfl, hsub⟩ := Bool.and_eq_true_iff.mp hflush
    have hlt := hsub
    rw [isSubnormal_f32, decide_eq_true_eq] at hlt
    rw [fdecodeFtz_of_subnormal hsub, Bool.true_and, decide_eq_true hlt.2, if_pos rfl]
    exact isF32_fin (by decide) (by decide) rfl
  | false =>
    have hkey : (if ftz && field y 0 31 < 2 ^ 23 then 0 else field y 0 31) = field y 0 31 := by
      by_cases hc : (ftz && field y 0 31 < 2 ^ 23) = true
      · rw [if_pos hc]
        obtain ⟨rfl, hlt⟩ := Bool.and_eq_true_iff.mp hc
        rw [Bool.true_and, isSubnormal_f32, decide_eq_false_iff_not] at hflush
        have := of_decide_eq_true hlt
        omega
      · exact if_neg hc
    rw [fdecodeFtz_of_not_subnormal hflush, hkey]
    exact fdecode_units h

/-! ## Table 4-5 -/

/-- A value that f32 has is no NaN. -/
theorem isNaN_of_isF32 {v : Fv} (h : IsF32 v) : v.isNaN = false := by
  cases v with
  | nan => exact h.elim
  | inf | fin => rfl

/-- A value that f32 has raises nothing as an operand. -/
theorem sigFlag_of_isF32 {v : Fv} (h : IsF32 v) : sigFlag v = 0 := by
  cases v with
  | nan => exact h.elim
  | inf | fin => rfl

/-- Only a NaN pattern is decoded as a NaN. -/
theorem isNaN_fdecodeFtz (ftz : Bool) (y : Nat) : (fdecodeFtz fmtF32 ftz y).isNaN = isNaN32 y := by
  cases h : isNaN32 y with
  | true => rw [fdecodeFtz_of_isNaN32 ftz h]; rfl
  | false => exact isNaN_of_isF32 (fdecodeFtz_units ftz h).1

/-- Only a signalling NaN pattern raises IV as an operand. -/
theorem sigFlag_fdecodeFtz (ftz : Bool) (y : Nat) :
    sigFlag (fdecodeFtz fmtF32 ftz y) = if isSNaN32 y then flagIV else 0 := by
  cases h : isNaN32 y with
  | true =>
    rw [fdecodeFtz_of_isNaN32 ftz h]
    cases isSNaN32 y <;> rfl
  | false =>
    rw [sigFlag_of_isF32 (fdecodeFtz_units ftz h).1, isSNaN32, h]
    rfl

/-- Places compare as the values they stand for. -/
theorem intCompare_keyUnits (c : Cond) (a b : Int) : intCompare c (keyUnits a) (keyUnits b) = intCompare c a b := by
  have hlt := keyUnits_lt_iff a b
  have hgt := keyUnits_lt_iff b a
  cases c with
  | unord => rfl
  | eq | ne | lt | le | gt | ge =>
    simp only [intCompare, decide_eq_decide]
    omega

/-- With no NaN, `fcompare` compares the values and raises nothing (Table 4-5). -/
theorem fcompare_of_isF32 (c : Cond) {v w : Fv} (hv : IsF32 v) (hw : IsF32 w) :
    fcompare c v w = (intCompare c (fvUnits v) (fvUnits w), 0) := by
  have hlt := intOrder_eq_neg_one (fvUnits v) (fvUnits w)
  have heq := intOrder_eq_zero (fvUnits v) (fvUnits w)
  have hgt := intOrder_eq_one (fvUnits v) (fvUnits w)
  simp only [fcompare, isNaN_of_isF32 hv, isNaN_of_isF32 hw, sigFlag_of_isF32 hv, sigFlag_of_isF32 hw, fcmpVal_eq_intOrder hv hw]
  refine Prod.ext (Bool.eq_iff_iff.mpr ?_) ?_
  · cases c with
    | unord => exact Iff.rfl
    | eq | ne | lt | le | gt | ge =>
      simp only [intCompare, Bool.or_false, Bool.false_or, Bool.not_false, Bool.true_and, beq_iff_eq, bne_iff_ne, ne_eq,
        decide_eq_true_eq]
      omega
  · cases c <;> rfl

/-- The relations of order, which raise IV for a quiet NaN too (R128). -/
def isOrder (c : Cond) : Bool := c = .lt || c = .le || c = .gt || c = .ge

/-- With a NaN only `.ne` and `.unord` hold, and a relation of order raises IV (Table 4-5, R128). -/
theorem fcompare_of_isNaN (c : Cond) {v w : Fv} (h : (v.isNaN || w.isNaN) = true) :
    fcompare c v w = (c = .ne || c = .unord, sigFlag v ||| sigFlag w ||| if isOrder c then flagIV else 0) := by
  cases c <;> simp [fcompare, h, isOrder]

/-- IV raised for two reasons is IV raised for either. -/
theorem ite_flagIV_or (p q : Bool) :
    ((if p then flagIV else 0) ||| (if q then flagIV else 0)) = if p || q then flagIV else (0 : Flags) := by
  cases p <;> cases q <;> rfl

/-- Patterns of which one is a NaN compare as Table 4-5 and R128 say. -/
theorem fcompare_of_isNaN32 (c : Cond) (ftz : Bool) {y z : Nat} (h : (isNaN32 y || isNaN32 z) = true) :
    fcompare c (fdecodeFtz fmtF32 ftz y) (fdecodeFtz fmtF32 ftz z) =
      (c = .ne || c = .unord, if isSNaN32 y || isSNaN32 z || isOrder c then flagIV else 0) := by
  rw [fcompare_of_isNaN c (by rwa [isNaN_fdecodeFtz, isNaN_fdecodeFtz]), sigFlag_fdecodeFtz, sigFlag_fdecodeFtz,
    ite_flagIV_or, ite_flagIV_or]

/-- Patterns that are no NaN compare as their places do, and raise nothing. -/
theorem fcompare_of_not_isNaN32 (c : Cond) (ftz : Bool) {y z : Nat} (hy : isNaN32 y = false) (hz : isNaN32 z = false) :
    fcompare c (fdecodeFtz fmtF32 ftz y) (fdecodeFtz fmtF32 ftz z) =
      (intCompare c (orderKey32 ftz y) (orderKey32 ftz z), 0) := by
  obtain ⟨hyF, hyU⟩ := fdecodeFtz_units ftz hy
  obtain ⟨hzF, hzU⟩ := fdecodeFtz_units ftz hz
  rw [fcompare_of_isF32 c hyF hzF, hyU, hzU, intCompare_keyUnits]

/-- An active `fcmp` writes the comparison of the decoded low halves to bit 0 of pD and raises its flags (R125, R128). -/
theorem execFcmp_putsBit {x : Args} {s : State} (hon : s.on) (hact : s.leaf.active x.guard = true) (c : Cond) :
    let a := srcOf x s true x.a
    let b := srcOf x s true x.b
    let r := fcompare c (fdecodeFtz fmtF32 (modFtz x) (a.1 % 2 ^ 32)) (fdecodeFtz fmtF32 (modFtz x) (b.1 % 2 ^ 32))
    ∃ t, execFcmp c x s = .next t ∧ putsBit s t x r.1 (a.2 || b.2) r.2 := by
  unfold execFcmp
  exact scalarStep_putsBit hon hact rfl

/-- Settles O18: with a NaN by Table 4-5, else by the places of the patterns, whose order is that of the decoded values. -/
theorem floatCompare : Obligations.FloatCompare := by
  unfold Obligations.FloatCompare
  intro x s c hon hact a b ka kb order
  obtain ⟨t, hexec, hputs⟩ := execFcmp_putsBit hon hact c
  refine ⟨t, hexec, ?_⟩
  by_cases hnan : (isNaN32 a.1 || isNaN32 b.1) = true
  · rw [if_pos hnan]
    rw [fcompare_of_isNaN32 c _ (by rwa [isNaN32_mod, isNaN32_mod]), isSNaN32_mod, isSNaN32_mod] at hputs
    exact hputs
  · rw [if_neg hnan]
    obtain ⟨ha, hb⟩ := Bool.or_eq_false_iff.mp ((Bool.not_eq_true _).mp hnan)
    rw [fcompare_of_not_isNaN32 c _ (by rwa [isNaN32_mod]) (by rwa [isNaN32_mod]), orderKey32_mod, orderKey32_mod] at hputs
    cases c <;> exact hputs

end Sys2Proof.Machine
end
